-- ==== Sys2Proof/Word.lean ====
section
/-! DEFINITION. The word types of HUFFCORE (00_scope.md R7: every quantity is unsigned) and bit strings (R8). -/

namespace Sys2Proof

/-- A 32-bit register or command word (10_state.md section 2). -/
abbrev Word := BitVec 32

/-- One byte of the input or of the decoder's output. -/
abbrev Byte := BitVec 8

/-- A symbol id, `SYM_W` = 9 bits (R5): 0..255 a byte value, 256 the sentinel. -/
abbrev Sym := BitVec 9

/-- A node index, `IDX_W` = 10 bits (R5). -/
abbrev Idx := BitVec 10

/-- A bit string in transmission order, first bit first (R8). -/
abbrev Bits := List Bool

end Sys2Proof
end

