-- ==== Sys2Proof/Config.lean ====
section
/-! DEFINITION. The parameters of 00_scope.md R5: what this hardware fixes, what the spec leaves OPEN
(opaque: every statement holds for every value), and the free values of 93_implementation_defined.md. -/

namespace Sys2Proof

/-- The tie policy of the priority selector (R48, R182, R186; I1). -/
inductive TieOrder where
  | stableIndex
  | any
  deriving DecidableEq, Repr

namespace Config

/-- The widest `CNT_W` (R5, D4). -/
abbrev cntMax : Nat := 32

/-- The `CNT_W` that this hardware takes (R5, D4); a state of the model carries its own, `State.cntW` (U10, log entry 31). -/
abbrev cntW : Nat := 32

/-- `SYM_W` (R5). -/
abbrev symW : Nat := 9

/-- `WEIGHT_W = CNT_W + 9` for the widest `CNT_W` (R5, R184). -/
abbrev weightW : Nat := cntMax + 9

/-- `NODE_CAP`: entries of the node memory (R5, D6). -/
abbrev nodeCap : Nat := 513

/-- `ALPHA`: the byte values (R5). -/
abbrev alpha : Nat := 256

/-- `NSYM`: the symbol ids, sentinel included (R5). -/
abbrev nsym : Nat := 257

/-- `CODE_MAX`: the longest code the LUT holds (R5, D9). -/
abbrev codeMax : Nat := 256

/-- `PORT_MAX_N`: the widest port transaction (R5, D11). -/
abbrev portMaxN : Nat := 32

/-- `EOS`: the sentinel's symbol id (R5). -/
def eos : Sym := 256#9

/-- `PLACEHOLDER`: the value of an internal node (R5, D8). -/
def placeholder : Sym := 0x1FF#9

/-- `NONE_IDX`: the absent-child index (R5, D8). -/
def noneIdx : Idx := 0x3FF#10

/-- The `TIE_ORDER` that this hardware takes (R5, D7); a state of the model carries its own, `State.tieOrder` (R186, I1, log
entry 12). -/
def tieOrder : TieOrder := .stableIndex

/-- `MAGIC`, OPEN (R5, D3): a 32-bit constant of the block. Log entry 10. -/
opaque magic : Word

/-- `CSR_BASE / 4096`, OPEN (R5, R80, D22). Log entry 11. -/
opaque csrPage : Nat

/-- The free value of a window read while BUSY = 1, one for each draw (U1). Log entry 8. -/
opaque freeWord : Nat → Word

/-- The free choice among the values a counter held, one for each draw (U2). Log entry 9. -/
opaque freeIndex : Nat → Nat

/-- The free choice among entries of equal weight under `TIE_ORDER = ANY`, one for each `PopMin` (R186). Log entry 13. -/
opaque tieDraw : Nat → Nat

/-- Whether an access while `rst_n = 0` gets a bus error (else no answer): R300 allows both. Log entry 14. -/
opaque resetAnswersBusError : Bool

end Config

/-- An entry of FREQ, `CNT_W` bits (R40), held in as many bits as the widest has; what the block writes is below `2^CNT_W`. -/
abbrev Count := BitVec Config.cntMax

/-- A node weight, `WEIGHT_W` bits (R42), held in as many bits as the widest has; sums are exact (R11, R184). -/
abbrev Weight := BitVec Config.weightW

end Sys2Proof
end

