-- ==== Sys2Proof/Syntax.lean ====
section
/-! DEFINITION. The thirteen commands of 30_encoding.md R111, one constructor per row of spec/opcode_table.json.
No command has an operand (R110): what it works on is state or comes from the source port. -/

namespace Sys2Proof

/-- A command of the block (R111). -/
inductive Instr where
  | compress
  | decompress
  | clear
  | restart
  | count
  | build
  | genlut
  | header
  | serialize
  | encode
  | checkmagic
  | deserialize
  | decode
  deriving DecidableEq, Repr

/-- The OP field of each command (R111). -/
def Instr.opcode : Instr → Byte
  | .compress => 0x01#8
  | .decompress => 0x02#8
  | .clear => 0x03#8
  | .restart => 0x10#8
  | .count => 0x11#8
  | .build => 0x12#8
  | .genlut => 0x13#8
  | .header => 0x14#8
  | .serialize => 0x15#8
  | .encode => 0x16#8
  | .checkmagic => 0x20#8
  | .deserialize => 0x21#8
  | .decode => 0x22#8

/-- All commands, in the opcode table's order. -/
def Instr.all : List Instr :=
  [.compress, .decompress, .clear, .restart, .count, .build, .genlut, .header, .serialize, .encode, .checkmagic,
    .deserialize, .decode]

end Sys2Proof
end

