-- ==== Sys2Proof/WellFormed.lean ====
section
/-! DEFINITION. Well-formed command words (30_encoding.md R110, R112). A command has no operand field, so every `Instr`
is well formed; what can be ill formed is the word: its reserved field, or its OP. -/

namespace Sys2Proof.WellFormed

/-- RSVD, bits [31:8], is 0 (R110). -/
def reservedZero (w : Word) : Bool := w.extractLsb' 8 24 == 0#24

/-- OP, bits [7:0], is an opcode of R111. -/
def opcodeKnown (w : Word) : Bool := Instr.all.any fun i => i.opcode == w.extractLsb' 0 8

/-- The word is one of the thirteen legal ones (R111, R112). -/
def legalWord (w : Word) : Bool := reservedZero w && opcodeKnown w

/-- Every command of R111 is well formed: it has no operands (R110). -/
def instr (i : Instr) : Bool := Instr.all.contains i

end Sys2Proof.WellFormed
end

