-- ==== Sys2Proof/Decode.lean ====
section
/-! DEFINITION. The command-word decoder, total on any word and any bytes and rejecting by name (30_encoding.md R110 to
R113), and the encoder. -/

namespace Sys2Proof

/-- Why a word is no command (R112). -/
inductive DecodeError where
  /-- bits [31:8] are not all 0 -/
  | reservedNonzero
  /-- OP is not an opcode of R111 -/
  | unknownOpcode
  /-- fewer or more than four byte lanes were given -/
  | notOneWord
  deriving DecidableEq, Repr

/-- What the decoder answers. -/
inductive Decoded where
  | ok (i : Instr)
  | error (e : DecodeError)
  deriving DecidableEq, Repr

/-- The opcode map of R111. -/
def opcodeMap : List (Byte × Instr) :=
  [(0x01#8, .compress), (0x02#8, .decompress), (0x03#8, .clear),
   (0x10#8, .restart), (0x11#8, .count), (0x12#8, .build), (0x13#8, .genlut),
   (0x14#8, .header), (0x15#8, .serialize), (0x16#8, .encode),
   (0x20#8, .checkmagic), (0x21#8, .deserialize), (0x22#8, .decode)]

/-- The legality check and the choice of the command: the word selects command OP exactly when it equals `zext_32(OP)`
(R110, R152). -/
def decode (w : Word) : Decoded :=
  if w.extractLsb' 8 24 = 0#24 then
    match opcodeMap.lookup (w.extractLsb' 0 8) with
    | some i => .ok i
    | none => .error .unknownOpcode
  else .error .reservedNonzero

/-- The word of four byte lanes, bits [8k+7:8k] on lane k (20_memory.md R84). -/
def wordOfLanes (b0 b1 b2 b3 : Byte) : Word := b3 ++ b2 ++ b1 ++ b0

/-- The decoder on the bytes of one CMD write, lane 0 first. -/
def decodeBytes : List Byte → Decoded
  | [b0, b1, b2, b3] => decode (wordOfLanes b0 b1 b2 b3)
  | _ => .error .notOneWord

/-- The command word of a command: `zext_32(OP)` (R110, R113). -/
def encode (i : Instr) : Word := i.opcode.setWidth 32

/-- The byte lanes of a word (R84). -/
def lanesOf (w : Word) : List Byte :=
  [w.extractLsb' 0 8, w.extractLsb' 8 8, w.extractLsb' 16 8, w.extractLsb' 24 8]

/-- The word whose first `nbits` bits are those of `w`, every bit above them 0. -/
def tableWord (nbits w : Nat) : Word := BitVec.ofNat 32 (w % 2 ^ nbits)

/-- The host's question: the command whose bits are `w`, laid out on the byte lanes and given to the decoder. -/
def decodeTableWord (nbits w : Nat) : Option Instr :=
  match decodeBytes (lanesOf (tableWord nbits w)) with
  | .ok i => some i
  | .error _ => none

end Sys2Proof
end

