-- ==== Sys2Proof/Machine/State.lean ====
section
/-! DEFINITION. Everything the spec gives the machine, as plain data (10_state.md), the reasons a step can stop, and the
machine right after reset (70_reset_and_hazards.md R302). -/

namespace Sys2Proof.Machine

/-- STATUS.PHASE, the sequencer step shown to the host (R27); the codes are `Phase.code`. -/
inductive Phase where
  | idle | peek | restart | count | build | genlut | header | serialize | encode
  | checkMagic | deserialize | decode | clear | check
  deriving DecidableEq, Repr

/-- STATUS.ERRCODE, the error of the last command (R271); the codes are `ErrCode.code`. -/
inductive ErrCode where
  | none | format | truncated | illegalCmd | noTree | noLut | nosym | badTree | noCode | countOvf
  deriving DecidableEq, Repr

/-- The fields of STATUS (R25). -/
structure Status where
  busy : Bool
  done : Bool
  error : Bool
  empty : Bool
  treeValid : Bool
  lutValid : Bool
  ovr : Bool
  errCode : ErrCode
  phase : Phase
  lastOp : Byte
  deriving DecidableEq, Repr

/-- A 32-bit counter register (R34 to R36). `held` is the model's own: every value held since acceptance, latest first,
among which a read while BUSY = 1 answers (R309, U2; log entry 9). -/
structure Counter where
  now : Word
  held : List Word
  deriving DecidableEq, Repr

/-- An entry of the node memory (R42). -/
structure Node where
  leaf : Bool
  value : Sym
  weight : Weight
  left : Idx
  right : Idx
  deriving DecidableEq, Repr

/-- An entry of the priority selector: a node index with the weight of its node (R47). -/
structure SelEntry where
  idx : Idx
  weight : Weight
  deriving DecidableEq, Repr

/-- The bodies that commands are made of: a rule's procedure without its `complete()` (R236, R256). -/
inductive Body where
  | peek | restart | count | build | genlut | header | serialize | encode
  | checkMagic | deserialize | decode | clear
  deriving DecidableEq, Repr

/-- The position inside the current body's procedure, with the procedure's local variables (R52). Every position but
`none` names the next move: one port transaction, or statements between two port primitives (R10). -/
inductive Pos where
  /-- no command in progress -/
  | none
  /-- at the start of a body -/
  | enter (b : Body)
  /-- COMPRESS step (1), at its `ReadBits(8)` -/
  | peekRead
  /-- RESTART, at `Restart()` -/
  | restartSource
  /-- COUNT, at `ReadBits(8)`; `counted`: some byte has been counted -/
  | countRead (counted : Bool)
  /-- BUILD, at the test of the `while`; `leaves` is `L`, `next` is `n` -/
  | buildMerge (leaves next : Nat)
  /-- GENLUT, entering `Visit` of the node on top of STK with path PATH -/
  | genlutVisit
  /-- HEADER, at `WriteBits(32, MAGIC)` -/
  | headerWrite
  /-- SERIALIZE, at the control bit of the node on top of STK -/
  | serVisit
  /-- SERIALIZE, at `WriteBits(9, value)` -/
  | serId (value : Sym)
  /-- ENCODE, at `ReadBits(8)` -/
  | encRead
  /-- ENCODE, in `Emit`: `rest` is still to be sent; `last`: it is the sentinel's code -/
  | encEmit (rest : Bits) (last : Bool)
  /-- CHECKMAGIC, at `ReadBits(32)` -/
  | magicRead
  /-- DESERIALIZE, at the `ReadBits(1)` of `Des()` -/
  | desBit (nleaf : Nat)
  /-- DESERIALIZE, at the `ReadBits(9)` of leaf `i` -/
  | desId (nleaf : Nat) (i : Idx)
  /-- DECODE, at `ReadBits(1)` -/
  | decRead
  /-- DECODE, at `WriteBits(8, NODE[CUR].VALUE[7:0])` -/
  | decWrite
  /-- CLEAR, at its statements -/
  | clearRun
  deriving DecidableEq, Repr

/-- The sequencer (R52): the command in progress, the position in its current body, and the bodies after that one. -/
structure Seq where
  op : Option Instr
  pos : Pos
  rest : List Body
  deriving DecidableEq, Repr

/-- The external source (R53), and whether it answers (R93). -/
structure Source where
  bits : Bits
  pos : Nat
  ready : Bool
  deriving DecidableEq, Repr

/-- The external sink (R54), and whether it accepts (R93). -/
structure Sink where
  bits : Bits
  ready : Bool
  deriving DecidableEq, Repr

/-- The size of a CSR access (R81). -/
inductive AccessSize where
  | bits8 | bits16 | bits32
  deriving DecidableEq, Repr

/-- One access on the CSR bus (R100): offset [11:0], write data [31:0], size, read or write. -/
structure Access where
  write : Bool
  offset : BitVec 12
  size : AccessSize
  data : Word
  deriving DecidableEq, Repr

/-- What the host gets back from its last access (R81, R100). -/
inductive Response where
  /-- a read's data -/
  | data (v : Word)
  /-- a write was taken -/
  | done
  | busError
  /-- no answer: allowed while `rst_n = 0` (R300) -/
  | noAnswer
  deriving DecidableEq, Repr

/-- What an agent other than the block does to a stream (R311). -/
inductive StreamUse where
  | readSource (n : Nat)
  | restartSource
  | writeSink (bits : Bits)
  deriving DecidableEq, Repr

/-- What the outside world does, in the order it does it. -/
inductive Event where
  /-- a CSR access by the host (R80) -/
  | access (a : Access)
  /-- the level of `rst_n` (R300) -/
  | rst (level : Bool)
  /-- the source starts or stops answering (R93) -/
  | sourceReady (b : Bool)
  /-- the sink starts or stops accepting (R93) -/
  | sinkReady (b : Bool)
  /-- the platform attaches a source at a position (R305, R306) -/
  | attach (bits : Bits) (pos : Nat)
  /-- the source presents other bits from now on (R310, U5) -/
  | sourceChanges (bits : Bits)
  /-- another agent uses a stream (R311, U6) -/
  | foreign (u : StreamUse)
  /-- how fast the sequencer goes from now on (R320, U11; log entry 1) -/
  | pace (p : Option Nat)
  deriving DecidableEq, Repr

/-- The state of the block and of the agents around it. -/
structure State where
  /-- `CNT_W`, the argument that R5 and U10 give a model: the field of PARAM, a constant of the instance (R22, log entry 31) -/
  cntW : Fin (Config.cntMax + 1)
  /-- `TIE_ORDER`, the argument that R186 and I1 give a model: how SEL settles ties (R48, R182, log entry 12) -/
  tieOrder : TieOrder
  -- control and status registers (section 2)
  status : Status
  irqEn : Bool
  pend : Bool
  rdBits : Counter
  wrBits : Counter
  syms : Counter
  leafCount : BitVec 9
  nodeCount : BitVec 10
  root : Idx
  freqIdx : Byte
  lutIdx : BitVec 9
  nodeIdx : Idx
  -- internal tables (section 3)
  freq : Vector Count 256
  node : Vector Node 513
  lut : Vector Bits 257
  -- hidden datapath state (section 4)
  sel : List SelEntry
  /-- PATH, deepest step first (R49) -/
  path : Bits
  /-- STK, top first (R50) -/
  stk : List Idx
  cur : Idx
  seq : Seq
  -- external streams (section 5) and pins (R100)
  src : Source
  snk : Sink
  rstN : Bool
  response : Option Response
  -- the model's own: events to come, moves made in a step, free values drawn (log entries 1, 2, 8), `PopMin`s made, each of
  -- which numbers a free choice under `TIE_ORDER = ANY` (log entry 13)
  pending : List Event
  pace : Option Nat
  draws : Nat
  pops : Nat
  deriving DecidableEq, Repr

/-- Reasons the model stops that the spec does not have. Each is raised only in a state no run reaches (log entry 19), so
each is safe: a claim about such a state may become unprovable, none becomes provable falsely. -/
inductive Fault where
  /-- raised by GENLUT, SERIALIZE, DECODE, BUILD and DESERIALIZE at a NODE index of 513 or more (R42 has none). Safe. -/
  | nodeIndex
  /-- raised by GENLUT at a leaf whose value is 257 or more (R45 has no such LUT entry). Safe. -/
  | lutIndex
  /-- raised by BUILD when SEL holds no entry at a `PopMin` (R180 never does that). Safe. -/
  | selectorEmpty
  /-- raised by GENLUT and SERIALIZE when STK is empty at a visit (R200, R210 never do that). Safe. -/
  | stackEmpty
  /-- raised by the sequencer when BUSY = 1 and there is no position (R52 always has one). Safe. -/
  | noPosition
  deriving DecidableEq, Repr

/-- Reasons a step has no meaning. -/
inductive Refusal where
  /-- raised by exec's arms of commands without a meaning: none is left. Safe. -/
  | notModelled (mnemonic : String)
  /-- raised when another agent reads, restarts, repositions or writes a stream while a command runs: not defined by the
  spec (R284, R311, U6, log entry 15). Safe. -/
  | sharedStream
  deriving DecidableEq, Repr

/-- The outcome of a step or of a part of one. -/
abbrev Result := Host.Outcome State Fault Refusal

/-- A counter at 0, with no other value held since (R34 to R36). -/
def Counter.zero : Counter := { now := 0#32, held := [0#32] }

/-- STATUS after reset: 0x00000000 (R302). -/
def Status.reset : Status :=
  { busy := false, done := false, error := false, empty := false, treeValid := false, lutValid := false, ovr := false,
    errCode := .none, phase := .idle, lastOp := 0#8 }

/-- The contents the model names for a NODE entry at reset (unspecified and unobservable: R303, log entry 4). -/
def Node.reset : Node := { leaf := false, value := 0#9, weight := 0, left := 0#10, right := 0#10 }

/-- No command (R52). -/
def Seq.idle : Seq := { op := .none, pos := .none, rest := [] }

/-- The machine right after reset (R302), with nothing attached to its ports and nothing pending. -/
def State.reset : State :=
  { cntW := Fin.ofNat _ Config.cntW
    tieOrder := Config.tieOrder
    status := Status.reset
    irqEn := false
    pend := false
    rdBits := Counter.zero
    wrBits := Counter.zero
    syms := Counter.zero
    leafCount := 0#9
    nodeCount := 0#10
    root := 0#10
    freqIdx := 0#8
    lutIdx := 0#9
    nodeIdx := 0#10
    freq := Vector.replicate 256 0
    node := Vector.replicate 513 Node.reset
    lut := Vector.replicate 257 []
    sel := []
    path := []
    stk := []
    cur := 0#10
    seq := Seq.idle
    src := { bits := [], pos := 0, ready := true }
    snk := { bits := [], ready := true }
    rstN := true
    response := none
    pending := []
    pace := none
    draws := 0
    pops := 0 }

end Sys2Proof.Machine
end

