-- ==== Sys2Proof/Machine/Flags.lean ====
section
/-! DEFINITION. The codes and the packing of STATUS (10_state.md R25, R27, R30; 60_exceptions.md R271), and the rules of
the interrupt flag and output (R32, R278). -/

namespace Sys2Proof.Machine

/-- The PHASE codes (R27). -/
def Phase.code : Phase → BitVec 4
  | .idle => 0#4
  | .peek => 1#4
  | .restart => 2#4
  | .count => 3#4
  | .build => 4#4
  | .genlut => 5#4
  | .header => 6#4
  | .serialize => 7#4
  | .encode => 8#4
  | .checkMagic => 9#4
  | .deserialize => 10#4
  | .decode => 11#4
  | .clear => 12#4
  | .check => 13#4

/-- The ERRCODE codes (R271). -/
def ErrCode.code : ErrCode → BitVec 4
  | .none => 0#4
  | .format => 1#4
  | .truncated => 2#4
  | .illegalCmd => 3#4
  | .noTree => 4#4
  | .noLut => 5#4
  | .nosym => 6#4
  | .badTree => 7#4
  | .noCode => 8#4
  | .countOvf => 9#4

/-- The phase each body sets as it starts (R27). -/
def Body.phase : Body → Phase
  | .peek => .peek
  | .restart => .restart
  | .count => .count
  | .build => .build
  | .genlut => .genlut
  | .header => .header
  | .serialize => .serialize
  | .encode => .encode
  | .checkMagic => .checkMagic
  | .deserialize => .deserialize
  | .decode => .decode
  | .clear => .clear

/-- STATUS as the host reads it (R25). -/
def Status.pack (f : Status) : Word :=
  (0#8 : BitVec 8) ++ f.lastOp ++ f.phase.code ++ f.errCode.code ++ 0#1
    ++ BitVec.ofBool f.ovr ++ BitVec.ofBool f.lutValid ++ BitVec.ofBool f.treeValid ++ BitVec.ofBool f.empty
    ++ BitVec.ofBool f.error ++ BitVec.ofBool f.done ++ BitVec.ofBool f.busy

/-- IRQ.PEND after a clock edge on which the block sets it, the host clears it, both or neither: a simultaneous set wins
(R32). -/
def nextPend (set clear pend : Bool) : Bool := set || (pend && !clear)

/-- The interrupt output, `CTRL.IRQ_EN AND IRQ.PEND` (R278), low while `rst_n = 0` (R300). -/
def State.irq (s : State) : Bool := s.rstN && (s.irqEn && s.pend)

end Sys2Proof.Machine
end

