-- ==== Sys2Proof/Machine/Operands.lean ====
section
/-! DEFINITION. What the commands work on (30_encoding.md R110: no operand fields, every operand is state or comes from the
source port): bit strings (R8), the two streams (R87, R88, R90), the table entries (R9), the selector (R48, R182). -/

namespace Sys2Proof.Machine

/-- `bits_n(v)`: the n-bit string of `v`, most significant bit first (R8). -/
def bitsOf : Nat → Nat → Bits
  | 0, _ => []
  | n + 1, v => v.testBit n :: bitsOf n v

/-- `val(s)`: the unsigned number whose MSB-first string is `s` (R8). -/
def valOf (s : Bits) : Nat := s.foldl (fun v b => 2 * v + b.toNat) 0

/-- The string of a register value, most significant bit first. -/
def bitsOfWord {n : Nat} (v : BitVec n) : Bits := bitsOf n v.toNat

/-- The source after `ReadBits(n)`, with the value read or `none` for end-of-data, which consumes nothing (R87). -/
def Source.read (n : Nat) (r : Source) : Option Nat × Source :=
  if r.pos + n ≤ r.bits.length then
    (some (valOf ((r.bits.drop r.pos).take n)), { r with pos := r.pos + n })
  else (none, r)

/-- The source after `Restart()` (R88). -/
def Source.restart (r : Source) : Source := { r with pos := 0 }

/-- The sink after `WriteBits(n, v)` (R90). -/
def Sink.write (n v : Nat) (k : Sink) : Sink := { k with bits := k.bits ++ bitsOf n v }

/-- `FREQ[s]` (R40). -/
def freqAt (freq : Vector Count 256) (s : Byte) : Count := freq[s.toNat]'(s.isLt)

/-- `FREQ[s] <- c` (R40). -/
def setFreq (freq : Vector Count 256) (s : Byte) (c : Count) : Vector Count 256 := freq.set s.toNat c s.isLt

/-- `2^CNT_W - 1`, the count of a full entry (R172). -/
def fullCount (cntW : Fin (Config.cntMax + 1)) : Count := BitVec.ofNat Config.cntMax (2 ^ cntW.val - 1)

/-- `wdata[CNT_W-1:0]`, what a write of FREQ_DATA stores (R38). -/
def countOfWord (cntW : Fin (Config.cntMax + 1)) (v : Word) : Count := (v.setWidth cntW.val).setWidth Config.cntMax

/-- `NODE[i]`; there is none at `i >= NODE_CAP` (R42). -/
def nodeAt (node : Vector Node 513) (i : Idx) : Option Node := node[i.toNat]?

/-- `NODE[i] <- nd` for `i < NODE_CAP` (R42). -/
def setNode (node : Vector Node 513) (i : Nat) (nd : Node) : Vector Node 513 := node.setIfInBounds i nd

/-- `LUT[s]`, the code of symbol `s`; there is none at `s > 256` (R45). -/
def lutAt (lut : Vector Bits 257) (s : Sym) : Option Bits := lut[s.toNat]?

/-- `LUT[s] <- code` for `s <= 256` (R45). -/
def setLut (lut : Vector Bits 257) (s : Sym) (code : Bits) : Vector Bits 257 := lut.setIfInBounds s.toNat code

/-- The code of a byte (a byte value is always a symbol id). -/
def byteCode (lut : Vector Bits 257) (b : Byte) : Bits := lut[b.toNat]'(by have := b.isLt; omega)

/-- The code of the sentinel, symbol 256. -/
def sentinelCode (lut : Vector Bits 257) : Bits := lut[256]

/-- A leaf node: no children (R42). -/
def leafNode (value : Sym) (weight : Weight) : Node :=
  { leaf := true, value, weight, left := Config.noneIdx, right := Config.noneIdx }

/-- An internal node (R42). -/
def innerNode (weight : Weight) (left right : Idx) : Node :=
  { leaf := false, value := Config.placeholder, weight, left, right }

/-- The order of SEL's keys `(weight, index)`, lexicographic (R48). -/
def SelEntry.before (a b : SelEntry) : Bool :=
  decide (a.weight < b.weight) || (a.weight == b.weight && decide (a.idx < b.idx))

/-- The entry of least key among `e` and `es` (R48). -/
def leastEntry (e : SelEntry) (es : List SelEntry) : SelEntry :=
  es.foldl (fun m x => if x.before m then x else m) e

/-- The entry `PopMin` chooses: under STABLE_INDEX the one of least key; under ANY some entry of least weight, which one
being the free number `k` (R48, R182, R186). -/
def chooseMin (t : TieOrder) (k : Nat) (e : SelEntry) (es : List SelEntry) : SelEntry :=
  match t with
  | .stableIndex => leastEntry e es
  | .any =>
    let ties := (e :: es).filter fun x => x.weight == (leastEntry e es).weight
    ties.getD (k % ties.length) (leastEntry e es)

/-- `PopMin(SEL)`: the chosen entry and the entries left; `none` when SEL is empty (R182). -/
def popMin (t : TieOrder) (k : Nat) (sel : List SelEntry) : Option (SelEntry × List SelEntry) :=
  match sel with
  | [] => none
  | e :: es => some (chooseMin t k e es, (e :: es).erase (chooseMin t k e es))

end Sys2Proof.Machine
end

