-- ==== Sys2Proof/Machine/Ops.lean ====
section
/-! DEFINITION. The operations every command shares: the port primitives on the whole state (20_memory.md R87 to R90),
phases and positions, acceptance (40_lifecycle.md R150), completion (R155), and taking an exception, `raise` (R156). -/

namespace Sys2Proof.Machine

/-- A counter that gains `n`, modulo 2^32 (R34 to R36). -/
def Counter.add (c : Counter) (n : Nat) : Counter :=
  { now := c.now + BitVec.ofNat 32 n, held := (c.now + BitVec.ofNat 32 n) :: c.held }

/-- A counter set to 0 while a command runs: the values it held stay among those held since acceptance. -/
def Counter.clear (c : Counter) : Counter := { now := 0#32, held := 0#32 :: c.held }

/-- `phase <- P` (R9, R27). -/
def setPhase (p : Phase) (s : State) : State := { s with status := { s.status with phase := p } }

/-- The sequencer moves to a position of its current body (R52). -/
def goto (p : Pos) (s : State) : State := { s with seq := { s.seq with pos := p } }

/-- `csr.SYMS <- 0` at the start of COUNT, ENCODE and DECODE (R36). -/
def clearSyms (s : State) : State := { s with syms := s.syms.clear }

/-- `csr.SYMS <- (csr.SYMS + 1) mod 2^32` (R36). -/
def countSym (s : State) : State := { s with syms := s.syms.add 1 }

/-- `ReadBits(n)`: the value, or `none` for EOD, and the state after (R87). -/
def readBits (n : Nat) (s : State) : Option Nat × State :=
  match s.src.read n with
  | (some v, r) => (some v, { s with src := r, rdBits := s.rdBits.add n })
  | (none, _) => (none, s)

/-- `Restart()` (R88). -/
def restartSource (s : State) : State := { s with src := s.src.restart }

/-- `WriteBits(n, v)` (R90). -/
def writeBits (n v : Nat) (s : State) : State := { s with snk := s.snk.write n v, wrBits := s.wrBits.add n }

/-- Taking an exception, `raise E(code)`: the command ends with an error; PHASE keeps the failing step; IRQ.PEND is set;
nothing is saved and nothing else changes (R156, R275). -/
def raise (code : ErrCode) (s : State) : State :=
  { s with
    status := { s.status with busy := false, error := true, errCode := code }
    pend := nextPend true false s.pend
    seq := Seq.idle }

/-- `complete()`: the command ends successfully (R155). -/
def complete (s : State) : State :=
  { s with
    status := { s.status with busy := false, done := true, phase := .idle }
    pend := nextPend true false s.pend
    seq := Seq.idle }

/-- Acceptance of a command word whose low byte is `op` (R150). It is also the only return from an error: it clears DONE,
ERROR, ERRCODE, EMPTY and OVR (R279). -/
def accept (op : Byte) (s : State) : State :=
  { s with
    status :=
      { s.status with
        busy := true, done := false, error := false, empty := false, ovr := false, errCode := .none, phase := .check,
        lastOp := op }
    rdBits := Counter.zero
    wrBits := Counter.zero
    syms := Counter.zero }

/-- A command word written while BUSY = 1 is discarded and sets OVR (R151). -/
def discard (s : State) : State := { s with status := { s.status with ovr := true } }

/-- The end of a body: the next body of the command, or `complete()` after the last (R154, R155). -/
def finishBody (s : State) : State :=
  match s.seq.rest with
  | [] => complete s
  | b :: bs => { s with seq := { s.seq with pos := .enter b, rest := bs } }

/-- The tree and its code table are no longer valid and its counts are 0: the start of BUILD and DESERIALIZE, and CLEAR
(R28, R37, R159). -/
def dropTree (s : State) : State :=
  { s with
    status := { s.status with treeValid := false, lutValid := false }
    leafCount := 0#9, nodeCount := 0#10, root := 0#10 }

/-- A body starts: its PHASE is set and the sequencer goes to its first position (R27, R154). -/
def start (b : Body) (p : Pos) (s : State) : State := goto p (setPhase b.phase s)

/-- One free 32-bit value (U1, log entry 8). -/
def drawWord (s : State) : Word × State := (Config.freeWord s.draws, { s with draws := s.draws + 1 })

/-- One free choice among the values a counter held since acceptance (U2, log entry 9). -/
def drawHeld (c : Counter) (s : State) : Word × State :=
  (c.held.getD (Config.freeIndex s.draws % c.held.length) c.now, { s with draws := s.draws + 1 })

/-- The block after reset: every register, table and hidden state at its value after reset; the instance's CNT_W and TIE_ORDER (R22,
R48), the source, the sink, what the outside world has still to do and the counts of free values are left alone (R301, R302). -/
def blockReset (level : Bool) (s : State) : State :=
  { State.reset with
    cntW := s.cntW, tieOrder := s.tieOrder, src := s.src, snk := s.snk, rstN := level
    pending := s.pending, pace := s.pace, draws := s.draws, pops := s.pops }

end Sys2Proof.Machine
end

