-- ==== Sys2Proof/Machine/Build.lean ====
section
/-! DEFINITION. The tree builder and its priority selector, body of BUILD (42_build.md R180 to R191). -/

namespace Sys2Proof.Machine

/-- The leaf of byte value `k`, if its count is not 0 (R180). -/
def leafOf (freq : Vector Count 256) (k : Nat) : Option Node :=
  let c := freqAt freq (BitVec.ofNat 8 k)
  if c = 0 then none else some (leafNode (BitVec.ofNat 9 k) (c.setWidth Config.weightW))

/-- The leaves of the byte values with a nonzero count, in ascending symbol order (R181). -/
def byteLeaves (freq : Vector Count 256) : List Node := (List.range 256).filterMap (leafOf freq)

/-- All leaves of BUILD: the byte leaves, then the sentinel's, of weight 1 (R181). -/
def buildLeaves (freq : Vector Count 256) : List Node := byteLeaves freq ++ [leafNode Config.eos 1]

/-- `NODE[n] <- nd` for each node of a list, from index `n` on. -/
def placeNodes : Nat → List Node → Vector Node 513 → Vector Node 513
  | _, [], node => node
  | n, nd :: nds, node => placeNodes (n + 1) nds (setNode node n nd)

/-- SEL's entries for nodes placed from index `n` on (R181: a node's index is the order of its insertion). -/
def selEntries : Nat → List Node → List SelEntry
  | _, [] => []
  | n, nd :: nds => { idx := BitVec.ofNat 10 n, weight := nd.weight } :: selEntries (n + 1) nds

/-- The start of BUILD: the old tree is dropped; with no byte counted, NOSYM before any node is made (R189); else the
leaves are made and inserted into SEL (R180, R181). -/
def buildEnter (s : State) : Result :=
  let s' := { dropTree (start .build .none s) with sel := [] }
  match byteLeaves s.freq with
  | [] => .next (raise .nosym s')
  | _ :: _ =>
    let leaves := buildLeaves s.freq
    .next (goto (.buildMerge leaves.length leaves.length)
      { s' with node := placeNodes 0 leaves s.node, sel := selEntries 0 leaves })

/-- BUILD's result: the one node left is the root (R180, R185). -/
def buildDone (leaves next : Nat) (root : Idx) (s : State) : State :=
  finishBody { s with
    sel := []
    root := root
    leafCount := BitVec.ofNat 9 leaves
    nodeCount := BitVec.ofNat 10 next
    status := { s.status with treeValid := true } }

/-- One pass of BUILD's loop: the two entries of least weight become the children of a new node, the first removed on the
left (R183); with one entry left, the tree is complete. Ties are settled as TIE_ORDER says (R182, R186). -/
def buildMerge (leaves next : Nat) (s : State) : Result :=
  match popMin s.tieOrder (Config.tieDraw s.pops) s.sel with
  | none => .fault .selectorEmpty
  | some (a, sel1) =>
    match popMin s.tieOrder (Config.tieDraw (s.pops + 1)) sel1 with
    | none => .next (buildDone leaves next a.idx { s with pops := s.pops + 1 })
    | some (b, sel2) =>
      if next < Config.nodeCap then
        let w := a.weight + b.weight
        .next (goto (.buildMerge leaves (next + 1))
          { s with
            node := setNode s.node next (innerNode w a.idx b.idx)
            sel := sel2 ++ [{ idx := BitVec.ofNat 10 next, weight := w }]
            pops := s.pops + 2 })
      else .fault .nodeIndex

end Sys2Proof.Machine
end

