-- ==== Sys2Proof/Machine/Compressor.lean ====
section
/-! DEFINITION. The compressor's own bodies: the peek of COMPRESS (45_compress.md R236, R237), RESTART (R230), HEADER
(R231) and ENCODE (R232 to R235). -/

namespace Sys2Proof.Machine

/-- The start of the peek (R236 step (1)). -/
def peekEnter (s : State) : Result := .next (start .peek .peekRead s)

/-- The peek's `ReadBits(8)`: the byte is discarded; at end-of-data the whole command ends, EMPTY = 1, with no output and
no table changed (R237). -/
def peekRead (s : State) : Result :=
  match readBits 8 s with
  | (none, s') => .next (complete { s' with status := { s'.status with empty := true } })
  | (some _, s') => .next (finishBody s')

/-- The start of RESTART (R230). -/
def restartEnter (s : State) : Result := .next (start .restart .restartSource s)

/-- The `Restart()` of RESTART (R230). -/
def restartRun (s : State) : Result := .next (finishBody (restartSource s))

/-- The start of HEADER (R231). -/
def headerEnter (s : State) : Result := .next (start .header .headerWrite s)

/-- The `WriteBits(32, MAGIC)` of HEADER (R231). -/
def headerWrite (s : State) : Result := .next (finishBody (writeBits 32 Config.magic.toNat s))

/-- The start of ENCODE: SYMS is cleared (R232). -/
def encodeEnter (s : State) : Result := .next (clearSyms (start .encode .encRead s))

/-- One `ReadBits(8)` of ENCODE: the byte's code is to be sent, or the sentinel's at end-of-data; a missing code raises
NO_CODE before any bit of it is written (R232, R234, R235). -/
def encRead (s : State) : Result :=
  match readBits 8 s with
  | (none, s') =>
    match sentinelCode s'.lut with
    | [] => .next (raise .noCode s')
    | c :: cs => .next (goto (.encEmit (c :: cs) true) s')
  | (some v, s') =>
    match byteCode s'.lut (BitVec.ofNat 8 v) with
    | [] => .next (raise .noCode s')
    | c :: cs => .next (goto (.encEmit (c :: cs) false) s')

/-- One transaction of `Emit`: at most 32 bits of the code (R233, 30_encoding.md R130). After a byte's last bit SYMS counts
it; after the sentinel's the body ends. -/
def encEmit (rest : Bits) (last : Bool) (s : State) : Result :=
  let n := min 32 rest.length
  let s' := writeBits n (valOf (rest.take n)) s
  match rest.drop n with
  | c :: cs => .next (goto (.encEmit (c :: cs) last) s')
  | [] => if last then .next (finishBody s') else .next (goto .encRead (countSym s'))

end Sys2Proof.Machine
end

