-- ==== Sys2Proof/Machine/Count.lean ====
section
/-! DEFINITION. The frequency counter, body of COUNT (41_count.md R170). -/

namespace Sys2Proof.Machine

/-- The start of COUNT: FREQ and SYMS are cleared (R170). -/
def countEnter (s : State) : Result :=
  .next { clearSyms (start .count (.countRead false) s) with freq := Vector.replicate 256 0 }

/-- One `ReadBits(8)` of COUNT. At end-of-data the count ends and EMPTY says whether no byte was counted (R171); a byte
whose entry is full raises COUNT_OVF before the entry changes (R172). -/
def countRead (counted : Bool) (s : State) : Result :=
  match readBits 8 s with
  | (none, s') => .next (finishBody { s' with status := { s'.status with empty := !counted } })
  | (some v, s') =>
    let b := BitVec.ofNat 8 v
    if freqAt s'.freq b = fullCount s'.cntW then .next (raise .countOvf s')
    else .next (goto (.countRead true) (countSym { s' with freq := setFreq s'.freq b (freqAt s'.freq b + 1) }))

end Sys2Proof.Machine
end

