-- ==== Sys2Proof/Machine/Decompressor.lean ====
section
/-! DEFINITION. The decompressor's own bodies: CHECKMAGIC (46_decompress.md R250) and DECODE (R251 to R255). -/

namespace Sys2Proof.Machine

/-- The start of CHECKMAGIC (R250). -/
def checkMagicEnter (s : State) : Result := .next (start .checkMagic .magicRead s)

/-- The `ReadBits(32)` of CHECKMAGIC: FORMAT at end-of-data or on a mismatch (R250). -/
def magicRead (s : State) : Result :=
  match readBits 32 s with
  | (none, s') => .next (raise .format s')
  | (some v, s') => if v = Config.magic.toNat then .next (finishBody s') else .next (raise .format s')

/-- The start of DECODE: SYMS is cleared and CUR is at the root (R251). -/
def decodeEnter (s : State) : Result := .next { clearSyms (start .decode .decRead s) with cur := s.root }

/-- One bit of the decode walk: TRUNCATED at end-of-data (R255); else CUR moves to the LEFT (0) or RIGHT (1) child; at the
sentinel's leaf the body ends (R253), at another leaf its byte is to be written (R251, R252). -/
def decRead (s : State) : Result :=
  match readBits 1 s with
  | (none, s') => .next (raise .truncated s')
  | (some b, s') =>
    match nodeAt s'.node s'.cur with
    | none => .fault .nodeIndex
    | some nd =>
      let c := if b = 0 then nd.left else nd.right
      match nodeAt s'.node c with
      | none => .fault .nodeIndex
      | some child =>
        let s1 := { s' with cur := c }
        if child.leaf then
          if child.value = Config.eos then .next (finishBody s1) else .next (goto .decWrite s1)
        else .next s1

/-- The `WriteBits(8, NODE[CUR].VALUE[7:0])` of DECODE; CUR goes back to the root (R251, R254). -/
def decWrite (s : State) : Result :=
  match nodeAt s.node s.cur with
  | none => .fault .nodeIndex
  | some nd =>
    .next (goto .decRead
      { countSym (writeBits 8 (nd.value.setWidth 8 : Byte).toNat s) with cur := s.root })

end Sys2Proof.Machine
end

