-- ==== Sys2Proof/Machine/Genlut.lean ====
section
/-! DEFINITION. The code-table generator, body of GENLUT (43_codetable.md R200, R201). -/

namespace Sys2Proof.Machine

/-- The path of the next node in preorder after a leaf, deepest step first: steps to a right child are backed out of, and
the deepest step to a left child becomes one to its sibling ("backtrack by truncating the trailing bit", R200, R201). -/
def backtrack : Bits → Bits
  | [] => []
  | true :: p => backtrack p
  | false :: p => true :: p

/-- The start of GENLUT: the table is emptied and the walk begins at the root (R200). -/
def genlutEnter (s : State) : Result :=
  let s' := start .genlut .genlutVisit s
  .next { s' with
    status := { s'.status with lutValid := false }
    lut := Vector.replicate 257 []
    stk := [s.root]
    path := [] }

/-- One `Visit` of GENLUT: at a leaf its path is its code; at an internal node the left subtree comes before the right
(R200, R201). -/
def genlutVisit (s : State) : Result :=
  match s.stk with
  | [] => .fault .stackEmpty
  | i :: stk =>
    match nodeAt s.node i with
    | none => .fault .nodeIndex
    | some nd =>
      if nd.leaf then
        if nd.value ≤ Config.eos then
          let s' := { s with lut := setLut s.lut nd.value s.path.reverse, stk := stk, path := backtrack s.path }
          match stk with
          | [] => .next (finishBody { s' with status := { s'.status with lutValid := true } })
          | _ :: _ => .next s'
        else .fault .lutIndex
      else .next { s with stk := nd.left :: nd.right :: stk, path := false :: s.path }

end Sys2Proof.Machine
end

