-- ==== Sys2Proof/Machine/Lifecycle.lean ====
section
/-! DEFINITION. CLEAR (40_lifecycle.md R159) and the precondition check (R153). -/

namespace Sys2Proof.Machine

/-- The start of CLEAR (R159). -/
def clearEnter (s : State) : Result := .next (start .clear .clearRun s)

/-- The statements of CLEAR (R159). -/
def clearRun (s : State) : Result := .next (finishBody { dropTree s with freq := Vector.replicate 256 0 })

/-- What a command needs at acceptance (R153). -/
inductive Precondition where
  | none | tree | lut
  deriving DecidableEq, Repr

/-- The precondition check, in phase CHECK, before any port transaction (R153). -/
def Precondition.fails (p : Precondition) (s : State) : Option ErrCode :=
  match p with
  | .none => .none
  | .tree => if s.status.treeValid then .none else some .noTree
  | .lut => if s.status.lutValid then .none else some .noLut

end Sys2Proof.Machine
end

