-- ==== Sys2Proof/Machine/Serdes.lean ====
section
/-! DEFINITION. The tree serializer and deserializer, bodies of SERIALIZE (44_serdes.md R210) and DESERIALIZE (R212). -/

namespace Sys2Proof.Machine

/-- The start of SERIALIZE: the walk begins at the root (R210). -/
def serializeEnter (s : State) : Result := .next { start .serialize .serVisit s with stk := [s.root] }

/-- One control bit of SERIALIZE: 1 for a leaf, whose id follows; 0 for an internal node, left subtree first (R210). -/
def serVisit (s : State) : Result :=
  match s.stk with
  | [] => .fault .stackEmpty
  | i :: stk =>
    match nodeAt s.node i with
    | none => .fault .nodeIndex
    | some nd =>
      if nd.leaf then .next (goto (.serId nd.value) (writeBits 1 1 { s with stk := stk }))
      else .next (writeBits 1 0 { s with stk := nd.left :: nd.right :: stk })

/-- One id field of SERIALIZE; the walk ends when no node is left to visit (R210). -/
def serId (value : Sym) (s : State) : Result :=
  match s.stk with
  | [] => .next (finishBody (writeBits 9 value.toNat s))
  | _ :: _ => .next (goto .serVisit (writeBits 9 value.toNat s))

/-- The start of DESERIALIZE: the old tree is dropped (R212). -/
def deserializeEnter (s : State) : Result :=
  .next { dropTree (start .deserialize (.desBit 0) s) with stk := [] }

/-- `Fail(code)`: the counts go back to 0 and the command ends (R212, R219). The recursion is abandoned. -/
def desFail (code : ErrCode) (s : State) : State :=
  raise code { s with leafCount := 0#9, nodeCount := 0#10, root := 0#10, stk := [] }

/-- The returns of `Des()` after a subtree with root `j` is complete: `stk` holds the internal nodes still waiting for a
child, innermost first. A node waits for its left child exactly when the subtree returned is numbered just after it (R213).
Answers the node memory, the nodes still waiting, and the root when none is left. -/
def desReturn : List Idx → Idx → Vector Node 513 → Vector Node 513 × List Idx × Option Idx
  | [], j, node => (node, [], some j)
  | i :: stk, j, node =>
    if j = i + 1#10 then (node, i :: stk, none)
    else desReturn stk i (setNode node i.toNat (innerNode 0 (i + 1#10) j))

/-- After a leaf `i` is made: the returns, and at the end of the tree the check that the root is no leaf (R212, R218). -/
def desLeafDone (nleaf : Nat) (i : Idx) (s : State) : Result :=
  match desReturn s.stk i s.node with
  | (node, stk, none) => .next (goto (.desBit nleaf) { s with node := node, stk := stk })
  | (node, _, some r) =>
    match nodeAt node r with
    | none => .fault .nodeIndex
    | some nd =>
      if nd.leaf then .next (desFail .badTree { s with node := node })
      else
        .next (finishBody { s with
          node := node, stk := [], root := r, leafCount := BitVec.ofNat 9 nleaf
          status := { s.status with treeValid := true } })

/-- One control bit of DESERIALIZE (R212, R215, R217): 1 begins a leaf, 0 makes an internal node whose children follow. -/
def desBit (nleaf : Nat) (s : State) : Result :=
  match readBits 1 s with
  | (none, s') => .next (desFail .truncated s')
  | (some b, s') =>
    if s'.nodeCount = BitVec.ofNat 10 Config.nodeCap then .next (desFail .badTree s')
    else
      let i := s'.nodeCount
      if i.toNat < Config.nodeCap then
        let s1 := { s' with nodeCount := i + 1#10 }
        if b = 1 then .next (goto (.desId nleaf i) s1)
        else
          .next (goto (.desBit nleaf)
            { s1 with
              node := setNode s1.node i.toNat (innerNode 0 Config.noneIdx Config.noneIdx)
              stk := i :: s1.stk })
      else .fault .nodeIndex

/-- One id field of DESERIALIZE (R212, R215, R216). -/
def desId (nleaf : Nat) (i : Idx) (s : State) : Result :=
  match readBits 9 s with
  | (none, s') => .next (desFail .truncated s')
  | (some v, s') =>
    if 256 < v then .next (desFail .badTree s')
    else desLeafDone (nleaf + 1) i { s' with node := setNode s'.node i.toNat (leafNode (BitVec.ofNat 9 v) 1) }

end Sys2Proof.Machine
end

