-- ==== Sys2Proof/Machine/Sequencer.lean ====
section
/-! DEFINITION. The command sequencer (10_state.md R52, 40_lifecycle.md R150 to R158): its port requests, one move, a run of
moves, and running a command. -/

namespace Sys2Proof.Machine

/-- A port request, `src_req` or `snk_req` (R100). -/
inductive PortReq where
  | read (n : Nat)
  | restart
  | write (n v : Nat)
  deriving DecidableEq, Repr

/-- The request the block holds at its position: the next port primitive of the procedure (R10, R91, R92, R100); none when
the next move has no port primitive. -/
def State.request (s : State) : Option PortReq :=
  match s.seq.pos with
  | .none => none
  | .enter _ => none
  | .peekRead => some (.read 8)
  | .restartSource => some .restart
  | .countRead _ => some (.read 8)
  | .buildMerge _ _ => none
  | .genlutVisit => none
  | .headerWrite => some (.write 32 Config.magic.toNat)
  | .serVisit =>
    match s.stk with
    | [] => none
    | i :: _ => (nodeAt s.node i).map fun nd => .write 1 nd.leaf.toNat
  | .serId v => some (.write 9 v.toNat)
  | .encRead => some (.read 8)
  | .encEmit rest _ => some (.write (min 32 rest.length) (valOf (rest.take (min 32 rest.length))))
  | .magicRead => some (.read 32)
  | .desBit _ => some (.read 1)
  | .desId _ _ => some (.read 9)
  | .decRead => some (.read 1)
  | .decWrite => (nodeAt s.node s.cur).map fun nd => .write 8 (nd.value.setWidth 8 : Byte).toNat
  | .clearRun => none

/-- The block waits: it holds a request that the agent does not answer (R93). -/
def State.waiting (s : State) : Bool :=
  match s.request with
  | none => false
  | some (.read _) => !s.src.ready
  | some .restart => !s.src.ready
  | some (.write _ _) => !s.snk.ready

/-- The start of a body (R154). -/
def enterBody (b : Body) (s : State) : Result :=
  match b with
  | .peek => peekEnter s
  | .restart => restartEnter s
  | .count => countEnter s
  | .build => buildEnter s
  | .genlut => genlutEnter s
  | .header => headerEnter s
  | .serialize => serializeEnter s
  | .encode => encodeEnter s
  | .checkMagic => checkMagicEnter s
  | .deserialize => deserializeEnter s
  | .decode => decodeEnter s
  | .clear => clearEnter s

/-- One move of the sequencer, when it does not wait (R10, R52). -/
def move (s : State) : Result :=
  match s.seq.pos with
  | .none => .fault .noPosition
  | .enter b => enterBody b s
  | .peekRead => peekRead s
  | .restartSource => restartRun s
  | .countRead counted => countRead counted s
  | .buildMerge leaves next => buildMerge leaves next s
  | .genlutVisit => genlutVisit s
  | .headerWrite => headerWrite s
  | .serVisit => serVisit s
  | .serId v => serId v s
  | .encRead => encRead s
  | .encEmit rest last => encEmit rest last s
  | .magicRead => magicRead s
  | .desBit nleaf => desBit nleaf s
  | .desId nleaf i => desId nleaf i s
  | .decRead => decRead s
  | .decWrite => decWrite s
  | .clearRun => clearRun s

/-- No move is possible: no command is in progress, or the block waits for an agent (R93, R295). -/
def State.halted (s : State) : Bool := !s.status.busy || s.waiting

/-- Up to `n` moves of the sequencer, as long as a move is possible. -/
def drive : Nat → State → Result
  | 0, s => .next s
  | n + 1, s =>
    if s.halted then .next s
    else
      match move s with
      | .next s' => drive n s'
      | .fault r => .fault r
      | .refused r => .refused r

/-- How many moves fit in one step: `pace`, or with no pace enough to end any command the source's length allows (R160; log
entries 1 and 21). -/
def State.quantum (s : State) : Nat := s.pace.getD (2 * s.src.bits.length + 4096)

/-- The sequencer's part of a step. -/
def settle (s : State) : Result := drive s.quantum s

/-- Running a command: discarded while BUSY (R151); else accepted (R150), checked (R153), and its bodies run in order
(R154). The legality check of R152 is the decoder's. -/
def runCommand (op : Instr) (pre : Precondition) (first : Body) (rest : List Body) (s : State) : Result :=
  if s.status.busy then settle (discard s)
  else
    let s' := accept op.opcode s
    match pre.fails s' with
    | some e => .next (raise e s')
    | none => settle { s' with seq := { op := some op, pos := .enter first, rest := rest } }

/-- A word that is no command: discarded while BUSY (R151); else accepted and ended at once with ILLEGAL_CMD in phase CHECK
(R152). -/
def illegalCommand (w : Word) (s : State) : Result :=
  if s.status.busy then settle (discard s) else .next (raise .illegalCmd (accept (w.extractLsb' 0 8) s))

end Sys2Proof.Machine
end

