-- ==== Sys2Proof/Machine/Commands.lean ====
section
/-! DEFINITION. The meaning of each command of 30_encoding.md R111: its precondition (40_lifecycle.md R153) and its
bodies. -/

namespace Sys2Proof.Machine

/-- COMPRESS (R236): the eight steps; no precondition. -/
def execCompress (s : State) : Result :=
  runCommand .compress .none .peek [.restart, .count, .build, .genlut, .header, .serialize, .restart, .encode] s

/-- DECOMPRESS (R256): the three steps; no precondition, no restart (R257). -/
def execDecompress (s : State) : Result := runCommand .decompress .none .checkMagic [.deserialize, .decode] s

/-- CLEAR (R159). -/
def execClear (s : State) : Result := runCommand .clear .none .clear [] s

/-- RESTART (R230). -/
def execRestart (s : State) : Result := runCommand .restart .none .restart [] s

/-- COUNT (R170). -/
def execCount (s : State) : Result := runCommand .count .none .count [] s

/-- BUILD (R180). -/
def execBuild (s : State) : Result := runCommand .build .none .build [] s

/-- GENLUT (R200): needs a valid tree. -/
def execGenlut (s : State) : Result := runCommand .genlut .tree .genlut [] s

/-- HEADER (R231). -/
def execHeader (s : State) : Result := runCommand .header .none .header [] s

/-- SERIALIZE (R210): needs a valid tree. -/
def execSerialize (s : State) : Result := runCommand .serialize .tree .serialize [] s

/-- ENCODE (R232): needs a valid code table. -/
def execEncode (s : State) : Result := runCommand .encode .lut .encode [] s

/-- CHECKMAGIC (R250). -/
def execCheckmagic (s : State) : Result := runCommand .checkmagic .none .checkMagic [] s

/-- DESERIALIZE (R212). -/
def execDeserialize (s : State) : Result := runCommand .deserialize .none .deserialize [] s

/-- DECODE (R251): needs a valid tree. -/
def execDecode (s : State) : Result := runCommand .decode .tree .decode [] s

end Sys2Proof.Machine
end

