-- ==== Sys2Proof/Machine/Dispatch.lean ====
section
/-! DEFINITION. The dispatch of 40_lifecycle.md R154: one arm per command of 30_encoding.md R111. -/

namespace Sys2Proof.Machine

def exec (i : Instr) (s : State) : Host.Outcome State Fault Refusal :=
  match i with
  | .compress => Sys2Proof.Machine.execCompress s
  | .decompress => Sys2Proof.Machine.execDecompress s
  | .clear => Sys2Proof.Machine.execClear s
  | .restart => Sys2Proof.Machine.execRestart s
  | .count => Sys2Proof.Machine.execCount s
  | .build => Sys2Proof.Machine.execBuild s
  | .genlut => Sys2Proof.Machine.execGenlut s
  | .header => Sys2Proof.Machine.execHeader s
  | .serialize => Sys2Proof.Machine.execSerialize s
  | .encode => Sys2Proof.Machine.execEncode s
  | .checkmagic => Sys2Proof.Machine.execCheckmagic s
  | .deserialize => Sys2Proof.Machine.execDeserialize s
  | .decode => Sys2Proof.Machine.execDecode s

end Sys2Proof.Machine
end

