-- ==== Sys2Proof/Machine/Bus.lean ====
section
/-! DEFINITION. The CSR window: the register map (10_state.md section 2), the window registers (R38, R39, R41, R46) and
one host access (20_memory.md R80 to R85). -/

namespace Sys2Proof.Machine

/-- The registers of the map (10_state.md section 2). -/
inductive Csr where
  | id | param | magic | cmd | status | ctrl | irq | rdBits | wrBits | syms | leafCount | nodeCount | root
  | freqIdx | freqData | lutIdx | lutLen
  | lutCode (k : Fin 8)
  | nodeIdx | nodeInfo | nodeChild | nodeWlo | nodeWhi
  deriving DecidableEq, Repr

/-- The byte offset of each register in the window. -/
def Csr.offset : Csr → BitVec 12
  | .id => 0x000#12
  | .param => 0x004#12
  | .magic => 0x008#12
  | .cmd => 0x010#12
  | .status => 0x014#12
  | .ctrl => 0x018#12
  | .irq => 0x01C#12
  | .rdBits => 0x020#12
  | .wrBits => 0x024#12
  | .syms => 0x028#12
  | .leafCount => 0x02C#12
  | .nodeCount => 0x030#12
  | .root => 0x034#12
  | .freqIdx => 0x040#12
  | .freqData => 0x044#12
  | .lutIdx => 0x050#12
  | .lutLen => 0x054#12
  | .lutCode k => 0x060#12 + 4#12 * BitVec.ofNat 12 k.val
  | .nodeIdx => 0x080#12
  | .nodeInfo => 0x084#12
  | .nodeChild => 0x088#12
  | .nodeWlo => 0x08C#12
  | .nodeWhi => 0x090#12

/-- Every register of the map. -/
def Csr.all : List Csr :=
  [.id, .param, .magic, .cmd, .status, .ctrl, .irq, .rdBits, .wrBits, .syms, .leafCount, .nodeCount, .root,
    .freqIdx, .freqData, .lutIdx, .lutLen,
    .lutCode 0, .lutCode 1, .lutCode 2, .lutCode 3, .lutCode 4, .lutCode 5, .lutCode 6, .lutCode 7,
    .nodeIdx, .nodeInfo, .nodeChild, .nodeWlo, .nodeWhi]

/-- The register at an offset; unmapped offsets have none (R82). -/
def Csr.ofOffset (off : BitVec 12) : Option Csr := Csr.all.find? fun r => r.offset == off

/-- The register an access reaches: only 32-bit accesses at mapped offsets, which are all multiples of 4, reach one (R81,
R82). -/
def Access.target (a : Access) : Option Csr :=
  match a.size with
  | .bits32 => Csr.ofOffset a.offset
  | .bits8 => none
  | .bits16 => none

/-- `CSR_BASE`, a multiple of 4096 (R80). -/
def csrBase : Nat := 4096 * Config.csrPage

/-- The window offset of a platform address, if the block answers it (R80). -/
def offsetOfAddress (addr : Nat) : Option (BitVec 12) :=
  if csrBase ≤ addr ∧ addr < csrBase + 4096 then some (BitVec.ofNat 12 (addr - csrBase)) else none

/-- PARAM: CNT_W, SYM_W, NODE_CAP (R22). -/
def paramWord (cntW : Fin (Config.cntMax + 1)) : Word :=
  (0#6 : BitVec 6) ++ BitVec.ofNat 10 Config.nodeCap ++ BitVec.ofNat 8 Config.symW ++ BitVec.ofNat 8 cntW.val

/-- The code of the symbol LUT_IDX selects, when the window shows one (R46). -/
def windowCode (s : State) : Option Bits :=
  if s.status.lutValid then lutAt s.lut s.lutIdx else none

/-- LUT_LEN while BUSY = 0 (R46). -/
def lutLenWord (s : State) : Word :=
  match windowCode s with
  | some c => (BitVec.ofNat 9 c.length).setWidth 32
  | none => 0#32

/-- The 32 bits of a code from bit `32k` on, zeros past its end (R46, 30_encoding.md R125). -/
def codeSlice (code : Bits) (k : Nat) : Bits := (List.range 32).map fun j => code.getD (32 * k + j) false

/-- LUT_CODEk while BUSY = 0: the code left-aligned, its first bit in bit 31 of LUT_CODE0 (R46). -/
def lutCodeWord (k : Nat) (s : State) : Word :=
  match windowCode s with
  | some c => BitVec.ofNat 32 (valOf (codeSlice c k))
  | none => 0#32

/-- The entry NODE_IDX selects, when it is a valid one (R41, R44). -/
def windowNode (s : State) : Option Node :=
  if s.status.treeValid && decide (s.nodeIdx < s.nodeCount) then nodeAt s.node s.nodeIdx else none

/-- NODE_INFO of an entry (R41). -/
def Node.infoWord (nd : Node) : Word := (1#1 : BitVec 1) ++ 0#21 ++ BitVec.ofBool nd.leaf ++ nd.value

/-- NODE_CHILD of an entry (R41). -/
def Node.childWord (nd : Node) : Word := (0#6 : BitVec 6) ++ nd.right ++ 0#6 ++ nd.left

/-- NODE_WLO of an entry (R41). -/
def Node.wloWord (nd : Node) : Word := nd.weight.setWidth 32

/-- NODE_WHI of an entry (R41). -/
def Node.whiWord (nd : Node) : Word := (nd.weight >>> 32).setWidth 32

/-- A node-window register while BUSY = 0: 0 for any entry that is not valid (R41, R44). -/
def nodeWindow (f : Node → Word) (s : State) : Word :=
  match windowNode s with
  | some nd => f nd
  | none => 0#32

/-- A window register: its value while BUSY = 0, a free value while BUSY = 1 (R38, R39, R41, U1). -/
def readWindow (v : Word) (s : State) : Word × State := if s.status.busy then drawWord s else (v, s)

/-- A counter register: exact while BUSY = 0, some value it held since acceptance while BUSY = 1 (R309, U2). -/
def readCounter (c : Counter) (s : State) : Word × State := if s.status.busy then drawHeld c s else (c.now, s)

/-- Reading a register. No read has a side effect on the machine (R83): only the model's count of free values moves. -/
def csrRead (r : Csr) (s : State) : Word × State :=
  match r with
  | .id => (0x48554646#32, s)
  | .param => (paramWord s.cntW, s)
  | .magic => (Config.magic, s)
  | .cmd => (0#32, s)
  | .status => (s.status.pack, s)
  | .ctrl => ((BitVec.ofBool s.irqEn).setWidth 32, s)
  | .irq => ((BitVec.ofBool s.pend).setWidth 32, s)
  | .rdBits => readCounter s.rdBits s
  | .wrBits => readCounter s.wrBits s
  | .syms => readCounter s.syms s
  | .leafCount => (s.leafCount.setWidth 32, s)
  | .nodeCount => (s.nodeCount.setWidth 32, s)
  | .root => (s.root.setWidth 32, s)
  | .freqIdx => (s.freqIdx.setWidth 32, s)
  | .freqData => readWindow ((freqAt s.freq s.freqIdx).setWidth 32) s
  | .lutIdx => (s.lutIdx.setWidth 32, s)
  | .lutLen => readWindow (lutLenWord s) s
  | .lutCode k => readWindow (lutCodeWord k.val s) s
  | .nodeIdx => (s.nodeIdx.setWidth 32, s)
  | .nodeInfo => readWindow (nodeWindow Node.infoWord s) s
  | .nodeChild => readWindow (nodeWindow Node.childWord s) s
  | .nodeWlo => readWindow (nodeWindow Node.wloWord s) s
  | .nodeWhi => readWindow (nodeWindow Node.whiWord s) s

/-- Writing a register other than CMD; a write to a read-only register changes nothing (R83). CMD's writes are commands
(R24, R150) and are taken in `step`. -/
def csrWrite (r : Csr) (v : Word) (s : State) : State :=
  match r with
  | .ctrl => { s with irqEn := v.getLsbD 0 }
  | .irq => { s with pend := nextPend false (v.getLsbD 0) s.pend }
  | .freqIdx => { s with freqIdx := v.setWidth 8 }
  | .freqData => if s.status.busy then s else { s with freq := setFreq s.freq s.freqIdx (countOfWord s.cntW v) }
  | .lutIdx => { s with lutIdx := v.setWidth 9 }
  | .nodeIdx => { s with nodeIdx := v.setWidth 10 }
  | .id => s
  | .param => s
  | .magic => s
  | .cmd => s
  | .status => s
  | .rdBits => s
  | .wrBits => s
  | .syms => s
  | .leafCount => s
  | .nodeCount => s
  | .root => s
  | .lutLen => s
  | .lutCode _ => s
  | .nodeInfo => s
  | .nodeChild => s
  | .nodeWlo => s
  | .nodeWhi => s

/-- The bus answers the host (R100). -/
def respond (r : Response) (s : State) : State := { s with response := some r }

/-- What an access gets while `rst_n = 0`: no answer, or a bus error (R300, log entry 14). -/
def resetResponse : Response := if Config.resetAnswersBusError then .busError else .noAnswer

/-- One access that is not an accepted write of CMD: refused by the bus with no effect when it reaches no register (R81,
R82, R280) or while `rst_n = 0` (R300). -/
def busAccess (a : Access) (s : State) : State :=
  if s.rstN then
    match a.target with
    | none => respond .busError s
    | some r =>
      if a.write then respond .done (csrWrite r a.data s)
      else respond (.data (csrRead r s).1) (csrRead r s).2
  else respond resetResponse s

/-- The bus write of a command word (R110). -/
def cmdWrite (w : Word) : Access := { write := true, offset := Csr.cmd.offset, size := .bits32, data := w }

/-- The word an access presents to the sequencer: the data of a write of CMD that the bus takes (R24, R99). -/
def Access.command (a : Access) (s : State) : Option Word :=
  if s.rstN && a.write && a.target == some .cmd then some a.data else none

end Sys2Proof.Machine
end

