-- ==== Sys2Proof/Machine/Events.lean ====
section
/-! DEFINITION. What the outside world does to the machine, apart from writing a command word: accesses, `rst_n`, and the
agents behind the ports (20_memory.md R86 to R95, 60_exceptions.md R284, 70_reset_and_hazards.md R300 to R312). -/

namespace Sys2Proof.Machine

/-- The level of `rst_n`: while it is 0, and when it returns to 1, every piece of state has its reset value (R300, R301). -/
def resetPin (level : Bool) (s : State) : State :=
  if level && s.rstN then s else blockReset level s

/-- The source presents other bits; its cursor stays inside them (R53, R310, log entry 17). -/
def Source.present (bits : Bits) (r : Source) : Source := { r with bits := bits, pos := min r.pos bits.length }

/-- The platform attaches a source positioned at bit `pos`, at most its end (R53, R305, R306). -/
def Source.attach (bits : Bits) (pos : Nat) (r : Source) : Source :=
  { r with bits := bits, pos := min pos bits.length }

/-- Another agent uses a stream between commands. -/
def foreignUse (u : StreamUse) (s : State) : State :=
  match u with
  | .readSource n => { s with src := (s.src.read n).2 }
  | .restartSource => { s with src := s.src.restart }
  | .writeSink bits => { s with snk := { s.snk with bits := s.snk.bits ++ bits } }

/-- An agent other than the block uses or repositions a stream: not defined while a command runs (R311, U6). -/
def exclusive (s : State) (t : State) : Result := if s.status.busy then .refused .sharedStream else .next t

/-- One outside event that is not an accepted write of CMD. -/
def serve (e : Event) (s : State) : Result :=
  match e with
  | .access a => .next (busAccess a s)
  | .rst level => .next (resetPin level s)
  | .sourceReady b => .next { s with src := { s.src with ready := b } }
  | .sinkReady b => .next { s with snk := { s.snk with ready := b } }
  | .attach bits pos => exclusive s { s with src := s.src.attach bits pos }
  | .sourceChanges bits => .next { s with src := s.src.present bits }
  | .foreign u => exclusive s (foreignUse u s)
  | .pace p => .next { s with pace := p }

/-- The command word an event writes to CMD, if it does (R150, R151). -/
def Event.command (e : Event) (s : State) : Option Word :=
  match e with
  | .access a => a.command s
  | .rst _ => none
  | .sourceReady _ => none
  | .sinkReady _ => none
  | .attach _ _ => none
  | .sourceChanges _ => none
  | .foreign _ => none
  | .pace _ => none

/-- After an event, the sequencer's part of the step. -/
def thenSettle (r : Result) : Result :=
  match r with
  | .next s => settle s
  | .fault f => .fault f
  | .refused f => .refused f

/-- The machine ready to take the command word `w` in its next step: the host's write of it comes first, out of reset and
with no command in progress. -/
def placeCommand (w : Word) (s : State) : State :=
  { s with
    pending := .access (cmdWrite w) :: s.pending
    rstN := true
    status := { s.status with busy := false } }

end Sys2Proof.Machine
end

