-- ==== Sys2Proof/Machine/Step.lean ====
section
/-! DEFINITION. One step of the machine: the outside world's next event is served, then the sequencer makes its moves. A
command is the data of one CMD write (20_memory.md R99): it is decoded and its meaning is run. -/

namespace Sys2Proof.Machine

/-- A command word taken from the bus: decoded, then run, or ended as illegal (R110, R152). -/
def runWord (w : Word) (s : State) : Host.Outcome State Fault Refusal :=
  match decode w with
  | .ok i => exec i s
  | .error _ => illegalCommand w s

/-- One step. With no event pending the sequencer goes on alone; while no command runs it does nothing (R295). -/
def step (s : State) : Host.Outcome State Fault Refusal :=
  match s.pending with
  | [] => settle s
  | e :: es =>
    match e.command s with
    | some w => runWord w (respond .done { s with pending := es })
    | none => thenSettle (serve e { s with pending := es })

/-- The machine about to take the command whose bits are `w`: the host's write of it to CMD is the next event. -/
def State.withFetchWord (s : State) (nbits w : Nat) : State := placeCommand (tableWord nbits w) s

end Sys2Proof.Machine
end

