-- ==== Sys2Proof/Safety.lean ====
section
/-! DEFINITION. The terms claims are made in: idle states, the bytes of a stream, code trees and the node memory that holds
one (10_state.md R43), the compressed stream (30_encoding.md R114 to R121), and the coherence every step keeps. -/

namespace Sys2Proof.Machine

/-! ### When a command runs to its end in one step -/

/-- No command is in progress, both agents answer (R321), and no pace is set, so a command's moves all fall in the step that
issues it. -/
def State.Quiet (s : State) : Prop :=
  s.status.busy = false ∧ s.src.ready = true ∧ s.snk.ready = true ∧ s.pace = none

/-- How a command ended successfully: DONE, PHASE 0, IRQ.PEND, no command (R155). -/
def State.Completed (op : Instr) (t : State) : Prop :=
  t.status.busy = false ∧ t.status.done = true ∧ t.status.error = false ∧ t.status.ovr = false
    ∧ t.status.errCode = .none ∧ t.status.phase = .idle ∧ t.status.lastOp = op.opcode ∧ t.pend = true ∧ t.seq = Seq.idle

/-- How a command ended with an error: ERROR, its code, the failing step's PHASE, IRQ.PEND, no command (R156, R273). -/
def State.Failed (op : Instr) (e : ErrCode) (p : Phase) (t : State) : Prop :=
  t.status.busy = false ∧ t.status.done = false ∧ t.status.error = true ∧ t.status.ovr = false
    ∧ t.status.errCode = e ∧ t.status.phase = p ∧ t.status.lastOp = op.opcode ∧ t.pend = true ∧ t.seq = Seq.idle

/-- The command's precondition holds (R153). -/
def State.Ready (s : State) (i : Instr) : Prop :=
  (i = .genlut ∨ i = .serialize ∨ i = .decode → s.status.treeValid = true)
    ∧ (i = .encode → s.status.lutValid = true)

/-- Commands issued one after another, each when the one before has ended (R307, R308). -/
def runAll : List Instr → State → Result
  | [], s => .next s
  | i :: is, s =>
    match exec i s with
    | .next t => runAll is t
    | .fault f => .fault f
    | .refused f => .refused f

/-! ### Bytes of a stream -/

/-- A byte as its 8 bits, most significant first (R94). -/
def byteBits (b : Byte) : Bits := bitsOf 8 b.toNat

/-- The bits of a byte string. -/
def bytesBits (x : List Byte) : Bits := x.flatMap byteBits

/-- From its position on, the source holds the bytes `x` and then fewer than 8 bits (R94, R174). -/
def State.SourceHolds (s : State) (x : List Byte) : Prop :=
  s.src.pos ≤ s.src.bits.length ∧ ∃ tail, s.src.bits.drop s.src.pos = bytesBits x ++ tail ∧ tail.length < 8

/-- From its position on, the source holds `bits` and then anything. -/
def State.SourceAt (s : State) (bits : Bits) : Prop :=
  s.src.pos ≤ s.src.bits.length ∧ ∃ tail, s.src.bits.drop s.src.pos = bits ++ tail

/-- From its position on, the source holds exactly `bits`. -/
def State.SourceIs (s : State) (bits : Bits) : Prop :=
  s.src.pos ≤ s.src.bits.length ∧ s.src.bits.drop s.src.pos = bits

/-! ### Code trees -/

/-- A code tree: its shape and its leaves' symbol ids (00_scope.md R12). -/
inductive Tree where
  | leaf (value : Sym)
  | inner (left right : Tree)
  deriving DecidableEq, Repr

/-- The number of nodes. -/
def Tree.size : Tree → Nat
  | .leaf _ => 1
  | .inner l r => l.size + r.size + 1

/-- The leaves' values from left to right (R201, R211). -/
def Tree.leaves : Tree → List Sym
  | .leaf v => [v]
  | .inner l r => l.leaves ++ r.leaves

/-- The tree is no single leaf (R43 item 2, R218). -/
def Tree.isInner : Tree → Bool
  | .leaf _ => false
  | .inner _ _ => true

/-- The preorder bit-encoding of a tree (R116). -/
def Tree.serial : Tree → Bits
  | .leaf v => true :: bitsOf 9 v.toNat
  | .inner l r => false :: (l.serial ++ r.serial)

/-- Each leaf's value with its code, the branch bits on the way from the root, from left to right (R120, R201). -/
def Tree.codes : Tree → List (Sym × Bits)
  | .leaf v => [(v, [])]
  | .inner l r =>
    (l.codes.map fun e => (e.1, false :: e.2)) ++ (r.codes.map fun e => (e.1, true :: e.2))

/-- The code GENLUT records for a symbol: the last leaf of that value in preorder wins (R203); no leaf, no code (R205). -/
def Tree.codeOf (t : Tree) (v : Sym) : Bits :=
  match (t.codes.filter fun e => e.1 == v).getLast? with
  | some e => e.2
  | none => []

/-- The code of a byte. -/
def Tree.byteCode (t : Tree) (b : Byte) : Bits := t.codeOf (b.setWidth 9)

/-- The node memory holds the tree `t` at index `i` (R42). -/
def Holds (node : Vector Node 513) : Idx → Tree → Prop
  | i, .leaf v => ∃ nd, nodeAt node i = some nd ∧ nd.leaf = true ∧ nd.value = v
  | i, .inner l r =>
    ∃ nd, nodeAt node i = some nd ∧ nd.leaf = false ∧ Holds node nd.left l ∧ Holds node nd.right r

/-- The node memory holds the valid tree `t` at ROOT: TREE_VALID, at most NODE_CAP nodes, symbol ids 0..256, a root that is
no leaf (R43). -/
def State.HoldsTree (s : State) (t : Tree) : Prop :=
  s.status.treeValid = true ∧ Holds s.node s.root t ∧ t.size ≤ 513 ∧ t.isInner = true
    ∧ ∀ v ∈ t.leaves, v ≤ Config.eos

/-- The LUT holds the code table of `t` (R200, R205). -/
def State.HoldsCodes (s : State) (t : Tree) : Prop :=
  s.status.lutValid = true ∧ ∀ v : Sym, v ≤ Config.eos → lutAt s.lut v = some (t.codeOf v)

/-- The children of the internal nodes below index `n`, each as often as it is one. -/
def childList (node : Vector Node 513) (n : Nat) : List Idx :=
  ((node.toList.take n).filter fun nd => !nd.leaf).flatMap fun nd => [nd.left, nd.right]

/-- The five items of R43 on the node memory, with `rank` bearing out "no cycles". -/
def State.ValidTree (s : State) : Prop :=
  (3 ≤ s.nodeCount.toNat ∧ s.nodeCount.toNat ≤ Config.nodeCap ∧ s.nodeCount.toNat + 1 = 2 * s.leafCount.toNat)
    ∧ (s.root < s.nodeCount ∧ ∃ nd, nodeAt s.node s.root = some nd ∧ nd.leaf = false)
    ∧ (∀ i nd, i < s.nodeCount → nodeAt s.node i = some nd → nd.leaf = true →
        nd.value ≤ Config.eos ∧ nd.left = Config.noneIdx ∧ nd.right = Config.noneIdx)
    ∧ (∀ i nd, i < s.nodeCount → nodeAt s.node i = some nd → nd.leaf = false →
        nd.value = Config.placeholder ∧ nd.left < s.nodeCount ∧ nd.right < s.nodeCount ∧ nd.left ≠ nd.right)
    ∧ (∀ i, i < s.nodeCount → (childList s.node s.nodeCount.toNat).count i = if i = s.root then 0 else 1)
    ∧ ∃ rank : Idx → Nat, ∀ i nd, i < s.nodeCount → nodeAt s.node i = some nd → nd.leaf = false →
        rank nd.left < rank i ∧ rank nd.right < rank i

/-- The control bits and id fields of a tree field read from `bits`: `cap` more nodes fit, `open` subtrees are still to be
read. Answers the error that ends the reading, if any, and the number of bits consumed (R212, R215 to R217). -/
def treeField : Nat → Nat → Bits → Option ErrCode × Nat
  | _, 0, _ => (none, 0)
  | _, _ + 1, [] => (some .truncated, 0)
  | 0, _ + 1, _ :: _ => (some .badTree, 1)
  | cap + 1, n + 1, false :: bits =>
    let r := treeField cap (n + 2) bits
    (r.1, r.2 + 1)
  | cap + 1, n + 1, true :: bits =>
    if bits.length < 9 then (some .truncated, 1)
    else if 256 < valOf (bits.take 9) then (some .badTree, 10)
    else
      let r := treeField cap n (bits.drop 9)
      (r.1, r.2 + 10)

/-- How DESERIALIZE of `bits` ends: as the tree field does, or with BAD_TREE when the field is a single leaf (R218). -/
def treeFieldEnd (bits : Bits) : Option ErrCode :=
  match (treeField Config.nodeCap 1 bits).1 with
  | some e => some e
  | none => if bits.head? = some true then some .badTree else none

/-- TREE_VALID and LUT_VALID tell the truth: the node memory holds a valid tree, of the size NODECOUNT and LEAFCOUNT say, and
the LUT its code table (R28, R37, R43). -/
def State.TablesOk (s : State) : Prop :=
  (s.status.lutValid = true → s.status.treeValid = true)
    ∧ (s.status.treeValid = true → s.ValidTree
        ∧ ∃ t, s.HoldsTree t ∧ s.nodeCount.toNat = t.size ∧ s.leafCount.toNat = t.leaves.length
            ∧ (s.status.lutValid = true → s.HoldsCodes t))

/-! ### Compressed streams -/

/-- The payload of the bytes `x` and the terminator, under the codes of `t` (R120, R121). -/
def Tree.payload (t : Tree) (x : List Byte) : Bits := x.flatMap t.byteCode ++ t.codeOf Config.eos

/-- The compressed stream of `x` under `t` (R114). -/
def Tree.stream (t : Tree) (x : List Byte) : Bits :=
  bitsOf 32 Config.magic.toNat ++ (t.serial ++ t.payload x)

/-- `t` is a code tree for the bytes `x`: its leaves are, each once, the byte values of `x` and the sentinel (R190). -/
def Tree.codesFor (t : Tree) (x : List Byte) : Prop :=
  t.leaves.Nodup ∧ ∀ v : Sym, v ∈ t.leaves ↔ v = Config.eos ∨ ∃ b ∈ x, v = b.setWidth 9

/-- What the decode state machine does on a bit string, at the subtree `cur` of the tree `root` (R251, R252): the bytes it
writes, the number of bits it reads, and whether it reached the sentinel's leaf (else the bits ran out). -/
def decodeFrom (root : Tree) : Tree → Bits → List Byte × Nat × Bool
  | _, [] => ([], 0, false)
  | .leaf _, _ :: _ => ([], 0, false)
  | .inner l r, b :: bs =>
    match (if b then r else l) with
    | .leaf v =>
      if v = Config.eos then ([], 1, true)
      else
        let rest := decodeFrom root root bs
        (v.setWidth 8 :: rest.1, rest.2.1 + 1, rest.2.2)
    | .inner l' r' =>
      let rest := decodeFrom root (.inner l' r') bs
      (rest.1, rest.2.1 + 1, rest.2.2)

/-! ### Weights and codes (42_build.md R187, 43_codetable.md R204) -/

/-- The weight BUILD gives a symbol's leaf: its count, and 1 for the sentinel (R180, R181). -/
def symWeight (freq : Vector Count 256) (v : Sym) : Nat :=
  if v = Config.eos then 1 else (freqAt freq (v.setWidth 8)).toNat

/-- `sum over leaves of WEIGHT * depth` (R187): the symbols' weights times the lengths of their codes. -/
def weightedLength (weight : Sym → Nat) (code : Sym → Bits) (symbols : List Sym) : Nat :=
  (symbols.map fun v => weight v * (code v).length).sum

/-- No code of these symbols is a prefix of another's (R204). -/
def PrefixFree (code : Sym → Bits) (symbols : List Sym) : Prop :=
  ∀ u ∈ symbols, ∀ v ∈ symbols, code u <+: code v → u = v

/-! ### Errors and frames -/

/-- The errors each command can raise (R272). -/
def errorsOf : Instr → List ErrCode
  | .compress => [.countOvf, .nosym, .noCode]
  | .decompress => [.format, .truncated, .badTree]
  | .clear => []
  | .restart => []
  | .count => [.countOvf]
  | .build => [.nosym]
  | .genlut => [.noTree]
  | .header => []
  | .serialize => [.noTree]
  | .encode => [.noLut, .noCode]
  | .checkmagic => [.format]
  | .deserialize => [.truncated, .badTree]
  | .decode => [.noTree, .truncated]

/-! ### Coherence -/

/-- The body a position is in (R52). -/
def Pos.body : Pos → Option Body
  | .none => Option.none
  | .enter b => some b
  | .peekRead => some .peek
  | .restartSource => some .restart
  | .countRead _ => some .count
  | .buildMerge _ _ => some .build
  | .genlutVisit => some .genlut
  | .headerWrite => some .header
  | .serVisit => some .serialize
  | .serId _ => some .serialize
  | .encRead => some .encode
  | .encEmit _ _ => some .encode
  | .magicRead => some .checkMagic
  | .desBit _ => some .deserialize
  | .desId _ _ => some .deserialize
  | .decRead => some .decode
  | .decWrite => some .decode
  | .clearRun => some .clear

/-- The position is past the start of its body. -/
def Pos.started : Pos → Bool
  | .none => false
  | .enter _ => false
  | _ => true

/-- The bodies not yet done, the current one first (R52). -/
def Seq.todo (q : Seq) : List Body := q.pos.body.toList ++ q.rest

/-- Run in order, with a valid tree (or not) and a valid code table (or not) now, these bodies find the tree and the code table
they read valid: BUILD and DESERIALIZE make a tree and drop the code table, CLEAR drops both, GENLUT makes a code table (R28,
R153). -/
def tablesSuffice : Bool → Bool → List Body → Bool
  | _, _, [] => true
  | tree, lut, b :: bs =>
    match b with
    | .build | .deserialize => tablesSuffice true false bs
    | .clear => tablesSuffice false false bs
    | .genlut => tree && tablesSuffice tree true bs
    | .serialize | .decode => tree && tablesSuffice tree lut bs
    | .encode => lut && tablesSuffice tree lut bs
    | .peek | .restart | .count | .header | .checkMagic => tablesSuffice tree lut bs

/-- The position is inside BUILD or DESERIALIZE, whose tree is not valid yet (R28). -/
def Pos.makesTree : Pos → Bool
  | .buildMerge _ _ => true
  | .desBit _ => true
  | .desId _ _ => true
  | _ => false

/-- The position is inside DESERIALIZE, where NODECOUNT counts the nodes so far (R37). -/
def Pos.deserializing : Pos → Bool
  | .desBit _ => true
  | .desId _ _ => true
  | _ => false

/-- BUSY, DONE, ERROR, ERRCODE and PHASE agree with the sequencer (R26, R27, R30, R52). -/
def State.StatusCoherent (s : State) : Prop :=
  (s.status.busy = false → s.seq = Seq.idle)
    ∧ (s.status.busy = true → s.seq.op.isSome = true ∧ s.seq.pos ≠ .none ∧ s.status.done = false
        ∧ s.status.error = false)
    ∧ (s.status.done = true → s.status.error = false ∧ s.status.phase = .idle)
    ∧ (s.status.error = false ↔ s.status.errCode = .none)
    ∧ (s.status.busy = false → s.status.error = false → s.status.phase = .idle)
    ∧ (s.seq.pos.started = true → ∃ b, s.seq.pos.body = some b ∧ s.status.phase = b.phase)

/-- TREE_VALID, LUT_VALID and the tree's counts agree with each other and with what the sequencer is doing (R28, R37). -/
def State.TreeCoherent (s : State) : Prop :=
  (s.status.lutValid = true → s.status.treeValid = true)
    ∧ (s.seq.pos.makesTree = true → s.status.treeValid = false)
    ∧ (s.seq.pos = .genlutVisit → s.status.lutValid = false)
    ∧ tablesSuffice s.status.treeValid s.status.lutValid s.seq.todo = true
    ∧ (s.status.treeValid = false → s.leafCount = 0#9 ∧ s.root = 0#10
        ∧ (s.nodeCount = 0#10 ∨ s.seq.pos.deserializing = true))

/-- SEL is empty except while BUILD runs (R47), a code being sent has a bit left (R233), the source's cursor is inside its
bits (R53), the block is idle while `rst_n` is 0 (R300), each counter's value is among those it held (R309), CNT_W is at least 1 (R5), and every
FREQ entry is a count of CNT_W bits (R40). -/
def State.RestCoherent (s : State) : Prop :=
  (s.sel = [] ∨ ∃ leaves next, s.seq.pos = .buildMerge leaves next)
    ∧ (∀ rest last, s.seq.pos = .encEmit rest last → rest ≠ [])
    ∧ s.src.pos ≤ s.src.bits.length
    ∧ (s.rstN = false → s.status.busy = false ∧ s.pend = false ∧ s.status.treeValid = false)
    ∧ (s.rdBits.now ∈ s.rdBits.held ∧ s.wrBits.now ∈ s.wrBits.held ∧ s.syms.now ∈ s.syms.held)
    ∧ (1 ≤ s.cntW.val ∧ ∀ b, (freqAt s.freq b).toNat < 2 ^ s.cntW.val)

/-- What every step keeps. -/
def State.Coherent (s : State) : Prop := s.StatusCoherent ∧ s.TreeCoherent ∧ s.RestCoherent

end Sys2Proof.Machine
end

