-- ==== Sys2Proof/Certificates/Slice0/Obligations.lean ====
section
/-! DEFINITION. The statements for the provers, one definition for each entry of OBLIGATIONS.json. A completion statement says
that a command issued in a quiet state (no command running, both agents answering, no pace set: `State.Quiet`) answers a
next state, and which. -/

open Sys2Proof Sys2Proof.Machine

/-! ### Encodings -/

/-- R110: a word selects a command exactly when it equals the command's OP, zero-extended; every other word is an error. -/
def Obligations.LegalWordsAreZeroExtendedOpcodes : Prop :=
  ∀ w : Word, (∀ i, decode w = .ok i ↔ w = i.opcode.setWidth 32)
    ∧ ((∀ i : Instr, w ≠ i.opcode.setWidth 32) → ∃ e, decode w = .error e)

/-- R111: the thirteen words of the opcode map, each with its command; and some words that are none (R112). -/
def Obligations.OpcodeMapWordsDecode : Prop :=
  decode 0x00000001#32 = .ok .compress ∧ decode 0x00000002#32 = .ok .decompress ∧ decode 0x00000003#32 = .ok .clear
    ∧ decode 0x00000010#32 = .ok .restart ∧ decode 0x00000011#32 = .ok .count ∧ decode 0x00000012#32 = .ok .build
    ∧ decode 0x00000013#32 = .ok .genlut ∧ decode 0x00000014#32 = .ok .header ∧ decode 0x00000015#32 = .ok .serialize
    ∧ decode 0x00000016#32 = .ok .encode ∧ decode 0x00000020#32 = .ok .checkmagic
    ∧ decode 0x00000021#32 = .ok .deserialize ∧ decode 0x00000022#32 = .ok .decode
    ∧ decode 0x00000000#32 = .error .unknownOpcode ∧ decode 0x00000101#32 = .error .reservedNonzero

/-- The encoder and the decoder agree, on words and on byte lanes (R84, R113), and every encoded word is a legal one. -/
def Obligations.EncodeThenDecode : Prop :=
  (∀ i : Instr, WellFormed.instr i = true ∧ decode (encode i) = .ok i ∧ WellFormed.legalWord (encode i) = true)
    ∧ ∀ w : Word, decodeBytes (lanesOf w) = decode w

/-! ### A step -/

/-- A step whose next event is the host's write of a legal word to CMD runs that command, the event taken and the bus answered
(20_memory.md R99, 40_lifecycle.md R154; that events wait in `pending` and the answer stands in `response` is the model's, log
entry 2). -/
def Obligations.StepRunsTheDecodedCommand : Prop :=
  ∀ (s : State) (es : List Event) (w : Word) (i : Instr), s.rstN = true → decode w = .ok i →
    step { s with pending := .access (cmdWrite w) :: es } = exec i (respond .done { s with pending := es })

/-- R152: an illegal word, written while no command runs, ends at once with ILLEGAL_CMD in phase CHECK, and nothing else
changes. -/
def Obligations.IllegalWordEndsAtOnce : Prop :=
  ∀ (s : State) (w : Word), s.status.busy = false →
    (w.extractLsb' 8 24 ≠ 0#24
      ∨ w.extractLsb' 0 8 ∉ [0x01#8, 0x02#8, 0x03#8, 0x10#8, 0x11#8, 0x12#8, 0x13#8, 0x14#8, 0x15#8, 0x16#8, 0x20#8,
          0x21#8, 0x22#8]) →
    runWord w s = .next
      { s with
        status :=
          { busy := false, done := false, error := true, empty := false, treeValid := s.status.treeValid
            lutValid := s.status.lutValid, ovr := false, errCode := .illegalCmd, phase := .check
            lastOp := w.extractLsb' 0 8 }
        rdBits := Counter.zero, wrBits := Counter.zero, syms := Counter.zero, pend := true, seq := Seq.idle }

/-- R151: a word written to CMD while a command runs is discarded and sets OVR; the bus write completes; the command goes on as
without it. -/
def Obligations.WordWhileBusyIsDiscarded : Prop :=
  ∀ (s t : State) (es : List Event) (w : Word), s.rstN = true → s.status.busy = true → settle s = .next t →
    step { s with pending := .access (cmdWrite w) :: es }
      = .next { t with status := { t.status with ovr := true }, response := some .done, pending := es }

/-- R150, R153: a command is accepted when no command runs. Its flags, ERRCODE, PHASE, LASTOP and counters are set; if its
precondition fails it ends at once with NO_TREE or NO_LUT in phase CHECK; else it is dispatched (seen here with a pace of no
moves). Nothing else changes. -/
def Obligations.AcceptanceAndPrecondition : Prop :=
  ∀ (s : State) (i : Instr), s.status.busy = false →
    (¬ s.Ready i → exec i s = .next
      { s with
        status :=
          { busy := false, done := false, error := true, empty := false, treeValid := s.status.treeValid
            lutValid := s.status.lutValid, ovr := false, errCode := if i = .encode then .noLut else .noTree
            phase := .check, lastOp := i.opcode }
        rdBits := Counter.zero, wrBits := Counter.zero, syms := Counter.zero, pend := true, seq := Seq.idle })
    ∧ (s.Ready i → s.pace = some 0 → ∃ q : Seq, q.op = some i ∧ exec i s = .next
      { s with
        status :=
          { busy := true, done := false, error := false, empty := false, treeValid := s.status.treeValid
            lutValid := s.status.lutValid, ovr := false, errCode := .none, phase := .check, lastOp := i.opcode }
        rdBits := Counter.zero, wrBits := Counter.zero, syms := Counter.zero, seq := q })

/-- R26, R30, R314: whenever a command issued while none runs answers a next state, STATUS there is this command's: LASTOP is
its opcode, and it is running, or done without an error, or ended with one. -/
def Obligations.StatusAfterCommandIsItsOwn : Prop :=
  ∀ (s t : State) (i : Instr), s.status.busy = false → exec i s = .next t →
    t.status.lastOp = i.opcode ∧ t.status.ovr = false
    ∧ ((t.status.busy = true ∧ t.status.done = false ∧ t.status.error = false ∧ t.status.errCode = .none)
      ∨ (t.status.busy = false ∧ t.status.done = true ∧ t.status.error = false ∧ t.status.errCode = .none
          ∧ t.status.phase = .idle)
      ∨ (t.status.busy = false ∧ t.status.done = false ∧ t.status.error = true ∧ t.status.errCode ≠ .none))

/-- R272: a command that ends with an error ends with one of its own errors, an illegal word with ILLEGAL_CMD. -/
def Obligations.ErrorsOfEachCommand : Prop :=
  (∀ (s t : State) (i : Instr), s.status.busy = false → exec i s = .next t → t.status.error = true →
    t.status.errCode ∈ errorsOf i)
  ∧ ∀ (s t : State) (w : Word) (e : DecodeError), s.status.busy = false → decode w = .error e → runWord w s = .next t →
    t.status.errCode = .illegalCmd

/-- R160, R28, R43: every command issued in a quiet state ends, done or with an error, when its source is finite and both agents
answer; and when the valid bits told the truth before it, they do after it. -/
def Obligations.EveryCommandEndsAndKeepsTablesValid : Prop :=
  ∀ (s : State) (i : Instr), s.Quiet → s.TablesOk → s.src.pos ≤ s.src.bits.length →
    ∃ t, exec i s = .next t ∧ t.status.busy = false ∧ t.status.done = !t.status.error ∧ t.TablesOk

/-- R277: IRQ.PEND is set by nothing but the end of a command, and by every end of one. -/
def Obligations.PendIsSetExactlyByCommandEnds : Prop :=
  (∀ s t : State, step s = .next t → s.pend = false → t.pend = true →
    t.status.busy = false ∧ (t.status.done = true ∨ t.status.error = true)
      ∧ (s.status.busy = true ∨ ∃ e es w, s.pending = e :: es ∧ e.command s = some w))
  ∧ (∀ s t : State, settle s = .next t → s.status.busy = true → t.status.busy = false → t.pend = true)
  ∧ ∀ (s t : State) (w : Word), runWord w s = .next t → t.status.busy = false → t.pend = true

/-- R32, R278: at any time a host write of IRQ with bit 0 = 1 clears PEND and one with bit 0 = 0 leaves it, a running command
going on as without it; with no command running nothing else changes; a set in the same cycle wins; bits [31:1] read 0; the
output is IRQ_EN and PEND (the model's steps order a set and a clear: log entry 22). -/
def Obligations.IrqPendAndOutput : Prop :=
  (∀ (s : State) (es : List Event) (v : Word), s.rstN = true → s.status.busy = false →
    step { s with pending := .access { write := true, offset := 0x01C#12, size := .bits32, data := v } :: es }
      = .next { s with pend := s.pend && !v.getLsbD 0, response := some .done, pending := es })
  ∧ (∀ (s t : State) (es : List Event) (v : Word), s.rstN = true →
    settle { s with pend := s.pend && !v.getLsbD 0 } = .next t →
    step { s with pending := .access { write := true, offset := 0x01C#12, size := .bits32, data := v } :: es }
      = .next { t with response := some .done, pending := es })
  ∧ (∀ clear pend : Bool, nextPend true clear pend = true)
  ∧ (∀ s : State, csrRead .irq s = (if s.pend then 1#32 else 0#32, s))
  ∧ ∀ s : State, s.rstN = true → s.irq = (s.irqEn && s.pend)

/-! ### The CSR window -/

/-- R25, R34 to R37: the bits of STATUS; ERRCODE shows the codes 0 to 9 of R271, PHASE the codes 0 to 13 of R27. A read of STATUS,
at any time, answers them; one of LEAFCOUNT, NODECOUNT or ROOT that register, zero-extended; one of RD_BITS, WR_BITS or SYMS,
while no command runs, that counter. -/
def Obligations.StatusBits : Prop :=
  (∀ f : Status, f.pack.getLsbD 0 = f.busy ∧ f.pack.getLsbD 1 = f.done ∧ f.pack.getLsbD 2 = f.error
    ∧ f.pack.getLsbD 3 = f.empty ∧ f.pack.getLsbD 4 = f.treeValid ∧ f.pack.getLsbD 5 = f.lutValid
    ∧ f.pack.getLsbD 6 = f.ovr ∧ f.pack.getLsbD 7 = false
    ∧ f.pack.extractLsb' 16 8 = f.lastOp ∧ f.pack.extractLsb' 24 8 = 0#8
    ∧ f.pack.extractLsb' 8 4 = (match f.errCode with
      | .none => 0#4 | .format => 1#4 | .truncated => 2#4 | .illegalCmd => 3#4 | .noTree => 4#4 | .noLut => 5#4
      | .nosym => 6#4 | .badTree => 7#4 | .noCode => 8#4 | .countOvf => 9#4)
    ∧ f.pack.extractLsb' 12 4 = (match f.phase with
      | .idle => 0#4 | .peek => 1#4 | .restart => 2#4 | .count => 3#4 | .build => 4#4 | .genlut => 5#4 | .header => 6#4
      | .serialize => 7#4 | .encode => 8#4 | .checkMagic => 9#4 | .deserialize => 10#4 | .decode => 11#4
      | .clear => 12#4 | .check => 13#4))
  ∧ ∀ s : State, csrRead .status s = (s.status.pack, s)
    ∧ csrRead .leafCount s = (s.leafCount.setWidth 32, s) ∧ csrRead .nodeCount s = (s.nodeCount.setWidth 32, s)
    ∧ csrRead .root s = (s.root.setWidth 32, s)
    ∧ (s.status.busy = false → csrRead .rdBits s = (s.rdBits.now, s) ∧ csrRead .wrBits s = (s.wrBits.now, s)
        ∧ csrRead .syms s = (s.syms.now, s))

/-- R21, R22, R23: ID, PARAM and MAGIC stand at offsets 0, 4 and 8 and are constants; PARAM shows the instance's CNT_W in its low
byte; no step changes CNT_W or TIE_ORDER, a reset included. A write of a read-only register, at the offset the map gives it,
changes nothing (R83). CMD, at 0x010, reads 0 (R24); of its writes, which are
commands (R150), nothing is said here. -/
def Obligations.ConstantAndReadOnlyRegisters : Prop :=
  ∀ (s : State) (v : Word),
    csrRead .id s = (0x48554646#32, s) ∧ csrRead .param s = (0x02010900#32 + BitVec.ofNat 32 s.cntW.val, s)
    ∧ (s.cntW.val = 32 → csrRead .param s = (0x02010920#32, s))
    ∧ (∀ t, step s = .next t → t.cntW = s.cntW ∧ t.tieOrder = s.tieOrder)
    ∧ csrRead .magic s = (Config.magic, s)
    ∧ csrRead .cmd s = (0#32, s) ∧ Csr.ofOffset 0x010#12 = some .cmd
    ∧ ∀ e ∈ [(0x000#12, Csr.id), (0x004#12, .param), (0x008#12, .magic), (0x014#12, .status), (0x020#12, .rdBits),
        (0x024#12, .wrBits), (0x028#12, .syms), (0x02C#12, .leafCount), (0x030#12, .nodeCount), (0x034#12, .root),
        (0x054#12, .lutLen), (0x060#12, .lutCode 0), (0x064#12, .lutCode 1), (0x068#12, .lutCode 2), (0x06C#12, .lutCode 3),
        (0x070#12, .lutCode 4), (0x074#12, .lutCode 5), (0x078#12, .lutCode 6), (0x07C#12, .lutCode 7),
        (0x084#12, .nodeInfo), (0x088#12, .nodeChild), (0x08C#12, .nodeWlo), (0x090#12, .nodeWhi)],
      Csr.ofOffset e.1 = some e.2 ∧ csrWrite e.2 v s = s

/-- R81, R82, R280: an access of 8 or 16 bits, at an offset that is no multiple of 4, or at one that the register map does not
list, gets a bus error and changes nothing else; a running command goes on as without it. -/
def Obligations.BusErrorHasNoEffect : Prop :=
  ∀ (s t : State) (es : List Event) (a : Access), s.rstN = true → settle s = .next t →
    (a.size ≠ .bits32 ∨ a.offset.toNat % 4 ≠ 0
      ∨ a.offset ∉ [0x000#12, 0x004#12, 0x008#12, 0x010#12, 0x014#12, 0x018#12, 0x01C#12, 0x020#12, 0x024#12, 0x028#12,
          0x02C#12, 0x030#12, 0x034#12, 0x040#12, 0x044#12, 0x050#12, 0x054#12, 0x060#12, 0x064#12, 0x068#12, 0x06C#12,
          0x070#12, 0x074#12, 0x078#12, 0x07C#12, 0x080#12, 0x084#12, 0x088#12, 0x08C#12, 0x090#12]) →
    step { s with pending := .access a :: es } = .next { t with response := some .busError, pending := es }

/-- R83: a read changes no state (the model's count of free values, its own, may move). -/
def Obligations.ReadsHaveNoSideEffect : Prop :=
  ∀ (s : State) (a : Access), a.write = false → ∃ r d, busAccess a s = { s with response := some r, draws := d }

/-- R31, R38, R39, R41, R83: a write of CTRL sets IRQ_EN, one of an index register that index, at any time and nothing else; they
read back the bits they hold, the others 0. FREQ_DATA reads and writes the entry that FREQ_IDX selects while no command runs,
a write storing the low CNT_W bits and changing nothing else, and a write of it while one runs is ignored. -/
def Obligations.IndexRegistersAndFreqWindow : Prop :=
  ∀ (s : State) (v : Word),
    csrWrite .ctrl v s = { s with irqEn := v.getLsbD 0 }
    ∧ csrWrite .freqIdx v s = { s with freqIdx := v.extractLsb' 0 8 }
    ∧ csrWrite .lutIdx v s = { s with lutIdx := v.extractLsb' 0 9 }
    ∧ csrWrite .nodeIdx v s = { s with nodeIdx := v.extractLsb' 0 10 }
    ∧ (csrRead .ctrl (csrWrite .ctrl v s)).1 = v &&& 0x1#32
    ∧ (csrRead .freqIdx (csrWrite .freqIdx v s)).1 = v &&& 0xFF#32
    ∧ (csrRead .lutIdx (csrWrite .lutIdx v s)).1 = v &&& 0x1FF#32
    ∧ (csrRead .nodeIdx (csrWrite .nodeIdx v s)).1 = v &&& 0x3FF#32
    ∧ (s.status.busy = false → csrRead .freqData s = (freqAt s.freq s.freqIdx, s)
        ∧ ∃ freq, csrWrite .freqData v s = { s with freq := freq }
          ∧ ∀ b, freqAt freq b = if b = s.freqIdx then (v.extractLsb' 0 s.cntW.val).setWidth 32 else freqAt s.freq b)
    ∧ (s.status.busy = true → csrWrite .freqData v s = s)

/-- R46, R125: the LUT window while no command runs: LUT_LEN is the code's length, and bit 31-j of LUT_CODEk is code bit 32k+j,
0 past the end; all read 0 when LUT_VALID = 0 or LUT_IDX > 256. -/
def Obligations.LutWindowShowsTheCode : Prop :=
  ∀ s : State, s.status.busy = false →
    (∀ c : Bits, s.status.lutValid = true → lutAt s.lut s.lutIdx = some c → c.length ≤ 256 →
      (csrRead .lutLen s).1 = BitVec.ofNat 32 c.length
      ∧ ∀ (k : Fin 8) (j : Nat), j < 32 →
          (csrRead (.lutCode k) s).1.getLsbD (31 - j) = c.getD (32 * k.val + j) false)
    ∧ ((s.status.lutValid = false ∨ 256 < s.lutIdx.toNat) →
      (csrRead .lutLen s).1 = 0#32 ∧ ∀ k : Fin 8, (csrRead (.lutCode k) s).1 = 0#32)

/-- R41, R44: the NODE window while no command runs: the fields of the selected entry, and 0 in all four registers for an entry
that is not valid. -/
def Obligations.NodeWindowShowsTheEntry : Prop :=
  ∀ s : State, s.status.busy = false →
    (∀ nd : Node, s.status.treeValid = true → s.nodeIdx < s.nodeCount → nodeAt s.node s.nodeIdx = some nd →
      let info := (csrRead .nodeInfo s).1
      let child := (csrRead .nodeChild s).1
      info.extractLsb' 0 9 = nd.value ∧ info.getLsbD 9 = nd.leaf ∧ info.extractLsb' 10 21 = 0#21 ∧ info.getLsbD 31 = true
      ∧ child.extractLsb' 0 10 = nd.left ∧ child.extractLsb' 10 6 = 0#6 ∧ child.extractLsb' 16 10 = nd.right
      ∧ child.extractLsb' 26 6 = 0#6
      ∧ (csrRead .nodeWlo s).1 = nd.weight.extractLsb' 0 32
      ∧ (csrRead .nodeWhi s).1 = (nd.weight.extractLsb' 32 9).setWidth 32)
    ∧ ((s.status.treeValid = false ∨ s.nodeCount ≤ s.nodeIdx) →
      (csrRead .nodeInfo s).1 = 0#32 ∧ (csrRead .nodeChild s).1 = 0#32 ∧ (csrRead .nodeWlo s).1 = 0#32
      ∧ (csrRead .nodeWhi s).1 = 0#32)

/-- R309 and log entries 8 and 9: while a command runs a window register reads a free value, whatever the tables hold, and a
counter reads some value it held since acceptance; neither read changes anything but the model's count of free values. -/
def Obligations.ReadsWhileBusy : Prop :=
  ∀ s : State, s.status.busy = true →
    (∀ r ∈ [Csr.freqData, .lutLen, .lutCode 0, .lutCode 1, .lutCode 2, .lutCode 3, .lutCode 4, .lutCode 5, .lutCode 6,
        .lutCode 7, .nodeInfo, .nodeChild, .nodeWlo, .nodeWhi],
      csrRead r s = (Config.freeWord s.draws, { s with draws := s.draws + 1 }))
    ∧ (s.rdBits.now ∈ s.rdBits.held → (csrRead .rdBits s).1 ∈ s.rdBits.held)
    ∧ (s.wrBits.now ∈ s.wrBits.held → (csrRead .wrBits s).1 ∈ s.wrBits.held)
    ∧ (s.syms.now ∈ s.syms.held → (csrRead .syms s).1 ∈ s.syms.held)
    ∧ ∀ r ∈ [Csr.rdBits, .wrBits, .syms], (csrRead r s).2 = { s with draws := s.draws + 1 }

/-! ### Reset, waiting, ports -/

/-- R301, R302: the reset values, as the host reads them and inside; a reset at any moment, a command running or not, gives them,
leaves the source, the sink, CNT_W and TIE_ORDER alone and sets no PEND. The model's choice are the NODE, LUT, PATH and CUR
contents (log entries 4 to 6), that the fall of `rst_n` and again its rise give the values at once (log entry 29), and that the answer to
the last access is gone (log entry 30). -/
def Obligations.ResetValues : Prop :=
  (∀ r ∈ Csr.all, (csrRead r State.reset).1 =
    if r = .id then 0x48554646#32 else if r = .param then 0x02010920#32 else if r = .magic then Config.magic else 0#32)
  ∧ (∀ b : Byte, freqAt State.reset.freq b = 0#32)
  ∧ State.reset.sel = [] ∧ State.reset.stk = [] ∧ State.reset.seq = Seq.idle ∧ State.reset.irq = false
  ∧ State.reset.tieOrder = .stableIndex
  ∧ ∀ (s : State) (es : List Event),
      step { s with pending := .rst false :: es } = .next
        { State.reset with
          cntW := s.cntW, tieOrder := s.tieOrder, src := s.src, snk := s.snk, rstN := false
          pending := es, pace := s.pace, draws := s.draws, pops := s.pops }
      ∧ (s.rstN = false → step { s with pending := .rst true :: es } = .next
        { State.reset with
          cntW := s.cntW, tieOrder := s.tieOrder, src := s.src, snk := s.snk, rstN := true
          pending := es, pace := s.pace, draws := s.draws, pops := s.pops })

/-- R300: while `rst_n` is 0 an access, a command word too, gets no answer or a bus error (which one is open: log entry 14) and
changes nothing, and `irq` is low. -/
def Obligations.NothingIsAnsweredInReset : Prop :=
  ∀ (s : State) (es : List Event) (a : Access), s.rstN = false → s.status.busy = false →
    s.irq = false
    ∧ ∃ r, (r = Response.busError ∨ r = Response.noAnswer)
      ∧ step { s with pending := .access a :: es } = .next { s with response := some r, pending := es }

/-- R93 and log entry 16: with nothing happening outside, a block that holds a read or a restart while the source does not
answer, or a write while the sink does not accept, waits, and its state stays. When the agent of its request answers, or it
holds no request, it goes on: with a pace of one move the step makes that move. -/
def Obligations.SilentAgentMakesTheBlockWait : Prop :=
  ∀ s : State, s.pending = [] → s.status.busy = true →
    (∀ n, s.request = some (.read n) → s.src.ready = false → step s = .next s)
    ∧ (s.request = some .restart → s.src.ready = false → step s = .next s)
    ∧ (∀ n v, s.request = some (.write n v) → s.snk.ready = false → step s = .next s)
    ∧ (s.pace = some 1 →
      (∀ n, s.request = some (.read n) → s.src.ready = true → step s = move s)
      ∧ (s.request = some .restart → s.src.ready = true → step s = move s)
      ∧ (∀ n v, s.request = some (.write n v) → s.snk.ready = true → step s = move s)
      ∧ (s.request = none → step s = move s))

/-- R83, R295: while no command runs nothing but a write of CMD starts one, and with nothing happening outside the state stays. -/
def Obligations.OnlyACommandWriteStartsActivity : Prop :=
  (∀ s : State, s.pending = [] → s.status.busy = false → step s = .next s)
  ∧ ∀ (s t : State) (e : Event) (es : List Event), s.pending = e :: es → e.command s = none → s.status.busy = false →
    step s = .next t → t.status.busy = false

/-- R320 and log entry 1: however the moves of a command that ends are spread over steps, the command comes to the same end. It
is issued with a pace of `p` moves; the outside world then sets one pace after another, `ps`, a step each, and at last none;
after the last of these steps the machine is as if the command had run in one. -/
def Obligations.PaceDoesNotMatter : Prop :=
  ∀ (s t : State) (i : Instr) (p : Nat) (ps : List Nat), s.Quiet → exec i s = .next t → t.status.busy = false →
    ∃ u, exec i { s with pace := some p, pending := (ps.map fun q => Event.pace (some q)) ++ [.pace none] } = .next u
      ∧ Host.Core.run Sys2Proof.core (ps.length + 1) u = .next { t with pending := [] }

/-- R91, R92, R100: each step's port requests have exactly the widths of the table, and no other request is ever made. Which
request the block holds at each position: at a port primitive that primitive, with the value written; elsewhere none. And what
a move does to the streams is what it requested: a read moves the source's cursor as `ReadBits(n)` does, a restart rewinds it, a
write appends its bits, and a move without a request uses neither stream. -/
def Obligations.PortWidthsOfEachStep : Prop :=
  (∀ (s : State) (b : Body) (q : PortReq), (∀ rest last, s.seq.pos = .encEmit rest last → rest ≠ []) →
    s.seq.pos.body = some b → s.request = some q →
    match b with
    | .peek => q = .read 8
    | .count => q = .read 8
    | .restart => q = .restart
    | .header => q = .write 32 Config.magic.toNat
    | .serialize => (∃ v, v < 2 ∧ q = .write 1 v) ∨ ∃ v : Sym, q = .write 9 v.toNat
    | .encode => q = .read 8 ∨ ∃ n v, 1 ≤ n ∧ n ≤ 32 ∧ v < 2 ^ n ∧ q = .write n v
    | .checkMagic => q = .read 32
    | .deserialize => q = .read 1 ∨ q = .read 9
    | .decode => q = .read 1 ∨ ∃ v : Byte, q = .write 8 v.toNat
    | .build => False
    | .genlut => False
    | .clear => False)
  ∧ (∀ s : State,
    (s.seq.pos = .peekRead ∨ (∃ c, s.seq.pos = .countRead c) ∨ s.seq.pos = .encRead → s.request = some (.read 8))
    ∧ (s.seq.pos = .restartSource → s.request = some .restart)
    ∧ (s.seq.pos = .headerWrite → s.request = some (.write 32 Config.magic.toNat))
    ∧ (∀ i stk nd, s.seq.pos = .serVisit → s.stk = i :: stk → nodeAt s.node i = some nd →
        s.request = some (.write 1 (if nd.leaf then 1 else 0)))
    ∧ (∀ v, s.seq.pos = .serId v → s.request = some (.write 9 v.toNat))
    ∧ (∀ rest last, s.seq.pos = .encEmit rest last →
        s.request = some (.write (min 32 rest.length) (valOf (rest.take 32))))
    ∧ (s.seq.pos = .magicRead → s.request = some (.read 32))
    ∧ ((∃ l, s.seq.pos = .desBit l) ∨ s.seq.pos = .decRead → s.request = some (.read 1))
    ∧ (∀ l i, s.seq.pos = .desId l i → s.request = some (.read 9))
    ∧ (∀ nd, s.seq.pos = .decWrite → nodeAt s.node s.cur = some nd →
        s.request = some (.write 8 (nd.value.extractLsb' 0 8).toNat))
    ∧ (s.seq.pos = .none ∨ (∃ b, s.seq.pos = .enter b) ∨ (∃ l n, s.seq.pos = .buildMerge l n) ∨ s.seq.pos = .genlutVisit
        ∨ s.seq.pos = .clearRun → s.request = none))
  ∧ ∀ s t : State, move s = .next t →
    (∀ n, s.request = some (.read n) → t.src = (s.src.read n).2 ∧ t.snk = s.snk)
    ∧ (s.request = some .restart → t.src = { s.src with pos := 0 } ∧ t.snk = s.snk)
    ∧ (∀ n v, s.request = some (.write n v) → t.snk = { s.snk with bits := s.snk.bits ++ bitsOf n v } ∧ t.src = s.src)
    ∧ (s.request = none → t.src = s.src ∧ t.snk = s.snk)

/-- R87, R90: `ReadBits(n)` on the `n` bits of a number, most significant first, reads that number, moves the cursor on and
counts them; with fewer than `n` bits left it answers end-of-data and nothing changes; `WriteBits(n, v)` appends those bits
and counts them. -/
def Obligations.PortPrimitives : Prop :=
  ∀ (s : State) (n v : Nat) (tail : Bits), v < 2 ^ n →
    (s.src.pos ≤ s.src.bits.length → s.src.bits.drop s.src.pos = bitsOf n v ++ tail →
      readBits n s = (some v, { s with src := { s.src with pos := s.src.pos + n }, rdBits := s.rdBits.add n }))
    ∧ (s.src.bits.length < s.src.pos + n → readBits n s = (none, s))
    ∧ writeBits n v s
      = { s with snk := { s.snk with bits := s.snk.bits ++ bitsOf n v }, wrBits := s.wrBits.add n }
    ∧ (bitsOf n v).length = n ∧ valOf (bitsOf n v) = v

/-! ### The commands, one by one -/

/-- R159: CLEAR. -/
def Obligations.ClearCommand : Prop :=
  ∀ s : State, s.Quiet → exec .clear s = .next
    { s with
      status :=
        { busy := false, done := true, error := false, empty := false, treeValid := false, lutValid := false, ovr := false
          errCode := .none, phase := .idle, lastOp := 0x03#8 }
      rdBits := Counter.zero, wrBits := Counter.zero, syms := Counter.zero, pend := true, seq := Seq.idle
      freq := Vector.replicate 256 0#32, leafCount := 0#9, nodeCount := 0#10, root := 0#10 }

/-- R230: RESTART. -/
def Obligations.RestartCommand : Prop :=
  ∀ s : State, s.Quiet → exec .restart s = .next
    { s with
      status :=
        { busy := false, done := true, error := false, empty := false, treeValid := s.status.treeValid
          lutValid := s.status.lutValid, ovr := false, errCode := .none, phase := .idle, lastOp := 0x10#8 }
      rdBits := Counter.zero, wrBits := Counter.zero, syms := Counter.zero, pend := true, seq := Seq.idle
      src := { s.src with pos := 0 } }

/-- R231: HEADER writes MAGIC, most significant bit first. -/
def Obligations.HeaderCommand : Prop :=
  ∀ s : State, s.Quiet → exec .header s = .next
    { s with
      status :=
        { busy := false, done := true, error := false, empty := false, treeValid := s.status.treeValid
          lutValid := s.status.lutValid, ovr := false, errCode := .none, phase := .idle, lastOp := 0x14#8 }
      rdBits := Counter.zero, wrBits := Counter.zero.add 32, syms := Counter.zero, pend := true, seq := Seq.idle
      snk := { s.snk with bits := s.snk.bits ++ bitsOf 32 Config.magic.toNat } }

/-- R170, R171, R173, R174: COUNT of the bytes `x` and a tail of fewer than 8 bits: each entry is the number of times its byte
occurs, EMPTY says whether there was none, SYMS and RD_BITS count the bytes and their bits, the cursor is left after them; the
tree, the code table and the sink are as before. -/
def Obligations.CountCommand : Prop :=
  ∀ (s : State) (x : List Byte), s.Quiet → s.SourceHolds x → (∀ b, x.count b < 2 ^ s.cntW.val) →
    ∃ t, exec .count s = .next t ∧ State.Completed .count t
      ∧ (∀ b, (freqAt t.freq b).toNat = x.count b)
      ∧ t.status.empty = x.isEmpty ∧ t.syms.now = BitVec.ofNat 32 x.length
      ∧ t.rdBits.now = BitVec.ofNat 32 (8 * x.length) ∧ t.wrBits.now = 0#32
      ∧ t.src = { s.src with pos := s.src.pos + 8 * x.length } ∧ t.snk = s.snk
      ∧ t.node = s.node ∧ t.lut = s.lut ∧ t.status.treeValid = s.status.treeValid
      ∧ t.status.lutValid = s.status.lutValid ∧ t.leafCount = s.leafCount ∧ t.nodeCount = s.nodeCount ∧ t.root = s.root

/-- R172: COUNT meets a byte whose entry is full: COUNT_OVF, the entry as it was, the byte's 8 bits consumed and not counted. -/
def Obligations.CountOverflow : Prop :=
  ∀ (s : State) (x : List Byte) (b : Byte), s.Quiet → s.SourceAt (bytesBits (x ++ [b])) → (∀ c, x.count c < 2 ^ s.cntW.val) →
    x.count b = 2 ^ s.cntW.val - 1 →
    ∃ t, exec .count s = .next t ∧ State.Failed .count .countOvf .count t
      ∧ (∀ c, (freqAt t.freq c).toNat = x.count c) ∧ t.syms.now = BitVec.ofNat 32 x.length
      ∧ t.rdBits.now = BitVec.ofNat 32 (8 * (x.length + 1))
      ∧ t.src = { s.src with pos := s.src.pos + 8 * (x.length + 1) } ∧ t.snk = s.snk

/-- R180, R181, R185, R190, R43: BUILD with some byte counted leaves a valid tree whose leaves are, each once, the bytes with a
count and the sentinel; with L leaves, LEAFCOUNT = L, NODECOUNT = 2L - 1, ROOT = 2L - 2; SEL is empty again. -/
def Obligations.BuildCommand : Prop :=
  ∀ s : State, s.Quiet → (∃ b, freqAt s.freq b ≠ 0#32) →
    ∃ (t : State) (tree : Tree), exec .build s = .next t ∧ State.Completed .build t ∧ t.ValidTree ∧ t.HoldsTree tree
      ∧ tree.leaves.Nodup
      ∧ (∀ v : Sym, v ∈ tree.leaves ↔ v = Config.eos ∨ ∃ b : Byte, freqAt s.freq b ≠ 0#32 ∧ v = b.setWidth 9)
      ∧ t.leafCount.toNat = ((List.range 256).countP fun k => freqAt s.freq (BitVec.ofNat 8 k) ≠ 0#32) + 1
      ∧ t.leafCount.toNat = tree.leaves.length ∧ t.nodeCount.toNat = 2 * t.leafCount.toNat - 1
      ∧ t.root.toNat = 2 * t.leafCount.toNat - 2
      ∧ t.sel = [] ∧ t.status.lutValid = false ∧ t.freq = s.freq ∧ t.lut = s.lut ∧ t.src = s.src ∧ t.snk = s.snk

/-- R181, R183, R184, R190: the nodes of a built tree. Below L they are leaves in ascending symbol order, the sentinel last,
each with its count, the sentinel with 1; from L on each is the sum of its two children, the lighter one on the left, under
STABLE_INDEX the smaller index on the left among equals; the root weighs 1 and all counts. So the leaves, their weights and the
root's weight are the same under either TIE_ORDER (R186; TIE_ORDER is an argument of the model, log entry 12). -/
def Obligations.BuildNodes : Prop :=
  ∀ s : State, s.Quiet → (∃ b, freqAt s.freq b ≠ 0#32) →
    ∃ t, exec .build s = .next t
      ∧ (∀ (i : Idx) (nd : Node), i.toNat < t.leafCount.toNat → nodeAt t.node i = some nd →
          nd.leaf = true ∧ nd.weight.toNat = symWeight s.freq nd.value
          ∧ (nd.value = Config.eos ↔ i.toNat + 1 = t.leafCount.toNat)
          ∧ ∀ (j : Idx) (nd' : Node), i < j → j.toNat < t.leafCount.toNat → nodeAt t.node j = some nd' →
              nd.value < nd'.value)
      ∧ (∀ (i : Idx) (nd : Node), t.leafCount.toNat ≤ i.toNat → i < t.nodeCount → nodeAt t.node i = some nd →
          nd.leaf = false ∧ nd.value = Config.placeholder ∧ nd.left < i ∧ nd.right < i
          ∧ ∃ l r, nodeAt t.node nd.left = some l ∧ nodeAt t.node nd.right = some r
              ∧ nd.weight.toNat = l.weight.toNat + r.weight.toNat ∧ l.weight ≤ r.weight
              ∧ (s.tieOrder = .stableIndex → l.weight = r.weight → nd.left < nd.right))
      ∧ ∃ nd, nodeAt t.node t.root = some nd
          ∧ nd.weight.toNat = 1 + ((List.range 256).map fun k => (freqAt s.freq (BitVec.ofNat 8 k)).toNat).sum

/-- R188: with exactly one byte value counted the tree has two leaves, the byte and the sentinel, and codes of one bit; the
sentinel is on the left when the count is more than 1 and, under STABLE_INDEX, the byte when it is 1. -/
def Obligations.BuildOfOneByteValue : Prop :=
  ∀ (s : State) (b : Byte), s.Quiet → freqAt s.freq b ≠ 0#32 → (∀ c, c ≠ b → freqAt s.freq c = 0#32) →
    ∃ (t : State) (tree : Tree), exec .build s = .next t ∧ t.HoldsTree tree
      ∧ t.leafCount = 2#9 ∧ t.nodeCount = 3#10 ∧ t.root = 2#10
      ∧ (tree = .inner (.leaf (b.setWidth 9)) (.leaf Config.eos) ∨ tree = .inner (.leaf Config.eos) (.leaf (b.setWidth 9)))
      ∧ (freqAt s.freq b ≠ 1#32 → tree = .inner (.leaf Config.eos) (.leaf (b.setWidth 9)))
      ∧ (s.tieOrder = .stableIndex → freqAt s.freq b = 1#32 → tree = .inner (.leaf (b.setWidth 9)) (.leaf Config.eos))

/-- R189: with every count 0, BUILD ends with NOSYM, having made no node; the old tree is no longer valid. -/
def Obligations.BuildWithNoSymbol : Prop :=
  ∀ s : State, s.Quiet → (∀ b, freqAt s.freq b = 0#32) → exec .build s = .next
    { s with
      status :=
        { busy := false, done := false, error := true, empty := false, treeValid := false, lutValid := false, ovr := false
          errCode := .nosym, phase := .build, lastOp := 0x12#8 }
      rdBits := Counter.zero, wrBits := Counter.zero, syms := Counter.zero, pend := true, seq := Seq.idle
      leafCount := 0#9, nodeCount := 0#10, root := 0#10, sel := [] }

/-- R182, R186: `PopMin` takes one entry of least weight, under STABLE_INDEX the one of least key (weight, index), and leaves the
others; under ANY each entry of least weight is taken for some free number. BUILD's merge takes its two children so, under the
TIE_ORDER of the machine, with a free number for each (TIE_ORDER as an argument of the model: log entry 12; the free numbers:
log entry 13). -/
def Obligations.PopMinTakesALeastEntry : Prop :=
  (∀ (o : TieOrder) (k : Nat) (sel rest : List SelEntry) (e : SelEntry), popMin o k sel = some (e, rest) →
    sel.Perm (e :: rest) ∧ (∀ x ∈ sel, e.weight ≤ x.weight)
      ∧ (o = .stableIndex → ∀ x ∈ sel, x.weight = e.weight → e.idx ≤ x.idx))
  ∧ (∀ (o : TieOrder) (k : Nat) (sel : List SelEntry), popMin o k sel = none ↔ sel = [])
  ∧ (∀ (sel : List SelEntry) (e : SelEntry), e ∈ sel → (∀ x ∈ sel, e.weight ≤ x.weight) →
    ∃ k rest, popMin .any k sel = some (e, rest))
  ∧ ∀ (s t : State) (leaves n : Nat), s.seq.pos = .buildMerge leaves n → 2 ≤ s.sel.length → move s = .next t →
    ∃ (a b : SelEntry) (rest rest' : List SelEntry), popMin s.tieOrder (Config.tieDraw s.pops) s.sel = some (a, rest)
      ∧ popMin s.tieOrder (Config.tieDraw (s.pops + 1)) rest = some (b, rest')
      ∧ t.node = setNode s.node n (innerNode (a.weight + b.weight) a.idx b.idx)
      ∧ t.sel.Perm ({ idx := BitVec.ofNat 10 n, weight := a.weight + b.weight } :: rest') ∧ t.pops = s.pops + 2
      ∧ t.tieOrder = s.tieOrder

/-- R187: the tree BUILD makes, under either TIE_ORDER, is optimal: no prefix code for the same symbols has a smaller sum of
weight times length. -/
def Obligations.BuildIsOptimal : Prop :=
  ∀ s : State, s.Quiet → (∃ b, freqAt s.freq b ≠ 0#32) →
    ∃ (t : State) (tree : Tree), exec .build s = .next t ∧ t.HoldsTree tree
      ∧ ∀ code : Sym → Bits, PrefixFree code tree.leaves →
          weightedLength (symWeight s.freq) tree.codeOf tree.leaves ≤ weightedLength (symWeight s.freq) code tree.leaves

/-- R200, R201, R203, R205: GENLUT on a valid tree gives each symbol the code of its leaf, the last one in preorder if there
are several, none if there is none; the tree is not changed. -/
def Obligations.GenlutCommand : Prop :=
  ∀ (s : State) (tree : Tree), s.Quiet → s.HoldsTree tree →
    ∃ t, exec .genlut s = .next t ∧ State.Completed .genlut t ∧ t.HoldsCodes tree ∧ t.HoldsTree tree
      ∧ (∀ v : Sym, v ≤ Config.eos → (tree.codeOf v ≠ [] ↔ v ∈ tree.leaves) ∧ (tree.codeOf v).length ≤ 256)
      ∧ t.node = s.node ∧ t.freq = s.freq ∧ t.leafCount = s.leafCount ∧ t.nodeCount = s.nodeCount ∧ t.root = s.root
      ∧ t.src = s.src ∧ t.snk = s.snk ∧ t.rdBits.now = 0#32 ∧ t.wrBits.now = 0#32

/-- R202, R204, R206: the codes of a valid tree with unique leaf values are 1 to 256 bits long, prefix-free, and fill the code
space: the sum of 2^(256 - length) is 2^256. -/
def Obligations.CodesArePrefixFreeAndFillTheSpace : Prop :=
  ∀ tree : Tree, tree.isInner = true → tree.size ≤ 513 → tree.leaves.Nodup →
    (∀ v ∈ tree.leaves, 1 ≤ (tree.codeOf v).length ∧ (tree.codeOf v).length ≤ 256)
    ∧ PrefixFree tree.codeOf tree.leaves
    ∧ (tree.leaves.map fun v => 2 ^ (256 - (tree.codeOf v).length)).sum = 2 ^ 256

/-- R210, R211: SERIALIZE appends the preorder bit-encoding of the tree, 11L - 1 bits for L leaves, and changes no table. -/
def Obligations.SerializeCommand : Prop :=
  ∀ (s : State) (tree : Tree), s.Quiet → s.HoldsTree tree →
    ∃ t, exec .serialize s = .next t ∧ State.Completed .serialize t
      ∧ t.snk = { s.snk with bits := s.snk.bits ++ tree.serial }
      ∧ tree.serial.length = 11 * tree.leaves.length - 1
      ∧ t.wrBits.now = BitVec.ofNat 32 (11 * tree.leaves.length - 1) ∧ t.rdBits.now = 0#32 ∧ t.src = s.src
      ∧ t.node = s.node ∧ t.lut = s.lut ∧ t.freq = s.freq ∧ t.status.treeValid = true
      ∧ t.status.lutValid = s.status.lutValid ∧ t.leafCount = s.leafCount ∧ t.nodeCount = s.nodeCount ∧ t.root = s.root

/-- R212, R213, R214, R221: DESERIALIZE of the encoding of a valid tree, whatever follows it: the tree, numbered in preorder from
0 (the left child of node i is node i + 1), leaf weights 1, internal weights 0; exactly its bits are read. -/
def Obligations.DeserializeCommand : Prop :=
  ∀ (s : State) (tree : Tree), s.Quiet → s.SourceAt tree.serial → tree.size ≤ 513 → tree.isInner = true →
    (∀ v ∈ tree.leaves, v ≤ Config.eos) →
    ∃ t, exec .deserialize s = .next t ∧ State.Completed .deserialize t ∧ t.HoldsTree tree ∧ t.ValidTree
      ∧ t.root = 0#10 ∧ t.nodeCount.toNat = tree.size ∧ t.leafCount.toNat = tree.leaves.length
      ∧ (∀ (i : Idx) (nd : Node), i < t.nodeCount → nodeAt t.node i = some nd →
          (nd.leaf = true → nd.weight = 1) ∧ (nd.leaf = false → nd.weight = 0 ∧ nd.left = i + 1#10))
      ∧ t.rdBits.now = BitVec.ofNat 32 tree.serial.length
      ∧ t.src = { s.src with pos := s.src.pos + tree.serial.length } ∧ t.snk = s.snk
      ∧ t.status.lutValid = false ∧ t.freq = s.freq ∧ t.lut = s.lut

/-- R215 to R219: DESERIALIZE of any bits. `treeFieldEnd` says which error ends it, if any, and `treeField` how many bits are
consumed; after an error the valid bits and the counts are 0. -/
def Obligations.DeserializeOfAnyBits : Prop :=
  ∀ s : State, s.Quiet → s.src.pos ≤ s.src.bits.length →
    let bits := s.src.bits.drop s.src.pos
    let used := (treeField 513 1 bits).2
    ∃ t, exec .deserialize s = .next t ∧ t.src = { s.src with pos := s.src.pos + used }
      ∧ t.rdBits.now = BitVec.ofNat 32 used ∧ t.snk = s.snk
      ∧ match treeFieldEnd bits with
        | none => State.Completed .deserialize t ∧ ∃ tree : Tree, t.HoldsTree tree ∧ bits.take used = tree.serial
        | some e => State.Failed .deserialize e .deserialize t ∧ t.status.treeValid = false ∧ t.status.lutValid = false
            ∧ t.leafCount = 0#9 ∧ t.nodeCount = 0#10 ∧ t.root = 0#10

/-- R232, R233: ENCODE of the bytes `x`, each with a code, appends their codes in order and the sentinel's code once. -/
def Obligations.EncodeCommand : Prop :=
  ∀ (s : State) (tree : Tree) (x : List Byte), s.Quiet → s.HoldsCodes tree → tree.size ≤ 513 → tree.isInner = true →
    s.SourceHolds x → (∀ b ∈ x, b.setWidth 9 ∈ tree.leaves) → Config.eos ∈ tree.leaves →
    ∃ t, exec .encode s = .next t ∧ State.Completed .encode t
      ∧ t.snk = { s.snk with bits := s.snk.bits ++ tree.payload x }
      ∧ t.wrBits.now = BitVec.ofNat 32 (tree.payload x).length ∧ t.syms.now = BitVec.ofNat 32 x.length
      ∧ t.rdBits.now = BitVec.ofNat 32 (8 * x.length) ∧ t.src = { s.src with pos := s.src.pos + 8 * x.length }
      ∧ t.node = s.node ∧ t.lut = s.lut ∧ t.freq = s.freq ∧ t.status.treeValid = s.status.treeValid
      ∧ t.status.lutValid = true

/-- R234, R235: ENCODE meets a byte with no code (its 8 bits consumed, nothing of it written, not counted), or has no code for
the sentinel: NO_CODE, what was written before stays. -/
def Obligations.EncodeWithoutACode : Prop :=
  ∀ (s : State) (tree : Tree) (x : List Byte), s.Quiet → s.HoldsCodes tree → tree.size ≤ 513 → tree.isInner = true →
    (∀ b ∈ x, b.setWidth 9 ∈ tree.leaves) →
    (∀ b : Byte, b.setWidth 9 ∉ tree.leaves → s.SourceAt (bytesBits (x ++ [b])) →
      ∃ t, exec .encode s = .next t ∧ State.Failed .encode .noCode .encode t
        ∧ t.snk = { s.snk with bits := s.snk.bits ++ x.flatMap tree.byteCode }
        ∧ t.syms.now = BitVec.ofNat 32 x.length ∧ t.rdBits.now = BitVec.ofNat 32 (8 * (x.length + 1))
        ∧ t.src = { s.src with pos := s.src.pos + 8 * (x.length + 1) })
    ∧ (Config.eos ∉ tree.leaves → s.SourceHolds x →
      ∃ t, exec .encode s = .next t ∧ State.Failed .encode .noCode .encode t
        ∧ t.snk = { s.snk with bits := s.snk.bits ++ x.flatMap tree.byteCode }
        ∧ t.syms.now = BitVec.ofNat 32 x.length ∧ t.rdBits.now = BitVec.ofNat 32 (8 * x.length)
        ∧ t.src = { s.src with pos := s.src.pos + 8 * x.length })

/-- R250: CHECKMAGIC: success on MAGIC; FORMAT on any other 32 bits, which stay consumed; FORMAT with fewer than 32 bits, and
nothing consumed. It writes nothing and changes no table. -/
def Obligations.CheckmagicCommand : Prop :=
  ∀ s : State, s.Quiet → s.src.pos ≤ s.src.bits.length →
    ∃ t, exec .checkmagic s = .next t ∧ t.snk = s.snk ∧ t.wrBits.now = 0#32
      ∧ t.freq = s.freq ∧ t.node = s.node ∧ t.lut = s.lut ∧ t.status.treeValid = s.status.treeValid
      ∧ t.status.lutValid = s.status.lutValid ∧ t.leafCount = s.leafCount ∧ t.nodeCount = s.nodeCount ∧ t.root = s.root
      ∧ if s.src.bits.length < s.src.pos + 32 then
          State.Failed .checkmagic .format .checkMagic t ∧ t.rdBits.now = 0#32 ∧ t.src = s.src
        else
          t.rdBits.now = 32#32 ∧ t.src = { s.src with pos := s.src.pos + 32 }
          ∧ if (s.src.bits.drop s.src.pos).take 32 = bitsOf 32 Config.magic.toNat then State.Completed .checkmagic t
            else State.Failed .checkmagic .format .checkMagic t

/-- R251 to R255: DECODE of any bits with a valid tree. `decodeFrom` says which bytes are written and how many bits are read; it
ends when the sentinel's leaf is reached, no bit past it read, or with TRUNCATED. -/
def Obligations.DecodeCommand : Prop :=
  ∀ (s : State) (tree : Tree), s.Quiet → s.HoldsTree tree → s.src.pos ≤ s.src.bits.length →
    let d := decodeFrom tree tree (s.src.bits.drop s.src.pos)
    ∃ t, exec .decode s = .next t ∧ t.snk = { s.snk with bits := s.snk.bits ++ bytesBits d.1 }
      ∧ t.syms.now = BitVec.ofNat 32 d.1.length ∧ t.wrBits.now = BitVec.ofNat 32 (8 * d.1.length)
      ∧ t.rdBits.now = BitVec.ofNat 32 d.2.1 ∧ t.src = { s.src with pos := s.src.pos + d.2.1 }
      ∧ t.HoldsTree tree ∧ t.node = s.node ∧ t.lut = s.lut ∧ t.freq = s.freq ∧ t.status.lutValid = s.status.lutValid
      ∧ if d.2.2 then State.Completed .decode t else State.Failed .decode .truncated .decode t

/-- R236, R239, R240: COMPRESS of the bytes `x`, not empty, held by the source from position 0 (and a byte left at its position
for the peek): the compressed stream of `x` under a code tree for `x` is appended; the counters; the tables afterwards. When
COUNT meets a byte `b` whose entry is full (R172) it ends with COUNT_OVF: RD_BITS counts the peek, the bytes counted and `b`,
nothing is written, and the tree and the code table are as before. -/
def Obligations.CompressCommand : Prop :=
  (∀ (s : State) (x : List Byte) (tail : Bits), s.Quiet → s.src.bits = bytesBits x ++ tail → tail.length < 8 → x ≠ [] →
    (∀ b, x.count b < 2 ^ s.cntW.val) → s.src.pos + 8 ≤ s.src.bits.length →
    ∃ (t : State) (tree : Tree), exec .compress s = .next t ∧ State.Completed .compress t
      ∧ tree.codesFor x ∧ t.snk = { s.snk with bits := s.snk.bits ++ tree.stream x }
      ∧ (tree.stream x).length = 32 + (11 * tree.leaves.length - 1) + (tree.payload x).length
      ∧ t.wrBits.now = BitVec.ofNat 32 (tree.stream x).length
      ∧ t.rdBits.now = BitVec.ofNat 32 (8 + 16 * x.length) ∧ t.syms.now = BitVec.ofNat 32 x.length
      ∧ t.src = { s.src with pos := 8 * x.length } ∧ (∀ b, (freqAt t.freq b).toNat = x.count b)
      ∧ t.HoldsTree tree ∧ t.HoldsCodes tree ∧ t.ValidTree ∧ t.leafCount.toNat = tree.leaves.length
      ∧ t.nodeCount.toNat = tree.size ∧ t.status.empty = false)
  ∧ ∀ (s : State) (x : List Byte) (b : Byte) (tail : Bits), s.Quiet → s.src.bits = bytesBits (x ++ [b]) ++ tail →
    (∀ c, x.count c < 2 ^ s.cntW.val) → x.count b = 2 ^ s.cntW.val - 1 → s.src.pos + 8 ≤ s.src.bits.length →
    ∃ t, exec .compress s = .next t ∧ State.Failed .compress .countOvf .count t
      ∧ t.rdBits.now = BitVec.ofNat 32 (8 + 8 * (x.length + 1)) ∧ t.syms.now = BitVec.ofNat 32 x.length
      ∧ t.src = { s.src with pos := 8 * (x.length + 1) } ∧ t.snk = s.snk ∧ t.wrBits.now = 0#32
      ∧ (∀ c, (freqAt t.freq c).toNat = x.count c) ∧ t.status.empty = false
      ∧ t.node = s.node ∧ t.lut = s.lut ∧ t.status.treeValid = s.status.treeValid
      ∧ t.status.lutValid = s.status.lutValid ∧ t.leafCount = s.leafCount ∧ t.nodeCount = s.nodeCount ∧ t.root = s.root

/-- R237: COMPRESS with no byte left for the peek ends with DONE and EMPTY, and writes and changes nothing else. -/
def Obligations.CompressEmptyInput : Prop :=
  ∀ s : State, s.Quiet → s.src.bits.length < s.src.pos + 8 → exec .compress s = .next
    { s with
      status :=
        { busy := false, done := true, error := false, empty := true, treeValid := s.status.treeValid
          lutValid := s.status.lutValid, ovr := false, errCode := .none, phase := .idle, lastOp := 0x01#8 }
      rdBits := Counter.zero, wrBits := Counter.zero, syms := Counter.zero, pend := true, seq := Seq.idle }

/-- R256, R257: DECOMPRESS of a stream that begins with MAGIC. When the encoding of a valid tree follows, the tree is rebuilt and
the bits after it are decoded. When a tree field follows that ends in an error (`treeFieldEnd`: TRUNCATED or BAD_TREE), so does
the command, in phase DESERIALIZE, MAGIC and what `treeField` says consumed, nothing written, no tree valid. Nothing is
rewound. -/
def Obligations.DecompressCommand : Prop :=
  (∀ (s : State) (tree : Tree) (rest : Bits), s.Quiet → s.SourceIs (bitsOf 32 Config.magic.toNat ++ (tree.serial ++ rest)) →
    tree.size ≤ 513 → tree.isInner = true → (∀ v ∈ tree.leaves, v ≤ Config.eos) →
    let d := decodeFrom tree tree rest
    ∃ t, exec .decompress s = .next t ∧ t.snk = { s.snk with bits := s.snk.bits ++ bytesBits d.1 }
      ∧ t.syms.now = BitVec.ofNat 32 d.1.length ∧ t.wrBits.now = BitVec.ofNat 32 (8 * d.1.length)
      ∧ t.rdBits.now = BitVec.ofNat 32 (32 + tree.serial.length + d.2.1)
      ∧ t.src = { s.src with pos := s.src.pos + (32 + tree.serial.length + d.2.1) }
      ∧ t.HoldsTree tree ∧ t.ValidTree ∧ t.root = 0#10 ∧ t.status.lutValid = false ∧ t.freq = s.freq
      ∧ if d.2.2 then State.Completed .decompress t else State.Failed .decompress .truncated .decode t)
  ∧ ∀ (s : State) (field : Bits) (e : ErrCode), s.Quiet → s.SourceIs (bitsOf 32 Config.magic.toNat ++ field) →
    treeFieldEnd field = some e →
    let used := (treeField 513 1 field).2
    ∃ t, exec .decompress s = .next t ∧ (e = .truncated ∨ e = .badTree)
      ∧ State.Failed .decompress e .deserialize t ∧ t.snk = s.snk ∧ t.wrBits.now = 0#32 ∧ t.syms.now = 0#32
      ∧ t.rdBits.now = BitVec.ofNat 32 (32 + used) ∧ t.src = { s.src with pos := s.src.pos + (32 + used) }
      ∧ t.status.treeValid = false ∧ t.status.lutValid = false ∧ t.leafCount = 0#9 ∧ t.nodeCount = 0#10 ∧ t.root = 0#10
      ∧ t.freq = s.freq ∧ t.lut = s.lut

/-- R259: DECOMPRESS of a stream whose first 32 bits are not MAGIC, or that has fewer, ends with FORMAT in CHECKMAGIC, has
written nothing, and leaves the tables and the tree's registers as they were; 32 bits that are not MAGIC stay consumed, fewer
stay unread. -/
def Obligations.DecompressFormatError : Prop :=
  ∀ s : State, s.Quiet → s.src.pos ≤ s.src.bits.length →
    (s.src.bits.drop s.src.pos).take 32 ≠ bitsOf 32 Config.magic.toNat →
    ∃ t, exec .decompress s = .next t ∧ State.Failed .decompress .format .checkMagic t ∧ t.snk = s.snk
      ∧ t.wrBits.now = 0#32 ∧ t.node = s.node ∧ t.lut = s.lut ∧ t.status.treeValid = s.status.treeValid
      ∧ t.status.lutValid = s.status.lutValid ∧ t.freq = s.freq ∧ t.leafCount = s.leafCount
      ∧ t.nodeCount = s.nodeCount ∧ t.root = s.root ∧ t.syms.now = 0#32
      ∧ if s.src.bits.length < s.src.pos + 32 then t.rdBits.now = 0#32 ∧ t.src = s.src
        else t.rdBits.now = 32#32 ∧ t.src = { s.src with pos := s.src.pos + 32 }

/-! ### Headline results -/

/-- R258: COMPRESS of any non-empty bytes `x`, then DECOMPRESS of a source that holds what was written, and anything after it,
writes `x` again, ends with DONE and stops at the end of the stream. For no bytes COMPRESS writes nothing, and DECOMPRESS of
nothing ends with FORMAT. Under either TIE_ORDER (the machine's, `tieOrder`: log entry 12). -/
def Obligations.CompressThenDecompress : Prop :=
  (∀ (s : State) (x : List Byte) (tail : Bits), s.Quiet → s.src.bits = bytesBits x ++ tail → tail.length < 8 → x ≠ [] →
    (∀ b, x.count b < 2 ^ s.cntW.val) → s.src.pos + 8 ≤ s.src.bits.length →
    ∃ (t : State) (stream : Bits), exec .compress s = .next t ∧ State.Completed .compress t
      ∧ t.snk.bits = s.snk.bits ++ stream
      ∧ ∀ extra : Bits, ∃ u,
          exec .decompress { t with src := { t.src with bits := stream ++ extra, pos := 0 } } = .next u
          ∧ State.Completed .decompress u ∧ u.snk.bits = t.snk.bits ++ bytesBits x ∧ u.src.pos = stream.length)
  ∧ ∀ s : State, s.Quiet → s.src.bits = [] → s.src.pos = 0 →
    ∃ t u, exec .compress s = .next t ∧ State.Completed .compress t ∧ t.snk = s.snk
      ∧ exec .decompress t = .next u ∧ State.Failed .decompress .format .checkMagic u

/-- R220: SERIALIZE of any valid tree, then DESERIALIZE of a source that holds what was written, succeeds, reads exactly those
bits and leaves a tree of the same shape and leaf values, which SERIALIZE writes as the same bits again. -/
def Obligations.SerializeThenDeserialize : Prop :=
  ∀ (s : State) (tree : Tree), s.Quiet → s.HoldsTree tree →
    ∃ (t : State) (bits : Bits), exec .serialize s = .next t ∧ t.snk.bits = s.snk.bits ++ bits
      ∧ ∀ extra : Bits, ∃ u v,
          exec .deserialize { t with src := { t.src with bits := bits ++ extra, pos := 0 } } = .next u
          ∧ State.Completed .deserialize u ∧ u.src.pos = bits.length ∧ u.HoldsTree tree
          ∧ exec .serialize u = .next v ∧ State.Completed .serialize v ∧ v.snk.bits = u.snk.bits ++ bits

/-- R307: RESTART, COUNT, BUILD, GENLUT, HEADER, SERIALIZE, RESTART, ENCODE, issued one by one, leave the sink, the tables, the
source and SYMS as COMPRESS does; on an empty source they meet NOSYM at BUILD, where COMPRESS ends with DONE and EMPTY; and
CHECKMAGIC, DESERIALIZE, DECODE do as DECOMPRESS does. (Under TIE_ORDER = ANY with the same free choices among ties, which the
two runs of the model share: log entry 13.) -/
def Obligations.PrimitiveCommandsReproduceTheWhole : Prop :=
  (∀ (s : State) (x : List Byte) (tail : Bits), s.Quiet → s.src.bits = bytesBits x ++ tail → tail.length < 8 → x ≠ [] →
    (∀ b, x.count b < 2 ^ s.cntW.val) → s.src.pos + 8 ≤ s.src.bits.length →
    ∃ t u, exec .compress s = .next t
      ∧ runAll [.restart, .count, .build, .genlut, .header, .serialize, .restart, .encode] s = .next u
      ∧ t.status.done = true ∧ u.status.done = true ∧ u.snk = t.snk ∧ u.src = t.src ∧ u.freq = t.freq ∧ u.node = t.node
      ∧ u.lut = t.lut ∧ u.root = t.root ∧ u.leafCount = t.leafCount ∧ u.nodeCount = t.nodeCount
      ∧ u.status.treeValid = t.status.treeValid ∧ u.status.lutValid = t.status.lutValid ∧ u.syms.now = t.syms.now)
  ∧ (∀ s : State, s.Quiet → s.src.bits = [] → s.src.pos = 0 →
    ∃ t u, exec .compress s = .next t ∧ State.Completed .compress t ∧ t.status.empty = true
      ∧ runAll [.restart, .count, .build] s = .next u ∧ State.Failed .build .nosym .build u)
  ∧ ∀ (s : State) (tree : Tree) (rest : Bits), s.Quiet →
    s.SourceIs (bitsOf 32 Config.magic.toNat ++ (tree.serial ++ rest)) → tree.size ≤ 513 → tree.isInner = true →
    (∀ v ∈ tree.leaves, v ≤ Config.eos) →
    ∃ t u, exec .decompress s = .next t ∧ runAll [.checkmagic, .deserialize, .decode] s = .next u
      ∧ u.snk = t.snk ∧ u.src = t.src ∧ u.node = t.node ∧ u.root = t.root ∧ u.leafCount = t.leafCount
      ∧ u.nodeCount = t.nodeCount ∧ u.status.treeValid = t.status.treeValid ∧ u.status.done = t.status.done
      ∧ u.status.errCode = t.status.errCode ∧ u.syms.now = t.syms.now

/-- Every step, whatever the outside world does and however fast the sequencer goes, keeps the state coherent: BUSY, DONE, ERROR,
ERRCODE, PHASE, TREE_VALID, LUT_VALID, the counts, SEL and the cursor agree with what the sequencer is doing, and
CNT_W is a width R5 allows that every count fits. -/
def Obligations.EveryStepKeepsTheStateCoherent : Prop :=
  ∀ s t : State, s.Coherent → step s = .next t → t.Coherent

/-- The state right after reset is coherent. -/
def Obligations.ResetStateIsCoherent : Prop := State.reset.Coherent

/-! ### Frames -/

/-- R55, R22: no command, accepted or discarded, touches the instance's CNT_W and TIE_ORDER and what is the host's and the agents'
own: IRQ_EN, the index registers, `rst_n`, the bus response, the events to come, the source's bits; the sink only grows. -/
def Obligations.NoCommandTouchesTheHostsState : Prop :=
  ∀ (s t : State) (i : Instr), exec i s = .next t →
    t.irqEn = s.irqEn ∧ t.freqIdx = s.freqIdx ∧ t.lutIdx = s.lutIdx ∧ t.nodeIdx = s.nodeIdx ∧ t.rstN = s.rstN
      ∧ t.response = s.response ∧ t.pending = s.pending ∧ t.pace = s.pace ∧ t.draws = s.draws
      ∧ t.cntW = s.cntW ∧ t.tieOrder = s.tieOrder
      ∧ t.src.bits = s.src.bits ∧ t.src.ready = s.src.ready ∧ t.snk.ready = s.snk.ready
      ∧ ∃ bits, t.snk.bits = s.snk.bits ++ bits

/-- R55: the frame of each command on the tables, the tree's registers and the hidden state: only the commands named change each. -/
def Obligations.OnlyTheirCommandsChangeTheTables : Prop :=
  ∀ (s t : State) (i : Instr), s.status.busy = false → exec i s = .next t →
    (i ∉ [.compress, .count, .clear] → t.freq = s.freq)
    ∧ (i ∉ [.compress, .build, .decompress, .deserialize] → t.node = s.node)
    ∧ (i ∉ [.compress, .build, .decompress, .deserialize, .clear] →
        t.leafCount = s.leafCount ∧ t.nodeCount = s.nodeCount ∧ t.root = s.root
        ∧ t.status.treeValid = s.status.treeValid)
    ∧ (i ∉ [.compress, .genlut] → t.lut = s.lut)
    ∧ (i ∉ [.compress, .build, .genlut, .decompress, .deserialize, .clear] → t.status.lutValid = s.status.lutValid)
    ∧ (i ∉ [.compress, .count] → t.status.empty = false)
    ∧ (i ∉ [.compress, .build] → t.sel = s.sel ∧ t.pops = s.pops)
    ∧ (i ∉ [.compress, .genlut] → t.path = s.path)
    ∧ (i ∉ [.compress, .genlut, .serialize, .decompress, .deserialize] → t.stk = s.stk)
    ∧ (i ∉ [.decompress, .decode] → t.cur = s.cur)

/-- R34 to R36, R91: the frame of each command on the streams and the counters. -/
def Obligations.OnlyTheirCommandsUseTheStreams : Prop :=
  ∀ (s t : State) (i : Instr), s.status.busy = false → exec i s = .next t →
    (i ∈ [.build, .genlut, .header, .serialize, .clear] → t.src = s.src)
    ∧ (i ∈ [.build, .genlut, .header, .serialize, .clear, .restart] → t.rdBits.now = 0#32)
    ∧ (i ∈ [.clear, .restart, .count, .build, .genlut, .checkmagic, .deserialize] →
        t.snk = s.snk ∧ t.wrBits.now = 0#32)
    ∧ (i ∉ [.compress, .count, .encode, .decode, .decompress] → t.syms.now = 0#32)

/-! ### The register map -/

/-- R82 and the map of 10_state.md section 2: which register stands at which offset, and the offset of each register; at every
other offset there is none. Out of reset a 32-bit read or write at a register's offset is answered by that register (a write
of CMD is a command, taken by the sequencer), one at an offset without a register gets a bus error, with no effect. A step whose
next event is an access, no command word, makes that access, and a running command goes on from there (R83, R85, R309). -/
def Obligations.RegisterMap : Prop :=
  (∀ off : BitVec 12, Csr.ofOffset off =
    if off = 0x000#12 then some .id else if off = 0x004#12 then some .param else if off = 0x008#12 then some .magic
    else if off = 0x010#12 then some .cmd else if off = 0x014#12 then some .status else if off = 0x018#12 then some .ctrl
    else if off = 0x01C#12 then some .irq else if off = 0x020#12 then some .rdBits else if off = 0x024#12 then some .wrBits
    else if off = 0x028#12 then some .syms else if off = 0x02C#12 then some .leafCount
    else if off = 0x030#12 then some .nodeCount else if off = 0x034#12 then some .root
    else if off = 0x040#12 then some .freqIdx else if off = 0x044#12 then some .freqData
    else if off = 0x050#12 then some .lutIdx else if off = 0x054#12 then some .lutLen
    else if off = 0x060#12 then some (.lutCode 0) else if off = 0x064#12 then some (.lutCode 1)
    else if off = 0x068#12 then some (.lutCode 2) else if off = 0x06C#12 then some (.lutCode 3)
    else if off = 0x070#12 then some (.lutCode 4) else if off = 0x074#12 then some (.lutCode 5)
    else if off = 0x078#12 then some (.lutCode 6) else if off = 0x07C#12 then some (.lutCode 7)
    else if off = 0x080#12 then some .nodeIdx else if off = 0x084#12 then some .nodeInfo
    else if off = 0x088#12 then some .nodeChild else if off = 0x08C#12 then some .nodeWlo
    else if off = 0x090#12 then some .nodeWhi else none)
  ∧ (∀ (r : Csr) (off : BitVec 12), r.offset = off ↔ Csr.ofOffset off = some r)
  ∧ (∀ w : Word, cmdWrite w = { write := true, offset := 0x010#12, size := .bits32, data := w })
  ∧ (∀ (s : State) (off : BitVec 12) (d : Word), s.rstN = true →
    (∀ r, Csr.ofOffset off = some r →
      busAccess { write := false, offset := off, size := .bits32, data := d } s
        = { (csrRead r s).2 with response := some (.data (csrRead r s).1) }
      ∧ (r ≠ .cmd → busAccess { write := true, offset := off, size := .bits32, data := d } s
        = { csrWrite r d s with response := some .done })
      ∧ (r = .cmd → (Access.mk true off .bits32 d).command s = some d))
    ∧ (Csr.ofOffset off = none → ∀ w : Bool,
      busAccess { write := w, offset := off, size := .bits32, data := d } s = { s with response := some .busError }))
  ∧ ∀ (s : State) (es : List Event) (a : Access), s.rstN = true → a.command s = none →
    step { s with pending := .access a :: es } = settle (busAccess a { s with pending := es })
end

