-- ==== Sys2Proof/Laws/State.lean ====
section
/-! SUPPORT. One lemma per field of State per named update, true by `rfl`: no later proof unfolds a record update. -/

namespace Sys2Proof.Machine

variable (s : State)

/-! #### setPhase -/

@[simp] theorem setPhase_status (p : Phase) : (setPhase p s).status = { s.status with phase := p } := rfl
@[simp] theorem setPhase_cntW (p : Phase) : (setPhase p s).cntW = s.cntW := rfl
@[simp] theorem setPhase_tieOrder (p : Phase) : (setPhase p s).tieOrder = s.tieOrder := rfl
@[simp] theorem setPhase_irqEn (p : Phase) : (setPhase p s).irqEn = s.irqEn := rfl
@[simp] theorem setPhase_pend (p : Phase) : (setPhase p s).pend = s.pend := rfl
@[simp] theorem setPhase_rdBits (p : Phase) : (setPhase p s).rdBits = s.rdBits := rfl
@[simp] theorem setPhase_wrBits (p : Phase) : (setPhase p s).wrBits = s.wrBits := rfl
@[simp] theorem setPhase_syms (p : Phase) : (setPhase p s).syms = s.syms := rfl
@[simp] theorem setPhase_leafCount (p : Phase) : (setPhase p s).leafCount = s.leafCount := rfl
@[simp] theorem setPhase_nodeCount (p : Phase) : (setPhase p s).nodeCount = s.nodeCount := rfl
@[simp] theorem setPhase_root (p : Phase) : (setPhase p s).root = s.root := rfl
@[simp] theorem setPhase_freqIdx (p : Phase) : (setPhase p s).freqIdx = s.freqIdx := rfl
@[simp] theorem setPhase_lutIdx (p : Phase) : (setPhase p s).lutIdx = s.lutIdx := rfl
@[simp] theorem setPhase_nodeIdx (p : Phase) : (setPhase p s).nodeIdx = s.nodeIdx := rfl
@[simp] theorem setPhase_freq (p : Phase) : (setPhase p s).freq = s.freq := rfl
@[simp] theorem setPhase_node (p : Phase) : (setPhase p s).node = s.node := rfl
@[simp] theorem setPhase_lut (p : Phase) : (setPhase p s).lut = s.lut := rfl
@[simp] theorem setPhase_sel (p : Phase) : (setPhase p s).sel = s.sel := rfl
@[simp] theorem setPhase_path (p : Phase) : (setPhase p s).path = s.path := rfl
@[simp] theorem setPhase_stk (p : Phase) : (setPhase p s).stk = s.stk := rfl
@[simp] theorem setPhase_cur (p : Phase) : (setPhase p s).cur = s.cur := rfl
@[simp] theorem setPhase_seq (p : Phase) : (setPhase p s).seq = s.seq := rfl
@[simp] theorem setPhase_src (p : Phase) : (setPhase p s).src = s.src := rfl
@[simp] theorem setPhase_snk (p : Phase) : (setPhase p s).snk = s.snk := rfl
@[simp] theorem setPhase_rstN (p : Phase) : (setPhase p s).rstN = s.rstN := rfl
@[simp] theorem setPhase_response (p : Phase) : (setPhase p s).response = s.response := rfl
@[simp] theorem setPhase_pending (p : Phase) : (setPhase p s).pending = s.pending := rfl
@[simp] theorem setPhase_pace (p : Phase) : (setPhase p s).pace = s.pace := rfl
@[simp] theorem setPhase_draws (p : Phase) : (setPhase p s).draws = s.draws := rfl
@[simp] theorem setPhase_pops (p : Phase) : (setPhase p s).pops = s.pops := rfl

/-! #### goto -/

@[simp] theorem goto_status (p : Pos) : (goto p s).status = s.status := rfl
@[simp] theorem goto_cntW (p : Pos) : (goto p s).cntW = s.cntW := rfl
@[simp] theorem goto_tieOrder (p : Pos) : (goto p s).tieOrder = s.tieOrder := rfl
@[simp] theorem goto_irqEn (p : Pos) : (goto p s).irqEn = s.irqEn := rfl
@[simp] theorem goto_pend (p : Pos) : (goto p s).pend = s.pend := rfl
@[simp] theorem goto_rdBits (p : Pos) : (goto p s).rdBits = s.rdBits := rfl
@[simp] theorem goto_wrBits (p : Pos) : (goto p s).wrBits = s.wrBits := rfl
@[simp] theorem goto_syms (p : Pos) : (goto p s).syms = s.syms := rfl
@[simp] theorem goto_leafCount (p : Pos) : (goto p s).leafCount = s.leafCount := rfl
@[simp] theorem goto_nodeCount (p : Pos) : (goto p s).nodeCount = s.nodeCount := rfl
@[simp] theorem goto_root (p : Pos) : (goto p s).root = s.root := rfl
@[simp] theorem goto_freqIdx (p : Pos) : (goto p s).freqIdx = s.freqIdx := rfl
@[simp] theorem goto_lutIdx (p : Pos) : (goto p s).lutIdx = s.lutIdx := rfl
@[simp] theorem goto_nodeIdx (p : Pos) : (goto p s).nodeIdx = s.nodeIdx := rfl
@[simp] theorem goto_freq (p : Pos) : (goto p s).freq = s.freq := rfl
@[simp] theorem goto_node (p : Pos) : (goto p s).node = s.node := rfl
@[simp] theorem goto_lut (p : Pos) : (goto p s).lut = s.lut := rfl
@[simp] theorem goto_sel (p : Pos) : (goto p s).sel = s.sel := rfl
@[simp] theorem goto_path (p : Pos) : (goto p s).path = s.path := rfl
@[simp] theorem goto_stk (p : Pos) : (goto p s).stk = s.stk := rfl
@[simp] theorem goto_cur (p : Pos) : (goto p s).cur = s.cur := rfl
@[simp] theorem goto_seq (p : Pos) : (goto p s).seq = { s.seq with pos := p } := rfl
@[simp] theorem goto_src (p : Pos) : (goto p s).src = s.src := rfl
@[simp] theorem goto_snk (p : Pos) : (goto p s).snk = s.snk := rfl
@[simp] theorem goto_rstN (p : Pos) : (goto p s).rstN = s.rstN := rfl
@[simp] theorem goto_response (p : Pos) : (goto p s).response = s.response := rfl
@[simp] theorem goto_pending (p : Pos) : (goto p s).pending = s.pending := rfl
@[simp] theorem goto_pace (p : Pos) : (goto p s).pace = s.pace := rfl
@[simp] theorem goto_draws (p : Pos) : (goto p s).draws = s.draws := rfl
@[simp] theorem goto_pops (p : Pos) : (goto p s).pops = s.pops := rfl

/-! #### clearSyms -/

@[simp] theorem clearSyms_status : (clearSyms s).status = s.status := rfl
@[simp] theorem clearSyms_cntW : (clearSyms s).cntW = s.cntW := rfl
@[simp] theorem clearSyms_tieOrder : (clearSyms s).tieOrder = s.tieOrder := rfl
@[simp] theorem clearSyms_irqEn : (clearSyms s).irqEn = s.irqEn := rfl
@[simp] theorem clearSyms_pend : (clearSyms s).pend = s.pend := rfl
@[simp] theorem clearSyms_rdBits : (clearSyms s).rdBits = s.rdBits := rfl
@[simp] theorem clearSyms_wrBits : (clearSyms s).wrBits = s.wrBits := rfl
@[simp] theorem clearSyms_syms : (clearSyms s).syms = s.syms.clear := rfl
@[simp] theorem clearSyms_leafCount : (clearSyms s).leafCount = s.leafCount := rfl
@[simp] theorem clearSyms_nodeCount : (clearSyms s).nodeCount = s.nodeCount := rfl
@[simp] theorem clearSyms_root : (clearSyms s).root = s.root := rfl
@[simp] theorem clearSyms_freqIdx : (clearSyms s).freqIdx = s.freqIdx := rfl
@[simp] theorem clearSyms_lutIdx : (clearSyms s).lutIdx = s.lutIdx := rfl
@[simp] theorem clearSyms_nodeIdx : (clearSyms s).nodeIdx = s.nodeIdx := rfl
@[simp] theorem clearSyms_freq : (clearSyms s).freq = s.freq := rfl
@[simp] theorem clearSyms_node : (clearSyms s).node = s.node := rfl
@[simp] theorem clearSyms_lut : (clearSyms s).lut = s.lut := rfl
@[simp] theorem clearSyms_sel : (clearSyms s).sel = s.sel := rfl
@[simp] theorem clearSyms_path : (clearSyms s).path = s.path := rfl
@[simp] theorem clearSyms_stk : (clearSyms s).stk = s.stk := rfl
@[simp] theorem clearSyms_cur : (clearSyms s).cur = s.cur := rfl
@[simp] theorem clearSyms_seq : (clearSyms s).seq = s.seq := rfl
@[simp] theorem clearSyms_src : (clearSyms s).src = s.src := rfl
@[simp] theorem clearSyms_snk : (clearSyms s).snk = s.snk := rfl
@[simp] theorem clearSyms_rstN : (clearSyms s).rstN = s.rstN := rfl
@[simp] theorem clearSyms_response : (clearSyms s).response = s.response := rfl
@[simp] theorem clearSyms_pending : (clearSyms s).pending = s.pending := rfl
@[simp] theorem clearSyms_pace : (clearSyms s).pace = s.pace := rfl
@[simp] theorem clearSyms_draws : (clearSyms s).draws = s.draws := rfl
@[simp] theorem clearSyms_pops : (clearSyms s).pops = s.pops := rfl

/-! #### countSym -/

@[simp] theorem countSym_status : (countSym s).status = s.status := rfl
@[simp] theorem countSym_cntW : (countSym s).cntW = s.cntW := rfl
@[simp] theorem countSym_tieOrder : (countSym s).tieOrder = s.tieOrder := rfl
@[simp] theorem countSym_irqEn : (countSym s).irqEn = s.irqEn := rfl
@[simp] theorem countSym_pend : (countSym s).pend = s.pend := rfl
@[simp] theorem countSym_rdBits : (countSym s).rdBits = s.rdBits := rfl
@[simp] theorem countSym_wrBits : (countSym s).wrBits = s.wrBits := rfl
@[simp] theorem countSym_syms : (countSym s).syms = s.syms.add 1 := rfl
@[simp] theorem countSym_leafCount : (countSym s).leafCount = s.leafCount := rfl
@[simp] theorem countSym_nodeCount : (countSym s).nodeCount = s.nodeCount := rfl
@[simp] theorem countSym_root : (countSym s).root = s.root := rfl
@[simp] theorem countSym_freqIdx : (countSym s).freqIdx = s.freqIdx := rfl
@[simp] theorem countSym_lutIdx : (countSym s).lutIdx = s.lutIdx := rfl
@[simp] theorem countSym_nodeIdx : (countSym s).nodeIdx = s.nodeIdx := rfl
@[simp] theorem countSym_freq : (countSym s).freq = s.freq := rfl
@[simp] theorem countSym_node : (countSym s).node = s.node := rfl
@[simp] theorem countSym_lut : (countSym s).lut = s.lut := rfl
@[simp] theorem countSym_sel : (countSym s).sel = s.sel := rfl
@[simp] theorem countSym_path : (countSym s).path = s.path := rfl
@[simp] theorem countSym_stk : (countSym s).stk = s.stk := rfl
@[simp] theorem countSym_cur : (countSym s).cur = s.cur := rfl
@[simp] theorem countSym_seq : (countSym s).seq = s.seq := rfl
@[simp] theorem countSym_src : (countSym s).src = s.src := rfl
@[simp] theorem countSym_snk : (countSym s).snk = s.snk := rfl
@[simp] theorem countSym_rstN : (countSym s).rstN = s.rstN := rfl
@[simp] theorem countSym_response : (countSym s).response = s.response := rfl
@[simp] theorem countSym_pending : (countSym s).pending = s.pending := rfl
@[simp] theorem countSym_pace : (countSym s).pace = s.pace := rfl
@[simp] theorem countSym_draws : (countSym s).draws = s.draws := rfl
@[simp] theorem countSym_pops : (countSym s).pops = s.pops := rfl

/-! #### restartSource -/

@[simp] theorem restartSource_status : (restartSource s).status = s.status := rfl
@[simp] theorem restartSource_cntW : (restartSource s).cntW = s.cntW := rfl
@[simp] theorem restartSource_tieOrder : (restartSource s).tieOrder = s.tieOrder := rfl
@[simp] theorem restartSource_irqEn : (restartSource s).irqEn = s.irqEn := rfl
@[simp] theorem restartSource_pend : (restartSource s).pend = s.pend := rfl
@[simp] theorem restartSource_rdBits : (restartSource s).rdBits = s.rdBits := rfl
@[simp] theorem restartSource_wrBits : (restartSource s).wrBits = s.wrBits := rfl
@[simp] theorem restartSource_syms : (restartSource s).syms = s.syms := rfl
@[simp] theorem restartSource_leafCount : (restartSource s).leafCount = s.leafCount := rfl
@[simp] theorem restartSource_nodeCount : (restartSource s).nodeCount = s.nodeCount := rfl
@[simp] theorem restartSource_root : (restartSource s).root = s.root := rfl
@[simp] theorem restartSource_freqIdx : (restartSource s).freqIdx = s.freqIdx := rfl
@[simp] theorem restartSource_lutIdx : (restartSource s).lutIdx = s.lutIdx := rfl
@[simp] theorem restartSource_nodeIdx : (restartSource s).nodeIdx = s.nodeIdx := rfl
@[simp] theorem restartSource_freq : (restartSource s).freq = s.freq := rfl
@[simp] theorem restartSource_node : (restartSource s).node = s.node := rfl
@[simp] theorem restartSource_lut : (restartSource s).lut = s.lut := rfl
@[simp] theorem restartSource_sel : (restartSource s).sel = s.sel := rfl
@[simp] theorem restartSource_path : (restartSource s).path = s.path := rfl
@[simp] theorem restartSource_stk : (restartSource s).stk = s.stk := rfl
@[simp] theorem restartSource_cur : (restartSource s).cur = s.cur := rfl
@[simp] theorem restartSource_seq : (restartSource s).seq = s.seq := rfl
@[simp] theorem restartSource_src : (restartSource s).src = s.src.restart := rfl
@[simp] theorem restartSource_snk : (restartSource s).snk = s.snk := rfl
@[simp] theorem restartSource_rstN : (restartSource s).rstN = s.rstN := rfl
@[simp] theorem restartSource_response : (restartSource s).response = s.response := rfl
@[simp] theorem restartSource_pending : (restartSource s).pending = s.pending := rfl
@[simp] theorem restartSource_pace : (restartSource s).pace = s.pace := rfl
@[simp] theorem restartSource_draws : (restartSource s).draws = s.draws := rfl
@[simp] theorem restartSource_pops : (restartSource s).pops = s.pops := rfl

/-! #### writeBits -/

@[simp] theorem writeBits_status (n v : Nat) : (writeBits n v s).status = s.status := rfl
@[simp] theorem writeBits_cntW (n v : Nat) : (writeBits n v s).cntW = s.cntW := rfl
@[simp] theorem writeBits_tieOrder (n v : Nat) : (writeBits n v s).tieOrder = s.tieOrder := rfl
@[simp] theorem writeBits_irqEn (n v : Nat) : (writeBits n v s).irqEn = s.irqEn := rfl
@[simp] theorem writeBits_pend (n v : Nat) : (writeBits n v s).pend = s.pend := rfl
@[simp] theorem writeBits_rdBits (n v : Nat) : (writeBits n v s).rdBits = s.rdBits := rfl
@[simp] theorem writeBits_wrBits (n v : Nat) : (writeBits n v s).wrBits = s.wrBits.add n := rfl
@[simp] theorem writeBits_syms (n v : Nat) : (writeBits n v s).syms = s.syms := rfl
@[simp] theorem writeBits_leafCount (n v : Nat) : (writeBits n v s).leafCount = s.leafCount := rfl
@[simp] theorem writeBits_nodeCount (n v : Nat) : (writeBits n v s).nodeCount = s.nodeCount := rfl
@[simp] theorem writeBits_root (n v : Nat) : (writeBits n v s).root = s.root := rfl
@[simp] theorem writeBits_freqIdx (n v : Nat) : (writeBits n v s).freqIdx = s.freqIdx := rfl
@[simp] theorem writeBits_lutIdx (n v : Nat) : (writeBits n v s).lutIdx = s.lutIdx := rfl
@[simp] theorem writeBits_nodeIdx (n v : Nat) : (writeBits n v s).nodeIdx = s.nodeIdx := rfl
@[simp] theorem writeBits_freq (n v : Nat) : (writeBits n v s).freq = s.freq := rfl
@[simp] theorem writeBits_node (n v : Nat) : (writeBits n v s).node = s.node := rfl
@[simp] theorem writeBits_lut (n v : Nat) : (writeBits n v s).lut = s.lut := rfl
@[simp] theorem writeBits_sel (n v : Nat) : (writeBits n v s).sel = s.sel := rfl
@[simp] theorem writeBits_path (n v : Nat) : (writeBits n v s).path = s.path := rfl
@[simp] theorem writeBits_stk (n v : Nat) : (writeBits n v s).stk = s.stk := rfl
@[simp] theorem writeBits_cur (n v : Nat) : (writeBits n v s).cur = s.cur := rfl
@[simp] theorem writeBits_seq (n v : Nat) : (writeBits n v s).seq = s.seq := rfl
@[simp] theorem writeBits_src (n v : Nat) : (writeBits n v s).src = s.src := rfl
@[simp] theorem writeBits_snk (n v : Nat) : (writeBits n v s).snk = s.snk.write n v := rfl
@[simp] theorem writeBits_rstN (n v : Nat) : (writeBits n v s).rstN = s.rstN := rfl
@[simp] theorem writeBits_response (n v : Nat) : (writeBits n v s).response = s.response := rfl
@[simp] theorem writeBits_pending (n v : Nat) : (writeBits n v s).pending = s.pending := rfl
@[simp] theorem writeBits_pace (n v : Nat) : (writeBits n v s).pace = s.pace := rfl
@[simp] theorem writeBits_draws (n v : Nat) : (writeBits n v s).draws = s.draws := rfl
@[simp] theorem writeBits_pops (n v : Nat) : (writeBits n v s).pops = s.pops := rfl

/-! #### raise -/

@[simp] theorem raise_status (e : ErrCode) : (raise e s).status = { s.status with busy := false, error := true, errCode := e } := rfl
@[simp] theorem raise_cntW (e : ErrCode) : (raise e s).cntW = s.cntW := rfl
@[simp] theorem raise_tieOrder (e : ErrCode) : (raise e s).tieOrder = s.tieOrder := rfl
@[simp] theorem raise_irqEn (e : ErrCode) : (raise e s).irqEn = s.irqEn := rfl
@[simp] theorem raise_pend (e : ErrCode) : (raise e s).pend = true := rfl
@[simp] theorem raise_rdBits (e : ErrCode) : (raise e s).rdBits = s.rdBits := rfl
@[simp] theorem raise_wrBits (e : ErrCode) : (raise e s).wrBits = s.wrBits := rfl
@[simp] theorem raise_syms (e : ErrCode) : (raise e s).syms = s.syms := rfl
@[simp] theorem raise_leafCount (e : ErrCode) : (raise e s).leafCount = s.leafCount := rfl
@[simp] theorem raise_nodeCount (e : ErrCode) : (raise e s).nodeCount = s.nodeCount := rfl
@[simp] theorem raise_root (e : ErrCode) : (raise e s).root = s.root := rfl
@[simp] theorem raise_freqIdx (e : ErrCode) : (raise e s).freqIdx = s.freqIdx := rfl
@[simp] theorem raise_lutIdx (e : ErrCode) : (raise e s).lutIdx = s.lutIdx := rfl
@[simp] theorem raise_nodeIdx (e : ErrCode) : (raise e s).nodeIdx = s.nodeIdx := rfl
@[simp] theorem raise_freq (e : ErrCode) : (raise e s).freq = s.freq := rfl
@[simp] theorem raise_node (e : ErrCode) : (raise e s).node = s.node := rfl
@[simp] theorem raise_lut (e : ErrCode) : (raise e s).lut = s.lut := rfl
@[simp] theorem raise_sel (e : ErrCode) : (raise e s).sel = s.sel := rfl
@[simp] theorem raise_path (e : ErrCode) : (raise e s).path = s.path := rfl
@[simp] theorem raise_stk (e : ErrCode) : (raise e s).stk = s.stk := rfl
@[simp] theorem raise_cur (e : ErrCode) : (raise e s).cur = s.cur := rfl
@[simp] theorem raise_seq (e : ErrCode) : (raise e s).seq = Seq.idle := rfl
@[simp] theorem raise_src (e : ErrCode) : (raise e s).src = s.src := rfl
@[simp] theorem raise_snk (e : ErrCode) : (raise e s).snk = s.snk := rfl
@[simp] theorem raise_rstN (e : ErrCode) : (raise e s).rstN = s.rstN := rfl
@[simp] theorem raise_response (e : ErrCode) : (raise e s).response = s.response := rfl
@[simp] theorem raise_pending (e : ErrCode) : (raise e s).pending = s.pending := rfl
@[simp] theorem raise_pace (e : ErrCode) : (raise e s).pace = s.pace := rfl
@[simp] theorem raise_draws (e : ErrCode) : (raise e s).draws = s.draws := rfl
@[simp] theorem raise_pops (e : ErrCode) : (raise e s).pops = s.pops := rfl

/-! #### complete -/

@[simp] theorem complete_status : (complete s).status = { s.status with busy := false, done := true, phase := .idle } := rfl
@[simp] theorem complete_cntW : (complete s).cntW = s.cntW := rfl
@[simp] theorem complete_tieOrder : (complete s).tieOrder = s.tieOrder := rfl
@[simp] theorem complete_irqEn : (complete s).irqEn = s.irqEn := rfl
@[simp] theorem complete_pend : (complete s).pend = true := rfl
@[simp] theorem complete_rdBits : (complete s).rdBits = s.rdBits := rfl
@[simp] theorem complete_wrBits : (complete s).wrBits = s.wrBits := rfl
@[simp] theorem complete_syms : (complete s).syms = s.syms := rfl
@[simp] theorem complete_leafCount : (complete s).leafCount = s.leafCount := rfl
@[simp] theorem complete_nodeCount : (complete s).nodeCount = s.nodeCount := rfl
@[simp] theorem complete_root : (complete s).root = s.root := rfl
@[simp] theorem complete_freqIdx : (complete s).freqIdx = s.freqIdx := rfl
@[simp] theorem complete_lutIdx : (complete s).lutIdx = s.lutIdx := rfl
@[simp] theorem complete_nodeIdx : (complete s).nodeIdx = s.nodeIdx := rfl
@[simp] theorem complete_freq : (complete s).freq = s.freq := rfl
@[simp] theorem complete_node : (complete s).node = s.node := rfl
@[simp] theorem complete_lut : (complete s).lut = s.lut := rfl
@[simp] theorem complete_sel : (complete s).sel = s.sel := rfl
@[simp] theorem complete_path : (complete s).path = s.path := rfl
@[simp] theorem complete_stk : (complete s).stk = s.stk := rfl
@[simp] theorem complete_cur : (complete s).cur = s.cur := rfl
@[simp] theorem complete_seq : (complete s).seq = Seq.idle := rfl
@[simp] theorem complete_src : (complete s).src = s.src := rfl
@[simp] theorem complete_snk : (complete s).snk = s.snk := rfl
@[simp] theorem complete_rstN : (complete s).rstN = s.rstN := rfl
@[simp] theorem complete_response : (complete s).response = s.response := rfl
@[simp] theorem complete_pending : (complete s).pending = s.pending := rfl
@[simp] theorem complete_pace : (complete s).pace = s.pace := rfl
@[simp] theorem complete_draws : (complete s).draws = s.draws := rfl
@[simp] theorem complete_pops : (complete s).pops = s.pops := rfl

/-! #### accept -/

@[simp] theorem accept_status (op : Byte) : (accept op s).status = { s.status with
      busy := true, done := false, error := false, empty := false, ovr := false, errCode := .none, phase := .check,
      lastOp := op } := rfl
@[simp] theorem accept_cntW (op : Byte) : (accept op s).cntW = s.cntW := rfl
@[simp] theorem accept_tieOrder (op : Byte) : (accept op s).tieOrder = s.tieOrder := rfl
@[simp] theorem accept_irqEn (op : Byte) : (accept op s).irqEn = s.irqEn := rfl
@[simp] theorem accept_pend (op : Byte) : (accept op s).pend = s.pend := rfl
@[simp] theorem accept_rdBits (op : Byte) : (accept op s).rdBits = Counter.zero := rfl
@[simp] theorem accept_wrBits (op : Byte) : (accept op s).wrBits = Counter.zero := rfl
@[simp] theorem accept_syms (op : Byte) : (accept op s).syms = Counter.zero := rfl
@[simp] theorem accept_leafCount (op : Byte) : (accept op s).leafCount = s.leafCount := rfl
@[simp] theorem accept_nodeCount (op : Byte) : (accept op s).nodeCount = s.nodeCount := rfl
@[simp] theorem accept_root (op : Byte) : (accept op s).root = s.root := rfl
@[simp] theorem accept_freqIdx (op : Byte) : (accept op s).freqIdx = s.freqIdx := rfl
@[simp] theorem accept_lutIdx (op : Byte) : (accept op s).lutIdx = s.lutIdx := rfl
@[simp] theorem accept_nodeIdx (op : Byte) : (accept op s).nodeIdx = s.nodeIdx := rfl
@[simp] theorem accept_freq (op : Byte) : (accept op s).freq = s.freq := rfl
@[simp] theorem accept_node (op : Byte) : (accept op s).node = s.node := rfl
@[simp] theorem accept_lut (op : Byte) : (accept op s).lut = s.lut := rfl
@[simp] theorem accept_sel (op : Byte) : (accept op s).sel = s.sel := rfl
@[simp] theorem accept_path (op : Byte) : (accept op s).path = s.path := rfl
@[simp] theorem accept_stk (op : Byte) : (accept op s).stk = s.stk := rfl
@[simp] theorem accept_cur (op : Byte) : (accept op s).cur = s.cur := rfl
@[simp] theorem accept_seq (op : Byte) : (accept op s).seq = s.seq := rfl
@[simp] theorem accept_src (op : Byte) : (accept op s).src = s.src := rfl
@[simp] theorem accept_snk (op : Byte) : (accept op s).snk = s.snk := rfl
@[simp] theorem accept_rstN (op : Byte) : (accept op s).rstN = s.rstN := rfl
@[simp] theorem accept_response (op : Byte) : (accept op s).response = s.response := rfl
@[simp] theorem accept_pending (op : Byte) : (accept op s).pending = s.pending := rfl
@[simp] theorem accept_pace (op : Byte) : (accept op s).pace = s.pace := rfl
@[simp] theorem accept_draws (op : Byte) : (accept op s).draws = s.draws := rfl
@[simp] theorem accept_pops (op : Byte) : (accept op s).pops = s.pops := rfl

/-! #### discard -/

@[simp] theorem discard_status : (discard s).status = { s.status with ovr := true } := rfl
@[simp] theorem discard_cntW : (discard s).cntW = s.cntW := rfl
@[simp] theorem discard_tieOrder : (discard s).tieOrder = s.tieOrder := rfl
@[simp] theorem discard_irqEn : (discard s).irqEn = s.irqEn := rfl
@[simp] theorem discard_pend : (discard s).pend = s.pend := rfl
@[simp] theorem discard_rdBits : (discard s).rdBits = s.rdBits := rfl
@[simp] theorem discard_wrBits : (discard s).wrBits = s.wrBits := rfl
@[simp] theorem discard_syms : (discard s).syms = s.syms := rfl
@[simp] theorem discard_leafCount : (discard s).leafCount = s.leafCount := rfl
@[simp] theorem discard_nodeCount : (discard s).nodeCount = s.nodeCount := rfl
@[simp] theorem discard_root : (discard s).root = s.root := rfl
@[simp] theorem discard_freqIdx : (discard s).freqIdx = s.freqIdx := rfl
@[simp] theorem discard_lutIdx : (discard s).lutIdx = s.lutIdx := rfl
@[simp] theorem discard_nodeIdx : (discard s).nodeIdx = s.nodeIdx := rfl
@[simp] theorem discard_freq : (discard s).freq = s.freq := rfl
@[simp] theorem discard_node : (discard s).node = s.node := rfl
@[simp] theorem discard_lut : (discard s).lut = s.lut := rfl
@[simp] theorem discard_sel : (discard s).sel = s.sel := rfl
@[simp] theorem discard_path : (discard s).path = s.path := rfl
@[simp] theorem discard_stk : (discard s).stk = s.stk := rfl
@[simp] theorem discard_cur : (discard s).cur = s.cur := rfl
@[simp] theorem discard_seq : (discard s).seq = s.seq := rfl
@[simp] theorem discard_src : (discard s).src = s.src := rfl
@[simp] theorem discard_snk : (discard s).snk = s.snk := rfl
@[simp] theorem discard_rstN : (discard s).rstN = s.rstN := rfl
@[simp] theorem discard_response : (discard s).response = s.response := rfl
@[simp] theorem discard_pending : (discard s).pending = s.pending := rfl
@[simp] theorem discard_pace : (discard s).pace = s.pace := rfl
@[simp] theorem discard_draws : (discard s).draws = s.draws := rfl
@[simp] theorem discard_pops : (discard s).pops = s.pops := rfl

/-! #### dropTree -/

@[simp] theorem dropTree_status : (dropTree s).status = { s.status with treeValid := false, lutValid := false } := rfl
@[simp] theorem dropTree_cntW : (dropTree s).cntW = s.cntW := rfl
@[simp] theorem dropTree_tieOrder : (dropTree s).tieOrder = s.tieOrder := rfl
@[simp] theorem dropTree_irqEn : (dropTree s).irqEn = s.irqEn := rfl
@[simp] theorem dropTree_pend : (dropTree s).pend = s.pend := rfl
@[simp] theorem dropTree_rdBits : (dropTree s).rdBits = s.rdBits := rfl
@[simp] theorem dropTree_wrBits : (dropTree s).wrBits = s.wrBits := rfl
@[simp] theorem dropTree_syms : (dropTree s).syms = s.syms := rfl
@[simp] theorem dropTree_leafCount : (dropTree s).leafCount = 0#9 := rfl
@[simp] theorem dropTree_nodeCount : (dropTree s).nodeCount = 0#10 := rfl
@[simp] theorem dropTree_root : (dropTree s).root = 0#10 := rfl
@[simp] theorem dropTree_freqIdx : (dropTree s).freqIdx = s.freqIdx := rfl
@[simp] theorem dropTree_lutIdx : (dropTree s).lutIdx = s.lutIdx := rfl
@[simp] theorem dropTree_nodeIdx : (dropTree s).nodeIdx = s.nodeIdx := rfl
@[simp] theorem dropTree_freq : (dropTree s).freq = s.freq := rfl
@[simp] theorem dropTree_node : (dropTree s).node = s.node := rfl
@[simp] theorem dropTree_lut : (dropTree s).lut = s.lut := rfl
@[simp] theorem dropTree_sel : (dropTree s).sel = s.sel := rfl
@[simp] theorem dropTree_path : (dropTree s).path = s.path := rfl
@[simp] theorem dropTree_stk : (dropTree s).stk = s.stk := rfl
@[simp] theorem dropTree_cur : (dropTree s).cur = s.cur := rfl
@[simp] theorem dropTree_seq : (dropTree s).seq = s.seq := rfl
@[simp] theorem dropTree_src : (dropTree s).src = s.src := rfl
@[simp] theorem dropTree_snk : (dropTree s).snk = s.snk := rfl
@[simp] theorem dropTree_rstN : (dropTree s).rstN = s.rstN := rfl
@[simp] theorem dropTree_response : (dropTree s).response = s.response := rfl
@[simp] theorem dropTree_pending : (dropTree s).pending = s.pending := rfl
@[simp] theorem dropTree_pace : (dropTree s).pace = s.pace := rfl
@[simp] theorem dropTree_draws : (dropTree s).draws = s.draws := rfl
@[simp] theorem dropTree_pops : (dropTree s).pops = s.pops := rfl

/-! #### respond -/

@[simp] theorem respond_status (r : Response) : (respond r s).status = s.status := rfl
@[simp] theorem respond_cntW (r : Response) : (respond r s).cntW = s.cntW := rfl
@[simp] theorem respond_tieOrder (r : Response) : (respond r s).tieOrder = s.tieOrder := rfl
@[simp] theorem respond_irqEn (r : Response) : (respond r s).irqEn = s.irqEn := rfl
@[simp] theorem respond_pend (r : Response) : (respond r s).pend = s.pend := rfl
@[simp] theorem respond_rdBits (r : Response) : (respond r s).rdBits = s.rdBits := rfl
@[simp] theorem respond_wrBits (r : Response) : (respond r s).wrBits = s.wrBits := rfl
@[simp] theorem respond_syms (r : Response) : (respond r s).syms = s.syms := rfl
@[simp] theorem respond_leafCount (r : Response) : (respond r s).leafCount = s.leafCount := rfl
@[simp] theorem respond_nodeCount (r : Response) : (respond r s).nodeCount = s.nodeCount := rfl
@[simp] theorem respond_root (r : Response) : (respond r s).root = s.root := rfl
@[simp] theorem respond_freqIdx (r : Response) : (respond r s).freqIdx = s.freqIdx := rfl
@[simp] theorem respond_lutIdx (r : Response) : (respond r s).lutIdx = s.lutIdx := rfl
@[simp] theorem respond_nodeIdx (r : Response) : (respond r s).nodeIdx = s.nodeIdx := rfl
@[simp] theorem respond_freq (r : Response) : (respond r s).freq = s.freq := rfl
@[simp] theorem respond_node (r : Response) : (respond r s).node = s.node := rfl
@[simp] theorem respond_lut (r : Response) : (respond r s).lut = s.lut := rfl
@[simp] theorem respond_sel (r : Response) : (respond r s).sel = s.sel := rfl
@[simp] theorem respond_path (r : Response) : (respond r s).path = s.path := rfl
@[simp] theorem respond_stk (r : Response) : (respond r s).stk = s.stk := rfl
@[simp] theorem respond_cur (r : Response) : (respond r s).cur = s.cur := rfl
@[simp] theorem respond_seq (r : Response) : (respond r s).seq = s.seq := rfl
@[simp] theorem respond_src (r : Response) : (respond r s).src = s.src := rfl
@[simp] theorem respond_snk (r : Response) : (respond r s).snk = s.snk := rfl
@[simp] theorem respond_rstN (r : Response) : (respond r s).rstN = s.rstN := rfl
@[simp] theorem respond_response (r : Response) : (respond r s).response = some r := rfl
@[simp] theorem respond_pending (r : Response) : (respond r s).pending = s.pending := rfl
@[simp] theorem respond_pace (r : Response) : (respond r s).pace = s.pace := rfl
@[simp] theorem respond_draws (r : Response) : (respond r s).draws = s.draws := rfl
@[simp] theorem respond_pops (r : Response) : (respond r s).pops = s.pops := rfl

end Sys2Proof.Machine
end

