-- ==== Sys2Proof/Laws/Bits.lean ====
section
/-! SUPPORT. Bit strings and their numbers (00_scope.md R8), and the port primitives in one lemma each (R87, R88, R90). -/

namespace Sys2Proof.Machine

@[simp] theorem bitsOf_length (n v : Nat) : (bitsOf n v).length = n := by
  induction n with
  | zero => rfl
  | succ n ih => simp [bitsOf, ih]

theorem foldl_val (s : Bits) (v : Nat) :
    s.foldl (fun v b => 2 * v + b.toNat) v = v * 2 ^ s.length + valOf s := by
  unfold valOf
  induction s generalizing v with
  | nil => simp
  | cons b s ih =>
    simp only [List.foldl_cons, List.length_cons]
    rw [ih, ih (2 * 0 + b.toNat)]
    ring

theorem valOf_cons (b : Bool) (s : Bits) : valOf (b :: s) = b.toNat * 2 ^ s.length + valOf s := by
  have h := foldl_val s b.toNat
  simpa [valOf] using h

theorem valOf_nil : valOf [] = 0 := rfl

theorem valOf_lt (s : Bits) : valOf s < 2 ^ s.length := by
  induction s with
  | nil => decide
  | cons b s ih =>
    rw [valOf_cons, List.length_cons, Nat.pow_succ]
    cases b <;> simp <;> omega

theorem bitsOf_mod (n v : Nat) : bitsOf n (v % 2 ^ n) = bitsOf n v := by
  suffices h : ∀ m, n ≤ m → bitsOf n (v % 2 ^ m) = bitsOf n v from h n le_rfl
  intro m
  induction n with
  | zero => intro _; rfl
  | succ n ih =>
    intro h
    have hn : n < m := by omega
    simp [bitsOf, Nat.testBit_mod_two_pow, hn, ih (by omega)]

/-- `bits_n` undoes `val` on strings of `n` bits. -/
theorem bitsOf_valOf (s : Bits) : bitsOf s.length (valOf s) = s := by
  induction s with
  | nil => rfl
  | cons b s ih =>
    have hlt := valOf_lt s
    rw [valOf_cons, List.length_cons, bitsOf]
    congr 1
    · rw [Nat.mul_comm, Nat.testBit_two_pow_mul_add _ hlt]
      cases b <;> simp
    · conv_rhs => rw [← ih]
      rw [← bitsOf_mod s.length (b.toNat * 2 ^ s.length + valOf s)]
      congr 1
      rw [Nat.mul_add_mod', Nat.mod_eq_of_lt hlt]

theorem testBit_top_toNat {n v : Nat} (h : v < 2 ^ (n + 1)) : (v.testBit n).toNat * 2 ^ n + v % 2 ^ n = v := by
  have h2 : v / 2 ^ n < 2 := by
    rw [Nat.div_lt_iff_lt_mul (by positivity)]; rw [pow_succ] at h; omega
  have h3 : (v.testBit n).toNat = v / 2 ^ n := by
    rw [Nat.testBit_eq_decide_div_mod_eq, Nat.mod_eq_of_lt h2]
    generalize v / 2 ^ n = d at h2
    interval_cases d <;> rfl
  rw [h3, Nat.mul_comm, Nat.div_add_mod]

/-- `val` undoes `bits_n` on numbers below 2^n. -/
theorem valOf_bitsOf {n v : Nat} (h : v < 2 ^ n) : valOf (bitsOf n v) = v := by
  induction n generalizing v with
  | zero => simp at h; subst h; rfl
  | succ n ih =>
    rw [bitsOf, valOf_cons, bitsOf_length, ← bitsOf_mod, ih (Nat.mod_lt _ (by positivity)), testBit_top_toNat h]

@[simp] theorem byteBits_length (b : Byte) : (byteBits b).length = 8 := bitsOf_length _ _

theorem byte_of_byteBits (b : Byte) : BitVec.ofNat 8 (valOf (byteBits b)) = b := by
  rw [byteBits, valOf_bitsOf b.isLt]; simp

theorem bytesBits_length (x : List Byte) : (bytesBits x).length = 8 * x.length := by
  induction x with
  | nil => rfl
  | cons b x ih => simp only [bytesBits, List.flatMap_cons, List.length_append, byteBits_length,
      List.length_cons] at *; omega

@[simp] theorem bytesBits_nil : bytesBits [] = [] := rfl

theorem bytesBits_cons (b : Byte) (x : List Byte) : bytesBits (b :: x) = byteBits b ++ bytesBits x := rfl

/-! ### The ports -/

/-- The state after `n` bits have been received (R87). -/
def received (n : Nat) (s : State) : State :=
  { s with src := { s.src with pos := s.src.pos + n }, rdBits := s.rdBits.add n }

/-- `ReadBits(n)` with the `n` bits `l` at the cursor (R87). -/
theorem readBits_of_drop {s : State} {l tail : Bits} {n : Nat} (hp : s.src.pos ≤ s.src.bits.length)
    (h : s.src.bits.drop s.src.pos = l ++ tail) (hn : l.length = n) :
    readBits n s = (some (valOf l), received n s) := by
  have hlen : s.src.bits.length - s.src.pos = l.length + tail.length := by
    rw [← List.length_drop, h, List.length_append]
  have hle : s.src.pos + n ≤ s.src.bits.length := by omega
  have ht : (s.src.bits.drop s.src.pos).take n = l := by rw [h, ← hn, List.take_left]
  simp [readBits, Source.read, hle, ht, received]

/-- `ReadBits(n)` with fewer than `n` bits left: end-of-data, and nothing changes (R87). -/
theorem readBits_eod {s : State} {n : Nat} (h : s.src.bits.length < s.src.pos + n) : readBits n s = (none, s) := by
  simp [readBits, Source.read, Nat.not_le.mpr h]

/-- Everything `ReadBits(n)` can do (R87). -/
theorem readBits_cases (n : Nat) (s : State) :
    (s.src.bits.length < s.src.pos + n ∧ readBits n s = (none, s))
      ∨ (s.src.pos + n ≤ s.src.bits.length
          ∧ readBits n s = (some (valOf ((s.src.bits.drop s.src.pos).take n)), received n s)) := by
  by_cases h : s.src.pos + n ≤ s.src.bits.length
  · right; simp [readBits, Source.read, h, received]
  · left; exact ⟨by omega, readBits_eod (by omega)⟩

theorem received_drop {s : State} {l tail : Bits} (h : s.src.bits.drop s.src.pos = l ++ tail) :
    (received l.length s).src.bits.drop (received l.length s).src.pos = tail := by
  show s.src.bits.drop (s.src.pos + l.length) = tail
  rw [← List.drop_drop, h, List.drop_left]

theorem received_pos_le {s : State} {l tail : Bits} (hp : s.src.pos ≤ s.src.bits.length)
    (h : s.src.bits.drop s.src.pos = l ++ tail) :
    (received l.length s).src.pos ≤ (received l.length s).src.bits.length := by
  show s.src.pos + l.length ≤ s.src.bits.length
  have : s.src.bits.length - s.src.pos = l.length + tail.length := by
    rw [← List.length_drop, h, List.length_append]
  omega

/-- `WriteBits` of a bit string's own number appends the string (R90). -/
theorem writeBits_valOf (l : Bits) (s : State) :
    (writeBits l.length (valOf l) s).snk.bits = s.snk.bits ++ l := by
  simp [Sink.write, bitsOf_valOf]

end Sys2Proof.Machine
end

