-- ==== Sys2Proof/Laws/Drive.lean ====
section
/-! SUPPORT. Runs of moves: `MovesTo k s t` says that `k` moves lead from `s` to `t`; what `drive`, `settle` and
`runCommand` answer follows from it. -/

namespace Sys2Proof.Machine

/-- `k` moves, each possible and each answering a next state, lead from `s` to `t`. -/
def MovesTo : Nat → State → State → Prop
  | 0, s, t => s = t
  | k + 1, s, t => s.halted = false ∧ ∃ s', move s = .next s' ∧ MovesTo k s' t

theorem MovesTo.one {s t : State} (h : s.halted = false) (hm : move s = .next t) : MovesTo 1 s t :=
  ⟨h, t, hm, rfl⟩

theorem MovesTo.step {k : Nat} {s s' t : State} (h : s.halted = false) (hm : move s = .next s')
    (ht : MovesTo k s' t) : MovesTo (k + 1) s t := ⟨h, s', hm, ht⟩

theorem MovesTo.to {k : Nat} {s t u : State} (h : MovesTo k s t) (e : t = u) : MovesTo k s u := e ▸ h

theorem MovesTo.trans {j k : Nat} {s t u : State} (h1 : MovesTo j s t) (h2 : MovesTo k t u) : MovesTo (j + k) s u := by
  induction j generalizing s with
  | zero => cases h1; simpa using h2
  | succ j ih =>
    obtain ⟨hh, s', hm, hr⟩ := h1
    rw [Nat.succ_add]
    exact ⟨hh, s', hm, ih hr⟩

theorem drive_halted {n : Nat} {s : State} (h : s.halted = true) : drive n s = .next s := by
  cases n with
  | zero => rfl
  | succ n => simp [drive, h]

theorem drive_moves {n : Nat} {s s' : State} (h : s.halted = false) (hm : move s = .next s') :
    drive (n + 1) s = drive n s' := by
  simp [drive, h, hm]

/-- Moves already made come off the number still allowed. -/
theorem drive_of_movesTo {k n : Nat} {s t : State} (h : MovesTo k s t) (hk : k ≤ n) : drive n s = drive (n - k) t := by
  induction k generalizing s n with
  | zero => cases h; rfl
  | succ k ih =>
    obtain ⟨hh, s', hm, hr⟩ := h
    obtain ⟨m, rfl⟩ : ∃ m, n = m + 1 := ⟨n - 1, by omega⟩
    rw [drive_moves hh hm, ih hr (by omega)]
    congr 1; omega

/-- A run that ends in a state where no move is possible, within the moves allowed. -/
theorem drive_to_halted {k n : Nat} {s t : State} (h : MovesTo k s t) (hk : k ≤ n) (ht : t.halted = true) :
    drive n s = .next t := by
  rw [drive_of_movesTo h hk, drive_halted ht]

/-- Everything `drive` can do: it makes some number of moves, then answers the state there or the stop of the move there. -/
theorem drive_cases (n : Nat) (s : State) :
    ∃ k t, k ≤ n ∧ MovesTo k s t ∧ ((drive n s = .next t ∧ (k = n ∨ t.halted = true))
      ∨ (t.halted = false ∧ ((∃ f, move t = .fault f ∧ drive n s = .fault f)
        ∨ ∃ f, move t = .refused f ∧ drive n s = .refused f))) := by
  induction n generalizing s with
  | zero => exact ⟨0, s, le_rfl, rfl, .inl ⟨rfl, .inl rfl⟩⟩
  | succ n ih =>
    by_cases hh : s.halted = true
    · exact ⟨0, s, by omega, rfl, .inl ⟨drive_halted hh, .inr hh⟩⟩
    · have hh' : s.halted = false := by simpa using hh
      cases hm : move s with
      | next s' =>
        obtain ⟨k, t, hk, hmv, hr⟩ := ih s'
        refine ⟨k + 1, t, by omega, .step hh' hm hmv, ?_⟩
        rw [drive_moves hh' hm]
        rcases hr with ⟨he, h⟩ | h
        · exact .inl ⟨he, by rcases h with h | h <;> [left; right] <;> simp [h]⟩
        · exact .inr h
      | fault f => exact ⟨0, s, by omega, rfl, .inr ⟨hh', .inl ⟨f, hm, by simp [drive, hh', hm]⟩⟩⟩
      | refused f => exact ⟨0, s, by omega, rfl, .inr ⟨hh', .inr ⟨f, hm, by simp [drive, hh', hm]⟩⟩⟩

/-- What every move keeps, every run keeps. -/
theorem drive_keeps {P : State → Prop} (hP : ∀ s t, s.halted = false → P s → move s = .next t → P t) {n : Nat}
    {s t : State} (h : drive n s = .next t) (hs : P s) : P t := by
  induction n generalizing s with
  | zero => cases h; exact hs
  | succ n ih =>
    by_cases hh : s.halted = true
    · rw [drive_halted hh] at h; cases h; exact hs
    · have hh' : s.halted = false := by simpa using hh
      cases hm : move s with
      | next s' => rw [drive_moves hh' hm] at h; exact ih h (hP s s' hh' hs hm)
      | fault f => simp [drive, hh', hm] at h
      | refused f => simp [drive, hh', hm] at h

/-- Two runs one after the other are one run (R320: how a command's moves are spread over steps does not matter). -/
theorem drive_add {m n : Nat} {s t : State} (h : drive m s = .next t) : drive (m + n) s = drive n t := by
  induction m generalizing s with
  | zero => cases h; simp
  | succ m ih =>
    by_cases hh : s.halted = true
    · rw [drive_halted hh] at h; cases h; rw [drive_halted hh, drive_halted hh]
    · have hh' : s.halted = false := by simpa using hh
      rw [Nat.succ_add]
      cases hm : move s with
      | next s' => rw [drive_moves hh' hm] at h ⊢; exact ih h
      | fault f => simp [drive, hh', hm] at h
      | refused f => simp [drive, hh', hm] at h

/-- A run that stops stops the same way when more moves are allowed. -/
theorem drive_stops (m : Nat) : ∀ (n : Nat) (s : State), (∀ f, drive n s = .fault f → drive (n + m) s = .fault f)
    ∧ ∀ f, drive n s = .refused f → drive (n + m) s = .refused f := by
  intro n
  induction n with
  | zero => exact fun s => ⟨nofun, nofun⟩
  | succ n ih =>
    intro s
    rw [Nat.succ_add]
    by_cases hh : s.halted = true
    · rw [drive_halted hh]; exact ⟨nofun, nofun⟩
    · have hh' : s.halted = false := by simpa using hh
      cases hm : move s with
      | next s' => rw [drive_moves hh' hm, drive_moves hh' hm]; exact ih s'
      | fault f => simp [drive, hh', hm]
      | refused f => simp [drive, hh', hm]

theorem halted_of_not_busy {s : State} (h : s.status.busy = false) : s.halted = true := by simp [State.halted, h]

/-- A run to the end of a command can be cut after any number of moves (R320). -/
theorem drive_cut {n : Nat} {s t : State} (p : Nat) (h : drive n s = .next t) (ht : t.status.busy = false) :
    ∃ u, drive p s = .next u ∧ drive n u = .next t := by
  have more : drive (p + n) s = .next t := by
    rw [Nat.add_comm, drive_add h, drive_halted (halted_of_not_busy ht)]
  cases hd : drive p s with
  | next u => exact ⟨u, rfl, by rw [← drive_add hd, more]⟩
  | fault f => rw [(drive_stops n p s).1 f hd] at more; cases more
  | refused f => rw [(drive_stops n p s).2 f hd] at more; cases more

theorem settle_idle {s : State} (h : s.status.busy = false) : settle s = .next s :=
  drive_halted (halted_of_not_busy h)

/-- A command's dispatched state: accepted, at the start of its first body (R150, R154). -/
def dispatched (op : Instr) (first : Body) (rest : List Body) (s : State) : State :=
  { accept op.opcode s with seq := { op := some op, pos := .enter first, rest := rest } }

theorem runCommand_busy {op : Instr} {pre : Precondition} {b : Body} {bs : List Body} {s : State}
    (h : s.status.busy = true) : runCommand op pre b bs s = settle (discard s) := by simp [runCommand, h]

theorem runCommand_fails {op : Instr} {pre : Precondition} {b : Body} {bs : List Body} {s : State} {e : ErrCode}
    (h : s.status.busy = false) (hp : pre.fails s = some e) :
    runCommand op pre b bs s = .next (raise e (accept op.opcode s)) := by
  have : pre.fails (accept op.opcode s) = some e := by
    rw [← hp]; cases pre <;> rfl
  simp [runCommand, h, this]

theorem runCommand_runs {op : Instr} {pre : Precondition} {b : Body} {bs : List Body} {s : State}
    (h : s.status.busy = false) (hp : pre.fails s = none) :
    runCommand op pre b bs s = settle (dispatched op b bs s) := by
  have : pre.fails (accept op.opcode s) = none := by
    rw [← hp]; cases pre <;> rfl
  simp [runCommand, h, this, dispatched]

/-- A quiet command that ends within the moves a step allows. -/
theorem runCommand_ends {op : Instr} {pre : Precondition} {b : Body} {bs : List Body} {s t : State} {k : Nat}
    (hq : s.Quiet) (hp : pre.fails s = none) (h : MovesTo k (dispatched op b bs s) t)
    (hk : k ≤ 2 * s.src.bits.length + 4096) (ht : t.status.busy = false) :
    runCommand op pre b bs s = .next t := by
  rw [runCommand_runs hq.1 hp]
  apply drive_to_halted h _ (halted_of_not_busy ht)
  have : (dispatched op b bs s).pace = none := hq.2.2.2
  simp [State.quantum, this]
  exact hk

/-- A command is running and both agents answer: no move waits. -/
def State.Running (s : State) : Prop := s.status.busy = true ∧ s.src.ready = true ∧ s.snk.ready = true

theorem State.Running.halted {s : State} (h : s.Running) : s.halted = false := by
  obtain ⟨hb, hr, hk⟩ := h
  simp only [State.halted, hb, Bool.not_true, Bool.false_or, State.waiting]
  split <;> simp [hr, hk]

theorem State.Running.moves {s s' t : State} {k : Nat} (h : s.Running) (hm : move s = .next s')
    (ht : MovesTo k s' t) : MovesTo (k + 1) s t := .step h.halted hm ht

theorem State.Running.move1 {s t : State} (h : s.Running) (hm : move s = .next t) : MovesTo 1 s t :=
  .one h.halted hm

theorem State.Quiet.dispatched {s : State} (h : s.Quiet) (op : Instr) (b : Body) (bs : List Body) :
    (dispatched op b bs s).Running := ⟨rfl, h.2.1, h.2.2.1⟩

end Sys2Proof.Machine
end

