-- ==== Sys2Proof/Laws/Tables.lean ====
section
/-! SUPPORT. Reading back what was written to FREQ, NODE and LUT, and what ends of bodies leave (R9, R40, R42, R45). -/

namespace Sys2Proof.Machine

theorem freqAt_setFreq (f : Vector Count 256) (a b : Byte) (c : Count) :
    freqAt (setFreq f a c) b = if b = a then c else freqAt f b := by
  unfold freqAt setFreq
  by_cases h : b = a
  · subst h; simp
  · have : a.toNat ≠ b.toNat := fun e => h (BitVec.eq_of_toNat_eq e).symm
    simp [h, Vector.getElem_set_ne, this]

@[simp] theorem freqAt_zero (b : Byte) : freqAt (Vector.replicate 256 (0#Config.cntMax)) b = 0#Config.cntMax := by
  simp [freqAt]

theorem fullCount_toNat (w : Fin (Config.cntMax + 1)) : (fullCount w).toNat = 2 ^ w.val - 1 := by
  have h : 2 ^ w.val ≤ 2 ^ 32 := Nat.pow_le_pow_right (by decide) (Nat.le_of_lt_succ w.isLt)
  rw [fullCount, BitVec.toNat_ofNat]
  exact Nat.mod_eq_of_lt (by show _ < 2 ^ 32; have := Nat.two_pow_pos w.val; omega)

/-- What a write of FREQ_DATA stores is a count of the instance's width. -/
theorem countOfWord_lt (w : Fin (Config.cntMax + 1)) (v : Word) : (countOfWord w v).toNat < 2 ^ w.val := by
  rw [countOfWord, BitVec.toNat_setWidth]
  exact lt_of_le_of_lt (Nat.mod_le _ _) (v.setWidth w.val).isLt

/-- An entry that is not full does not wrap, and stays a count of the instance's width (R172). -/
theorem succ_not_full {w : Fin (Config.cntMax + 1)} {c : Count} (hc : c.toNat < 2 ^ w.val) (h : c ≠ fullCount w) :
    (c + 1).toNat < 2 ^ w.val := by
  have h' : c.toNat ≠ 2 ^ w.val - 1 := fun e => h (BitVec.eq_of_toNat_eq (e.trans (fullCount_toNat w).symm))
  have := Nat.mod_le (c.toNat + (1 : Count).toNat) (2 ^ Config.cntMax)
  have h1 : (1 : Count).toNat = 1 := rfl
  rw [BitVec.toNat_add]
  omega

theorem nodeAt_setNode (node : Vector Node 513) (k : Nat) (i : Idx) (nd : Node) :
    nodeAt (setNode node k nd) i = if i.toNat = k then (if k < 513 then some nd else none) else nodeAt node i := by
  unfold nodeAt setNode
  by_cases h : k = i.toNat
  · subst h; simp [Vector.getElem?_setIfInBounds]
  · simp [Vector.getElem?_setIfInBounds_ne h, Ne.symm h]

theorem nodeAt_setNode_self {node : Vector Node 513} {k : Nat} {i : Idx} {nd : Node} (h : i.toNat = k) (hk : k < 513) :
    nodeAt (setNode node k nd) i = some nd := by simp [nodeAt_setNode, h, hk]

theorem nodeAt_setNode_ne {node : Vector Node 513} {k : Nat} {i : Idx} {nd : Node} (h : i.toNat ≠ k) :
    nodeAt (setNode node k nd) i = nodeAt node i := by simp [nodeAt_setNode, h]

theorem nodeAt_isSome {node : Vector Node 513} {i : Idx} : (∃ nd, nodeAt node i = some nd) ↔ i.toNat < 513 := by
  unfold nodeAt
  constructor
  · rintro ⟨nd, h⟩; exact (Vector.getElem?_eq_some_iff.mp h).1
  · intro h; exact ⟨node[i.toNat], Vector.getElem?_eq_getElem h⟩

theorem lutAt_setLut (lut : Vector Bits 257) (v w : Sym) (c : Bits) :
    lutAt (setLut lut v c) w = if w = v then (if v.toNat < 257 then some c else none) else lutAt lut w := by
  unfold lutAt setLut
  by_cases h : w = v
  · subst h; simp [Vector.getElem?_setIfInBounds]
  · have : v.toNat ≠ w.toNat := fun e => h (BitVec.eq_of_toNat_eq e).symm
    simp [Vector.getElem?_setIfInBounds_ne this, h]

theorem lutAt_empty {v : Sym} (h : v ≤ Config.eos) : lutAt (Vector.replicate 257 []) v = some [] := by
  have : v.toNat < 257 := by have := BitVec.le_def.mp h; simp [Config.eos] at this; omega
  simp [lutAt, this]

theorem byteCode_eq_lutAt (lut : Vector Bits 257) (b : Byte) : lutAt lut (b.setWidth 9) = some (byteCode lut b) := by
  have h : (b.setWidth 9).toNat = b.toNat := by
    have := b.isLt
    simp [BitVec.toNat_setWidth]; omega
  unfold lutAt byteCode
  rw [h, Vector.getElem?_eq_getElem]

theorem sentinelCode_eq_lutAt (lut : Vector Bits 257) : lutAt lut Config.eos = some (sentinelCode lut) := by
  simp [lutAt, sentinelCode, Config.eos]

/-! ### Ends of bodies -/

/-- Where in the body the sequencer was does not matter at its end. -/
@[simp] theorem finishBody_goto (p : Pos) (s : State) : finishBody (goto p s) = finishBody s := by
  unfold finishBody goto complete
  cases s.seq.rest <;> rfl

theorem finishBody_of_goto {s t : State} (p : Pos) (h : s = goto p t) : finishBody s = finishBody t := by
  subst h; exact finishBody_goto p t

theorem finishBody_last {s : State} (h : s.seq.rest = []) : finishBody s = complete s := by simp [finishBody, h]

theorem finishBody_next {s : State} {b : Body} {bs : List Body} (h : s.seq.rest = b :: bs) :
    finishBody s = { s with seq := { op := s.seq.op, pos := .enter b, rest := bs } } := by simp [finishBody, h]

/-- Everything `finishBody` can do. -/
theorem finishBody_cases (s : State) :
    (s.seq.rest = [] ∧ finishBody s = complete s)
      ∨ ∃ b bs, s.seq.rest = b :: bs
          ∧ finishBody s = { s with seq := { op := s.seq.op, pos := .enter b, rest := bs } } := by
  cases h : s.seq.rest with
  | nil => exact .inl ⟨rfl, finishBody_last h⟩
  | cons b bs => exact .inr ⟨b, bs, rfl, finishBody_next h⟩

@[simp] theorem counter_add_now (c : Counter) (n : Nat) : (c.add n).now = c.now + BitVec.ofNat 32 n := rfl
@[simp] theorem counter_clear_now (c : Counter) : c.clear.now = 0#32 := rfl
@[simp] theorem counter_zero_now : Counter.zero.now = 0#32 := rfl

end Sys2Proof.Machine
end

