-- ==== Sys2Proof/Laws/Simple.lean ====
section
/-! SUPPORT. The runs of the short bodies: the peek (45_compress.md R237), RESTART (R230), HEADER (R231), CHECKMAGIC
(46_decompress.md R250) and CLEAR (40_lifecycle.md R159). -/

namespace Sys2Proof.Machine

theorem move_enter {s : State} {b : Body} (h : s.seq.pos = .enter b) : move s = enterBody b s := by simp [move, h]

theorem State.Running.start {s : State} (h : s.Running) (b : Body) (p : Pos) : (start b p s).Running :=
  ⟨h.1, h.2.1, h.2.2⟩

/-- The peek on a source with a byte left: the byte is read and discarded (R236). -/
theorem peek_body {s : State} (hr : s.Running) (hp : s.seq.pos = .enter .peek)
    (h : s.src.pos + 8 ≤ s.src.bits.length) :
    MovesTo 2 s (finishBody (received 8 (setPhase .peek s))) := by
  refine hr.moves (move_enter hp) (.one (hr.start _ _).halted ?_)
  rcases readBits_cases 8 (start .peek .peekRead s) with ⟨h', _⟩ | ⟨_, e⟩
  · exact absurd h' (by show ¬ s.src.bits.length < s.src.pos + 8; omega)
  · simp only [move, start, goto] at e ⊢
    simp only [peekRead, e]
    exact congrArg Host.Outcome.next (finishBody_of_goto .peekRead rfl)

/-- The peek at end-of-data: the whole command ends (R237). -/
theorem peek_empty {s : State} (hr : s.Running) (hp : s.seq.pos = .enter .peek)
    (h : s.src.bits.length < s.src.pos + 8) :
    MovesTo 2 s (complete { s with status := { s.status with empty := true } }) := by
  refine hr.moves (move_enter hp) (.one (hr.start _ _).halted ?_)
  have e : readBits 8 (start .peek .peekRead s) = (none, start .peek .peekRead s) := readBits_eod h
  show peekRead (start .peek .peekRead s) = _
  simp only [peekRead, e]
  rfl

/-- RESTART (R230). -/
theorem restart_body {s : State} (hr : s.Running) (hp : s.seq.pos = .enter .restart) :
    MovesTo 2 s (finishBody (restartSource (setPhase .restart s))) := by
  refine hr.moves (move_enter hp) (.one (hr.start _ _).halted ?_)
  exact congrArg Host.Outcome.next (finishBody_of_goto .restartSource rfl)

/-- HEADER (R231). -/
theorem header_body {s : State} (hr : s.Running) (hp : s.seq.pos = .enter .header) :
    MovesTo 2 s (finishBody (writeBits 32 Config.magic.toNat (setPhase .header s))) := by
  refine hr.moves (move_enter hp) (.one (hr.start _ _).halted ?_)
  exact congrArg Host.Outcome.next (finishBody_of_goto .headerWrite rfl)

/-- CLEAR (R159). -/
theorem clear_body {s : State} (hr : s.Running) (hp : s.seq.pos = .enter .clear) :
    MovesTo 2 s (finishBody { dropTree (setPhase .clear s) with freq := Vector.replicate 256 0 }) := by
  refine hr.moves (move_enter hp) (.one (hr.start _ _).halted ?_)
  exact congrArg Host.Outcome.next (finishBody_of_goto .clearRun rfl)

/-- CHECKMAGIC on a source that begins with MAGIC (R250). -/
theorem checkmagic_body {s : State} {tail : Bits} (hr : s.Running) (hp : s.seq.pos = .enter .checkMagic)
    (hle : s.src.pos ≤ s.src.bits.length) (hd : s.src.bits.drop s.src.pos = bitsOf 32 Config.magic.toNat ++ tail) :
    MovesTo 2 s (finishBody (received 32 (setPhase .checkMagic s))) := by
  refine hr.moves (move_enter hp) (.one (hr.start _ _).halted ?_)
  have e : readBits 32 (start .checkMagic .magicRead s) = _ := readBits_of_drop hle hd (bitsOf_length _ _)
  show magicRead (start .checkMagic .magicRead s) = _
  simp only [magicRead, e, valOf_bitsOf Config.magic.isLt, if_true]
  exact congrArg Host.Outcome.next (finishBody_of_goto .magicRead rfl)

/-- CHECKMAGIC on other 32 bits: FORMAT, the bits consumed (R250). -/
theorem checkmagic_mismatch {s : State} {l tail : Bits} (hr : s.Running) (hp : s.seq.pos = .enter .checkMagic)
    (hle : s.src.pos ≤ s.src.bits.length) (hd : s.src.bits.drop s.src.pos = l ++ tail) (hl : l.length = 32)
    (hne : l ≠ bitsOf 32 Config.magic.toNat) :
    MovesTo 2 s (raise .format (received 32 (setPhase .checkMagic s))) := by
  refine hr.moves (move_enter hp) (.one (hr.start _ _).halted ?_)
  have e : readBits 32 (start .checkMagic .magicRead s) = _ := readBits_of_drop hle hd hl
  have hv : ¬ valOf l = Config.magic.toNat := by
    intro h; apply hne; rw [← h, ← hl, bitsOf_valOf]
  show magicRead (start .checkMagic .magicRead s) = _
  simp only [magicRead, e, hv, if_false]
  rfl

/-- CHECKMAGIC with fewer than 32 bits left: FORMAT, nothing consumed (R250). -/
theorem checkmagic_eod {s : State} (hr : s.Running) (hp : s.seq.pos = .enter .checkMagic)
    (h : s.src.bits.length < s.src.pos + 32) : MovesTo 2 s (raise .format (setPhase .checkMagic s)) := by
  refine hr.moves (move_enter hp) (.one (hr.start _ _).halted ?_)
  have e : readBits 32 (start .checkMagic .magicRead s) = (none, start .checkMagic .magicRead s) := readBits_eod h
  show magicRead (start .checkMagic .magicRead s) = _
  simp only [magicRead, e]
  rfl

end Sys2Proof.Machine
end

