-- ==== Sys2Proof/Laws/Genlut.lean ====
section
/-! SUPPORT. The run of GENLUT's body over a tree held by the node memory (43_codetable.md R200 to R205). -/

namespace Sys2Proof.Machine

/-- What GENLUT's walk of a tree at path `p` (deepest step first) leaves in the LUT (R200). -/
def recordCodes : Tree → Bits → Vector Bits 257 → Vector Bits 257
  | .leaf v, p, lut => setLut lut v p.reverse
  | .inner l r, p, lut => recordCodes r (true :: p) (recordCodes l (false :: p) lut)

theorem Tree.size_pos (t : Tree) : 0 < t.size := by cases t <;> simp [Tree.size]

/-- The walk of a tree that is not the last of the stack. -/
theorem genlut_walk (t : Tree) : ∀ (s : State) (i : Idx) (j : Idx) (rest : List Idx), s.Running →
    s.seq.pos = .genlutVisit → s.stk = i :: j :: rest → Holds s.node i t → (∀ v ∈ t.leaves, v ≤ Config.eos) →
    MovesTo t.size s
      { s with lut := recordCodes t s.path s.lut, stk := j :: rest, path := backtrack s.path } := by
  induction t with
  | leaf v =>
    intro s i j rest hr hp hs ⟨nd, hn, hl, hv⟩ hle
    refine hr.move1 ?_
    have : v ≤ Config.eos := hle v (by simp [Tree.leaves])
    simp [move, hp, genlutVisit, hs, hn, hl, this, recordCodes, hv]
  | inner l r ihl ihr =>
    intro s i j rest hr hp hs ⟨nd, hn, hl, hL, hR⟩ hle
    have hm : move s = .next { s with stk := nd.left :: nd.right :: j :: rest, path := false :: s.path } := by
      simp [move, hp, genlutVisit, hs, hn, hl]
    have h1 := ihl { s with stk := nd.left :: nd.right :: j :: rest, path := false :: s.path } nd.left nd.right
      (j :: rest) ⟨hr.1, hr.2.1, hr.2.2⟩ hp rfl hL (fun v hv => hle v (by simp [Tree.leaves, hv]))
    have h2 := ihr
      { s with
        lut := recordCodes l (false :: s.path) s.lut, stk := nd.right :: j :: rest, path := true :: s.path }
      nd.right j rest ⟨hr.1, hr.2.1, hr.2.2⟩ hp rfl hR (fun v hv => hle v (by simp [Tree.leaves, hv]))
    exact hr.moves hm (h1.trans h2)

/-- The walk of the last tree of the stack ends the body. -/
theorem genlut_walk_last (t : Tree) : ∀ (s : State) (i : Idx), s.Running →
    s.seq.pos = .genlutVisit → s.stk = [i] → Holds s.node i t → (∀ v ∈ t.leaves, v ≤ Config.eos) →
    MovesTo t.size s (finishBody
      { s with
        lut := recordCodes t s.path s.lut, stk := [], path := backtrack s.path
        status := { s.status with lutValid := true } }) := by
  induction t with
  | leaf v =>
    intro s i hr hp hs ⟨nd, hn, hl, hv⟩ hle
    refine hr.move1 ?_
    have : v ≤ Config.eos := hle v (by simp [Tree.leaves])
    simp [move, hp, genlutVisit, hs, hn, hl, this, recordCodes, hv]
  | inner l r ihl ihr =>
    intro s i hr hp hs ⟨nd, hn, hl, hL, hR⟩ hle
    have hm : move s = .next { s with stk := [nd.left, nd.right], path := false :: s.path } := by
      simp [move, hp, genlutVisit, hs, hn, hl]
    have h1 := genlut_walk l { s with stk := [nd.left, nd.right], path := false :: s.path } nd.left nd.right
      [] ⟨hr.1, hr.2.1, hr.2.2⟩ hp rfl hL (fun v hv => hle v (by simp [Tree.leaves, hv]))
    have h2 := ihr
      { s with lut := recordCodes l (false :: s.path) s.lut, stk := [nd.right], path := true :: s.path }
      nd.right ⟨hr.1, hr.2.1, hr.2.2⟩ hp rfl hR (fun v hv => hle v (by simp [Tree.leaves, hv]))
    exact hr.moves hm (h1.trans h2)

theorem recordCodes_eq_foldl (t : Tree) (p : Bits) (lut : Vector Bits 257) :
    recordCodes t p lut = t.codes.foldl (fun lut e => setLut lut e.1 (p.reverse ++ e.2)) lut := by
  induction t generalizing p lut with
  | leaf v => simp [recordCodes, Tree.codes]
  | inner l r ihl ihr =>
    rw [recordCodes, ihl, ihr, Tree.codes, List.foldl_append, List.foldl_map, List.foldl_map]
    simp [List.append_assoc]

theorem Tree.codes_fst (t : Tree) : t.codes.map Prod.fst = t.leaves := by
  induction t with
  | leaf v => rfl
  | inner l r ihl ihr => simp [Tree.codes, Tree.leaves, ← ihl, ← ihr, Function.comp_def]

theorem lutAt_foldl (v : Sym) (L : List (Sym × Bits)) : ∀ (lut : Vector Bits 257) (c : Bits),
    (∀ e ∈ L, e.1 ≤ Config.eos) → lutAt lut v = some c →
    lutAt (L.foldl (fun lut e => setLut lut e.1 e.2) lut) v
      = some (((L.filter fun e => e.1 == v).getLast?.map Prod.snd).getD c) := by
  induction L with
  | nil => intro lut c _ h; simpa using h
  | cons e L ih =>
    intro lut c hle h
    rw [List.foldl_cons, List.filter_cons]
    have he : e.1.toNat < 257 := by
      have := BitVec.le_def.mp (hle e (by simp)); simp [Config.eos] at this; omega
    by_cases hv : e.1 = v
    · rw [ih _ e.2 (fun e' h' => hle e' (by simp [h'])) (by simp [lutAt_setLut, hv.symm, he])]
      simp only [hv, beq_self_eq_true, if_true]
      rw [List.getLast?_cons]
      cases (L.filter fun e => e.1 == v).getLast? <;> rfl
    · rw [ih _ c (fun e' h' => hle e' (by simp [h'])) (by rw [lutAt_setLut, if_neg (Ne.symm hv), h])]
      simp [hv]

/-- After GENLUT's walk from the root the LUT is the tree's code table (R200, R203, R205). -/
theorem recordCodes_codeOf (t : Tree) (h : ∀ v ∈ t.leaves, v ≤ Config.eos) (v : Sym) (hv : v ≤ Config.eos) :
    lutAt (recordCodes t [] (Vector.replicate 257 [])) v = some (t.codeOf v) := by
  rw [recordCodes_eq_foldl]
  simp only [List.reverse_nil, List.nil_append]
  rw [lutAt_foldl v t.codes _ [] ?_ (lutAt_empty hv)]
  · unfold Tree.codeOf
    cases (t.codes.filter fun e => e.1 == v).getLast? <;> rfl
  · intro e he
    apply h
    rw [← Tree.codes_fst]
    exact List.mem_map_of_mem he

/-- GENLUT's body on a state that holds a tree (R200). -/
theorem genlut_body {s : State} {t : Tree} (hr : s.Running) (hp : s.seq.pos = .enter .genlut)
    (ht : s.HoldsTree t) :
    MovesTo (t.size + 1) s (finishBody
      { s with
        lut := recordCodes t [] (Vector.replicate 257 []), stk := [], path := []
        status := { s.status with lutValid := true, phase := .genlut } }) := by
  obtain ⟨_, hh, _, _, hle⟩ := ht
  refine hr.moves (move_enter hp) ?_
  have := genlut_walk_last t
    { start .genlut .genlutVisit s with
      status := { (start .genlut .genlutVisit s).status with lutValid := false }
      lut := Vector.replicate 257 [], stk := [s.root], path := [] } s.root ⟨hr.1, hr.2.1, hr.2.2⟩ rfl rfl hh hle
  exact this.to (finishBody_of_goto .genlutVisit rfl)

end Sys2Proof.Machine
end

