-- ==== Sys2Proof/Laws/Serialize.lean ====
section
/-! SUPPORT. The run of SERIALIZE's body over a tree held by the node memory (44_serdes.md R210, R211). -/

namespace Sys2Proof.Machine

theorem Tree.serial_length (t : Tree) : t.serial.length + 1 = 11 * t.leaves.length := by
  induction t with
  | leaf v => simp [Tree.serial, Tree.leaves]
  | inner l r ihl ihr => simp only [Tree.serial, Tree.leaves, List.length_cons, List.length_append] at *; omega

theorem Tree.size_leaves (t : Tree) : t.size + 1 = 2 * t.leaves.length := by
  induction t with
  | leaf v => simp [Tree.size, Tree.leaves]
  | inner l r ihl ihr => simp only [Tree.size, Tree.leaves, List.length_append] at *; omega

/-- The sink after `bits` have been appended (R90). -/
def Sink.append (bits : Bits) (k : Sink) : Sink := { k with bits := k.bits ++ bits }

theorem Sink.append_append (k : Sink) (a b : Bits) : (k.append a).append b = k.append (a ++ b) := by
  simp [Sink.append]

theorem Sink.write_eq (n v : Nat) (k : Sink) : k.write n v = k.append (bitsOf n v) := rfl

theorem add_ofNat (w : Word) (a b : Nat) : w + BitVec.ofNat 32 a + BitVec.ofNat 32 b = w + BitVec.ofNat 32 (a + b) := by
  rw [BitVec.add_assoc, ← BitVec.ofNat_add]

theorem ser_walk (t : Tree) : ∀ (s : State) (i j : Idx) (rest : List Idx), s.Running →
    s.seq.pos = .serVisit → s.stk = i :: j :: rest → Holds s.node i t →
    ∃ k w, k ≤ 2 * t.size ∧ w.now = s.wrBits.now + BitVec.ofNat 32 t.serial.length
      ∧ MovesTo k s { s with snk := s.snk.append t.serial, wrBits := w, stk := j :: rest } := by
  induction t with
  | leaf v =>
    intro s i j rest hr hp hs ⟨nd, hn, hl, hv⟩
    have h1 : move s = .next (goto (.serId v) (writeBits 1 1 { s with stk := j :: rest })) := by
      simp [move, hp, serVisit, hs, hn, hl, hv]
    refine ⟨2, (s.wrBits.add 1).add 9, by simp [Tree.size], ?_, hr.moves h1 (.one ?_ ?_)⟩
    · simp [Tree.serial, add_ofNat]
    · exact State.Running.halted ⟨hr.1, hr.2.1, hr.2.2⟩
    · simp [move, serId, writeBits, goto, Sink.write, Sink.append, Tree.serial, bitsOf]
      rw [← hp]
  | inner l r ihl ihr =>
    intro s i j rest hr hp hs ⟨nd, hn, hl, hL, hR⟩
    have hm : move s = .next (writeBits 1 0 { s with stk := nd.left :: nd.right :: j :: rest }) := by
      simp [move, hp, serVisit, hs, hn, hl]
    obtain ⟨k1, w1, hk1, hw1, h1⟩ := ihl (writeBits 1 0 { s with stk := nd.left :: nd.right :: j :: rest })
      nd.left nd.right (j :: rest) ⟨hr.1, hr.2.1, hr.2.2⟩ hp rfl hL
    obtain ⟨k2, w2, hk2, hw2, h2⟩ := ihr
      { s with snk := (s.snk.append [false]).append l.serial, wrBits := w1, stk := nd.right :: j :: rest }
      nd.right j rest ⟨hr.1, hr.2.1, hr.2.2⟩ hp rfl hR
    refine ⟨k1 + k2 + 1, w2, by simp only [Tree.size]; omega, ?_, (hr.moves hm (h1.trans h2)).to ?_⟩
    · rw [hw2, hw1]
      simp only [writeBits_wrBits, counter_add_now, add_ofNat, Tree.serial, List.length_cons, List.length_append]
      congr 2; omega
    · simp [Sink.append, Tree.serial]

theorem ser_walk_last (t : Tree) : ∀ (s : State) (i : Idx), s.Running →
    s.seq.pos = .serVisit → s.stk = [i] → Holds s.node i t →
    ∃ k w, k ≤ 2 * t.size ∧ w.now = s.wrBits.now + BitVec.ofNat 32 t.serial.length
      ∧ MovesTo k s (finishBody { s with snk := s.snk.append t.serial, wrBits := w, stk := [] }) := by
  induction t with
  | leaf v =>
    intro s i hr hp hs ⟨nd, hn, hl, hv⟩
    have h1 : move s = .next (goto (.serId v) (writeBits 1 1 { s with stk := [] })) := by
      simp [move, hp, serVisit, hs, hn, hl, hv]
    refine ⟨2, (s.wrBits.add 1).add 9, by simp [Tree.size], ?_, hr.moves h1 (.one ?_ ?_)⟩
    · simp [Tree.serial, add_ofNat]
    · exact State.Running.halted ⟨hr.1, hr.2.1, hr.2.2⟩
    · simp only [move, goto_seq, serId, goto_stk, writeBits_stk]
      refine congrArg Host.Outcome.next (finishBody_of_goto (.serId v) ?_)
      simp [writeBits, goto, Sink.write, Sink.append, Tree.serial, bitsOf]
  | inner l r ihl ihr =>
    intro s i hr hp hs ⟨nd, hn, hl, hL, hR⟩
    have hm : move s = .next (writeBits 1 0 { s with stk := [nd.left, nd.right] }) := by
      simp [move, hp, serVisit, hs, hn, hl]
    obtain ⟨k1, w1, hk1, hw1, h1⟩ := ser_walk l (writeBits 1 0 { s with stk := [nd.left, nd.right] })
      nd.left nd.right [] ⟨hr.1, hr.2.1, hr.2.2⟩ hp rfl hL
    obtain ⟨k2, w2, hk2, hw2, h2⟩ := ihr
      { s with snk := (s.snk.append [false]).append l.serial, wrBits := w1, stk := [nd.right] }
      nd.right ⟨hr.1, hr.2.1, hr.2.2⟩ hp rfl hR
    refine ⟨k1 + k2 + 1, w2, by simp only [Tree.size]; omega, ?_, (hr.moves hm (h1.trans h2)).to ?_⟩
    · rw [hw2, hw1]
      simp only [writeBits_wrBits, counter_add_now, add_ofNat, Tree.serial, List.length_cons, List.length_append]
      congr 2; omega
    · simp [Sink.append, Tree.serial]

/-- SERIALIZE's body on a state that holds a tree (R210, R211). -/
theorem serialize_body {s : State} {t : Tree} (hr : s.Running) (hp : s.seq.pos = .enter .serialize)
    (ht : s.HoldsTree t) :
    ∃ k w, k ≤ 2 * t.size + 1 ∧ w.now = s.wrBits.now + BitVec.ofNat 32 t.serial.length
      ∧ MovesTo k s (finishBody
          { s with
            snk := s.snk.append t.serial, wrBits := w, stk := []
            status := { s.status with phase := .serialize } }) := by
  obtain ⟨k, w, hk, hw, h⟩ := ser_walk_last t { start .serialize .serVisit s with stk := [s.root] } s.root
    ⟨hr.1, hr.2.1, hr.2.2⟩ rfl rfl ht.2.1
  exact ⟨k + 1, w, by omega, hw, (hr.moves (move_enter hp) h).to (finishBody_of_goto .serVisit rfl)⟩

end Sys2Proof.Machine
end

