-- ==== Sys2Proof/Laws/Deserialize.lean ====
section
/-! SUPPORT. The run of DESERIALIZE's body (44_serdes.md R212 to R221). -/

namespace Sys2Proof.Machine

/-! ### Trees held inside a set of indices -/

/-- The node memory holds `t` at `i`, every node of it at an index with `P`. -/
def HoldsIn (P : Idx → Prop) (node : Vector Node 513) : Idx → Tree → Prop
  | i, .leaf v => P i ∧ ∃ nd, nodeAt node i = some nd ∧ nd.leaf = true ∧ nd.value = v
  | i, .inner l r =>
    P i ∧ ∃ nd, nodeAt node i = some nd ∧ nd.leaf = false ∧ HoldsIn P node nd.left l ∧ HoldsIn P node nd.right r

theorem HoldsIn.holds {P : Idx → Prop} {node : Vector Node 513} {t : Tree} :
    ∀ {i : Idx}, HoldsIn P node i t → Holds node i t := by
  induction t with
  | leaf v => intro i h; exact h.2
  | inner l r ihl ihr =>
    rintro i ⟨_, nd, hn, hl, hL, hR⟩
    exact ⟨nd, hn, hl, ihl hL, ihr hR⟩

theorem HoldsIn.mono {P Q : Idx → Prop} {node node' : Vector Node 513} (hPQ : ∀ i, P i → Q i)
    (hn : ∀ i, P i → nodeAt node' i = nodeAt node i) {t : Tree} :
    ∀ {i : Idx}, HoldsIn P node i t → HoldsIn Q node' i t := by
  induction t with
  | leaf v => rintro i ⟨hp, nd, h, hl⟩; exact ⟨hPQ i hp, nd, by rw [hn i hp, h], hl⟩
  | inner l r ihl ihr =>
    rintro i ⟨hp, nd, h, hl, hL, hR⟩
    exact ⟨hPQ i hp, nd, by rw [hn i hp, h], hl, ihl hL, ihr hR⟩

/-! ### The node memory DESERIALIZE builds -/

/-- The node memory after `Des()` has read the tree `t`, its root numbered `n` (R212, R213). -/
def placeTree : Tree → Nat → Vector Node 513 → Vector Node 513
  | .leaf v, n, node => setNode node n (leafNode v 1)
  | .inner l r, n, node =>
    setNode
      (placeTree r (n + 1 + l.size)
        (placeTree l (n + 1) (setNode node n (innerNode 0 Config.noneIdx Config.noneIdx))))
      n (innerNode 0 (BitVec.ofNat 10 (n + 1)) (BitVec.ofNat 10 (n + 1 + l.size)))

theorem placeTree_outside (t : Tree) : ∀ (n : Nat) (node : Vector Node 513) (i : Idx),
    (i.toNat < n ∨ n + t.size ≤ i.toNat) → nodeAt (placeTree t n node) i = nodeAt node i := by
  induction t with
  | leaf v =>
    intro n node i h
    simp only [Tree.size] at h
    exact nodeAt_setNode_ne (by omega)
  | inner l r ihl ihr =>
    intro n node i h
    simp only [Tree.size] at h
    rw [placeTree, nodeAt_setNode_ne (by omega), ihr _ _ _ (by omega), ihl _ _ _ (by omega),
      nodeAt_setNode_ne (by omega)]

theorem idx_toNat {n : Nat} (h : n < 1024) : (BitVec.ofNat 10 n).toNat = n := by
  rw [BitVec.toNat_ofNat]; exact Nat.mod_eq_of_lt h

theorem placeTree_holds (t : Tree) : ∀ (n : Nat) (node : Vector Node 513), n + t.size ≤ 513 →
    HoldsIn (fun i => n ≤ i.toNat ∧ i.toNat < n + t.size) (placeTree t n node) (BitVec.ofNat 10 n) t := by
  induction t with
  | leaf v =>
    intro n node h
    simp only [Tree.size] at h ⊢
    refine ⟨by beta_reduce; rw [idx_toNat (by omega)]; omega, leafNode v 1, ?_, rfl, rfl⟩
    exact nodeAt_setNode_self (idx_toNat (by omega)) (by omega)
  | inner l r ihl ihr =>
    intro n node h
    have hl := l.size_pos
    have hr := r.size_pos
    simp only [Tree.size] at h ⊢
    refine ⟨by beta_reduce; rw [idx_toNat (by omega)]; omega, _,
      nodeAt_setNode_self (idx_toNat (by omega)) (by omega), rfl, ?_, ?_⟩
    · refine (ihl (n + 1) (setNode node n (innerNode 0 Config.noneIdx Config.noneIdx)) (by omega)).mono ?_ ?_
      · intro i hi; omega
      · intro i hi
        rw [placeTree, nodeAt_setNode_ne (by omega), placeTree_outside _ _ _ _ (by omega)]
    · refine (ihr (n + 1 + l.size)
        (placeTree l (n + 1) (setNode node n (innerNode 0 Config.noneIdx Config.noneIdx))) (by omega)).mono ?_ ?_
      · intro i hi; omega
      · intro i hi
        rw [placeTree, nodeAt_setNode_ne (by omega)]

/-! ### The run -/

theorem desLeafDone_goto (nleaf : Nat) (i : Idx) (p : Pos) (s : State) :
    desLeafDone nleaf i (goto p s) = desLeafDone nleaf i s := by
  unfold desLeafDone
  simp only [goto_stk, goto_node]
  rcases desReturn s.stk i s.node with ⟨node, stk, _ | r⟩
  · rfl
  · simp only
    cases nodeAt node r with
    | none => rfl
    | some nd =>
      cases h : nd.leaf
      · simp only [h, Bool.false_eq_true, if_false]
        exact congrArg Host.Outcome.next (finishBody_of_goto p rfl)
      · simp only [h, if_true]; rfl

/-- After `Des()` returns `j` to a state like `s`: the node memory, counts and source moved on. -/
def afterDes (node : Vector Node 513) (n k : Nat) (rd : Counter) (s : State) : State :=
  { s with
    node := node, nodeCount := BitVec.ofNat 10 n, rdBits := rd, src := { s.src with pos := s.src.pos + k } }

theorem desReturn_left (stk : List Idx) (n : Nat) (node : Vector Node 513) :
    desReturn (BitVec.ofNat 10 n :: stk) (BitVec.ofNat 10 (n + 1)) node = (node, BitVec.ofNat 10 n :: stk, none) := by
  simp [desReturn, BitVec.ofNat_add]

theorem desReturn_right (stk : List Idx) (n k : Nat) (hk : 0 < k) (h : n + 1 + k < 1024) (node : Vector Node 513) :
    desReturn (BitVec.ofNat 10 n :: stk) (BitVec.ofNat 10 (n + 1 + k)) node
      = desReturn stk (BitVec.ofNat 10 n)
          (setNode node n (innerNode 0 (BitVec.ofNat 10 (n + 1)) (BitVec.ofNat 10 (n + 1 + k)))) := by
  have hne : ¬ BitVec.ofNat 10 (n + 1 + k) = BitVec.ofNat 10 n + 1#10 := by
    intro e
    have e' := congrArg BitVec.toNat e
    rw [← BitVec.ofNat_add, idx_toNat h, idx_toNat (by omega)] at e'
    omega
  rw [desReturn, if_neg hne, idx_toNat (by omega), ← BitVec.ofNat_add]

theorem des_walk (t : Tree) : ∀ (s : State) (nleaf n : Nat) (tail : Bits), s.Running →
    s.seq.pos = .desBit nleaf → s.nodeCount = BitVec.ofNat 10 n → n + t.size ≤ 513 →
    (∀ v ∈ t.leaves, v ≤ Config.eos) → s.src.pos ≤ s.src.bits.length →
    s.src.bits.drop s.src.pos = t.serial ++ tail →
    ∃ k rd, k ≤ 2 * t.size ∧ rd.now = s.rdBits.now + BitVec.ofNat 32 t.serial.length
      ∧ ∀ u, desLeafDone (nleaf + t.leaves.length) (BitVec.ofNat 10 n)
            (afterDes (placeTree t n s.node) (n + t.size) t.serial.length rd s) = .next u → MovesTo k s u := by
  induction t with
  | leaf v =>
    intro s nleaf n tail hr hp hn hcap hle hpos hd
    simp only [Tree.size, Tree.leaves, List.length_singleton] at *
    have hd1 : s.src.bits.drop s.src.pos = [true] ++ (bitsOf 9 v.toNat ++ tail) := by simpa [Tree.serial] using hd
    have e1 := readBits_of_drop hpos hd1 (n := 1) rfl
    have hcap' : ¬ (received 1 s).nodeCount = BitVec.ofNat 10 Config.nodeCap := by
      show ¬ s.nodeCount = _
      intro e
      have e' := congrArg BitVec.toNat (hn.symm.trans e)
      rw [idx_toNat (by omega), idx_toNat (by decide)] at e'
      simp [Config.nodeCap] at e'; omega
    have hlt : (received 1 s).nodeCount.toNat < Config.nodeCap := by
      show s.nodeCount.toNat < 513
      rw [hn, idx_toNat (by omega)]; omega
    have m1 : move s = .next (goto (.desId nleaf s.nodeCount) { received 1 s with nodeCount := s.nodeCount + 1#10 }) := by
      simp only [move, hp, desBit, e1, hcap', hlt, if_true, if_false]
      rfl
    have hd2 := received_drop hd1
    have hpos2 := received_pos_le hpos hd1
    have e2 : readBits 9 (goto (.desId nleaf s.nodeCount) { received 1 s with nodeCount := s.nodeCount + 1#10 }) = _ :=
      readBits_of_drop hpos2 hd2 (bitsOf_length 9 _)
    have hv : ¬ 256 < v.toNat := by
      have := BitVec.le_def.mp (hle v (by simp)); simp [Config.eos] at this; omega
    refine ⟨2, (s.rdBits.add 1).add 9, by omega, ?_, ?_⟩
    · simp [Tree.serial, add_ofNat]
    · intro u hu
      refine hr.moves m1 (.one ?_ ?_)
      · exact State.Running.halted ⟨hr.1, hr.2.1, hr.2.2⟩
      · rw [← hu, ← desLeafDone_goto _ _ (.desId nleaf s.nodeCount)]
        simp only [move, goto_seq, desId, e2, valOf_bitsOf v.isLt, hv, if_false]
        rw [hn]
        congr 1
        simp [received, goto, afterDes, placeTree, Tree.serial, BitVec.ofNat_add,
          idx_toNat (show n < 1024 by omega), Nat.add_assoc]
  | inner l r ihl ihr =>
    intro s nleaf n tail hr hp hn hcap hle hpos hd
    have hlp := l.size_pos
    have hrp := r.size_pos
    simp only [Tree.size, Tree.leaves, List.length_append] at *
    have hd1 : s.src.bits.drop s.src.pos = [false] ++ (l.serial ++ (r.serial ++ tail)) := by
      simpa [Tree.serial] using hd
    have e1 := readBits_of_drop hpos hd1 (n := 1) rfl
    have hcap' : ¬ (received 1 s).nodeCount = BitVec.ofNat 10 Config.nodeCap := by
      show ¬ s.nodeCount = _
      intro e
      have e' := congrArg BitVec.toNat (hn.symm.trans e)
      rw [idx_toNat (by omega), idx_toNat (by decide)] at e'
      simp [Config.nodeCap] at e'; omega
    have hlt : (received 1 s).nodeCount.toNat < Config.nodeCap := by
      show s.nodeCount.toNat < 513
      rw [hn, idx_toNat (by omega)]; omega
    let s1 : State := goto (.desBit nleaf)
      { received 1 s with
        nodeCount := BitVec.ofNat 10 (n + 1)
        node := setNode s.node n (innerNode 0 Config.noneIdx Config.noneIdx)
        stk := BitVec.ofNat 10 n :: s.stk }
    have m1 : move s = .next s1 := by
      have hb : ¬ valOf [false] = 1 := by decide
      simp only [move, hp, desBit, e1, hcap', hlt, hb, if_true, if_false]
      have hn' : (received 1 s).nodeCount = BitVec.ofNat 10 n := hn
      rw [hn', idx_toNat (by omega)]
      simp only [s1, BitVec.ofNat_add]
      rfl
    obtain ⟨k1, rd1, hk1, hrd1, h1⟩ := ihl s1 nleaf (n + 1) (r.serial ++ tail) ⟨hr.1, hr.2.1, hr.2.2⟩ rfl rfl
      (by omega) (fun v hv => hle v (by simp [hv])) (received_pos_le hpos hd1) (received_drop hd1)
    let s2 : State := goto (.desBit (nleaf + l.leaves.length))
      { afterDes (placeTree l (n + 1) s1.node) (n + 1 + l.size) l.serial.length rd1 s1 with
        stk := BitVec.ofNat 10 n :: s.stk }
    have h1' : MovesTo k1 s1 s2 := by
      apply h1
      simp only [desLeafDone, afterDes, s1, goto_stk, desReturn_left]
      rfl
    have hd3 : s2.src.bits.drop s2.src.pos = r.serial ++ tail := by
      have := received_drop (s := s1) (received_drop hd1)
      simpa [s2, s1, afterDes, received] using this
    have hpos3 : s2.src.pos ≤ s2.src.bits.length := received_pos_le (s := s1) (received_pos_le hpos hd1) (received_drop hd1)
    obtain ⟨k2, rd2, hk2, hrd2, h2⟩ := ihr s2 (nleaf + l.leaves.length) (n + 1 + l.size) tail
      ⟨hr.1, hr.2.1, hr.2.2⟩ rfl rfl (by omega) (fun v hv => hle v (by simp [hv])) hpos3 hd3
    refine ⟨k1 + k2 + 1, rd2, by omega, ?_, ?_⟩
    · rw [hrd2]
      show rd1.now + _ = _
      rw [hrd1]
      show s.rdBits.now + BitVec.ofNat 32 1 + _ + _ = _
      rw [add_ofNat, add_ofNat, Tree.serial, List.length_cons, List.length_append]
      congr 2; omega
    · intro u hu
      refine hr.moves m1 (h1'.trans (h2 u ?_))
      rw [← hu, ← desLeafDone_goto _ _ (.desBit (nleaf + l.leaves.length))
        (afterDes (placeTree (.inner l r) n s.node) _ _ _ _)]
      unfold desLeafDone
      simp only [afterDes, s2, goto_stk, goto_node, desReturn_right _ n l.size hlp (by omega)]
      have e : n + 1 + l.size + r.size = n + (l.size + r.size + 1) := by omega
      have e' : s.src.pos + (Tree.inner l r).serial.length = s.src.pos + 1 + l.serial.length + r.serial.length := by
        simp only [Tree.serial, List.length_cons, List.length_append]; omega
      rw [e, e', Nat.add_assoc nleaf]
      rfl

/-- DESERIALIZE's body on a source at the encoding of a tree that is no single leaf (R212, R213, R221). -/
theorem deserialize_body {s : State} {t : Tree} {tail : Bits} (hr : s.Running) (hp : s.seq.pos = .enter .deserialize)
    (hsz : t.size ≤ 513) (hin : t.isInner = true) (hle : ∀ v ∈ t.leaves, v ≤ Config.eos)
    (hpos : s.src.pos ≤ s.src.bits.length) (hd : s.src.bits.drop s.src.pos = t.serial ++ tail) :
    ∃ k rd, k ≤ 2 * t.size + 1 ∧ rd.now = s.rdBits.now + BitVec.ofNat 32 t.serial.length
      ∧ MovesTo k s (finishBody
          { s with
            node := placeTree t 0 s.node, stk := [], root := 0#10
            nodeCount := BitVec.ofNat 10 t.size, leafCount := BitVec.ofNat 9 t.leaves.length
            rdBits := rd, src := { s.src with pos := s.src.pos + t.serial.length }
            status := { s.status with treeValid := true, lutValid := false, phase := .deserialize } }) := by
  obtain ⟨k, rd, hk, hrd, h⟩ := des_walk t { dropTree (start .deserialize (.desBit 0) s) with stk := [] } 0 0 tail
    ⟨hr.1, hr.2.1, hr.2.2⟩ rfl rfl (by omega) hle hpos hd
  refine ⟨k + 1, rd, by omega, hrd, hr.moves (move_enter hp) (h _ ?_)⟩
  cases t with
  | leaf v => simp [Tree.isInner] at hin
  | inner l r =>
    have hn : nodeAt (placeTree (.inner l r) 0 s.node) 0#10 = some _ := nodeAt_setNode_self rfl (by omega)
    simp only [desLeafDone, afterDes, desReturn, dropTree_node, start, goto_node, setPhase_node, hn, innerNode,
      Bool.false_eq_true, if_false]
    exact congrArg Host.Outcome.next (finishBody_of_goto (.desBit 0) (by simp [goto, dropTree, setPhase, Body.phase]))

end Sys2Proof.Machine
end

