-- ==== Sys2Proof/Laws/Build.lean ====
section
/-! SUPPORT. The priority selector (42_build.md R182, R186) and the run of BUILD's body (R180 to R191). -/

namespace Sys2Proof.Machine

/-! ### The selector -/

theorem before_false_weight {a b : SelEntry} (h : a.before b = false) : b.weight ≤ a.weight := by
  have : ¬ a.weight < b.weight := by intro hlt; simp [SelEntry.before, hlt] at h
  exact BitVec.not_lt.mp this

theorem before_false_iff (a b : SelEntry) :
    a.before b = false ↔ b.weight.toNat < a.weight.toNat ∨ (a.weight = b.weight ∧ b.idx.toNat ≤ a.idx.toNat) := by
  simp only [SelEntry.before, Bool.or_eq_false_iff, decide_eq_false_iff_not, BitVec.lt_def, Bool.and_eq_false_iff,
    beq_eq_false_iff_ne, ne_eq]
  constructor
  · rintro ⟨h1, h2⟩
    by_cases e : a.weight = b.weight
    · right; refine ⟨e, ?_⟩; rcases h2 with h2 | h2
      · exact absurd e h2
      · omega
    · left
      have : a.weight.toNat ≠ b.weight.toNat := fun h => e (BitVec.eq_of_toNat_eq h)
      omega
  · rintro (h | ⟨e, h⟩)
    · refine ⟨by omega, .inl fun e => ?_⟩; rw [e] at h; omega
    · rw [e]; exact ⟨by omega, .inr (by omega)⟩

theorem before_false_trans {a b c : SelEntry} (h1 : a.before b = false) (h2 : b.before c = false) :
    a.before c = false := by
  rw [before_false_iff] at *
  rcases h1 with h1 | ⟨e1, h1⟩ <;> rcases h2 with h2 | ⟨e2, h2⟩
  · left; omega
  · left; rw [← e2]; exact h1
  · left; rw [e1]; exact h2
  · right; exact ⟨e1.trans e2, by omega⟩

theorem before_self (a : SelEntry) : a.before a = false := by rw [before_false_iff]; right; exact ⟨rfl, le_rfl⟩

theorem leastEntry_spec (e : SelEntry) (es : List SelEntry) :
    leastEntry e es ∈ e :: es ∧ ∀ x ∈ e :: es, x.before (leastEntry e es) = false := by
  induction es generalizing e with
  | nil => simp [leastEntry, before_self]
  | cons a es ih =>
    have hstep : leastEntry e (a :: es) = leastEntry (if a.before e then a else e) es := rfl
    rw [hstep]
    obtain ⟨hm, hle⟩ := ih (if a.before e then a else e)
    have hself := hle _ (by simp : (if a.before e then a else e) ∈ (if a.before e then a else e) :: es)
    refine ⟨?_, ?_⟩
    · rcases List.mem_cons.mp hm with h | h
      · rw [h]; split <;> simp
      · simp [h]
    · intro x hx
      rcases List.mem_cons.mp hx with rfl | hx
      · refine before_false_trans ?_ hself
        by_cases h : a.before x
        · rw [if_pos h]
          rw [before_false_iff]
          have := h
          simp only [SelEntry.before, Bool.or_eq_true, decide_eq_true_eq, BitVec.lt_def, Bool.and_eq_true, beq_iff_eq] at this
          rcases this with h | ⟨e, h⟩
          · left; exact h
          · right; exact ⟨e.symm, by omega⟩
        · rw [if_neg h]; exact before_self x
      · rcases List.mem_cons.mp hx with rfl | hx
        · refine before_false_trans ?_ hself
          by_cases h : x.before e
          · rw [if_pos h]; exact before_self x
          · rw [if_neg h]; simpa using h
        · exact hle x (by simp [hx])

theorem chooseMin_spec (t : TieOrder) (k : Nat) (e : SelEntry) (es : List SelEntry) :
    chooseMin t k e es ∈ e :: es ∧ (∀ x ∈ e :: es, (chooseMin t k e es).weight ≤ x.weight)
      ∧ (t = .stableIndex → ∀ x ∈ e :: es, x.before (chooseMin t k e es) = false) := by
  obtain ⟨hm, hle⟩ := leastEntry_spec e es
  cases t with
  | stableIndex => exact ⟨hm, fun x hx => before_false_weight (hle x hx), fun _ => hle⟩
  | any =>
    obtain ⟨m, hmdef⟩ : ∃ m, m = leastEntry e es := ⟨_, rfl⟩
    obtain ⟨ties, htdef⟩ : ∃ ties, ties = (e :: es).filter fun x => x.weight == m.weight := ⟨_, rfl⟩
    have hc : chooseMin .any k e es = ties.getD (k % ties.length) m := by rw [htdef, hmdef]; rfl
    have hmem : chooseMin .any k e es ∈ ties := by
      have hmt : m ∈ ties := by rw [htdef, hmdef]; exact List.mem_filter.mpr ⟨hm, by simp⟩
      have hpos : 0 < ties.length := List.length_pos_of_mem hmt
      have hlt := Nat.mod_lt k hpos
      rw [hc, List.getD_eq_getElem?_getD, List.getElem?_eq_getElem hlt, Option.getD_some]
      exact List.getElem_mem _
    rw [htdef, List.mem_filter] at hmem
    refine ⟨hmem.1, ?_, fun h => by cases h⟩
    intro x hx
    rw [beq_iff_eq.mp hmem.2, hmdef]
    exact before_false_weight (hle x hx)

/-- Everything `PopMin` can do: it takes an entry of least weight, and of least key under STABLE_INDEX, and leaves the
others (R182, R186). -/
theorem popMin_spec (t : TieOrder) (k : Nat) {sel : List SelEntry} (h : sel ≠ []) :
    ∃ e rest, popMin t k sel = some (e, rest) ∧ sel.Perm (e :: rest) ∧ (∀ x ∈ sel, e.weight ≤ x.weight)
      ∧ (t = .stableIndex → ∀ x ∈ sel, x.before e = false) := by
  cases sel with
  | nil => exact absurd rfl h
  | cons a es =>
    obtain ⟨hm, hw, hk⟩ := chooseMin_spec t k a es
    exact ⟨_, _, rfl, List.perm_cons_erase hm, hw, hk⟩

theorem popMin_singleton (t : TieOrder) (k : Nat) (e : SelEntry) : popMin t k [e] = some (e, []) := by
  obtain ⟨a, rest, h, hp, _⟩ := popMin_spec t k (sel := [e]) (by simp)
  obtain ⟨rfl, rfl⟩ := List.cons.inj (List.perm_singleton.mp hp.symm)
  exact h

theorem popMin_none {t : TieOrder} {k : Nat} : popMin t k [] = none := rfl

/-! ### The leaves of BUILD -/

theorem mem_byteLeaves {freq : Vector Count 256} {nd : Node} :
    nd ∈ byteLeaves freq ↔ ∃ b : Byte, freqAt freq b ≠ 0 ∧ nd = leafNode (b.setWidth 9) ((freqAt freq b).setWidth 41) := by
  simp only [byteLeaves, List.mem_filterMap, List.mem_range, leafOf]
  constructor
  · rintro ⟨k, hk, h⟩
    refine ⟨BitVec.ofNat 8 k, ?_, ?_⟩
    · intro h0; simp [h0] at h
    · split at h
      · cases h
      · cases h
        congr 1
        apply BitVec.eq_of_toNat_eq
        have := Nat.mod_eq_of_lt hk
        simp; omega
  · rintro ⟨b, hb, rfl⟩
    refine ⟨b.toNat, b.isLt, ?_⟩
    have hb' : BitVec.ofNat 8 b.toNat = b := by simp
    rw [hb', if_neg hb]
    have : BitVec.ofNat 9 b.toNat = b.setWidth 9 := by
      apply BitVec.eq_of_toNat_eq; simp
    rw [this]

theorem setWidth_9_8 (b : Byte) : (b.setWidth 9).setWidth 8 = b := by
  apply BitVec.eq_of_toNat_eq; simp

theorem setWidth_9_ne_eos (b : Byte) : b.setWidth 9 ≠ Config.eos := by
  intro h
  have := congrArg BitVec.toNat h
  have hb := b.isLt
  simp [Config.eos] at this
  omega

/-- What every leaf of BUILD is (R180, R181). -/
theorem buildLeaves_mem {freq : Vector Count 256} {nd : Node} (h : nd ∈ buildLeaves freq) :
    nd.leaf = true ∧ nd.value ≤ Config.eos ∧ nd.left = Config.noneIdx ∧ nd.right = Config.noneIdx
      ∧ nd.weight.toNat = symWeight freq nd.value := by
  rcases List.mem_append.mp h with h | h
  · obtain ⟨b, hb, rfl⟩ := mem_byteLeaves.mp h
    refine ⟨rfl, ?_, rfl, rfl, ?_⟩
    · rw [BitVec.le_def]; have := b.isLt; simp [leafNode, Config.eos]; omega
    · simp only [symWeight, leafNode, setWidth_9_ne_eos, if_false, setWidth_9_8]
      have := (freqAt freq b).isLt
      simp [Config.cntMax] at this ⊢
  · rw [List.mem_singleton] at h; subst h
    refine ⟨rfl, by decide, rfl, rfl, ?_⟩
    simp [symWeight, leafNode]

/-- The symbols of BUILD's leaves, in the order of the leaves (R181). -/
def leafSyms (freq : Vector Count 256) : List Sym := (buildLeaves freq).map (·.value)

theorem mem_leafSyms {freq : Vector Count 256} {v : Sym} :
    v ∈ leafSyms freq ↔ v = Config.eos ∨ ∃ b : Byte, freqAt freq b ≠ 0 ∧ v = b.setWidth 9 := by
  simp only [leafSyms, buildLeaves, List.map_append, List.mem_append, List.mem_map, mem_byteLeaves, List.map_cons,
    List.map_nil, List.mem_singleton]
  constructor
  · rintro (⟨nd, ⟨b, hb, rfl⟩, rfl⟩ | h)
    · exact .inr ⟨b, hb, rfl⟩
    · exact .inl h
  · rintro (h | ⟨b, hb, rfl⟩)
    · exact .inr h
    · exact .inl ⟨_, ⟨b, hb, rfl⟩, rfl⟩

theorem byteLeaves_eq (freq : Vector Count 256) : (byteLeaves freq).map (·.value)
    = ((List.range 256).filter fun k => freqAt freq (BitVec.ofNat 8 k) ≠ 0).map (BitVec.ofNat 9) := by
  unfold byteLeaves
  induction List.range 256 with
  | nil => rfl
  | cons k ks ih =>
    by_cases h : freqAt freq (BitVec.ofNat 8 k) = 0
    · have e : leafOf freq k = none := if_pos h
      rw [List.filterMap_cons_none e, List.filter_cons_of_neg (by simpa using h), ih]
    · have e : leafOf freq k = some (leafNode (BitVec.ofNat 9 k) ((freqAt freq (BitVec.ofNat 8 k)).setWidth 41)) :=
        if_neg h
      rw [List.filterMap_cons_some e, List.filter_cons_of_pos (by simpa using h), List.map_cons, List.map_cons, ih]
      rfl

theorem leafSyms_nodup (freq : Vector Count 256) : (leafSyms freq).Nodup := by
  unfold leafSyms buildLeaves
  rw [List.map_append, byteLeaves_eq]
  refine List.nodup_append.mpr ⟨?_, by simp, ?_⟩
  · refine List.Nodup.map_on ?_ (List.Nodup.filter _ List.nodup_range)
    intro a ha b hb h
    have ha := List.mem_range.mp (List.mem_filter.mp ha).1
    have hb := List.mem_range.mp (List.mem_filter.mp hb).1
    have := congrArg BitVec.toNat h
    simp at this; omega
  · intro v hv w hw
    obtain ⟨k, hk, rfl⟩ := List.mem_map.mp hv
    have hk := List.mem_range.mp (List.mem_filter.mp hk).1
    simp only [List.map_cons, List.map_nil, List.mem_singleton] at hw
    subst hw
    intro h
    have := congrArg BitVec.toNat h
    simp [leafNode, Config.eos] at this; omega

theorem byteLeaves_length_le (freq : Vector Count 256) : (byteLeaves freq).length ≤ 256 := by
  have := List.length_filterMap_le (leafOf freq) (List.range 256)
  simpa [byteLeaves] using this

theorem buildLeaves_length (freq : Vector Count 256) : (buildLeaves freq).length = (byteLeaves freq).length + 1 := by
  simp [buildLeaves]

theorem symWeight_lt (freq : Vector Count 256) (v : Sym) : symWeight freq v < 2 ^ 32 := by
  unfold symWeight
  split
  · decide
  · exact (freqAt freq _).isLt

theorem sum_symWeight_le (freq : Vector Count 256) (l : List Sym) : (l.map (symWeight freq)).sum ≤ l.length * 2 ^ 32 := by
  induction l with
  | nil => simp
  | cons v l ih =>
    have := symWeight_lt freq v
    simp only [List.map_cons, List.sum_cons, List.length_cons]
    omega

theorem leafSyms_sum_lt (freq : Vector Count 256) : ((leafSyms freq).map (symWeight freq)).sum < 2 ^ 41 := by
  have h1 := sum_symWeight_le freq (leafSyms freq)
  have h2 : (leafSyms freq).length ≤ 257 := by
    have := byteLeaves_length_le freq
    simp [leafSyms, buildLeaves_length]; omega
  omega

/-! ### Placing nodes -/

theorem take_setNode (node : Vector Node 513) {n : Nat} (nd : Node) (h : n < 513) :
    (setNode node n nd).toList.take (n + 1) = node.toList.take n ++ [nd] := by
  have hl : n < node.toList.length := by simpa using h
  simp only [setNode, Vector.toList_setIfInBounds]
  rw [List.take_add_one, List.take_set_of_le (le_refl n)]
  simp [List.getElem?_set_self hl]

theorem take_placeNodes (nds : List Node) : ∀ (n : Nat) (node : Vector Node 513), n + nds.length ≤ 513 →
    (placeNodes n nds node).toList.take (n + nds.length) = node.toList.take n ++ nds := by
  induction nds with
  | nil => intro n node _; simp [placeNodes]
  | cons nd nds ih =>
    intro n node h
    simp only [List.length_cons] at h
    have := ih (n + 1) (setNode node n nd) (by omega)
    rw [placeNodes, List.length_cons, show n + (nds.length + 1) = n + 1 + nds.length by omega, this,
      take_setNode node nd (by omega)]
    simp

theorem nodeAt_eq_take {node : Vector Node 513} {n : Nat} {i : Idx} (h : i.toNat < n) :
    nodeAt node i = (node.toList.take n)[i.toNat]? := by
  rw [List.getElem?_take_of_lt h]
  simp [nodeAt]

theorem nodeAt_placeNodes {nds : List Node} {node : Vector Node 513} {i : Idx} (h : nds.length ≤ 513)
    (hi : i.toNat < nds.length) : nodeAt (placeNodes 0 nds node) i = nds[i.toNat]? := by
  have := take_placeNodes nds 0 node (by omega)
  rw [Nat.zero_add, List.take_zero, List.nil_append] at this
  rw [nodeAt_eq_take hi, this]

/-! ### The invariant of the merge loop -/

/-- What an internal node of a built tree is (R42, R183, R190). -/
def MergedNode (o : TieOrder) (node : Vector Node 513) (i : Idx) (nd : Node) : Prop :=
  nd.leaf = false ∧ nd.value = Config.placeholder ∧ nd.left.toNat < i.toNat ∧ nd.right.toNat < i.toNat
    ∧ nd.left ≠ nd.right
    ∧ ∃ a b, nodeAt node nd.left = some a ∧ nodeAt node nd.right = some b
        ∧ nd.weight.toNat = a.weight.toNat + b.weight.toNat ∧ a.weight ≤ b.weight
        ∧ (o = .stableIndex → a.weight = b.weight → nd.left < nd.right)

/-- The state of BUILD's loop: `items` are SEL's entries with the trees below them, out of leaves `leaves` and with `n` nodes
made. -/
structure BuildInv (o : TieOrder) (freq : Vector Count 256) (n : Nat) (node : Vector Node 513) (items : List (SelEntry × Tree)) :
    Prop where
  bound : n ≤ 513
  past : (buildLeaves freq).length ≤ n
  count : items.length + n = 2 * (buildLeaves freq).length
  holds : ∀ p ∈ items, HoldsIn (fun i => i.toNat < n) node p.1.idx p.2
  weight : ∀ p ∈ items, ∃ nd, nodeAt node p.1.idx = some nd ∧ nd.weight = p.1.weight
  sums : ∀ p ∈ items, p.1.weight.toNat = (p.2.leaves.map (symWeight freq)).sum
  symbols : (items.flatMap fun p => p.2.leaves).Perm (leafSyms freq)
  kids : (childList node n ++ items.map fun p => p.1.idx).Perm ((List.range n).map (BitVec.ofNat 10))
  leaves : ∀ i : Idx, i.toNat < (buildLeaves freq).length → nodeAt node i = (buildLeaves freq)[i.toNat]?
  merged : ∀ i : Idx, (buildLeaves freq).length ≤ i.toNat → i.toNat < n →
    ∃ nd, nodeAt node i = some nd ∧ MergedNode o node i nd

/-- SEL's first entries with their trees, the single leaves (R181). -/
def firstItems : Nat → List Node → List (SelEntry × Tree)
  | _, [] => []
  | n, nd :: nds => ({ idx := BitVec.ofNat 10 n, weight := nd.weight }, .leaf nd.value) :: firstItems (n + 1) nds

theorem firstItems_fst (nds : List Node) : ∀ n, (firstItems n nds).map Prod.fst = selEntries n nds := by
  induction nds with
  | nil => intro n; rfl
  | cons nd nds ih => intro n; simp [firstItems, selEntries, ih]

theorem firstItems_leaves (nds : List Node) : ∀ n, ((firstItems n nds).flatMap fun p => p.2.leaves) = nds.map (·.value) := by
  induction nds with
  | nil => intro n; rfl
  | cons nd nds ih => intro n; simp [firstItems, Tree.leaves, ih]

theorem firstItems_length (nds : List Node) : ∀ n, (firstItems n nds).length = nds.length := by
  induction nds with
  | nil => intro n; rfl
  | cons nd nds ih => intro n; simp [firstItems, ih]

theorem firstItems_idx (nds : List Node) : ∀ n, ((firstItems n nds).map fun p => p.1.idx)
    = (List.range' n nds.length).map (BitVec.ofNat 10) := by
  induction nds with
  | nil => intro n; rfl
  | cons nd nds ih => intro n; simp [firstItems, ih, List.range'_succ]

theorem firstItems_mem (nds : List Node) : ∀ n, ∀ p ∈ firstItems n nds,
    ∃ j nd, nds[j]? = some nd ∧ p = ({ idx := BitVec.ofNat 10 (n + j), weight := nd.weight }, .leaf nd.value) := by
  induction nds with
  | nil => intro n p h; cases h
  | cons nd nds ih =>
    intro n p h
    rcases List.mem_cons.mp h with rfl | h
    · exact ⟨0, nd, rfl, rfl⟩
    · obtain ⟨j, nd', hj, rfl⟩ := ih (n + 1) p h
      exact ⟨j + 1, nd', by simpa using hj, by rw [show n + 1 + j = n + (j + 1) by omega]⟩

theorem childList_leaves {node : Vector Node 513} {n : Nat} (h : ∀ nd ∈ node.toList.take n, nd.leaf = true) :
    childList node n = [] := by
  unfold childList
  rw [List.filter_eq_nil_iff.mpr (by intro nd hnd; simp [h nd hnd])]
  rfl

theorem childList_set {node : Vector Node 513} {n : Nat} {nd : Node} (h : n < 513) (hl : nd.leaf = false) :
    childList (setNode node n nd) (n + 1) = childList node n ++ [nd.left, nd.right] := by
  unfold childList
  rw [take_setNode node nd h, List.filter_append, List.flatMap_append]
  simp [hl]

/-- The invariant holds when the leaves have been made. -/
theorem BuildInv.first (o : TieOrder) (freq : Vector Count 256) (node : Vector Node 513) :
    BuildInv o freq (buildLeaves freq).length (placeNodes 0 (buildLeaves freq) node) (firstItems 0 (buildLeaves freq)) := by
  have hlen : (buildLeaves freq).length ≤ 257 := by
    have := byteLeaves_length_le freq; rw [buildLeaves_length]; omega
  have hat : ∀ {j : Nat} {nd : Node}, (buildLeaves freq)[j]? = some nd →
      j < (buildLeaves freq).length ∧ nodeAt (placeNodes 0 (buildLeaves freq) node) (BitVec.ofNat 10 (0 + j)) = some nd := by
    intro j nd hj
    obtain ⟨hlt, _⟩ := List.getElem?_eq_some_iff.mp hj
    refine ⟨hlt, ?_⟩
    have e : (BitVec.ofNat 10 (0 + j)).toNat = j := by rw [Nat.zero_add, idx_toNat (by omega)]
    rw [nodeAt_placeNodes (by omega) (by omega), e, hj]
  constructor
  · omega
  · exact le_rfl
  · rw [firstItems_length]; omega
  · intro p hp
    obtain ⟨j, nd, hj, rfl⟩ := firstItems_mem _ _ _ hp
    obtain ⟨hlt, hn⟩ := hat hj
    refine ⟨?_, nd, hn, (buildLeaves_mem (List.mem_of_getElem? hj)).1, rfl⟩
    show (BitVec.ofNat 10 (0 + j)).toNat < _
    rw [Nat.zero_add, idx_toNat (by omega)]; exact hlt
  · intro p hp
    obtain ⟨j, nd, hj, rfl⟩ := firstItems_mem _ _ _ hp
    exact ⟨nd, (hat hj).2, rfl⟩
  · intro p hp
    obtain ⟨j, nd, hj, rfl⟩ := firstItems_mem _ _ _ hp
    simp [Tree.leaves, (buildLeaves_mem (List.mem_of_getElem? hj)).2.2.2.2]
  · rw [firstItems_leaves]; rfl
  · rw [firstItems_idx, childList_leaves, List.nil_append, List.range_eq_range']
    intro nd hnd
    have := take_placeNodes (buildLeaves freq) 0 node (by omega)
    rw [Nat.zero_add, List.take_zero, List.nil_append] at this
    rw [this] at hnd
    exact (buildLeaves_mem hnd).1
  · intro i hi; exact nodeAt_placeNodes (by omega) hi
  · intro i h1 h2; omega

theorem perm_map_cons {α β : Type} (f : α → β) {l : List α} {b : β} {m : List β} (h : (l.map f).Perm (b :: m)) :
    ∃ a l', f a = b ∧ l.Perm (a :: l') ∧ (l'.map f).Perm m := by
  have hb : b ∈ l.map f := h.mem_iff.mpr (by simp)
  obtain ⟨a, ha, rfl⟩ := List.mem_map.mp hb
  obtain ⟨s, t, rfl⟩ := List.append_of_mem ha
  refine ⟨a, s ++ t, rfl, List.perm_middle, ?_⟩
  exact (((List.perm_middle (a := a) (l₁ := s) (l₂ := t)).map f).symm.trans h).cons_inv

theorem BuildInv.perm {o : TieOrder} {freq : Vector Count 256} {n : Nat} {node : Vector Node 513} {items items' : List (SelEntry × Tree)}
    (h : BuildInv o freq n node items) (hp : items.Perm items') : BuildInv o freq n node items' where
  bound := h.bound
  past := h.past
  count := by rw [← hp.length_eq]; exact h.count
  holds := fun p hm => h.holds p (hp.mem_iff.mpr hm)
  weight := fun p hm => h.weight p (hp.mem_iff.mpr hm)
  sums := fun p hm => h.sums p (hp.mem_iff.mpr hm)
  symbols := (hp.symm.flatMap_right _).trans h.symbols
  kids := ((hp.symm.map _).append_left _).trans h.kids
  leaves := h.leaves
  merged := h.merged

theorem HoldsIn.root {P : Idx → Prop} {node : Vector Node 513} {i : Idx} {t : Tree} (h : HoldsIn P node i t) : P i := by
  cases t <;> exact h.1

/-- One merge keeps the invariant (R183, R184). -/
theorem BuildInv.merge {o : TieOrder} {freq : Vector Count 256} {n : Nat} {node : Vector Node 513} {a b : SelEntry × Tree}
    {items : List (SelEntry × Tree)} (h : BuildInv o freq n node (a :: b :: items)) (hle : a.1.weight ≤ b.1.weight)
    (hab : o = .stableIndex → b.1.before a.1 = false) :
    n < 513 ∧ BuildInv o freq (n + 1) (setNode node n (innerNode (a.1.weight + b.1.weight) a.1.idx b.1.idx))
      (({ idx := BitVec.ofNat 10 n, weight := a.1.weight + b.1.weight }, .inner a.2 b.2) :: items) := by
  have hlen : (buildLeaves freq).length ≤ 257 := by
    have := byteLeaves_length_le freq; rw [buildLeaves_length]; omega
  have hc := h.count
  simp only [List.length_cons] at hc
  have hn : n < 513 := by omega
  have hidx : (BitVec.ofNat 10 n).toNat = n := idx_toNat (by omega)
  have ha : a.1.idx.toNat < n := (h.holds a (by simp)).root
  have hb : b.1.idx.toNat < n := (h.holds b (by simp)).root
  have hne : a.1.idx ≠ b.1.idx := by
    have hnd : ((List.range n).map (BitVec.ofNat 10)).Nodup := by
      refine List.Nodup.map_on ?_ List.nodup_range
      intro x hx y hy e
      have hx := List.mem_range.mp hx; have hy := List.mem_range.mp hy
      have := congrArg BitVec.toNat e
      rw [idx_toNat (by omega), idx_toNat (by omega)] at this; exact this
    have := (h.kids.nodup_iff.mpr hnd)
    have := (List.nodup_append.mp this).2.1
    simp only [List.map_cons, List.nodup_cons, List.mem_cons, not_or] at this
    exact this.1.1
  have hsum : a.1.weight.toNat + b.1.weight.toNat < 2 ^ 41 := by
    have h1 := leafSyms_sum_lt freq
    rw [← (h.symbols.map (symWeight freq)).sum_eq] at h1
    simp only [List.flatMap_cons, List.map_append, List.sum_append] at h1
    rw [h.sums a (by simp), h.sums b (by simp)]; omega
  have hw : (a.1.weight + b.1.weight).toNat = a.1.weight.toNat + b.1.weight.toNat := by
    rw [BitVec.toNat_add, Nat.mod_eq_of_lt hsum]
  have hold : ∀ i : Idx, i.toNat < n →
      nodeAt (setNode node n (innerNode (a.1.weight + b.1.weight) a.1.idx b.1.idx)) i = nodeAt node i :=
    fun i hi => nodeAt_setNode_ne (by omega)
  have hnew : nodeAt (setNode node n (innerNode (a.1.weight + b.1.weight) a.1.idx b.1.idx)) (BitVec.ofNat 10 n)
      = some (innerNode (a.1.weight + b.1.weight) a.1.idx b.1.idx) := nodeAt_setNode_self hidx hn
  refine ⟨hn, ?_⟩
  constructor
  · omega
  · have := h.past; omega
  · simp only [List.length_cons]; omega
  · intro p hp
    rcases List.mem_cons.mp hp with rfl | hp
    · refine ⟨by show (BitVec.ofNat 10 n).toNat < n + 1; omega, _, hnew, rfl, ?_, ?_⟩
      · exact (h.holds a (by simp)).mono (fun i hi => by omega) hold
      · exact (h.holds b (by simp)).mono (fun i hi => by omega) hold
    · exact (h.holds p (by simp [hp])).mono (fun i hi => by omega) hold
  · intro p hp
    rcases List.mem_cons.mp hp with rfl | hp
    · exact ⟨_, hnew, rfl⟩
    · obtain ⟨nd, h1, h2⟩ := h.weight p (by simp [hp])
      exact ⟨nd, by rw [hold _ (h.holds p (by simp [hp])).root, h1], h2⟩
  · intro p hp
    rcases List.mem_cons.mp hp with rfl | hp
    · show (a.1.weight + b.1.weight).toNat = _
      rw [hw, h.sums a (by simp), h.sums b (by simp)]
      simp [Tree.leaves]
    · exact h.sums p (by simp [hp])
  · refine List.Perm.trans ?_ h.symbols
    simp [Tree.leaves]
  · rw [childList_set hn rfl, List.range_succ, List.map_append]
    have h2 := h.kids
    simp only [List.map_cons] at h2
    have : (childList node n ++ [a.1.idx, b.1.idx] ++ BitVec.ofNat 10 n :: items.map fun p => p.1.idx).Perm
        ((childList node n ++ (a.1.idx :: b.1.idx :: items.map fun p => p.1.idx)) ++ [BitVec.ofNat 10 n]) := by
      rw [List.append_assoc, List.append_assoc]
      refine List.Perm.append_left _ ?_
      simp only [List.cons_append, List.nil_append]
      refine List.Perm.cons _ (List.Perm.cons _ ?_)
      exact (List.perm_append_singleton _ _).symm
    exact this.trans (h2.append_right _)
  · intro i hi
    have := h.past
    rw [hold i (by omega)]; exact h.leaves i hi
  · intro i h1 h2
    by_cases hi : i.toNat < n
    · obtain ⟨nd, hnd, hl, hv, hL, hR, hne, x, y, hx, hy, hrest⟩ := h.merged i h1 hi
      exact ⟨nd, by rw [hold i hi, hnd], hl, hv, hL, hR, hne, x, y, by rw [hold _ (by omega), hx],
        by rw [hold _ (by omega), hy], hrest⟩
    · have e : i.toNat = n := by omega
      obtain ⟨x, hx, hx'⟩ := h.weight a (by simp)
      obtain ⟨y, hy, hy'⟩ := h.weight b (by simp)
      refine ⟨_, nodeAt_setNode_self e hn, rfl, rfl, ?_, ?_, hne, x, y, ?_, ?_, ?_, ?_, ?_⟩
      · show a.1.idx.toNat < _; omega
      · show b.1.idx.toNat < _; omega
      · show nodeAt _ a.1.idx = _; rw [hold _ ha, hx]
      · show nodeAt _ b.1.idx = _; rw [hold _ hb, hy]
      · show (a.1.weight + b.1.weight).toNat = _; rw [hw, hx', hy']
      · rw [hx', hy']; exact hle
      · rw [hx', hy']
        intro ho e
        have hab := hab ho
        rw [before_false_iff] at hab
        rw [e] at hab
        have : a.1.idx.toNat ≠ b.1.idx.toNat := fun h => hne (BitVec.eq_of_toNat_eq h)
        rw [BitVec.lt_def]
        show a.1.idx.toNat < b.1.idx.toNat
        rcases hab with h | h
        · omega
        · omega

/-! ### The run -/

theorem movesTo_merge {s : State} {leaves n : Nat} {a b : SelEntry} {sel1 sel2 : List SelEntry} (hr : s.Running)
    (hp : s.seq.pos = .buildMerge leaves n)
    (h1 : popMin s.tieOrder (Config.tieDraw s.pops) s.sel = some (a, sel1))
    (h2 : popMin s.tieOrder (Config.tieDraw (s.pops + 1)) sel1 = some (b, sel2)) (hn : n < 513) :
    MovesTo 1 s (goto (.buildMerge leaves (n + 1))
      { s with
        node := setNode s.node n (innerNode (a.weight + b.weight) a.idx b.idx)
        sel := sel2 ++ [{ idx := BitVec.ofNat 10 n, weight := a.weight + b.weight }]
        pops := s.pops + 2 }) := by
  refine hr.move1 ?_
  simp only [move, hp, buildMerge, h1, h2, hn, if_true]

theorem movesTo_done {s : State} {leaves n : Nat} {a : SelEntry} (hr : s.Running)
    (hp : s.seq.pos = .buildMerge leaves n)
    (h1 : popMin s.tieOrder (Config.tieDraw s.pops) s.sel = some (a, [])) :
    MovesTo 1 s (buildDone leaves n a.idx { s with pops := s.pops + 1 }) := by
  refine hr.move1 ?_
  simp only [move, hp, buildMerge, h1, popMin_none]

theorem buildDone_goto (leaves n : Nat) (root : Idx) (p : Pos) (s : State) :
    buildDone leaves n root (goto p s) = buildDone leaves n root s := finishBody_of_goto p rfl

/-- The node memory after `m` merges of the entries `sel` under the tie policy `o`, the next node numbered `n`, `k` `PopMin`s
made before (R183, R186). -/
def mergeAll (o : TieOrder) : Nat → Nat → Nat → List SelEntry → Vector Node 513 → Vector Node 513
  | _, 0, _, _, node => node
  | k, m + 1, n, sel, node =>
    match popMin o (Config.tieDraw k) sel with
    | none => node
    | some (a, sel1) =>
      match popMin o (Config.tieDraw (k + 1)) sel1 with
      | none => node
      | some (b, sel2) =>
        mergeAll o (k + 2) m (n + 1) (sel2 ++ [{ idx := BitVec.ofNat 10 n, weight := a.weight + b.weight }])
          (setNode node n (innerNode (a.weight + b.weight) a.idx b.idx))

/-- The node memory BUILD leaves, from the table `freq` and the node memory before it, under the tie policy `o` and with `k`
`PopMin`s made before (R180). -/
def builtNodes (o : TieOrder) (k : Nat) (freq : Vector Count 256) (node : Vector Node 513) : Vector Node 513 :=
  mergeAll o k ((buildLeaves freq).length - 1) (buildLeaves freq).length (selEntries 0 (buildLeaves freq))
    (placeNodes 0 (buildLeaves freq) node)

/-- The merge loop, from `m + 1` trees on: one merge for each tree but the last, then the end of BUILD (R183). -/
theorem build_run (freq : Vector Count 256) (m : Nat) : ∀ (n : Nat) (s : State) (items : List (SelEntry × Tree)),
    s.Running → s.seq.pos = .buildMerge (buildLeaves freq).length n → s.sel.Perm (items.map Prod.fst) →
    BuildInv s.tieOrder freq n s.node items → items.length = m + 1 →
    ∃ sel p, BuildInv s.tieOrder freq (n + m) (mergeAll s.tieOrder s.pops m n s.sel s.node) [p]
      ∧ MovesTo (m + 1) s (buildDone (buildLeaves freq).length (n + m) p.1.idx
          { s with
            node := mergeAll s.tieOrder s.pops m n s.sel s.node, sel := sel, pops := s.pops + (2 * m + 1) }) := by
  induction m with
  | zero =>
    intro n s items hr hp hs hi hl
    obtain ⟨p, rfl⟩ := List.length_eq_one_iff.mp hl
    have hsel : s.sel = [p.1] := List.perm_singleton.mp hs
    refine ⟨s.sel, p, hi, movesTo_done hr hp ?_⟩
    rw [hsel]; exact popMin_singleton _ _ _
  | succ m ih =>
    intro n s items hr hp hs hi hl
    have hne : s.sel ≠ [] := by
      intro h; rw [h] at hs
      have := hs.length_eq; simp at this; omega
    obtain ⟨a, sel1, h1, hp1, hw1, hk1⟩ := popMin_spec s.tieOrder (Config.tieDraw s.pops) hne
    obtain ⟨pa, items1, rfl, hpa, hs1⟩ := perm_map_cons Prod.fst (hs.symm.trans hp1)
    have hne1 : sel1 ≠ [] := by
      intro h; rw [h] at hs1
      have h2 := hs1.length_eq; have h3 := hpa.length_eq
      simp only [List.length_map, List.length_nil, List.length_cons] at h2 h3; omega
    obtain ⟨b, sel2, h2, hp2, _, _⟩ := popMin_spec s.tieOrder (Config.tieDraw (s.pops + 1)) hne1
    obtain ⟨pb, items2, rfl, hpb, hs2⟩ := perm_map_cons Prod.fst (hs1.trans hp2)
    have hb : pb.1 ∈ s.sel := hp1.mem_iff.mpr (by simp [hp2.mem_iff])
    obtain ⟨hn, hi'⟩ := (hi.perm (hpa.trans (hpb.cons _))).merge (hw1 _ hb) fun ho => hk1 ho _ hb
    have hmv := movesTo_merge hr hp h1 h2 hn
    obtain ⟨sel, p, hinv, hrun⟩ := ih (n + 1)
      (goto (.buildMerge (buildLeaves freq).length (n + 1))
        { s with
          node := setNode s.node n (innerNode (pa.1.weight + pb.1.weight) pa.1.idx pb.1.idx)
          sel := sel2 ++ [{ idx := BitVec.ofNat 10 n, weight := pa.1.weight + pb.1.weight }]
          pops := s.pops + 2 })
      _ ⟨hr.1, hr.2.1, hr.2.2⟩ rfl
      ((List.perm_append_singleton _ _).trans (hs2.symm.cons _)) hi'
      (by
        have h2 := hpa.length_eq; have h3 := hpb.length_eq
        simp only [List.length_cons] at h2 h3 ⊢; omega)
    have hall : mergeAll s.tieOrder s.pops (m + 1) n s.sel s.node = mergeAll s.tieOrder (s.pops + 2) m (n + 1)
        (sel2 ++ [{ idx := BitVec.ofNat 10 n, weight := pa.1.weight + pb.1.weight }])
        (setNode s.node n (innerNode (pa.1.weight + pb.1.weight) pa.1.idx pb.1.idx)) := by
      simp only [mergeAll, h1, h2]
    rw [hall, show s.pops + (2 * (m + 1) + 1) = s.pops + 2 + (2 * m + 1) by omega]
    refine ⟨sel, p, by rw [show n + (m + 1) = n + 1 + m by omega]; exact hinv, ?_⟩
    rw [show m + 1 + 1 = 1 + (m + 1) by omega, show n + (m + 1) = n + 1 + m by omega]
    refine (hmv.trans hrun).to ?_
    exact buildDone_goto _ _ _ (.buildMerge (buildLeaves freq).length (n + 1)) { s with node := _, sel := sel, pops := _ }

/-- The state after BUILD's body in which `node` is the tree (R180, R185). -/
def built (leaves : Nat) (node : Vector Node 513) (s : State) : State :=
  { s with
    node := node, sel := [], pops := s.pops + (2 * leaves - 1)
    root := BitVec.ofNat 10 (2 * leaves - 2), leafCount := BitVec.ofNat 9 leaves
    nodeCount := BitVec.ofNat 10 (2 * leaves - 1)
    status := { s.status with treeValid := true, lutValid := false, phase := .build } }

theorem mem_childList {node : Vector Node 513} {n : Nat} {c : Idx} (h : c ∈ childList node n) (hn : n ≤ 513) :
    ∃ (i : Idx) (nd : Node), i.toNat < n ∧ nodeAt node i = some nd ∧ nd.leaf = false ∧ (c = nd.left ∨ c = nd.right) := by
  unfold childList at h
  obtain ⟨nd, hnd, hc⟩ := List.mem_flatMap.mp h
  obtain ⟨hm, hl⟩ := List.mem_filter.mp hnd
  obtain ⟨k, hk, he⟩ := List.getElem_of_mem hm
  simp only [List.length_take, Vector.length_toList] at hk
  have hk' : (BitVec.ofNat 10 k).toNat = k := idx_toNat (by omega)
  refine ⟨BitVec.ofNat 10 k, nd, by omega, ?_, by simpa using hl, by simpa using hc⟩
  rw [nodeAt_eq_take (n := n) (by omega), hk', ← he, List.getElem?_eq_getElem]

/-- At the end the last node made is the root (R181, R185). -/
theorem BuildInv.root {o : TieOrder} {freq : Vector Count 256} {node : Vector Node 513} {p : SelEntry × Tree} {n : Nat}
    (h : BuildInv o freq n node [p]) : p.1.idx = BitVec.ofNat 10 (n - 1) := by
  have hb := h.bound
  have hc := h.count
  simp only [List.length_singleton] at hc
  have hm : BitVec.ofNat 10 (n - 1) ∈ childList node n ++ [p].map fun p => p.1.idx := by
    rw [h.kids.mem_iff]
    exact List.mem_map_of_mem (List.mem_range.mpr (by omega))
  rcases List.mem_append.mp hm with hm | hm
  · obtain ⟨i, nd, hi, hnd, hl, hor⟩ := mem_childList hm hb
    have hLi : (buildLeaves freq).length ≤ i.toNat := by
      by_contra hlt
      rw [h.leaves i (by omega)] at hnd
      rw [(buildLeaves_mem (List.mem_of_getElem? hnd)).1] at hl
      cases hl
    obtain ⟨nd', hnd', _, _, h1, h2, _⟩ := h.merged i hLi hi
    rw [hnd'] at hnd; cases hnd
    have e : (BitVec.ofNat 10 (n - 1)).toNat = n - 1 := idx_toNat (by omega)
    rcases hor with hor | hor
    · rw [← hor] at h1; omega
    · rw [← hor] at h2; omega
  · simpa using (List.mem_singleton.mp (by simpa using hm)).symm

/-- BUILD's body on a table with some byte counted (R180, R181, R183, R185). -/
theorem build_body {s : State} (hr : s.Running) (hp : s.seq.pos = .enter .build) (hne : byteLeaves s.freq ≠ []) :
    ∃ p, BuildInv s.tieOrder s.freq (2 * (buildLeaves s.freq).length - 1) (builtNodes s.tieOrder s.pops s.freq s.node) [p]
      ∧ p.1.idx = BitVec.ofNat 10 (2 * (buildLeaves s.freq).length - 2)
      ∧ MovesTo ((buildLeaves s.freq).length + 1) s
          (finishBody (built (buildLeaves s.freq).length (builtNodes s.tieOrder s.pops s.freq s.node) s)) := by
  have hL : 2 ≤ (buildLeaves s.freq).length := by
    rw [buildLeaves_length]; have := List.length_pos_iff.mpr hne; omega
  obtain ⟨L, hLdef⟩ : ∃ L, L = (buildLeaves s.freq).length := ⟨_, rfl⟩
  have hm : move s = .next (goto (.buildMerge L L)
      { dropTree (start .build .none s) with
        node := placeNodes 0 (buildLeaves s.freq) s.node, sel := selEntries 0 (buildLeaves s.freq) }) := by
    rw [move_enter hp]
    cases hb : byteLeaves s.freq with
    | nil => exact absurd hb hne
    | cons x xs => simp only [enterBody, buildEnter, hb, hLdef]
  obtain ⟨sel, p, hinv, hrun⟩ := build_run s.freq (L - 1) L
    (goto (.buildMerge L L)
      { dropTree (start .build .none s) with
        node := placeNodes 0 (buildLeaves s.freq) s.node, sel := selEntries 0 (buildLeaves s.freq) })
    (firstItems 0 (buildLeaves s.freq)) ⟨hr.1, hr.2.1, hr.2.2⟩ (by rw [← hLdef]; rfl)
    (by rw [firstItems_fst]; exact .refl _) (by rw [hLdef]; exact BuildInv.first _ s.freq s.node)
    (by rw [firstItems_length]; omega)
  have hn : L + (L - 1) = 2 * L - 1 := by omega
  have hnode : mergeAll s.tieOrder s.pops (L - 1) L (selEntries 0 (buildLeaves s.freq)) (placeNodes 0 (buildLeaves s.freq) s.node)
      = builtNodes s.tieOrder s.pops s.freq s.node := by rw [builtNodes, hLdef]
  have ho : (dropTree (start .build .none s)).tieOrder = s.tieOrder := rfl
  have hq : (dropTree (start .build .none s)).pops = s.pops := rfl
  simp only [goto_sel, goto_node, goto_tieOrder, goto_pops, ho, hq, hnode] at hinv hrun
  rw [hn] at hinv hrun
  rw [show 2 * (L - 1) + 1 = 2 * L - 1 by omega] at hrun
  have hroot := hinv.root
  rw [show 2 * L - 1 - 1 = 2 * L - 2 by omega] at hroot
  rw [← hLdef]
  refine ⟨p, hinv, hroot, ?_⟩
  rw [show L + 1 = (L - 1 + 1) + 1 by omega]
  refine (hr.moves hm hrun).to ?_
  rw [hroot, ← hLdef]
  exact finishBody_of_goto (.buildMerge L L) rfl

/-- BUILD's body with every count 0: NOSYM, the old tree dropped, no node made (R189). -/
theorem build_nosym {s : State} (hr : s.Running) (hp : s.seq.pos = .enter .build) (h : byteLeaves s.freq = []) :
    MovesTo 1 s (raise .nosym { dropTree (setPhase .build s) with sel := [] }) := by
  refine hr.move1 ?_
  rw [move_enter hp]
  simp only [enterBody, buildEnter, h]
  rfl

/-! ### What the built tree is -/

/-- The tree in the node memory is a valid one, held at ROOT, with the leaves of BUILD (R43, R190). -/
theorem BuildInv.holdsTree {o : TieOrder} {freq : Vector Count 256} {node : Vector Node 513} {p : SelEntry × Tree} {n : Nat}
    (h : BuildInv o freq n node [p]) (hL : 2 ≤ (buildLeaves freq).length) :
    Holds node p.1.idx p.2 ∧ p.2.size = n ∧ p.2.isInner = true ∧ p.2.leaves.Perm (leafSyms freq)
      ∧ ∀ v ∈ p.2.leaves, v ≤ Config.eos := by
  have hb := h.bound
  have hc := h.count
  simp only [List.length_singleton] at hc
  have hperm : p.2.leaves.Perm (leafSyms freq) := by simpa using h.symbols
  have hlen : p.2.leaves.length = (buildLeaves freq).length := by rw [hperm.length_eq, leafSyms, List.length_map]
  have hsz := p.2.size_leaves
  have hh := (h.holds p (by simp)).holds
  refine ⟨hh, by omega, ?_, hperm, ?_⟩
  · cases ht : p.2 with
    | leaf v => rw [ht] at hlen; simp [Tree.leaves] at hlen; omega
    | inner l r => rfl
  · intro v hv
    obtain ⟨nd, hnd, rfl⟩ := List.mem_map.mp (hperm.mem_iff.mp hv)
    exact (buildLeaves_mem hnd).2.1

theorem BuildInv.validTree {s : State} {o : TieOrder} {freq : Vector Count 256} {node : Vector Node 513} {p : SelEntry × Tree}
    (h : BuildInv o freq (2 * (buildLeaves freq).length - 1) node [p]) (hL : 2 ≤ (buildLeaves freq).length) :
    (built (buildLeaves freq).length node s).ValidTree := by
  have hb := h.bound
  obtain ⟨L, hLdef⟩ : ∃ L, L = (buildLeaves freq).length := ⟨_, rfl⟩
  have hroot := h.root
  rw [← hLdef] at h hL hb hroot ⊢
  have hN : (BitVec.ofNat 10 (2 * L - 1)).toNat = 2 * L - 1 := idx_toNat (by omega)
  have hR : (BitVec.ofNat 10 (2 * L - 2)).toNat = 2 * L - 2 := idx_toNat (by omega)
  have hLc : (BitVec.ofNat 9 L).toNat = L := by rw [BitVec.toNat_ofNat]; exact Nat.mod_eq_of_lt (by omega)
  have hlt : ∀ {i : Idx}, i < BitVec.ofNat 10 (2 * L - 1) ↔ i.toNat < 2 * L - 1 := by
    intro i; rw [BitVec.lt_def, hN]
  have hleaf : ∀ {i : Idx} {nd : Node}, nodeAt node i = some nd → i.toNat < 2 * L - 1 → nd.leaf = true →
      nd ∈ buildLeaves freq := by
    intro i nd hnd hi hl
    by_cases hiL : i.toNat < L
    · rw [h.leaves i (by omega)] at hnd; exact List.mem_of_getElem? hnd
    · obtain ⟨nd', hnd', hl', _⟩ := h.merged i (by omega) hi
      rw [hnd] at hnd'; cases hnd'; rw [hl] at hl'; cases hl'
  have hinner : ∀ {i : Idx} {nd : Node}, nodeAt node i = some nd → i.toNat < 2 * L - 1 → nd.leaf = false →
      MergedNode o node i nd := by
    intro i nd hnd hi hl
    by_cases hiL : i.toNat < L
    · rw [h.leaves i (by omega)] at hnd
      rw [(buildLeaves_mem (List.mem_of_getElem? hnd)).1] at hl; cases hl
    · obtain ⟨nd', hnd', hm⟩ := h.merged i (by omega) hi
      rw [hnd] at hnd'; cases hnd'; exact hm
  refine ⟨⟨?_, ?_, ?_⟩, ⟨?_, ?_⟩, ?_, ?_, ?_, fun i => i.toNat, ?_⟩
  · show 3 ≤ (BitVec.ofNat 10 (2 * L - 1)).toNat; omega
  · show (BitVec.ofNat 10 (2 * L - 1)).toNat ≤ 513; omega
  · show (BitVec.ofNat 10 (2 * L - 1)).toNat + 1 = 2 * (BitVec.ofNat 9 L).toNat; omega
  · show BitVec.ofNat 10 (2 * L - 2) < BitVec.ofNat 10 (2 * L - 1)
    rw [hlt]; omega
  · obtain ⟨nd, hnd, hl, _⟩ := h.merged (BitVec.ofNat 10 (2 * L - 2)) (by omega) (by omega)
    exact ⟨nd, hnd, hl⟩
  · intro i nd hi hnd hl
    have := buildLeaves_mem (hleaf hnd (hlt.mp hi) hl)
    exact ⟨this.2.1, this.2.2.1, this.2.2.2.1⟩
  · intro i nd hi hnd hl
    obtain ⟨_, hv, h1, h2, hne, _⟩ := hinner hnd (hlt.mp hi) hl
    have hi' := hlt.mp hi
    exact ⟨hv, hlt.mpr (by omega), hlt.mpr (by omega), hne⟩
  · intro i hi
    have hi' := hlt.mp hi
    have hk := h.kids.count_eq i
    have hnd : ((List.range (2 * L - 1)).map (BitVec.ofNat 10)).Nodup := by
      refine List.Nodup.map_on ?_ List.nodup_range
      intro x hx y hy e
      have hx := List.mem_range.mp hx; have hy := List.mem_range.mp hy
      have := congrArg BitVec.toNat e
      rw [idx_toNat (by omega), idx_toNat (by omega)] at this; exact this
    have hm : i ∈ (List.range (2 * L - 1)).map (BitVec.ofNat 10) :=
      List.mem_map.mpr ⟨i.toNat, List.mem_range.mpr hi', by simp⟩
    rw [List.count_eq_one_of_mem hnd hm, List.count_append, List.map_singleton, List.count_singleton, hroot,
      show 2 * L - 1 - 1 = 2 * L - 2 by omega] at hk
    show (childList node (BitVec.ofNat 10 (2 * L - 1)).toNat).count i = if i = BitVec.ofNat 10 (2 * L - 2) then 0 else 1
    rw [hN]
    by_cases e : i = BitVec.ofNat 10 (2 * L - 2)
    · rw [if_pos e]; rw [e] at hk ⊢; simp at hk; simpa using hk
    · rw [if_neg e]
      have e' : ¬ (BitVec.ofNat 10 (2 * L - 2) == i) = true := by simpa using fun h => e h.symm
      rw [if_neg e'] at hk; omega
  · intro i nd hi hnd hl
    obtain ⟨_, _, h1, h2, _⟩ := hinner hnd (hlt.mp hi) hl
    exact ⟨h1, h2⟩

end Sys2Proof.Machine
end

