-- ==== Sys2Proof/Laws/Count.lean ====
section
/-! SUPPORT. The run of COUNT's body (41_count.md R170 to R174). -/

namespace Sys2Proof.Machine

/-- FREQ after the bytes `x` are counted. -/
def countFreq (x : List Byte) (f : Vector Count 256) : Vector Count 256 :=
  x.foldl (fun f b => setFreq f b (freqAt f b + 1)) f

theorem countFreq_at (x : List Byte) (f : Vector Count 256) (b : Byte) :
    freqAt (countFreq x f) b = freqAt f b + BitVec.ofNat 32 (x.count b) := by
  induction x generalizing f with
  | nil => simp [countFreq]
  | cons a x ih =>
    show freqAt (countFreq x (setFreq f a (freqAt f a + 1))) b = _
    rw [ih, freqAt_setFreq, List.count_cons]
    by_cases h : b = a
    · subst h
      simp only [if_true, beq_self_eq_true, BitVec.ofNat_add]
      show _ + 1#32 + _ = _ + (_ + 1#32)
      rw [BitVec.add_assoc, BitVec.add_comm (1#32)]
    · have h' : ¬ a = b := fun e => h e.symm
      simp [h, h']

theorem count_not_full {w : Fin (Config.cntMax + 1)} {c : Count} {k : Nat} (h : c.toNat + (k + 1) < 2 ^ w.val) :
    c ≠ fullCount w := by
  intro e
  have : c.toNat = 2 ^ w.val - 1 := by rw [e, fullCount_toNat]
  omega

/-- The bytes `x`, counted one by one, none of their entries full. -/
theorem count_run (x : List Byte) : ∀ (s : State) (c : Bool) (tail : Bits), s.Running → s.seq.pos = .countRead c →
    s.src.pos ≤ s.src.bits.length → s.src.bits.drop s.src.pos = bytesBits x ++ tail →
    (∀ b, (freqAt s.freq b).toNat + x.count b < 2 ^ s.cntW.val) →
    ∃ rd sy, rd.now = s.rdBits.now + BitVec.ofNat 32 (8 * x.length)
      ∧ sy.now = s.syms.now + BitVec.ofNat 32 x.length
      ∧ MovesTo x.length s
          { s with
            freq := countFreq x s.freq, rdBits := rd, syms := sy
            src := { s.src with pos := s.src.pos + 8 * x.length }
            seq := { s.seq with pos := .countRead (c || !x.isEmpty) } } := by
  induction x with
  | nil =>
    intro s c tail _ hp _ _ _
    refine ⟨s.rdBits, s.syms, by simp, by simp, ?_⟩
    simp [MovesTo, countFreq, ← hp]
  | cons b x ih =>
    intro s c tail hr hp hle hd hb
    rw [bytesBits_cons, List.append_assoc] at hd
    have hread := readBits_of_drop hle hd (byteBits_length b)
    have hfull : ¬ freqAt (received 8 s).freq b = fullCount (received 8 s).cntW := by
      have h := hb b
      simp only [List.count_cons_self] at h
      exact count_not_full h
    have hm : move s = .next (goto (.countRead true)
        (countSym { received 8 s with freq := setFreq s.freq b (freqAt s.freq b + 1) })) := by
      simp [move, hp, countRead, hread, byte_of_byteBits, hfull]
      rfl
    have hd' := received_drop hd
    have hle' := received_pos_le hle hd
    rw [byteBits_length] at hd' hle'
    obtain ⟨rd, sy, h1, h2, h3⟩ := ih
      (goto (.countRead true) (countSym { received 8 s with freq := setFreq s.freq b (freqAt s.freq b + 1) })) true tail
      ⟨hr.1, hr.2.1, hr.2.2⟩ rfl hle' hd'
      (by
        intro a
        have h := hb a
        show (freqAt (setFreq s.freq b (freqAt s.freq b + 1)) a).toNat + _ < 2 ^ s.cntW.val
        rw [freqAt_setFreq, List.count_cons] at *
        by_cases e : a = b
        · subst e
          simp only [beq_self_eq_true, if_true] at h ⊢
          rw [BitVec.toNat_add]
          have : (1 : Count).toNat = 1 := rfl
          have := Nat.mod_le ((freqAt s.freq a).toNat + (1 : Count).toNat) (2 ^ Config.cntMax)
          omega
        · have e' : ¬ b = a := fun h => e h.symm
          simpa [e, e'] using h)
    refine ⟨rd, sy, ?_, ?_, ?_⟩
    · rw [h1]
      show s.rdBits.now + BitVec.ofNat 32 8 + _ = _
      rw [BitVec.add_assoc, ← BitVec.ofNat_add, List.length_cons]
      congr 2; omega
    · rw [h2]
      show s.syms.now + BitVec.ofNat 32 1 + _ = _
      rw [BitVec.add_assoc, ← BitVec.ofNat_add, List.length_cons]
      congr 2; omega
    · have := hr.moves hm h3
      have e : s.src.pos + 8 * (x.length + 1) = s.src.pos + 8 + 8 * x.length := by omega
      rw [List.length_cons, e]
      simpa [countFreq, received] using this

/-- COUNT's body on a source that holds the bytes `x` (R170, R171, R174). -/
theorem count_body {s : State} {x : List Byte} (hr : s.Running) (hp : s.seq.pos = .enter .count)
    (hx : s.SourceHolds x) (hb : ∀ b, x.count b < 2 ^ s.cntW.val) :
    ∃ rd sy, rd.now = s.rdBits.now + BitVec.ofNat 32 (8 * x.length)
      ∧ sy.now = BitVec.ofNat 32 x.length
      ∧ MovesTo (x.length + 2) s (finishBody
          { s with
            freq := countFreq x (Vector.replicate 256 0), rdBits := rd, syms := sy
            src := { s.src with pos := s.src.pos + 8 * x.length }
            status := { s.status with phase := .count, empty := x.isEmpty } }) := by
  obtain ⟨hle, tail, hd, ht⟩ := hx
  have hm : move s = countEnter s := by simp [move, hp, enterBody]
  obtain ⟨rd, sy, h1, h2, h3⟩ := count_run x
    { clearSyms (start .count (.countRead false) s) with freq := Vector.replicate 256 0 } false tail
    ⟨hr.1, hr.2.1, hr.2.2⟩ rfl hle hd (fun b => by show (freqAt (Vector.replicate 256 0) b).toNat + _ < 2 ^ s.cntW.val; simpa using hb b)
  refine ⟨rd, sy, h1, by simpa [start] using h2, ?_⟩
  rw [show x.length + 2 = (x.length + 1) + 1 from rfl]
  refine hr.moves (hm.trans rfl) (h3.trans (.one ?_ ?_))
  · exact State.Running.halted ⟨hr.1, hr.2.1, hr.2.2⟩
  · have hlen : s.src.bits.length - s.src.pos = 8 * x.length + tail.length := by
      rw [← List.length_drop, hd, List.length_append, bytesBits_length]
    simp only [move, countRead]
    rw [readBits_eod (by show s.src.bits.length < s.src.pos + 8 * x.length + 8; omega)]
    simp only [start, Bool.false_or, Bool.not_not]
    exact congrArg Host.Outcome.next (finishBody_of_goto (.countRead (!x.isEmpty)) rfl)

/-- The table COUNT makes of `x` holds the number of times each byte occurs in `x` (R173). -/
theorem countFreq_toNat {w : Fin (Config.cntMax + 1)} {x : List Byte} (hb : ∀ b, x.count b < 2 ^ w.val) (b : Byte) :
    (freqAt (countFreq x (Vector.replicate 256 0)) b).toNat = x.count b := by
  have h0 : freqAt (Vector.replicate 256 (0 : Count)) b = 0#32 := freqAt_zero b
  rw [countFreq_at, h0, BitVec.zero_add, BitVec.toNat_ofNat]
  exact Nat.mod_eq_of_lt (lt_of_lt_of_le (hb b) (Nat.pow_le_pow_right (by decide) (Nat.le_of_lt_succ w.isLt)))

/-- COUNT's body on a source that holds the bytes `x`, then a byte `b` whose entry is full by then (R172). -/
theorem count_overflow {s : State} {x : List Byte} {b : Byte} {tail : Bits} (hr : s.Running)
    (hp : s.seq.pos = .enter .count) (hle : s.src.pos ≤ s.src.bits.length)
    (hd : s.src.bits.drop s.src.pos = bytesBits (x ++ [b]) ++ tail) (hc : ∀ c, x.count c < 2 ^ s.cntW.val)
    (hb : x.count b = 2 ^ s.cntW.val - 1) :
    ∃ rd sy, rd.now = s.rdBits.now + BitVec.ofNat 32 (8 * (x.length + 1))
      ∧ sy.now = BitVec.ofNat 32 x.length
      ∧ MovesTo (x.length + 2) s (raise .countOvf
          { s with
            freq := countFreq x (Vector.replicate 256 0), rdBits := rd, syms := sy
            src := { s.src with pos := s.src.pos + 8 * (x.length + 1) }
            status := { s.status with phase := .count } }) := by
  have hd1 : s.src.bits.drop s.src.pos = bytesBits x ++ (byteBits b ++ tail) := by rw [hd]; simp [bytesBits]
  obtain ⟨rd, sy, h1, h2, h3⟩ := count_run x
    { clearSyms (start .count (.countRead false) s) with freq := Vector.replicate 256 0 } false (byteBits b ++ tail)
    ⟨hr.1, hr.2.1, hr.2.2⟩ rfl hle hd1
    (fun b => by show (freqAt (Vector.replicate 256 0) b).toNat + _ < 2 ^ s.cntW.val; simpa using hc b)
  have hlen := congrArg List.length hd1
  simp only [List.length_drop, List.length_append, bytesBits_length, byteBits_length] at hlen
  have hd2 : s.src.bits.drop (s.src.pos + 8 * x.length) = byteBits b ++ tail := by
    rw [← List.drop_drop, hd1, ← bytesBits_length, List.drop_left]
  refine ⟨rd.add 8, sy, ?_, by simpa [start] using h2, ?_⟩
  · show rd.now + BitVec.ofNat 32 8 = _
    rw [h1]
    show s.rdBits.now + _ + _ = _
    rw [BitVec.add_assoc, ← BitVec.ofNat_add]
    congr 2
  · rw [show x.length + 2 = (x.length + 1) + 1 from rfl]
    refine hr.moves ((move_enter hp).trans rfl) (h3.trans (.one (State.Running.halted ⟨hr.1, hr.2.1, hr.2.2⟩) ?_))
    simp only [move, countRead]
    rw [readBits_of_drop (by show s.src.pos + 8 * x.length ≤ s.src.bits.length; omega) hd2 (byteBits_length b)]
    have hfull : freqAt (countFreq x (Vector.replicate 256 0)) b = fullCount s.cntW := by
      apply BitVec.eq_of_toNat_eq
      rw [fullCount_toNat, countFreq_toNat hc, hb]
    simp only [byte_of_byteBits, received, start, hfull]
    exact if_pos rfl

end Sys2Proof.Machine
end

