-- ==== Sys2Proof/Laws/Decode.lean ====
section
/-! SUPPORT. The run of DECODE's body on any source (46_decompress.md R251 to R255), and what the decode state machine does
with a payload. -/

namespace Sys2Proof.Machine

/-- How the decode walk ends: at the sentinel, or truncated. -/
def decodeEnd (ok : Bool) (s : State) : State := if ok then finishBody s else raise .truncated s

theorem decodeEnd_goto (ok : Bool) (p : Pos) (s : State) : decodeEnd ok (goto p s) = decodeEnd ok s := by
  cases ok
  · rfl
  · exact finishBody_goto p s

theorem decodeEnd_of_goto {ok : Bool} {s t : State} (p : Pos) (h : s = goto p t) : decodeEnd ok s = decodeEnd ok t := by
  subst h; exact decodeEnd_goto ok p t

/-- The walk from the node CUR to the end of the source's bits. -/
theorem dec_walk (root : Tree) (hin : root.isInner = true) : ∀ (n : Nat) (bits : Bits), bits.length = n →
    ∀ (l r : Tree) (s : State), s.Running → s.seq.pos = .decRead →
    Holds s.node s.root root → Holds s.node s.cur (.inner l r) →
    s.src.pos ≤ s.src.bits.length → s.src.bits.drop s.src.pos = bits →
    ∃ k rd wr sy j, k ≤ 2 * bits.length + 1
      ∧ rd.now = s.rdBits.now + BitVec.ofNat 32 (decodeFrom root (.inner l r) bits).2.1
      ∧ wr.now = s.wrBits.now + BitVec.ofNat 32 (8 * (decodeFrom root (.inner l r) bits).1.length)
      ∧ sy.now = s.syms.now + BitVec.ofNat 32 (decodeFrom root (.inner l r) bits).1.length
      ∧ MovesTo k s (decodeEnd (decodeFrom root (.inner l r) bits).2.2
          { s with
            snk := s.snk.append (bytesBits (decodeFrom root (.inner l r) bits).1)
            src := { s.src with pos := s.src.pos + (decodeFrom root (.inner l r) bits).2.1 }
            rdBits := rd, wrBits := wr, syms := sy, cur := j }) := by
  intro n
  induction n using Nat.strongRecOn with
  | ind n ih =>
  intro bits hlen l r s hr hp hroot hcur hpos hd
  cases bits with
  | nil =>
    have e : readBits 1 s = (none, s) := readBits_eod (by
      have := congrArg List.length hd; simp at this; omega)
    refine ⟨1, s.rdBits, s.wrBits, s.syms, s.cur, by simp, ?_, ?_, ?_, hr.move1 ?_⟩ <;> simp [decodeFrom]
    simp [move, hp, decRead, e, decodeEnd, Sink.append]
  | cons b bits =>
    simp only [List.length_cons] at hlen
    obtain ⟨nd, hn, hl, hL, hR⟩ := hcur
    have e := readBits_of_drop hpos (l := [b]) (tail := bits) (n := 1) (by simpa using hd) rfl
    have hd1 := received_drop (l := [b]) (tail := bits) (by simpa using hd)
    have hpos1 := received_pos_le hpos (l := [b]) (tail := bits) (by simpa using hd)
    have hv : (valOf [b] = 0) = (b = false) := by cases b <;> simp [valOf]
    obtain ⟨child, hc⟩ : ∃ child, child = if b then r else l := ⟨_, rfl⟩
    obtain ⟨c, hcdef⟩ : ∃ c, c = if b = false then nd.left else nd.right := ⟨_, rfl⟩
    have hH : Holds s.node c child := by cases b <;> simp_all
    cases child with
    | leaf v =>
      obtain ⟨cd, hcn, hcl, hcv⟩ := hH
      by_cases hs : v = Config.eos
      · have hm : move s = .next (finishBody { received 1 s with cur := c }) := by
          have hn' : nodeAt (received 1 s).node (received 1 s).cur = some nd := hn
          have hcn' : nodeAt (received 1 s).node c = some cd := hcn
          simp [move, hp, decRead, e, hn', hv, ← hcdef, hcn', hcl, hcv, hs]
        have hf : decodeFrom root (.inner l r) (b :: bits) = ([], 1, true) := by simp [decodeFrom, ← hc, hs]
        rw [hf]
        refine ⟨1, s.rdBits.add 1, s.wrBits, s.syms, c, by simp, by simp, by simp, by simp, (hr.move1 hm).to ?_⟩
        simp [decodeEnd, received, Sink.append]
      · have hm : move s = .next (goto .decWrite { received 1 s with cur := c }) := by
          have hn' : nodeAt (received 1 s).node (received 1 s).cur = some nd := hn
          have hcn' : nodeAt (received 1 s).node c = some cd := hcn
          simp [move, hp, decRead, e, hn', hv, ← hcdef, hcn', hcl, hcv, hs]
        let s2 : State := goto .decRead
          { countSym (writeBits 8 (v.setWidth 8 : Byte).toNat { received 1 s with cur := c }) with cur := s.root }
        have hm2 : move (goto .decWrite { received 1 s with cur := c }) = .next s2 := by
          have hcn' : nodeAt (received 1 s).node c = some cd := hcn
          simp [move, decWrite, hcn', hcv, s2]
          rfl
        obtain ⟨rl, rr, rfl⟩ : ∃ rl rr, root = .inner rl rr := by
          cases root with
          | leaf v => simp [Tree.isInner] at hin
          | inner a b => exact ⟨a, b, rfl⟩
        have hr2 : s2.Running := ⟨hr.1, hr.2.1, hr.2.2⟩
        obtain ⟨k, rd, wr, sy, j, hk, hrd, hwr, hsy, h⟩ := ih bits.length (by omega) bits rfl rl rr s2 hr2 rfl
          hroot hroot hpos1 hd1
        have hf : decodeFrom (.inner rl rr) (.inner l r) (b :: bits)
            = (v.setWidth 8 :: (decodeFrom (.inner rl rr) (.inner rl rr) bits).1,
                (decodeFrom (.inner rl rr) (.inner rl rr) bits).2.1 + 1,
                (decodeFrom (.inner rl rr) (.inner rl rr) bits).2.2) := by
          rw [decodeFrom]; simp [← hc, hs]
        rw [hf]
        generalize decodeFrom (.inner rl rr) (.inner rl rr) bits = D at *
        refine ⟨k + 1 + 1, rd, wr, sy, j, by simp only [List.length_cons]; omega, ?_, ?_, ?_,
          (hr.moves hm (MovesTo.step (State.Running.halted ⟨hr.1, hr.2.1, hr.2.2⟩) hm2 h)).to ?_⟩
        · rw [hrd]; show s.rdBits.now + BitVec.ofNat 32 1 + _ = _; rw [add_ofNat, Nat.add_comm 1]
        · rw [hwr]; show s.wrBits.now + BitVec.ofNat 32 8 + _ = _; rw [add_ofNat, List.length_cons]; congr 2; omega
        · rw [hsy]; show s.syms.now + BitVec.ofNat 32 1 + _ = _; rw [add_ofNat, List.length_cons]; congr 2; omega
        · refine decodeEnd_of_goto .decRead ?_
          simp [s2, received, goto, writeBits, countSym, Sink.write, Sink.append, bytesBits_cons, byteBits,
            Nat.add_assoc, Nat.add_comm 1]
    | inner l' r' =>
      obtain ⟨cd, hcn, hcl, hcL, hcR⟩ := hH
      have hm : move s = .next { received 1 s with cur := c } := by
        have hn' : nodeAt (received 1 s).node (received 1 s).cur = some nd := hn
        have hcn' : nodeAt (received 1 s).node c = some cd := hcn
        simp [move, hp, decRead, e, hn', hv, ← hcdef, hcn', hcl]
      obtain ⟨k, rd, wr, sy, j, hk, hrd, hwr, hsy, h⟩ := ih bits.length (by omega) bits rfl l' r'
        { received 1 s with cur := c } ⟨hr.1, hr.2.1, hr.2.2⟩ hp hroot ⟨cd, hcn, hcl, hcL, hcR⟩ hpos1 hd1
      have hf : decodeFrom root (.inner l r) (b :: bits)
          = ((decodeFrom root (.inner l' r') bits).1, (decodeFrom root (.inner l' r') bits).2.1 + 1,
              (decodeFrom root (.inner l' r') bits).2.2) := by
        rw [decodeFrom]; simp [← hc]
      rw [hf]
      generalize decodeFrom root (.inner l' r') bits = D at *
      refine ⟨k + 1, rd, wr, sy, j, by simp only [List.length_cons]; omega, ?_, hwr, hsy, (hr.moves hm h).to ?_⟩
      · rw [hrd]; show s.rdBits.now + BitVec.ofNat 32 1 + _ = _; rw [add_ofNat, Nat.add_comm 1]
      · simp [received, Nat.add_assoc, Nat.add_comm 1]

/-- DECODE's body on a state that holds a tree, with any bits at the source's cursor (R251 to R255). -/
theorem decode_body {s : State} {t : Tree} (hr : s.Running) (hp : s.seq.pos = .enter .decode) (ht : s.HoldsTree t)
    (hpos : s.src.pos ≤ s.src.bits.length) :
    let d := decodeFrom t t (s.src.bits.drop s.src.pos)
    ∃ k rd wr sy j, k ≤ 2 * s.src.bits.length + 2
      ∧ rd.now = s.rdBits.now + BitVec.ofNat 32 d.2.1
      ∧ wr.now = s.wrBits.now + BitVec.ofNat 32 (8 * d.1.length)
      ∧ sy.now = BitVec.ofNat 32 d.1.length
      ∧ MovesTo k s (decodeEnd d.2.2
          { s with
            snk := s.snk.append (bytesBits d.1)
            src := { s.src with pos := s.src.pos + d.2.1 }
            rdBits := rd, wrBits := wr, syms := sy, cur := j
            status := { s.status with phase := .decode } }) := by
  intro d
  obtain ⟨_, hh, _, hin, _⟩ := ht
  obtain ⟨l, r, rfl⟩ : ∃ l r, t = .inner l r := by
    cases t with
    | leaf v => simp [Tree.isInner] at hin
    | inner a b => exact ⟨a, b, rfl⟩
  obtain ⟨k, rd, wr, sy, j, hk, hrd, hwr, hsy, h⟩ := dec_walk (.inner l r) rfl _ (s.src.bits.drop s.src.pos) rfl l r
    { clearSyms (start .decode .decRead s) with cur := s.root } ⟨hr.1, hr.2.1, hr.2.2⟩ rfl hh hh hpos rfl
  refine ⟨k + 1, rd, wr, sy, j, ?_, hrd, hwr, ?_, (hr.moves (move_enter hp) h).to ?_⟩
  · have : (s.src.bits.drop s.src.pos).length ≤ s.src.bits.length := by simp
    omega
  · rw [hsy]; simp [d, start]
  · exact decodeEnd_of_goto .decRead rfl

/-! ### The decode state machine on a payload -/

/-- Following a leaf's code from an inner node reaches that leaf. -/
theorem decodeFrom_code (root : Tree) (v : Sym) (tail : Bits) : ∀ (t : Tree) (c : Bits), t.isInner = true →
    (v, c) ∈ t.codes →
    decodeFrom root t (c ++ tail) =
      if v = Config.eos then ([], c.length, true)
      else
        let rest := decodeFrom root root tail
        (v.setWidth 8 :: rest.1, rest.2.1 + c.length, rest.2.2) := by
  intro t
  induction t with
  | leaf w => intro c h; simp [Tree.isInner] at h
  | inner l r ihl ihr =>
    intro c _ hc
    simp only [Tree.codes, List.mem_append, List.mem_map, Prod.mk.injEq] at hc
    have key : ∀ (b : Bool) (u : Tree) (c' : Bits), (if b then r else l) = u → (v, c') ∈ u.codes → b :: c' = c →
        (u.isInner = true → decodeFrom root u (c' ++ tail) =
          if v = Config.eos then ([], c'.length, true)
          else
            let rest := decodeFrom root root tail
            (v.setWidth 8 :: rest.1, rest.2.1 + c'.length, rest.2.2)) →
        decodeFrom root (.inner l r) (c ++ tail) =
          if v = Config.eos then ([], c.length, true)
          else
            let rest := decodeFrom root root tail
            (v.setWidth 8 :: rest.1, rest.2.1 + c.length, rest.2.2) := by
      rintro b u c' hu hm rfl hrec
      rw [List.cons_append, decodeFrom]
      cases u with
      | leaf w =>
        simp only [Tree.codes, List.mem_singleton, Prod.mk.injEq] at hm
        obtain ⟨rfl, rfl⟩ := hm
        simp only [hu]
        by_cases hv : v = Config.eos <;> simp [hv]
      | inner a b' =>
        simp only [hu]
        rw [hrec rfl]
        by_cases hv : v = Config.eos <;> simp [hv, Nat.add_assoc]
    rcases hc with ⟨⟨w, c'⟩, hm, rfl, rfl⟩ | ⟨⟨w, c'⟩, hm, rfl, rfl⟩
    · exact key false l c' rfl hm rfl (fun h => ihl c' h hm)
    · exact key true r c' rfl hm rfl (fun h => ihr c' h hm)

theorem Tree.codeOf_mem {t : Tree} {v : Sym} (h : v ∈ t.leaves) : (v, t.codeOf v) ∈ t.codes := by
  rw [← Tree.codes_fst] at h
  obtain ⟨e, he, rfl⟩ := List.mem_map.mp h
  unfold Tree.codeOf
  have hne : (t.codes.filter fun e' => e'.1 == e.1) ≠ [] := by
    intro h0
    have := List.filter_eq_nil_iff.mp h0 e he
    simp at this
  rw [List.getLast?_eq_getLast_of_ne_nil hne]
  obtain ⟨hm, h1⟩ := List.mem_filter.mp (List.getLast_mem hne)
  generalize (t.codes.filter fun e' => e'.1 == e.1).getLast hne = g at hm h1
  obtain ⟨a, c⟩ := g
  obtain rfl : a = e.1 := by simpa using h1
  exact hm

theorem byte_ne_eos (b : Byte) : ¬ b.setWidth 9 = Config.eos := by
  intro h
  have := congrArg BitVec.toNat h
  have hb := b.isLt
  simp [Config.eos, BitVec.toNat_setWidth] at this
  omega

theorem byte_setWidth (b : Byte) : ((b.setWidth 9 : Sym).setWidth 8 : Byte) = b := by
  apply BitVec.eq_of_toNat_eq
  have hb := b.isLt
  simp

/-- The decode state machine on the payload of `x` writes `x` and stops at the sentinel (R253). -/
theorem decodeFrom_payload (t : Tree) (hin : t.isInner = true) (x : List Byte) (tail : Bits)
    (hx : ∀ b ∈ x, b.setWidth 9 ∈ t.leaves) (he : Config.eos ∈ t.leaves) :
    decodeFrom t t (t.payload x ++ tail) = (x, (t.payload x).length, true) := by
  induction x with
  | nil =>
    have := decodeFrom_code t Config.eos tail t (t.codeOf Config.eos) hin (Tree.codeOf_mem he)
    simpa [Tree.payload] using this
  | cons b x ih =>
    have h := decodeFrom_code t (b.setWidth 9) (t.payload x ++ tail) t (t.byteCode b) hin
      (Tree.codeOf_mem (hx b (by simp)))
    have e : t.payload (b :: x) ++ tail = t.byteCode b ++ (t.payload x ++ tail) := by
      simp [Tree.payload, List.append_assoc]
    rw [e, h, if_neg (byte_ne_eos b), ih (fun b' h' => hx b' (by simp [h'])), byte_setWidth]
    simp [Tree.payload, Nat.add_comm]

end Sys2Proof.Machine
end

