-- ==== Sys2Proof/Laws/Encode.lean ====
section
/-! SUPPORT. The run of ENCODE's body (45_compress.md R232 to R235, 30_encoding.md R130). -/

namespace Sys2Proof.Machine

/-- What follows the last transaction of `Emit`: the end of the body after the sentinel, else the next byte (R232). -/
def emitEnd (last : Bool) (s : State) : State := if last then finishBody s else goto .encRead (countSym s)

theorem emitEnd_of_goto {last : Bool} {s t : State} (p : Pos) (h : s = goto p t) : emitEnd last s = emitEnd last t := by
  subst h
  cases last
  · rfl
  · exact finishBody_goto p t

/-- `Emit`: a code is sent in pieces of at most 32 bits (R130, R233). -/
theorem emit_run (last : Bool) : ∀ (n : Nat) (c : Bits) (s : State), c.length = n → c ≠ [] → s.Running →
    s.seq.pos = .encEmit c last →
    ∃ w, w.now = s.wrBits.now + BitVec.ofNat 32 c.length
      ∧ MovesTo ((c.length + 31) / 32) s (emitEnd last { s with snk := s.snk.append c, wrBits := w }) := by
  intro n
  induction n using Nat.strongRecOn with
  | ind n ih =>
  intro c s hlen hne hr hp
  have htake : (c.take (min 32 c.length)).length = min 32 c.length := by simp
  have hw : bitsOf (min 32 c.length) (valOf (c.take (min 32 c.length))) = c.take (min 32 c.length) := by
    have h := bitsOf_valOf (c.take (min 32 c.length))
    rw [htake] at h
    exact h
  have hpos : 0 < c.length := List.length_pos_iff.mpr hne
  cases hd : c.drop (min 32 c.length) with
  | nil =>
    have h32 : c.length ≤ 32 := by
      have := congrArg List.length hd; simp at this; omega
    have ht : c.take (min 32 c.length) = c := List.take_of_length_le (by omega)
    have hm : min 32 c.length = c.length := by omega
    refine ⟨s.wrBits.add c.length, rfl, ?_⟩
    rw [show (c.length + 31) / 32 = 1 by omega]
    refine hr.move1 ?_
    rw [ht] at hw
    rw [hm] at hw ht hd
    have : move s = .next (emitEnd last (writeBits c.length (valOf c) s)) := by
      simp only [move, hp, encEmit]
      simp only [hm, ht, hd]
      cases last <;> rfl
    rw [this]
    simp [writeBits, Sink.write_eq, hw]
  | cons b bs =>
    have h32 : 32 < c.length := by
      have := congrArg List.length hd; simp at this; omega
    have hm : min 32 c.length = 32 := by omega
    rw [hm] at hw hd htake
    have m1 : move s = .next (goto (.encEmit (b :: bs) last) (writeBits 32 (valOf (c.take 32)) s)) := by
      simp only [move, hp, encEmit, hm, hd]
    have hbl : (b :: bs).length = c.length - 32 := by rw [← hd]; simp
    obtain ⟨w, hw', h⟩ := ih (b :: bs).length (by omega) (b :: bs)
      (goto (.encEmit (b :: bs) last) (writeBits 32 (valOf (c.take 32)) s)) rfl (by simp)
      ⟨hr.1, hr.2.1, hr.2.2⟩ rfl
    refine ⟨w, ?_, ?_⟩
    · rw [hw']
      show s.wrBits.now + BitVec.ofNat 32 32 + _ = _
      rw [add_ofNat, hbl]; congr 2; omega
    · rw [show (c.length + 31) / 32 = ((b :: bs).length + 31) / 32 + 1 by rw [hbl]; omega]
      refine (hr.moves m1 h).to (emitEnd_of_goto (.encEmit (b :: bs) last) ?_)
      have hc : c = c.take 32 ++ b :: bs := by rw [← hd, List.take_append_drop]
      simp only [goto_snk, writeBits_snk, Sink.write_eq, hw, Sink.append_append, ← hc]
      rfl

/-- The bytes `x`, every one of which has a code, are encoded one by one. -/
theorem enc_bytes (x : List Byte) : ∀ (s : State) (tail : Bits), s.Running → s.seq.pos = .encRead →
    s.src.pos ≤ s.src.bits.length → s.src.bits.drop s.src.pos = bytesBits x ++ tail →
    (∀ b ∈ x, byteCode s.lut b ≠ []) → (∀ b, (byteCode s.lut b).length ≤ 256) →
    ∃ k rd wr sy, k ≤ 9 * x.length
      ∧ rd.now = s.rdBits.now + BitVec.ofNat 32 (8 * x.length)
      ∧ wr.now = s.wrBits.now + BitVec.ofNat 32 (x.flatMap (byteCode s.lut)).length
      ∧ sy.now = s.syms.now + BitVec.ofNat 32 x.length
      ∧ MovesTo k s
          { s with
            snk := s.snk.append (x.flatMap (byteCode s.lut))
            src := { s.src with pos := s.src.pos + 8 * x.length }
            rdBits := rd, wrBits := wr, syms := sy } := by
  induction x with
  | nil =>
    intro s tail hr hp hpos hd _ _
    exact ⟨0, s.rdBits, s.wrBits, s.syms, by simp, by simp, by simp, by simp, by simp [MovesTo, Sink.append]⟩
  | cons b x ih =>
    intro s tail hr hp hpos hd hc hlen
    rw [bytesBits_cons, List.append_assoc] at hd
    have e := readBits_of_drop hpos hd (byteBits_length b)
    have hcb : byteCode s.lut b ≠ [] := hc b (by simp)
    have m1 : move s = .next (goto (.encEmit (byteCode s.lut b) false) (received 8 s)) := by
      simp only [move, hp, encRead, e, byte_of_byteBits]
      show (match byteCode s.lut b with | [] => _ | c :: cs => _) = _
      cases h : byteCode s.lut b with
      | nil => exact absurd h hcb
      | cons a as => rfl
    obtain ⟨w, hw, h1⟩ := emit_run false _ (byteCode s.lut b)
      (goto (.encEmit (byteCode s.lut b) false) (received 8 s)) rfl hcb ⟨hr.1, hr.2.1, hr.2.2⟩ rfl
    have hd' := received_drop hd
    have hpos' := received_pos_le hpos hd
    rw [byteBits_length] at hd' hpos'
    obtain ⟨k, rd, wr, sy, hk, hrd, hwr, hsy, h2⟩ := ih
      (emitEnd false
        { goto (.encEmit (byteCode s.lut b) false) (received 8 s) with
          snk := s.snk.append (byteCode s.lut b), wrBits := w })
      tail ⟨hr.1, hr.2.1, hr.2.2⟩ rfl hpos' hd' (fun b' h' => hc b' (by simp [h'])) hlen
    have hl := hlen b
    refine ⟨_, rd, wr, sy, ?_, ?_, ?_, ?_, (hr.moves m1 (h1.trans h2)).to ?_⟩
    · simp only [List.length_cons]; omega
    · rw [hrd]; show s.rdBits.now + BitVec.ofNat 32 8 + _ = _
      rw [add_ofNat, List.length_cons]; congr 2; omega
    · rw [hwr]; show w.now + BitVec.ofNat 32 (x.flatMap (byteCode s.lut)).length = _
      rw [hw]; show s.wrBits.now + _ + _ = _
      rw [add_ofNat, List.flatMap_cons, List.length_append]
    · rw [hsy]; show s.syms.now + BitVec.ofNat 32 1 + _ = _
      rw [add_ofNat, List.length_cons]; congr 2; omega
    · have e : s.src.pos + 8 * (b :: x).length = s.src.pos + 8 + 8 * x.length := by
        simp only [List.length_cons]; omega
      rw [e]
      simp [emitEnd, goto, countSym, received, Sink.append, ← hp]

/-- ENCODE's body when every byte and the sentinel have codes (R232). -/
theorem encode_body {s : State} {x : List Byte} (hr : s.Running) (hp : s.seq.pos = .enter .encode)
    (hx : s.SourceHolds x) (hc : ∀ b ∈ x, byteCode s.lut b ≠ []) (he : sentinelCode s.lut ≠ [])
    (hlen : ∀ b, (byteCode s.lut b).length ≤ 256) (helen : (sentinelCode s.lut).length ≤ 256) :
    ∃ k rd wr sy, k ≤ 9 * x.length + 10
      ∧ rd.now = s.rdBits.now + BitVec.ofNat 32 (8 * x.length)
      ∧ wr.now = s.wrBits.now + BitVec.ofNat 32 (x.flatMap (byteCode s.lut) ++ sentinelCode s.lut).length
      ∧ sy.now = BitVec.ofNat 32 x.length
      ∧ MovesTo k s (finishBody
          { s with
            snk := s.snk.append (x.flatMap (byteCode s.lut) ++ sentinelCode s.lut)
            src := { s.src with pos := s.src.pos + 8 * x.length }
            rdBits := rd, wrBits := wr, syms := sy
            status := { s.status with phase := .encode } }) := by
  obtain ⟨hpos, tail, hd, ht⟩ := hx
  obtain ⟨k, rd, wr, sy, hk, hrd, hwr, hsy, h⟩ := enc_bytes x (clearSyms (start .encode .encRead s)) tail
    ⟨hr.1, hr.2.1, hr.2.2⟩ rfl hpos hd hc hlen
  obtain ⟨s1, hs1⟩ : ∃ s1 : State, s1 =
      { clearSyms (start .encode .encRead s) with
        snk := s.snk.append (x.flatMap (byteCode s.lut))
        src := { s.src with pos := s.src.pos + 8 * x.length }
        rdBits := rd, wrBits := wr, syms := sy } := ⟨_, rfl⟩
  have hrun : s1.Running := by subst hs1; exact ⟨hr.1, hr.2.1, hr.2.2⟩
  have hl : s.src.bits.length - s.src.pos = 8 * x.length + tail.length := by
    rw [← List.length_drop, hd, List.length_append, bytesBits_length]
  have e : readBits 8 s1 = (none, s1) := readBits_eod (by
    subst hs1; show s.src.bits.length < s.src.pos + 8 * x.length + 8; omega)
  have hlut : s1.lut = s.lut := by subst hs1; rfl
  have m1 : move s1 = .next (goto (.encEmit (sentinelCode s.lut) true) s1) := by
    have hp1 : s1.seq.pos = .encRead := by subst hs1; rfl
    simp only [move, hp1, encRead, e, hlut]
    cases h : sentinelCode s.lut with
    | nil => exact absurd h he
    | cons a as => rfl
  obtain ⟨w, hw, h2⟩ := emit_run true _ (sentinelCode s.lut) (goto (.encEmit (sentinelCode s.lut) true) s1) rfl he
    ⟨hrun.1, hrun.2.1, hrun.2.2⟩ rfl
  have h' : MovesTo k (clearSyms (start .encode .encRead s)) s1 := by subst hs1; exact h
  refine ⟨_, rd, w, sy, ?_, hrd, ?_, ?_, (hr.moves (move_enter hp) (h'.trans (hrun.moves m1 h2))).to ?_⟩
  · omega
  · rw [hw]; subst hs1
    show wr.now + _ = _
    rw [hwr]
    show s.wrBits.now + BitVec.ofNat 32 (x.flatMap (byteCode s.lut)).length + _ = _
    rw [add_ofNat, List.length_append]
  · rw [hsy]; simp [start]
  · subst hs1
    refine finishBody_of_goto (.encEmit (sentinelCode s.lut) true) ?_
    simp only [goto_snk, Sink.append_append]
    rfl

/-- ENCODE meets, after the bytes `x`, a byte with no code: NO_CODE, its 8 bits consumed, nothing of it written (R234). -/
theorem encode_noCode {s : State} {x : List Byte} {b : Byte} {tail : Bits} (hr : s.Running)
    (hp : s.seq.pos = .enter .encode) (hpos : s.src.pos ≤ s.src.bits.length)
    (hd : s.src.bits.drop s.src.pos = bytesBits (x ++ [b]) ++ tail)
    (hc : ∀ b ∈ x, byteCode s.lut b ≠ []) (hb : byteCode s.lut b = [])
    (hlen : ∀ b, (byteCode s.lut b).length ≤ 256) :
    ∃ k rd wr sy, k ≤ 9 * x.length + 2
      ∧ rd.now = s.rdBits.now + BitVec.ofNat 32 (8 * (x.length + 1))
      ∧ wr.now = s.wrBits.now + BitVec.ofNat 32 (x.flatMap (byteCode s.lut)).length
      ∧ sy.now = BitVec.ofNat 32 x.length
      ∧ MovesTo k s (raise .noCode
          { s with
            snk := s.snk.append (x.flatMap (byteCode s.lut))
            src := { s.src with pos := s.src.pos + 8 * (x.length + 1) }
            rdBits := rd, wrBits := wr, syms := sy
            status := { s.status with phase := .encode } }) := by
  have hd0 : s.src.bits.drop s.src.pos = bytesBits x ++ (byteBits b ++ tail) := by
    rw [hd]; simp [bytesBits, List.append_assoc]
  obtain ⟨k, rd, wr, sy, hk, hrd, hwr, hsy, h⟩ := enc_bytes x (clearSyms (start .encode .encRead s)) _
    ⟨hr.1, hr.2.1, hr.2.2⟩ rfl hpos hd0 hc hlen
  obtain ⟨s1, hs1⟩ : ∃ s1 : State, s1 =
      { clearSyms (start .encode .encRead s) with
        snk := s.snk.append (x.flatMap (byteCode s.lut))
        src := { s.src with pos := s.src.pos + 8 * x.length }
        rdBits := rd, wrBits := wr, syms := sy } := ⟨_, rfl⟩
  have hrun : s1.Running := by subst hs1; exact ⟨hr.1, hr.2.1, hr.2.2⟩
  have hd1 : s1.src.bits.drop s1.src.pos = byteBits b ++ tail := by
    subst hs1
    show s.src.bits.drop (s.src.pos + 8 * x.length) = _
    rw [← List.drop_drop, hd0, ← bytesBits_length, List.drop_left]
  have hpos1 : s1.src.pos ≤ s1.src.bits.length := by
    have : s.src.bits.length - s.src.pos = 8 * x.length + (byteBits b ++ tail).length := by
      rw [← List.length_drop, hd0, List.length_append, bytesBits_length]
    subst hs1; show s.src.pos + 8 * x.length ≤ s.src.bits.length; omega
  have e := readBits_of_drop hpos1 hd1 (byteBits_length b)
  have m1 : move s1 = .next (raise .noCode (received 8 s1)) := by
    have hp1 : s1.seq.pos = .encRead := by subst hs1; rfl
    have hlut : (received 8 s1).lut = s.lut := by subst hs1; rfl
    simp only [move, hp1, encRead, e, byte_of_byteBits, hlut, hb]
  have h' : MovesTo k (clearSyms (start .encode .encRead s)) s1 := by subst hs1; exact h
  refine ⟨_, rd.add 8, wr, sy, ?_, ?_, hwr, ?_,
    (hr.moves (move_enter hp) (h'.trans (hrun.move1 m1))).to ?_⟩
  · omega
  · rw [counter_add_now, hrd]; show s.rdBits.now + BitVec.ofNat 32 (8 * x.length) + _ = _
    rw [add_ofNat, Nat.mul_add]
  · rw [hsy]; simp [start]
  · subst hs1
    simp [raise, received, start, goto, setPhase, clearSyms, Body.phase, Nat.mul_add, Nat.add_assoc]

/-- ENCODE at end-of-data with no code for the sentinel: NO_CODE after the payload (R235). -/
theorem encode_noSentinel {s : State} {x : List Byte} (hr : s.Running) (hp : s.seq.pos = .enter .encode)
    (hx : s.SourceHolds x) (hc : ∀ b ∈ x, byteCode s.lut b ≠ []) (he : sentinelCode s.lut = [])
    (hlen : ∀ b, (byteCode s.lut b).length ≤ 256) :
    ∃ k rd wr sy, k ≤ 9 * x.length + 2
      ∧ rd.now = s.rdBits.now + BitVec.ofNat 32 (8 * x.length)
      ∧ wr.now = s.wrBits.now + BitVec.ofNat 32 (x.flatMap (byteCode s.lut)).length
      ∧ sy.now = BitVec.ofNat 32 x.length
      ∧ MovesTo k s (raise .noCode
          { s with
            snk := s.snk.append (x.flatMap (byteCode s.lut))
            src := { s.src with pos := s.src.pos + 8 * x.length }
            rdBits := rd, wrBits := wr, syms := sy
            status := { s.status with phase := .encode } }) := by
  obtain ⟨hpos, tail, hd, ht⟩ := hx
  obtain ⟨k, rd, wr, sy, hk, hrd, hwr, hsy, h⟩ := enc_bytes x (clearSyms (start .encode .encRead s)) tail
    ⟨hr.1, hr.2.1, hr.2.2⟩ rfl hpos hd hc hlen
  obtain ⟨s1, hs1⟩ : ∃ s1 : State, s1 =
      { clearSyms (start .encode .encRead s) with
        snk := s.snk.append (x.flatMap (byteCode s.lut))
        src := { s.src with pos := s.src.pos + 8 * x.length }
        rdBits := rd, wrBits := wr, syms := sy } := ⟨_, rfl⟩
  have hrun : s1.Running := by subst hs1; exact ⟨hr.1, hr.2.1, hr.2.2⟩
  have hl : s.src.bits.length - s.src.pos = 8 * x.length + tail.length := by
    rw [← List.length_drop, hd, List.length_append, bytesBits_length]
  have e : readBits 8 s1 = (none, s1) := readBits_eod (by
    subst hs1; show s.src.bits.length < s.src.pos + 8 * x.length + 8; omega)
  have hlut : s1.lut = s.lut := by subst hs1; rfl
  have m1 : move s1 = .next (raise .noCode s1) := by
    have hp1 : s1.seq.pos = .encRead := by subst hs1; rfl
    simp only [move, hp1, encRead, e, hlut, he]
  have h' : MovesTo k (clearSyms (start .encode .encRead s)) s1 := by subst hs1; exact h
  refine ⟨_, rd, wr, sy, by omega, hrd, hwr, ?_, (hr.moves (move_enter hp) (h'.trans (hrun.move1 m1))).to ?_⟩
  · rw [hsy]; simp [start]
  · subst hs1
    simp [raise, start, goto, setPhase, clearSyms, Body.phase]

end Sys2Proof.Machine
end

