-- ==== Sys2Proof/Laws/Trees.lean ====
section
/-! SUPPORT. Facts about code trees (10_state.md R44, 43_codetable.md R202, R205) and about a LUT that holds one's codes. -/

namespace Sys2Proof.Machine

/-- A leaf's depth against the number of nodes (R44). -/
theorem Tree.codes_depth (t : Tree) : ∀ e ∈ t.codes, 2 * e.2.length + 1 ≤ t.size := by
  induction t with
  | leaf v => intro e he; simp [Tree.codes] at he; subst he; simp [Tree.size]
  | inner l r ihl ihr =>
    intro e he
    have hl := l.size_pos
    have hr := r.size_pos
    simp only [Tree.codes, List.mem_append, List.mem_map] at he
    rcases he with ⟨e', he', rfl⟩ | ⟨e', he', rfl⟩
    · have := ihl e' he'; simp only [Tree.size, List.length_cons]; omega
    · have := ihr e' he'; simp only [Tree.size, List.length_cons]; omega

theorem Tree.codeOf_eq_nil {t : Tree} {v : Sym} (h : v ∉ t.leaves) : t.codeOf v = [] := by
  have : (t.codes.filter fun e => e.1 == v) = [] := by
    refine List.filter_eq_nil_iff.mpr fun e he h' => h ?_
    rw [← t.codes_fst]
    exact List.mem_map.mpr ⟨e, he, by simpa using h'⟩
  simp [Tree.codeOf, this]

/-- No code is longer than 256 bits (R202). -/
theorem Tree.codeOf_length_le {t : Tree} (h : t.size ≤ 513) (v : Sym) : (t.codeOf v).length ≤ 256 := by
  by_cases hv : v ∈ t.leaves
  · have := t.codes_depth _ (Tree.codeOf_mem hv)
    simp only at this; omega
  · simp [Tree.codeOf_eq_nil hv]

theorem Tree.codes_ne_nil {t : Tree} (h : t.isInner = true) : ∀ e ∈ t.codes, e.2 ≠ [] := by
  cases t with
  | leaf v => simp [Tree.isInner] at h
  | inner l r =>
    intro e he
    simp only [Tree.codes, List.mem_append, List.mem_map] at he
    rcases he with ⟨e', _, rfl⟩ | ⟨e', _, rfl⟩ <;> simp

/-- A symbol with a leaf has a code of at least one bit (R205). -/
theorem Tree.codeOf_ne_nil {t : Tree} (h : t.isInner = true) {v : Sym} (hv : v ∈ t.leaves) : t.codeOf v ≠ [] :=
  Tree.codes_ne_nil h _ (Tree.codeOf_mem hv)

theorem State.HoldsCodes.byteCode {s : State} {t : Tree} (h : s.HoldsCodes t) (b : Byte) :
    Machine.byteCode s.lut b = t.byteCode b := by
  have hle : b.setWidth 9 ≤ Config.eos := by
    rw [BitVec.le_def]; have := b.isLt; simp [Config.eos]; omega
  have := h.2 _ hle
  rw [byteCode_eq_lutAt] at this
  exact Option.some.inj this

theorem State.HoldsCodes.sentinelCode {s : State} {t : Tree} (h : s.HoldsCodes t) :
    Machine.sentinelCode s.lut = t.codeOf Config.eos := by
  have := h.2 Config.eos (by decide)
  rw [sentinelCode_eq_lutAt] at this
  exact Option.some.inj this

theorem byteLeaves_ne_nil {freq : Vector Count 256} {b : Byte} (h : freqAt freq b ≠ 0) : byteLeaves freq ≠ [] :=
  List.ne_nil_of_mem (mem_byteLeaves.mpr ⟨b, h, rfl⟩)

/-- The table COUNT makes of `x` is 0 exactly at the bytes not in `x` (R173). -/
theorem countFreq_ne_zero {x : List Byte} {w : Fin (Config.cntMax + 1)} (hb : ∀ b, x.count b < 2 ^ w.val) (b : Byte) :
    freqAt (countFreq x (Vector.replicate 256 0)) b ≠ 0 ↔ b ∈ x := by
  rw [← List.count_pos_iff, ← countFreq_toNat hb, Nat.pos_iff_ne_zero, ne_eq, ne_eq, ← BitVec.toNat_inj]
  exact Iff.rfl

theorem bitsOf_byte_injective {a b : Byte} (h : byteBits a = byteBits b) : a = b := by
  rw [← byte_of_byteBits a, h, byte_of_byteBits]

end Sys2Proof.Machine
end

