-- ==== Sys2Proof/Laws/Compress.lean ====
section
/-! SUPPORT. The bodies of COMPRESS after the peek, one after another (45_compress.md R236, R239, R240). -/

namespace Sys2Proof.Machine

/-- The state at the end of COMPRESS of the bytes `x`: `t` is the tree, held by `node` (R239, R240). -/
def compressed (x : List Byte) (node : Vector Node 513) (t : Tree) (rd wr sy : Counter) (s : State) : State :=
  { s with
    freq := countFreq x (Vector.replicate 256 0)
    node := node, sel := [], stk := [], path := [], pops := s.pops + t.size
    root := BitVec.ofNat 10 (t.size - 1), leafCount := BitVec.ofNat 9 t.leaves.length
    nodeCount := BitVec.ofNat 10 t.size
    lut := recordCodes t [] (Vector.replicate 257 [])
    src := { s.src with pos := 8 * x.length }
    snk := s.snk.append (t.stream x)
    rdBits := rd, wrBits := wr, syms := sy
    status := { s.status with treeValid := true, lutValid := true, empty := false, phase := .encode } }

/-- COMPRESS after its peek, at its first RESTART, on a source that holds the non-empty bytes `x` from position 0. -/
theorem compress_tail {s : State} {x : List Byte} {tail : Bits} (hr : s.Running)
    (hp : s.seq = Seq.mk (some .compress) (.enter .restart)
      [.count, .build, .genlut, .header, .serialize, .restart, .encode])
    (hsrc : s.src.bits = bytesBits x ++ tail) (ht : tail.length < 8) (hx : x ≠ []) (hc : ∀ b, x.count b < 2 ^ s.cntW.val) :
    let node := builtNodes s.tieOrder s.pops (countFreq x (Vector.replicate 256 0)) s.node
    ∃ p k rd wr sy,
      BuildInv s.tieOrder (countFreq x (Vector.replicate 256 0)) p.2.size node [p]
      ∧ p.1.idx = BitVec.ofNat 10 (p.2.size - 1)
      ∧ Holds node p.1.idx p.2 ∧ Tree.codesFor p.2 x ∧ p.2.size ≤ 513 ∧ p.2.isInner = true
      ∧ (∀ v ∈ p.2.leaves, v ≤ Config.eos)
      ∧ k ≤ 10 * x.length + 3000
      ∧ rd.now = s.rdBits.now + BitVec.ofNat 32 (16 * x.length)
      ∧ wr.now = s.wrBits.now + BitVec.ofNat 32 (p.2.stream x).length
      ∧ sy.now = BitVec.ofNat 32 x.length
      ∧ MovesTo k s (complete (compressed x node p.2 rd wr sy s)) := by
  intro node
  obtain ⟨b0, hb0⟩ := List.exists_mem_of_ne_nil x hx
  have hemp : x.isEmpty = false := by cases x with
    | nil => exact absurd rfl hx
    | cons a x => rfl
  -- (2) RESTART
  have m1 := restart_body hr (by rw [hp])
  rw [finishBody_next (s := restartSource (setPhase .restart s)) (by show s.seq.rest = _; rw [hp])] at m1
  obtain ⟨s1, e1⟩ : ∃ s1 : State, s1 =
    { restartSource (setPhase .restart s) with
      seq := Seq.mk (some .compress) (.enter .count) [.build, .genlut, .header, .serialize, .restart, .encode] } :=
    ⟨_, rfl⟩
  replace m1 : MovesTo 2 s s1 := m1.to (by rw [e1]; simp [hp])
  have hr1 : s1.Running := by rw [e1]; exact ⟨hr.1, hr.2.1, hr.2.2⟩
  -- (3) COUNT
  have hs1 : s1.SourceHolds x := by
    rw [e1]; exact ⟨Nat.zero_le _, tail, by show s.src.bits.drop 0 = _; rw [List.drop_zero, hsrc], ht⟩
  obtain ⟨rd2, sy2, hrd2, hsy2, m2⟩ := count_body hr1 (by rw [e1]) hs1 (by rw [e1]; exact hc)
  rw [finishBody_next (b := .build) (bs := [.genlut, .header, .serialize, .restart, .encode]) (by rw [e1])] at m2
  obtain ⟨s2, e2⟩ : ∃ s2 : State, s2 =
    { s with
      freq := countFreq x (Vector.replicate 256 0), rdBits := rd2, syms := sy2
      src := { s.src with pos := 8 * x.length }
      status := { s.status with phase := .count, empty := false }
      seq := { op := some .compress, pos := .enter .build, rest := [.genlut, .header, .serialize, .restart, .encode] } } :=
    ⟨_, rfl⟩
  replace m2 : MovesTo (x.length + 2) s1 s2 := m2.to (by rw [e2, e1, hemp]; simp [restartSource, Source.restart, setPhase])
  have hr2 : s2.Running := by rw [e2]; exact ⟨hr.1, hr.2.1, hr.2.2⟩
  have hf2 : s2.freq = countFreq x (Vector.replicate 256 0) := by rw [e2]
  -- (4) BUILD
  have hbl : byteLeaves s2.freq ≠ [] := by
    rw [hf2]; exact byteLeaves_ne_nil ((countFreq_ne_zero hc b0).mpr hb0)
  have hL : 2 ≤ (buildLeaves s2.freq).length := by
    rw [buildLeaves_length]; have := List.length_pos_iff.mpr hbl; omega
  have hL' : (buildLeaves s2.freq).length ≤ 257 := by
    have := byteLeaves_length_le s2.freq; rw [buildLeaves_length]; omega
  obtain ⟨p, hinv, hroot, m3⟩ := build_body hr2 (by rw [e2]) hbl
  have hnode : builtNodes s2.tieOrder s2.pops s2.freq s2.node = node := by rw [hf2, e2]
  rw [hnode] at hinv m3
  obtain ⟨hhold, hsize, hin, hperm, hle⟩ := hinv.holdsTree hL
  have hlen : p.2.leaves.length = (buildLeaves s2.freq).length := by rw [hperm.length_eq, leafSyms, List.length_map]
  rw [finishBody_next (b := .genlut) (bs := [.header, .serialize, .restart, .encode]) (by rw [e2]; rfl)] at m3
  obtain ⟨s3, e3⟩ : ∃ s3 : State, s3 =
    { s2 with
      node := node, sel := [], pops := s2.pops + p.2.size
      root := BitVec.ofNat 10 (p.2.size - 1), leafCount := BitVec.ofNat 9 p.2.leaves.length
      nodeCount := BitVec.ofNat 10 p.2.size
      status := { s2.status with treeValid := true, lutValid := false, phase := .build }
      seq := { op := some .compress, pos := .enter .genlut, rest := [.header, .serialize, .restart, .encode] } } :=
    ⟨_, rfl⟩
  replace m3 : MovesTo ((buildLeaves s2.freq).length + 1) s2 s3 := m3.to (by
    rw [e3, hsize, hlen, show 2 * (buildLeaves s2.freq).length - 1 - 1 = 2 * (buildLeaves s2.freq).length - 2 by omega,
      e2]
    rfl)
  have hr3 : s3.Running := by rw [e3]; exact ⟨hr2.1, hr2.2.1, hr2.2.2⟩
  have hroot' : p.1.idx = BitVec.ofNat 10 (p.2.size - 1) := by rw [hroot, hsize]; congr 1
  have ht3 : s3.HoldsTree p.2 := by
    rw [e3]; exact ⟨rfl, by rw [← hroot']; exact hhold, by omega, hin, hle⟩
  -- (5) GENLUT
  have m4 := genlut_body hr3 (by rw [e3]) ht3
  rw [finishBody_next (b := .header) (bs := [.serialize, .restart, .encode]) (by rw [e3])] at m4
  obtain ⟨s4, e4⟩ : ∃ s4 : State, s4 =
    { s3 with
      lut := recordCodes p.2 [] (Vector.replicate 257 []), stk := [], path := []
      status := { s3.status with lutValid := true, phase := .genlut }
      seq := { op := some .compress, pos := .enter .header, rest := [.serialize, .restart, .encode] } } := ⟨_, rfl⟩
  replace m4 : MovesTo (p.2.size + 1) s3 s4 := m4.to (by rw [e4, e3])
  have hr4 : s4.Running := by rw [e4]; exact ⟨hr3.1, hr3.2.1, hr3.2.2⟩
  -- (6) HEADER, SERIALIZE
  have m5 := header_body hr4 (by rw [e4])
  rw [finishBody_next (b := .serialize) (bs := [.restart, .encode]) (by rw [e4]; rfl)] at m5
  obtain ⟨s5, e5⟩ : ∃ s5 : State, s5 =
    { s4 with
      snk := s.snk.append (bitsOf 32 Config.magic.toNat), wrBits := s.wrBits.add 32
      status := { s4.status with phase := .header }
      seq := { op := some .compress, pos := .enter .serialize, rest := [.restart, .encode] } } := ⟨_, rfl⟩
  replace m5 : MovesTo 2 s4 s5 := m5.to (by rw [e5, e4, e3, e2]; rfl)
  have hr5 : s5.Running := by rw [e5]; exact ⟨hr4.1, hr4.2.1, hr.2.2⟩
  have ht5 : s5.HoldsTree p.2 := by rw [e5, e4]; exact ht3
  obtain ⟨k6, w6, hk6, hw6, m6⟩ := serialize_body hr5 (by rw [e5]) ht5
  rw [finishBody_next (b := .restart) (bs := [.encode]) (by rw [e5])] at m6
  obtain ⟨s6, e6⟩ : ∃ s6 : State, s6 =
    { s5 with
      snk := s.snk.append (bitsOf 32 Config.magic.toNat ++ p.2.serial), wrBits := w6, stk := []
      status := { s5.status with phase := .serialize }
      seq := { op := some .compress, pos := .enter .restart, rest := [.encode] } } := ⟨_, rfl⟩
  replace m6 : MovesTo k6 s5 s6 := m6.to (by rw [e6, e5]; simp [Sink.append])
  have hr6 : s6.Running := by rw [e6]; exact ⟨hr5.1, hr5.2.1, hr.2.2⟩
  -- (7) RESTART
  have m7 := restart_body hr6 (by rw [e6])
  rw [finishBody_next (b := .encode) (bs := []) (by rw [e6]; rfl)] at m7
  obtain ⟨s7, e7⟩ : ∃ s7 : State, s7 =
    { restartSource (setPhase .restart s6) with seq := { op := some .compress, pos := .enter .encode, rest := [] } } :=
    ⟨_, rfl⟩
  replace m7 : MovesTo 2 s6 s7 := m7.to (by rw [e7, e6]; rfl)
  have hr7 : s7.Running := by rw [e7]; exact ⟨hr6.1, hr6.2.1, hr6.2.2⟩
  -- (8) ENCODE
  have hlut : s7.HoldsCodes p.2 := by
    rw [e7, e6, e5, e4]
    exact ⟨rfl, fun v hv => recordCodes_codeOf p.2 hle v hv⟩
  have hcodes : Tree.codesFor p.2 x := by
    refine ⟨hperm.nodup_iff.mpr (leafSyms_nodup _), fun v => ?_⟩
    rw [hperm.mem_iff, mem_leafSyms, hf2]
    simp only [countFreq_ne_zero hc]
  have hsz : p.2.size ≤ 513 := by omega
  have hs7 : s7.SourceHolds x := by
    rw [e7, e6, e5, e4, e3, e2]
    exact ⟨Nat.zero_le _, tail, by show s.src.bits.drop 0 = _; rw [List.drop_zero, hsrc], ht⟩
  obtain ⟨k8, rd8, wr8, sy8, hk8, hrd8, hwr8, hsy8, m8⟩ := encode_body hr7 (by rw [e7]) hs7
    (fun b hb => by
      rw [hlut.byteCode]
      exact Tree.codeOf_ne_nil hin ((hcodes.2 _).mpr (.inr ⟨b, hb, rfl⟩)))
    (by rw [hlut.sentinelCode]; exact Tree.codeOf_ne_nil hin ((hcodes.2 _).mpr (.inl rfl)))
    (fun b => by rw [hlut.byteCode]; exact Tree.codeOf_length_le hsz _)
    (by rw [hlut.sentinelCode]; exact Tree.codeOf_length_le hsz _)
  have hpay : x.flatMap (byteCode s7.lut) ++ sentinelCode s7.lut = p.2.payload x := by
    rw [hlut.sentinelCode, show byteCode s7.lut = p.2.byteCode from funext hlut.byteCode]; rfl
  rw [hpay] at hwr8 m8
  rw [finishBody_last (by rw [e7])] at m8
  refine ⟨p, _, rd8, wr8, sy8, by rw [e2] at hinv; rw [hsize, ← hf2]; rw [e2]; exact hinv, hroot', hhold, hcodes, hsz, hin, hle, ?_, ?_, ?_, hsy8,
    (m1.trans (m2.trans (m3.trans (m4.trans (m5.trans (m6.trans (m7.trans m8))))))).to ?_⟩
  · omega
  · rw [hrd8, e7, e6, e5, e4, e3, e2]
    show rd2.now + _ = _
    rw [hrd2, e1]
    show s.rdBits.now + _ + _ = _
    rw [add_ofNat]; congr 2; omega
  · rw [hwr8, e7, e6]
    show w6.now + _ = _
    rw [hw6, e5]
    show s.wrBits.now + BitVec.ofNat 32 32 + _ + _ = _
    rw [add_ofNat, add_ofNat]
    simp only [Tree.stream, List.length_append, bitsOf_length]
  · rw [e7, e6, e5, e4, e3, e2]
    simp [compressed, Sink.append, Tree.stream, restartSource, Source.restart, setPhase, complete]

/-- COMPRESS on a source that holds the bytes `x` from position 0, then a byte `b` whose entry is full by then: COUNT_OVF
(R172, R236). -/
theorem compress_overflow {s : State} {x : List Byte} {b : Byte} {tail : Bits} {op : Option Instr} {bs : List Body}
    (hr : s.Running) (hp : s.seq = Seq.mk op (.enter .peek) (.restart :: .count :: bs))
    (hsrc : s.src.bits = bytesBits (x ++ [b]) ++ tail) (hpk : s.src.pos + 8 ≤ s.src.bits.length)
    (hc : ∀ c, x.count c < 2 ^ s.cntW.val) (hb : x.count b = 2 ^ s.cntW.val - 1) :
    ∃ rd sy, rd.now = s.rdBits.now + BitVec.ofNat 32 (8 + 8 * (x.length + 1))
      ∧ sy.now = BitVec.ofNat 32 x.length
      ∧ MovesTo (x.length + 6) s (raise .countOvf
          { s with
            freq := countFreq x (Vector.replicate 256 0), rdBits := rd, syms := sy
            src := { s.src with pos := 8 * (x.length + 1) }
            status := { s.status with phase := .count } }) := by
  have m1 := peek_body hr (by rw [hp]) hpk
  rw [finishBody_next (s := received 8 (setPhase .peek s)) (b := .restart) (bs := .count :: bs)
    (by show s.seq.rest = _; rw [hp])] at m1
  have m2 := restart_body (s := { received 8 (setPhase .peek s) with
    seq := { s.seq with pos := .enter .restart, rest := .count :: bs } }) ⟨hr.1, hr.2.1, hr.2.2⟩ rfl
  rw [finishBody_next (s := restartSource (setPhase .restart { received 8 (setPhase .peek s) with
    seq := { s.seq with pos := .enter .restart, rest := .count :: bs } })) (b := .count) (bs := bs) rfl] at m2
  obtain ⟨rd, sy, h1, h2, m3⟩ := count_overflow (x := x) (b := b) (tail := tail)
    (s := { restartSource (setPhase .restart (received 8 s)) with
      seq := { s.seq with pos := .enter .count, rest := bs } })
    ⟨hr.1, hr.2.1, hr.2.2⟩ rfl (Nat.zero_le _) hsrc hc hb
  refine ⟨rd, sy, ?_, h2, ?_⟩
  · rw [h1]
    show s.rdBits.now + BitVec.ofNat 32 8 + _ = _
    rw [BitVec.add_assoc, ← BitVec.ofNat_add]
  · rw [show x.length + 6 = 2 + (2 + (x.length + 2)) by omega]
    refine (m1.trans (m2.trans m3)).to ?_
    simp [raise, restartSource, received, setPhase, Source.restart]

end Sys2Proof.Machine
end

