-- ==== Sys2Proof/Laws/TreeField.lean ====
section
/-! SUPPORT. DESERIALIZE on any bits (44_serdes.md R215 to R219): how `treeField` describes its run. -/

namespace Sys2Proof.Machine

/-! ### The field that is read whole -/

/-- Subtrees read whole are trees in their serial form (R116, R212). -/
theorem treeField_ok : ∀ (cap n : Nat) (bits : Bits) (k : Nat), treeField cap n bits = (none, k) →
    ∃ (ts : List Tree) (rest : Bits), ts.length = n ∧ bits = (ts.flatMap Tree.serial) ++ rest
      ∧ k = (ts.flatMap Tree.serial).length ∧ (ts.map Tree.size).sum ≤ cap
      ∧ ∀ t ∈ ts, ∀ v ∈ t.leaves, v ≤ Config.eos := by
  intro cap
  induction cap with
  | zero =>
    intro n bits k h
    cases n with
    | zero => simp only [treeField, Prod.mk.injEq, true_and] at h; subst h; exact ⟨[], bits, by simp⟩
    | succ n => cases bits <;> simp [treeField] at h
  | succ cap ih =>
    intro n bits k h
    cases n with
    | zero => simp only [treeField, Prod.mk.injEq, true_and] at h; subst h; exact ⟨[], bits, by simp⟩
    | succ n =>
      match bits, h with
      | [], h => simp [treeField] at h
      | false :: bits, h =>
        simp only [treeField, Prod.mk.injEq] at h
        obtain ⟨ts, rest, hl, hb, hk, hs, hle⟩ := ih (n + 2) bits _ (Prod.ext h.1 rfl)
        match ts, hl with
        | a :: b :: ts, hl =>
          refine ⟨.inner a b :: ts, rest, by simpa using hl, ?_, ?_, ?_, ?_⟩
          · simp [Tree.serial, hb, List.append_assoc]
          · rw [← h.2]; refine (congrArg (· + 1) hk).trans ?_; simp [Tree.serial]
          · simp only [List.map_cons, List.sum_cons, Tree.size] at hs ⊢; omega
          · intro t ht v hv
            rcases List.mem_cons.mp ht with rfl | ht
            · rcases List.mem_append.mp hv with hv | hv
              · exact hle a (by simp) v hv
              · exact hle b (by simp) v hv
            · exact hle t (by simp [ht]) v hv
      | true :: bits, h =>
        simp only [treeField] at h
        split at h
        · simp at h
        · split at h
          · simp at h
          · rename_i h9 h256
            simp only [Prod.mk.injEq] at h
            obtain ⟨ts, rest, hl, hb, hk, hs, hle⟩ := ih n (bits.drop 9) _ (Prod.ext h.1 rfl)
            have ht9 : (bits.take 9).length = 9 := by simp; omega
            have hv : bitsOf 9 (BitVec.ofNat 9 (valOf (bits.take 9))).toNat = bits.take 9 := by
              have hlt := valOf_lt (bits.take 9)
              rw [ht9] at hlt
              rw [BitVec.toNat_ofNat, Nat.mod_eq_of_lt hlt]
              have := bitsOf_valOf (bits.take 9)
              rwa [ht9] at this
            refine ⟨.leaf (BitVec.ofNat 9 (valOf (bits.take 9))) :: ts, rest, by simp [hl], ?_, ?_, ?_, ?_⟩
            · simp only [List.flatMap_cons, Tree.serial, hv, List.cons_append]
              rw [List.append_assoc, ← hb, List.take_append_drop]
            · rw [← h.2]; refine (congrArg (· + 10) hk).trans ?_; simp [Tree.serial]; omega
            · simp only [List.map_cons, List.sum_cons, Tree.size] at hs ⊢; omega
            · intro t ht v hv'
              rcases List.mem_cons.mp ht with rfl | ht
              · simp only [Tree.leaves, List.mem_singleton] at hv'
                rw [hv', BitVec.le_def, BitVec.toNat_ofNat]
                have := Nat.mod_le (valOf (bits.take 9)) (2 ^ 9)
                simp [Config.eos] at h256 ⊢; omega
              · exact hle t ht v hv'

/-! ### The field that ends in an error -/

/-- How many subtrees are still to be read after the one whose root is numbered `j`, with `stk` waiting. -/
def slotsAfter : Idx → List Idx → Nat
  | _, [] => 0
  | j, i :: stk => (if j = i + 1#10 then 1 else 0) + slotsAfter i stk

/-- Each waiting node is numbered below the one that is being read. -/
def StkBelow : Idx → List Idx → Prop
  | _, [] => True
  | j, i :: stk => i.toNat < j.toNat ∧ StkBelow i stk

theorem StkBelow.mono {j k : Idx} {stk : List Idx} (h : StkBelow j stk) (hk : j.toNat ≤ k.toNat) : StkBelow k stk := by
  cases stk with
  | nil => trivial
  | cons i stk => exact ⟨by have := h.1; omega, h.2⟩

/-- With a subtree still to be read, the returns of `Des()` stop at a node that waits for its right child. -/
theorem desReturn_open (stk : List Idx) : ∀ (j : Idx) (m : Nat) (node : Vector Node 513), slotsAfter j stk = m + 1 →
    StkBelow j stk →
    ∃ node' i stk', desReturn stk j node = (node', i :: stk', none) ∧ slotsAfter i stk' = m
      ∧ i.toNat < j.toNat ∧ StkBelow i stk' := by
  induction stk with
  | nil => intro j m node h; simp [slotsAfter] at h
  | cons i stk ih =>
    intro j m node h hb
    by_cases e : j = i + 1#10
    · refine ⟨node, i, stk, by simp [desReturn, e], ?_, hb.1, hb.2⟩
      simp only [slotsAfter, e, if_true] at h; omega
    · simp only [slotsAfter, e, if_false, Nat.zero_add] at h
      obtain ⟨node', i', stk', hr, hs, hlt, hb'⟩ := ih i m (setNode node i.toNat (innerNode 0 (i + 1#10) j)) h hb.2
      refine ⟨node', i', stk', by simp only [desReturn, e, if_false]; exact hr, hs, ?_, hb'⟩
      have := hb.1; omega

theorem idx_add_one {i : Idx} (h : i.toNat < 1023) : (i + 1#10).toNat = i.toNat + 1 := by
  rw [BitVec.toNat_add]; simp; omega

theorem desFail_node (e : ErrCode) (p : Pos) (n : Idx) (stk : List Idx) (s : State) :
    desFail e { s with nodeCount := n, stk := stk, seq := { s.seq with pos := p } } = desFail e s := rfl

/-- A field that ends in an error ends the command with it, after the bits `treeField` counts (R215 to R217, R219). -/
theorem des_error : ∀ (cap n : Nat) (bits : Bits) (s : State) (nleaf m c : Nat) (e : ErrCode), s.Running →
    s.seq.pos = .desBit nleaf → s.nodeCount.toNat = n → n + cap = 513 → StkBelow s.nodeCount s.stk →
    slotsAfter s.nodeCount s.stk = m → s.src.pos ≤ s.src.bits.length → s.src.bits.drop s.src.pos = bits →
    treeField cap (m + 1) bits = (some e, c) →
    ∃ k rd node, k ≤ 2 * cap + 1 ∧ rd.now = s.rdBits.now + BitVec.ofNat 32 c
      ∧ MovesTo k s (desFail e { s with node := node, rdBits := rd, src := { s.src with pos := s.src.pos + c } }) := by
  intro cap
  induction cap with
  | zero =>
    intro n bits s nleaf m c e hr hp hn hcap hb hm hpos hd h
    cases bits with
    | nil =>
      simp only [treeField, Prod.mk.injEq, Option.some.injEq] at h
      obtain ⟨rfl, rfl⟩ := h
      have hlen : s.src.bits.length - s.src.pos = 0 := by rw [← List.length_drop, hd]; rfl
      refine ⟨1, s.rdBits, s.node, by omega, by simp, hr.move1 ?_⟩
      simp only [move, hp, desBit, readBits_eod (show s.src.bits.length < s.src.pos + 1 by omega)]
      rfl
    | cons b bits =>
      simp only [treeField, Prod.mk.injEq, Option.some.injEq] at h
      obtain ⟨rfl, rfl⟩ := h
      have e1 := readBits_of_drop hpos (show s.src.bits.drop s.src.pos = [b] ++ bits from hd) (n := 1) rfl
      refine ⟨1, s.rdBits.add 1, s.node, by omega, by simp, hr.move1 ?_⟩
      have hfull : (received 1 s).nodeCount = BitVec.ofNat 10 Config.nodeCap := by
        apply BitVec.eq_of_toNat_eq; show s.nodeCount.toNat = _; rw [hn]; simp; omega
      simp only [move, hp, desBit, e1, hfull, if_true]
      rfl
  | succ cap ih =>
    intro n bits s nleaf m c e hr hp hn hcap hb hm hpos hd h
    cases bits with
    | nil =>
      simp only [treeField, Prod.mk.injEq, Option.some.injEq] at h
      obtain ⟨rfl, rfl⟩ := h
      have hlen : s.src.bits.length - s.src.pos = 0 := by rw [← List.length_drop, hd]; rfl
      refine ⟨1, s.rdBits, s.node, by omega, by simp, hr.move1 ?_⟩
      simp only [move, hp, desBit, readBits_eod (show s.src.bits.length < s.src.pos + 1 by omega)]
      rfl
    | cons b bits =>
      have hd1 : s.src.bits.drop s.src.pos = [b] ++ bits := hd
      have e1 := readBits_of_drop hpos hd1 (n := 1) rfl
      have hd2 := received_drop hd1
      have hpos2 := received_pos_le hpos hd1
      simp only [List.length_singleton] at hd2 hpos2
      have hfull : ¬ (received 1 s).nodeCount = BitVec.ofNat 10 Config.nodeCap := by
        intro e'
        have := congrArg BitVec.toNat e'
        rw [show (received 1 s).nodeCount.toNat = n from hn, idx_toNat (by decide)] at this
        have : n = 513 := this
        omega
      have hlt : (received 1 s).nodeCount.toNat < Config.nodeCap := by
        show s.nodeCount.toNat < 513; omega
      have hsucc : (s.nodeCount + 1#10).toNat = n + 1 := by rw [idx_add_one (by omega), hn]
      cases b with
      | false =>
        simp only [treeField, Prod.mk.injEq] at h
        have m1 : move s = .next (goto (.desBit nleaf)
            { received 1 s with
              nodeCount := s.nodeCount + 1#10
              node := setNode s.node s.nodeCount.toNat (innerNode 0 Config.noneIdx Config.noneIdx)
              stk := s.nodeCount :: s.stk }) := by
          have hv : valOf [false] = 0 := rfl
          simp only [move, hp, desBit, e1, hfull, hlt, if_true, if_false, hv, Nat.zero_ne_one]
          rfl
        obtain ⟨k, rd, node, hk, hrd, hmv⟩ := ih (n + 1) bits
          (goto (.desBit nleaf)
            { received 1 s with
              nodeCount := s.nodeCount + 1#10
              node := setNode s.node s.nodeCount.toNat (innerNode 0 Config.noneIdx Config.noneIdx)
              stk := s.nodeCount :: s.stk })
          nleaf (m + 1) (treeField cap (m + 1 + 2 - 1 + 0) bits).2 e ⟨hr.1, hr.2.1, hr.2.2⟩ rfl hsucc (by omega)
          ⟨by show s.nodeCount.toNat < (s.nodeCount + 1#10).toNat; omega, hb⟩
          (by show slotsAfter (s.nodeCount + 1#10) (s.nodeCount :: s.stk) = _; simp [slotsAfter, hm]; omega)
          hpos2 hd2 (Prod.ext h.1 rfl)
        refine ⟨k + 1, rd, node, by omega, ?_, (hr.moves m1 hmv).to ?_⟩
        · rw [hrd, ← h.2]; show s.rdBits.now + BitVec.ofNat 32 1 + _ = _; rw [add_ofNat, Nat.add_comm 1]; rfl
        · rw [← h.2]
          show desFail e _ = desFail e _
          simp [desFail, raise, goto, received, Nat.add_assoc, Nat.add_comm 1]
      | true =>
        have m1 : move s = .next (goto (.desId nleaf s.nodeCount) { received 1 s with nodeCount := s.nodeCount + 1#10 }) := by
          have hv : valOf [true] = 1 := rfl
          simp only [move, hp, desBit, e1, hfull, hlt, if_true, if_false, hv]
          rfl
        obtain ⟨s1, es1⟩ : ∃ s1, s1 = goto (.desId nleaf s.nodeCount)
          { received 1 s with nodeCount := s.nodeCount + 1#10 } := ⟨_, rfl⟩
        rw [← es1] at m1
        have hr1 : s1.Running := by rw [es1]; exact ⟨hr.1, hr.2.1, hr.2.2⟩
        have hp1 : s1.seq.pos = .desId nleaf s.nodeCount := by rw [es1]; rfl
        have hd1' : s1.src.bits.drop s1.src.pos = bits := by rw [es1]; exact hd2
        have hpos1 : s1.src.pos ≤ s1.src.bits.length := by rw [es1]; exact hpos2
        have hlen1 : s1.src.bits.length - s1.src.pos = bits.length := by rw [← List.length_drop, hd1']
        simp only [treeField] at h
        split at h
        · rename_i h9
          simp only [Prod.mk.injEq, Option.some.injEq] at h
          obtain ⟨rfl, rfl⟩ := h
          refine ⟨2, s.rdBits.add 1, s.node, by omega, by simp, hr.moves m1 (hr1.move1 ?_)⟩
          simp only [move, hp1, desId, readBits_eod (show s1.src.bits.length < s1.src.pos + 9 by omega)]
          rw [es1]; rfl
        · rename_i h9
          have hsplit : s1.src.bits.drop s1.src.pos = bits.take 9 ++ bits.drop 9 := by rw [hd1', List.take_append_drop]
          have ht9 : (bits.take 9).length = 9 := by simp; omega
          have e2 := readBits_of_drop hpos1 hsplit ht9
          split at h
          · rename_i h256
            simp only [Prod.mk.injEq, Option.some.injEq] at h
            obtain ⟨rfl, rfl⟩ := h
            refine ⟨2, (s.rdBits.add 1).add 9, s.node, by omega, ?_, hr.moves m1 (hr1.move1 ?_)⟩
            · show s.rdBits.now + BitVec.ofNat 32 1 + BitVec.ofNat 32 9 = _; rw [add_ofNat]
            · simp only [move, hp1, desId, e2, h256, if_true]
              rw [es1]; rfl
          · rename_i h256
            simp only [Prod.mk.injEq] at h
            cases m with
            | zero =>
              cases cap <;> simp [treeField] at h
            | succ m =>
              obtain ⟨node', i, stk', hret, hsl, hlt', hb'⟩ := desReturn_open s.stk s.nodeCount m
                (setNode s.node s.nodeCount.toNat (leafNode (BitVec.ofNat 9 (valOf (bits.take 9))) 1)) hm hb
              have m2 : move s1 = .next (goto (.desBit (nleaf + 1))
                  { received 9 s1 with node := node', stk := i :: stk' }) := by
                simp only [move, hp1, desId, e2, h256, if_false, desLeafDone]
                rw [es1]
                simp only [received, goto, hret]
              have hd3 := received_drop hsplit
              have hpos3 := received_pos_le hpos1 hsplit
              rw [ht9] at hd3 hpos3
              obtain ⟨k, rd, node, hk, hrd, hmv⟩ := ih (n + 1) (bits.drop 9)
                (goto (.desBit (nleaf + 1)) { received 9 s1 with node := node', stk := i :: stk' })
                (nleaf + 1) m (treeField cap (m + 1) (bits.drop 9)).2 e
                ⟨hr1.1, hr1.2.1, hr1.2.2⟩ rfl (by rw [es1]; exact hsucc) (by omega)
                (by
                  rw [es1]
                  refine ⟨?_, hb'⟩
                  show i.toNat < (s.nodeCount + 1#10).toNat; omega)
                (by
                  rw [es1]
                  show slotsAfter (s.nodeCount + 1#10) (i :: stk') = m
                  have hne : ¬ s.nodeCount + 1#10 = i + 1#10 := by
                    intro e'
                    have := congrArg BitVec.toNat e'
                    rw [hsucc, idx_add_one (by omega)] at this; omega
                  simp [slotsAfter, hne, hsl])
                hpos3 hd3 (Prod.ext h.1 rfl)
              refine ⟨k + 2, rd, node, by omega, ?_, (hr.moves m1 (hr1.moves m2 hmv)).to ?_⟩
              · rw [hrd, ← h.2, es1]
                show s.rdBits.now + BitVec.ofNat 32 1 + BitVec.ofNat 32 9 + _ = _
                rw [add_ofNat, add_ofNat]; congr 2; omega
              · rw [← h.2, es1]
                show desFail e _ = desFail e _
                simp [desFail, raise, goto, received, Nat.add_assoc, Nat.add_comm 10]

/-! ### The body -/

/-- DESERIALIZE's body on bits that end in an error (R215 to R219). -/
theorem deserialize_fails {s : State} {e : ErrCode} (hr : s.Running) (hp : s.seq.pos = .enter .deserialize)
    (hpos : s.src.pos ≤ s.src.bits.length) (he : treeFieldEnd (s.src.bits.drop s.src.pos) = some e) :
    ∃ k rd node, k ≤ 1030
      ∧ rd.now = s.rdBits.now + BitVec.ofNat 32 (treeField 513 1 (s.src.bits.drop s.src.pos)).2
      ∧ MovesTo k s (desFail e
          { dropTree (setPhase .deserialize s) with
            node := node, rdBits := rd
            src := { s.src with pos := s.src.pos + (treeField 513 1 (s.src.bits.drop s.src.pos)).2 } }) := by
  obtain ⟨s1, es1⟩ : ∃ s1, s1 = { dropTree (start .deserialize (.desBit 0) s) with stk := [] } := ⟨_, rfl⟩
  have hr1 : s1.Running := by rw [es1]; exact ⟨hr.1, hr.2.1, hr.2.2⟩
  have m0 : move s = .next s1 := by rw [move_enter hp, es1]; rfl
  obtain ⟨bits, hbits⟩ : ∃ bits, bits = s.src.bits.drop s.src.pos := ⟨_, rfl⟩
  rw [← hbits] at he ⊢
  have hd1 : s1.src.bits.drop s1.src.pos = bits := by rw [es1, hbits]; rfl
  have hpos1 : s1.src.pos ≤ s1.src.bits.length := by rw [es1]; exact hpos
  cases hf : (treeField 513 1 bits).1 with
  | some e' =>
    have : e' = e := by
      unfold treeFieldEnd at he
      rw [show (treeField Config.nodeCap 1 bits).1 = some e' from hf] at he
      exact Option.some.inj he
    subst this
    obtain ⟨k, rd, node, hk, hrd, hm⟩ := des_error 513 0 bits s1 0 0 (treeField 513 1 bits).2 e' hr1 (by rw [es1]; rfl)
      (by rw [es1]; rfl) rfl (by rw [es1]; trivial) (by rw [es1]; rfl) hpos1 hd1 (Prod.ext hf rfl)
    refine ⟨k + 1, rd, node, by omega, by rw [hrd, es1]; rfl, (hr.moves m0 hm).to ?_⟩
    rw [es1]; rfl
  | none =>
    have hhead : bits.head? = some true ∧ e = .badTree := by
      unfold treeFieldEnd at he
      rw [show (treeField Config.nodeCap 1 bits).1 = none from hf] at he
      simp only at he
      split at he
      · exact ⟨by assumption, (Option.some.inj he).symm⟩
      · cases he
    obtain ⟨hhead, rfl⟩ := hhead
    match bits, hhead with
    | true :: bits, _ =>
      have hd2 : s1.src.bits.drop s1.src.pos = [true] ++ bits := hd1
      have e1 := readBits_of_drop hpos1 hd2 (n := 1) rfl
      have hd3 := received_drop hd2
      have hpos3 := received_pos_le hpos1 hd2
      simp only [List.length_singleton] at hd3 hpos3
      simp only [treeField] at hf ⊢
      split at hf
      · cases hf
      · rename_i h9
        split at hf
        · cases hf
        · rename_i h256
          have m1 : move s1 = .next (goto (.desId 0 0#10) { received 1 s1 with nodeCount := 1#10 }) := by
            have hv : valOf [true] = 1 := rfl
            have hp1 : s1.seq.pos = .desBit 0 := by rw [es1]; rfl
            have hn : (received 1 s1).nodeCount = 0#10 := by rw [es1]; rfl
            simp only [move, hp1, desBit, e1, hv, hn]
            rfl
          obtain ⟨s2, es2⟩ : ∃ s2, s2 = goto (.desId 0 0#10) { received 1 s1 with nodeCount := 1#10 } := ⟨_, rfl⟩
          rw [← es2] at m1
          have hr2 : s2.Running := by rw [es2]; exact ⟨hr1.1, hr1.2.1, hr1.2.2⟩
          have hsplit : s2.src.bits.drop s2.src.pos = bits.take 9 ++ bits.drop 9 := by
            rw [es2, List.take_append_drop]; exact hd3
          have hpos2 : s2.src.pos ≤ s2.src.bits.length := by rw [es2]; exact hpos3
          have ht9 : (bits.take 9).length = 9 := by simp; omega
          have e2 := readBits_of_drop hpos2 hsplit ht9
          have hn : nodeAt (setNode (received 9 s2).node (BitVec.toNat 0#10)
              (leafNode (BitVec.ofNat 9 (valOf (bits.take 9))) 1)) 0#10
              = some (leafNode (BitVec.ofNat 9 (valOf (bits.take 9))) 1) := nodeAt_setNode_self rfl (by decide)
          have hstk : (received 9 s2).stk = [] := by rw [es2, es1]; rfl
          have m2 : move s2 = .next (desFail .badTree { received 9 s2 with
              node := setNode (received 9 s2).node (BitVec.toNat 0#10)
                (leafNode (BitVec.ofNat 9 (valOf (bits.take 9))) 1) }) := by
            have hp2 : s2.seq.pos = .desId 0 0#10 := by rw [es2]; rfl
            simp only [move, hp2, desId, e2, h256, if_false, desLeafDone, hstk, desReturn, hn]
            rfl
          rw [if_neg h9, if_neg h256]
          refine ⟨3, (s.rdBits.add 1).add 9, setNode (received 9 s2).node (BitVec.toNat 0#10)
            (leafNode (BitVec.ofNat 9 (valOf (bits.take 9))) 1), by omega, ?_, (hr.moves m0 (hr1.moves m1 (hr2.move1 m2))).to ?_⟩
          · show s.rdBits.now + BitVec.ofNat 32 1 + BitVec.ofNat 32 9 = _; rw [add_ofNat]
          · rw [es2, es1]; rfl

end Sys2Proof.Machine
end

