-- ==== Sys2Proof/Laws/Decompress.lean ====
section
/-! SUPPORT. The bodies of DECOMPRESS, one after another (46_decompress.md R256). -/

namespace Sys2Proof.Machine

/-- DECOMPRESS on a source positioned at MAGIC, the serial form of a valid tree `t` and the bits `rest` (R256). -/
theorem decompress_run {s : State} {t : Tree} {rest : Bits} (hr : s.Running)
    (hp : s.seq = Seq.mk (some .decompress) (.enter .checkMagic) [.deserialize, .decode])
    (hpos : s.src.pos ≤ s.src.bits.length)
    (hd : s.src.bits.drop s.src.pos = bitsOf 32 Config.magic.toNat ++ (t.serial ++ rest))
    (hsz : t.size ≤ 513) (hin : t.isInner = true) (hle : ∀ v ∈ t.leaves, v ≤ Config.eos) :
    let d := decodeFrom t t rest
    ∃ k rd wr sy j, k ≤ 2 * s.src.bits.length + 2000
      ∧ rd.now = s.rdBits.now + BitVec.ofNat 32 (32 + t.serial.length + d.2.1)
      ∧ wr.now = s.wrBits.now + BitVec.ofNat 32 (8 * d.1.length)
      ∧ sy.now = BitVec.ofNat 32 d.1.length
      ∧ MovesTo k s (decodeEnd d.2.2
          { s with
            node := placeTree t 0 s.node, stk := [], root := 0#10, cur := j
            nodeCount := BitVec.ofNat 10 t.size, leafCount := BitVec.ofNat 9 t.leaves.length
            src := { s.src with pos := s.src.pos + (32 + t.serial.length + d.2.1) }
            snk := s.snk.append (bytesBits d.1)
            rdBits := rd, wrBits := wr, syms := sy
            status := { s.status with treeValid := true, lutValid := false, phase := .decode }
            seq := Seq.mk (some .decompress) .none [] }) := by
  intro d
  have m1 := checkmagic_body hr (by rw [hp]) hpos hd
  rw [finishBody_next (b := .deserialize) (bs := [.decode]) (by show s.seq.rest = _; rw [hp])] at m1
  obtain ⟨s1, e1⟩ : ∃ s1 : State, s1 =
    { received 32 (setPhase .checkMagic s) with seq := Seq.mk (some .decompress) (.enter .deserialize) [.decode] } :=
    ⟨_, rfl⟩
  replace m1 : MovesTo 2 s s1 := m1.to (by
    rw [e1]
    have : (received 32 (setPhase .checkMagic s)).seq.op = some .decompress := by show s.seq.op = _; rw [hp]
    rw [this])
  have hr1 : s1.Running := by rw [e1]; exact ⟨hr.1, hr.2.1, hr.2.2⟩
  have hd1 : s1.src.bits.drop s1.src.pos = t.serial ++ rest := by
    have := received_drop (s := setPhase .checkMagic s) hd
    rw [bitsOf_length] at this
    rw [e1]; exact this
  have hpos1 : s1.src.pos ≤ s1.src.bits.length := by
    have := received_pos_le (s := setPhase .checkMagic s) hpos hd
    rw [bitsOf_length] at this
    rw [e1]; exact this
  obtain ⟨k2, rd2, hk2, hrd2, m2⟩ := deserialize_body hr1 (by rw [e1]) hsz hin hle hpos1 hd1
  rw [finishBody_next (b := .decode) (bs := []) (by rw [e1])] at m2
  obtain ⟨s2, e2⟩ : ∃ s2 : State, s2 =
    { s1 with
      node := placeTree t 0 s.node, stk := [], root := 0#10
      nodeCount := BitVec.ofNat 10 t.size, leafCount := BitVec.ofNat 9 t.leaves.length
      rdBits := rd2, src := { s1.src with pos := s1.src.pos + t.serial.length }
      status := { s1.status with treeValid := true, lutValid := false, phase := .deserialize }
      seq := Seq.mk (some .decompress) (.enter .decode) [] } := ⟨_, rfl⟩
  replace m2 : MovesTo k2 s1 s2 := m2.to (by rw [e2, e1]; rfl)
  have hr2 : s2.Running := by rw [e2]; exact ⟨hr1.1, hr1.2.1, hr1.2.2⟩
  have ht2 : s2.HoldsTree t := by
    rw [e2]; exact ⟨rfl, (placeTree_holds t 0 s.node (by omega)).holds, hsz, hin, hle⟩
  have hd2 : s2.src.bits.drop s2.src.pos = rest := by
    have := received_drop (s := s1) hd1
    rw [e2]; exact this
  have hpos2 : s2.src.pos ≤ s2.src.bits.length := by
    have := received_pos_le (s := s1) hpos1 hd1
    rw [e2]; exact this
  obtain ⟨k3, rd3, wr3, sy3, j, hk3, hrd3, hwr3, hsy3, m3⟩ := decode_body hr2 (by rw [e2]) ht2 hpos2
  rw [hd2] at hrd3 hwr3 hsy3 m3
  have hb2 : s2.src.bits.length = s.src.bits.length := by rw [e2, e1]; rfl
  refine ⟨_, rd3, wr3, sy3, j, ?_, ?_, ?_, hsy3, (m1.trans (m2.trans m3)).to ?_⟩
  · omega
  · rw [hrd3, e2]; show rd2.now + _ = _
    rw [hrd2, e1]; show s.rdBits.now + BitVec.ofNat 32 32 + _ + _ = _
    rw [add_ofNat, add_ofNat, ← Nat.add_assoc]
  · rw [hwr3, e2, e1]; rfl
  · rw [e2, e1]
    refine decodeEnd_of_goto (.enter .decode) ?_
    simp [goto, received, setPhase, Nat.add_assoc]
    exact ⟨rfl, rfl⟩

/-- DECOMPRESS on a source positioned at MAGIC and a tree field that ends in an error (R256, 44_serdes.md R215 to R219). -/
theorem decompress_bad_tree {s : State} {field : Bits} {e : ErrCode} (hr : s.Running)
    (hp : s.seq = Seq.mk (some .decompress) (.enter .checkMagic) [.deserialize, .decode])
    (hpos : s.src.pos ≤ s.src.bits.length)
    (hd : s.src.bits.drop s.src.pos = bitsOf 32 Config.magic.toNat ++ field) (he : treeFieldEnd field = some e) :
    let used := (treeField 513 1 field).2
    ∃ k rd node, k ≤ 1032 ∧ rd.now = s.rdBits.now + BitVec.ofNat 32 (32 + used)
      ∧ MovesTo k s (raise e
          { s with
            node := node, stk := [], leafCount := 0#9, nodeCount := 0#10, root := 0#10
            src := { s.src with pos := s.src.pos + (32 + used) }, rdBits := rd
            status := { s.status with treeValid := false, lutValid := false, phase := .deserialize } }) := by
  intro used
  have m1 := checkmagic_body hr (by rw [hp]) hpos hd
  rw [finishBody_next (b := .deserialize) (bs := [.decode]) (by show s.seq.rest = _; rw [hp])] at m1
  have hd1 := received_drop (s := setPhase .checkMagic s) hd
  have hpos1 := received_pos_le (s := setPhase .checkMagic s) hpos hd
  rw [bitsOf_length] at hd1 hpos1
  obtain ⟨s1, e1⟩ : ∃ s1 : State, s1 = { received 32 (setPhase .checkMagic s) with
      seq := { s.seq with pos := .enter .deserialize, rest := [.decode] } } := ⟨_, rfl⟩
  replace m1 : MovesTo 2 s s1 := m1.to (by rw [e1]; rfl)
  have hr1 : s1.Running := by rw [e1]; exact ⟨hr.1, hr.2.1, hr.2.2⟩
  have hf : s1.src.bits.drop s1.src.pos = field := by rw [e1]; exact hd1
  obtain ⟨k, rd, node, hk, hrd, m2⟩ := deserialize_fails hr1 (by rw [e1]) (by rw [e1]; exact hpos1) (by rw [hf]; exact he)
  rw [hf] at hrd m2
  refine ⟨2 + k, rd, node, by omega, ?_, (m1.trans m2).to ?_⟩
  · rw [hrd, e1]
    show s.rdBits.now + BitVec.ofNat 32 32 + _ = _
    rw [add_ofNat]
  · rw [e1]
    simp [desFail, raise, received, dropTree, setPhase, used, Nat.add_assoc]

end Sys2Proof.Machine
end

