-- ==== Sys2Proof/Laws/PlacedTree.lean ====
section
/-! SUPPORT. The node memory DESERIALIZE leaves satisfies 10_state.md R43; and `treeField` of a tree's serial form
(44_serdes.md R213, R220). -/

namespace Sys2Proof.Machine

/-! ### A tree's serial form is read whole -/

theorem treeField_serial : ∀ (t : Tree) (cap n : Nat) (rest : Bits), t.size ≤ cap → (∀ v ∈ t.leaves, v ≤ Config.eos) →
    treeField cap (n + 1) (t.serial ++ rest)
      = ((treeField (cap - t.size) n rest).1, (treeField (cap - t.size) n rest).2 + t.serial.length) := by
  intro t
  induction t with
  | leaf v =>
    intro cap n rest hcap hle
    simp only [Tree.size] at hcap ⊢
    obtain ⟨cap, rfl⟩ : ∃ c, cap = c + 1 := ⟨cap - 1, by omega⟩
    have hv : v.toNat ≤ 256 := by
      have := BitVec.le_def.mp (hle v (by simp [Tree.leaves])); simpa [Config.eos] using this
    have ht : (bitsOf 9 v.toNat ++ rest).take 9 = bitsOf 9 v.toNat := List.take_left' (bitsOf_length _ _)
    have hd : (bitsOf 9 v.toNat ++ rest).drop 9 = rest := List.drop_left' (bitsOf_length _ _)
    simp only [Tree.serial, List.cons_append, treeField]
    rw [if_neg (by simp), ht, valOf_bitsOf (by omega), if_neg (by omega), hd]
    simp
  | inner l r ihl ihr =>
    intro cap n rest hcap hle
    simp only [Tree.size] at hcap ⊢
    obtain ⟨cap, rfl⟩ : ∃ c, cap = c + 1 := ⟨cap - 1, by omega⟩
    simp only [Tree.serial, List.cons_append, List.append_assoc, treeField]
    rw [ihl cap (n + 1) _ (by omega) (fun v hv => hle v (by simp [Tree.leaves, hv])),
      ihr (cap - l.size) n _ (by omega) (fun v hv => hle v (by simp [Tree.leaves, hv]))]
    rw [show cap + 1 - (l.size + r.size + 1) = cap - l.size - r.size by omega]
    simp; omega

/-- Bits that DESERIALIZE accepts begin with the serial form of a valid tree (R212, R220). -/
theorem treeFieldEnd_none {bits : Bits} (h : treeFieldEnd bits = none) :
    ∃ (t : Tree) (rest : Bits), bits = t.serial ++ rest ∧ t.size ≤ 513 ∧ t.isInner = true ∧ (∀ v ∈ t.leaves, v ≤ Config.eos)
      ∧ (treeField 513 1 bits).2 = t.serial.length := by
  unfold treeFieldEnd at h
  cases hf : (treeField Config.nodeCap 1 bits).1 with
  | some e => rw [hf] at h; cases h
  | none =>
    rw [hf] at h
    simp only at h
    obtain ⟨ts, rest, hl, hb, hk, hs, hle⟩ := treeField_ok Config.nodeCap 1 bits _ (Prod.ext hf rfl)
    obtain ⟨t, rfl⟩ := List.length_eq_one_iff.mp hl
    simp only [List.flatMap_cons, List.flatMap_nil, List.append_nil] at hb hk
    refine ⟨t, rest, hb, by simpa using hs, ?_, hle t (by simp), hk⟩
    cases t with
    | leaf v => rw [hb] at h; simp [Tree.serial] at h
    | inner l r => rfl

/-! ### R43 -/

/-- The children of a node, none for a leaf. -/
def kidsOf (nd : Option Node) : List Idx :=
  match nd with
  | some nd => if nd.leaf then [] else [nd.left, nd.right]
  | none => []

/-- The children of the nodes numbered from `a` on, `k` of them. -/
def kidsFrom (node : Vector Node 513) (a k : Nat) : List Idx :=
  (List.range' a k).flatMap fun i => kidsOf (nodeAt node (BitVec.ofNat 10 i))

theorem childList_eq (node : Vector Node 513) : ∀ n, n ≤ 513 → childList node n = kidsFrom node 0 n := by
  intro n
  induction n with
  | zero => intro _; simp [childList, kidsFrom]
  | succ n ih =>
    intro h
    have hn : n < node.toList.length := by simpa using h
    have e1 : node.toList.take (n + 1) = node.toList.take n ++ [node.toList[n]] := by
      rw [List.take_add_one, List.getElem?_eq_getElem hn]; rfl
    have e2 : nodeAt node (BitVec.ofNat 10 n) = some node.toList[n] := by
      unfold nodeAt; rw [idx_toNat (by omega), Vector.getElem?_eq_getElem (by omega)]; simp
    have ih' := ih (by omega)
    unfold childList kidsFrom at *
    rw [e1, List.filter_append, List.flatMap_append, ih', List.range'_concat, List.flatMap_append]
    congr 1
    simp only [Nat.zero_add, Nat.one_mul, List.flatMap_cons, List.flatMap_nil, e2, kidsOf]
    generalize node.toList[n] = nd
    cases hl : nd.leaf <;> simp [hl]

theorem kidsFrom_congr {node node' : Vector Node 513} {a k : Nat} (hk : a + k ≤ 513)
    (h : ∀ i : Idx, a ≤ i.toNat → i.toNat < a + k → nodeAt node' i = nodeAt node i) :
    kidsFrom node' a k = kidsFrom node a k := by
  unfold kidsFrom
  refine List.flatMap_congr fun i hi => ?_
  simp only [List.mem_range'_1] at hi
  rw [h _ (by rw [idx_toNat (by omega)]; omega) (by rw [idx_toNat (by omega)]; omega)]

theorem kidsFrom_append (node : Vector Node 513) (a j k : Nat) :
    kidsFrom node a (j + k) = kidsFrom node a j ++ kidsFrom node (a + j) k := by
  unfold kidsFrom
  rw [← List.flatMap_append]
  congr 1
  rw [List.range'_append_1]

/-- In a tree read from a stream every node but the root is the child of exactly one node (R43 item 5). -/
theorem placeTree_kids (t : Tree) : ∀ (n : Nat) (node : Vector Node 513), n + t.size ≤ 513 →
    (kidsFrom (placeTree t n node) n t.size ++ [BitVec.ofNat 10 n]).Perm
      ((List.range' n t.size).map (BitVec.ofNat 10)) := by
  induction t with
  | leaf v =>
    intro n node h
    simp only [Tree.size] at h ⊢
    have : nodeAt (placeTree (.leaf v) n node) (BitVec.ofNat 10 n) = some (leafNode v 1) :=
      nodeAt_setNode_self (idx_toNat (by omega)) (by omega)
    simp [kidsFrom, this, kidsOf, leafNode]
  | inner l r ihl ihr =>
    intro n node h
    simp only [Tree.size] at h ⊢
    have hL := l.size_pos
    have hR := r.size_pos
    obtain ⟨nl, hnl⟩ : ∃ nl, nl = placeTree l (n + 1) (setNode node n (innerNode 0 Config.noneIdx Config.noneIdx)) :=
      ⟨_, rfl⟩
    obtain ⟨nr, hnr⟩ : ∃ nr, nr = placeTree r (n + 1 + l.size) nl := ⟨_, rfl⟩
    obtain ⟨nf, hnf⟩ : ∃ nf, nf = placeTree (.inner l r) n node := ⟨_, rfl⟩
    have hfe : nf = setNode nr n (innerNode 0 (BitVec.ofNat 10 (n + 1)) (BitVec.ofNat 10 (n + 1 + l.size))) := by
      rw [hnf, hnr, hnl]; rfl
    rw [← hnf]
    have hroot : nodeAt nf (BitVec.ofNat 10 n)
        = some (innerNode 0 (BitVec.ofNat 10 (n + 1)) (BitVec.ofNat 10 (n + 1 + l.size))) := by
      rw [hfe]; exact nodeAt_setNode_self (idx_toNat (by omega)) (by omega)
    have hl : kidsFrom nf (n + 1) l.size = kidsFrom nl (n + 1) l.size := by
      refine kidsFrom_congr (by omega) fun i h1 h2 => ?_
      rw [hfe, nodeAt_setNode_ne (by omega), hnr, placeTree_outside _ _ _ _ (by omega)]
    have hr : kidsFrom nf (n + 1 + l.size) r.size = kidsFrom nr (n + 1 + l.size) r.size := by
      refine kidsFrom_congr (by omega) fun i h1 h2 => ?_
      rw [hfe, nodeAt_setNode_ne (by omega)]
    have h0 : kidsFrom nf n 1 = [BitVec.ofNat 10 (n + 1), BitVec.ofNat 10 (n + 1 + l.size)] := by
      simp [kidsFrom, hroot, kidsOf, innerNode]
    have pl := ihl (n + 1) (setNode node n (innerNode 0 Config.noneIdx Config.noneIdx)) (by omega)
    have pr := ihr (n + 1 + l.size) nl (by omega)
    rw [← hnl] at pl
    rw [← hnr] at pr
    rw [show l.size + r.size + 1 = 1 + (l.size + r.size) by omega, kidsFrom_append, h0, kidsFrom_append, hl, hr,
      ← List.range'_append_1, ← List.range'_append_1, List.map_append, List.map_append]
    have key : ([BitVec.ofNat 10 (n + 1), BitVec.ofNat 10 (n + 1 + l.size)] ++
        (kidsFrom nl (n + 1) l.size ++ kidsFrom nr (n + 1 + l.size) r.size) ++ [BitVec.ofNat 10 n]).Perm
        ([BitVec.ofNat 10 n] ++ ((kidsFrom nl (n + 1) l.size ++ [BitVec.ofNat 10 (n + 1)])
          ++ (kidsFrom nr (n + 1 + l.size) r.size ++ [BitVec.ofNat 10 (n + 1 + l.size)]))) := by
      rw [List.perm_iff_count]
      intro a
      simp only [List.count_append, List.count_cons, List.count_nil]
      omega
    refine key.trans ?_
    exact List.Perm.append (by simp) (pl.append pr)

/-- What each node of a tree read from a stream is (R42, R213, R214). -/
theorem placeTree_node (t : Tree) : ∀ (n : Nat) (node : Vector Node 513), n + t.size ≤ 513 →
    ∀ i : Idx, n ≤ i.toNat → i.toNat < n + t.size →
      (∃ v ∈ t.leaves, nodeAt (placeTree t n node) i = some (leafNode v 1))
        ∨ ∃ a b : Idx, nodeAt (placeTree t n node) i = some (innerNode 0 a b) ∧ a = i + 1#10
            ∧ i.toNat < a.toNat ∧ a.toNat < b.toNat ∧ b.toNat < n + t.size := by
  induction t with
  | leaf v =>
    intro n node h i h1 h2
    simp only [Tree.size] at h h2
    exact .inl ⟨v, by simp [Tree.leaves], nodeAt_setNode_self (by omega) (by omega)⟩
  | inner l r ihl ihr =>
    intro n node h i h1 h2
    simp only [Tree.size] at h h2 ⊢
    have hL := l.size_pos
    have hR := r.size_pos
    by_cases e : i.toNat = n
    · refine .inr ⟨BitVec.ofNat 10 (n + 1), BitVec.ofNat 10 (n + 1 + l.size), nodeAt_setNode_self e (by omega), ?_, ?_⟩
      · apply BitVec.eq_of_toNat_eq
        rw [idx_add_one (by omega), idx_toNat (by omega), e]
      · rw [idx_toNat (by omega), idx_toNat (by omega)]; omega
    · rw [placeTree, nodeAt_setNode_ne e]
      by_cases hi : i.toNat < n + 1 + l.size
      · rw [placeTree_outside _ _ _ _ (by omega)]
        rcases ihl (n + 1) (setNode node n (innerNode 0 Config.noneIdx Config.noneIdx)) (by omega) i (by omega) hi with
          ⟨v, hv, hn⟩ | ⟨a, b, hn, ha, h3, h4, h5⟩
        · exact .inl ⟨v, by simp [Tree.leaves, hv], hn⟩
        · exact .inr ⟨a, b, hn, ha, h3, h4, by omega⟩
      · rcases ihr (n + 1 + l.size) (placeTree l (n + 1) (setNode node n (innerNode 0 Config.noneIdx Config.noneIdx)))
            (by omega) i (by omega) (by omega) with ⟨v, hv, hn⟩ | ⟨a, b, hn, ha, h3, h4, h5⟩
        · exact .inl ⟨v, by simp [Tree.leaves, hv], hn⟩
        · exact .inr ⟨a, b, hn, ha, h3, h4, by omega⟩

/-- The tree DESERIALIZE leaves is valid (R43). -/
theorem placeTree_validTree {t : Tree} {node : Vector Node 513} {s : State} (hsz : t.size ≤ 513) (hin : t.isInner = true)
    (hle : ∀ v ∈ t.leaves, v ≤ Config.eos) (hnode : s.node = placeTree t 0 node) (hroot : s.root = 0#10)
    (hn : s.nodeCount = BitVec.ofNat 10 t.size) (hl : s.leafCount = BitVec.ofNat 9 t.leaves.length) : s.ValidTree := by
  have hsl := t.size_leaves
  have hN : s.nodeCount.toNat = t.size := by rw [hn, idx_toNat (by omega)]
  have hL : s.leafCount.toNat = t.leaves.length := by
    rw [hl, BitVec.toNat_ofNat]; exact Nat.mod_eq_of_lt (by omega)
  have h3 : 3 ≤ t.size := by
    cases t with
    | leaf v => simp [Tree.isInner] at hin
    | inner l r => have := l.size_pos; have := r.size_pos; simp only [Tree.size]; omega
  have hlt : ∀ {i : Idx}, i < s.nodeCount ↔ i.toNat < t.size := by intro i; rw [BitVec.lt_def, hN]
  have hnd := placeTree_node t 0 node (by omega)
  refine ⟨⟨by omega, by rw [hN]; exact hsz, by omega⟩, ⟨?_, ?_⟩, ?_, ?_, ?_, fun i => 513 - i.toNat, ?_⟩
  · rw [hlt, hroot]; simp; omega
  · rw [hroot, hnode]
    cases t with
    | leaf v => simp [Tree.isInner] at hin
    | inner l r => exact ⟨_, nodeAt_setNode_self rfl (by decide), rfl⟩
  · intro i nd hi hnd' hleaf
    rw [hnode] at hnd'
    rcases hnd i (by omega) (by have := hlt.mp hi; omega) with ⟨v, hv, h⟩ | ⟨a, b, h, _⟩
    · rw [hnd'] at h; cases h; exact ⟨hle v hv, rfl, rfl⟩
    · rw [hnd'] at h; cases h; cases hleaf
  · intro i nd hi hnd' hleaf
    rw [hnode] at hnd'
    rcases hnd i (by omega) (by have := hlt.mp hi; omega) with ⟨v, hv, h⟩ | ⟨a, b, h, _, h1, h2, h3⟩
    · rw [hnd'] at h; cases h; cases hleaf
    · rw [hnd'] at h; cases h
      refine ⟨rfl, hlt.mpr (by simp only [innerNode]; omega), hlt.mpr (by simp only [innerNode]; omega), ?_⟩
      intro e
      have := congrArg BitVec.toNat e
      simp only [innerNode] at this; omega
  · intro i hi
    have hi' := hlt.mp hi
    have hk := (placeTree_kids t 0 node (by omega)).count_eq i
    have hndp : ((List.range' 0 t.size).map (BitVec.ofNat 10)).Nodup := by
      refine List.Nodup.map_on ?_ List.nodup_range'
      intro x hx y hy e
      simp only [List.mem_range'_1] at hx hy
      have := congrArg BitVec.toNat e
      rw [idx_toNat (by omega), idx_toNat (by omega)] at this; exact this
    have hm : i ∈ (List.range' 0 t.size).map (BitVec.ofNat 10) :=
      List.mem_map.mpr ⟨i.toNat, by simp only [List.mem_range'_1]; omega, by simp⟩
    rw [List.count_eq_one_of_mem hndp hm, List.count_append, List.count_singleton] at hk
    rw [hN, hnode, childList_eq _ _ hsz, hroot]
    by_cases e : i = 0#10
    · rw [if_pos e]; rw [e] at hk ⊢; simp at hk; simpa using hk
    · rw [if_neg e]
      have e' : ¬ (BitVec.ofNat 10 0 == i) = true := by simpa using fun h => e h.symm
      rw [if_neg e'] at hk; omega
  · intro i nd hi hnd' hleaf
    rw [hnode] at hnd'
    rcases hnd i (by omega) (by have := hlt.mp hi; omega) with ⟨v, hv, h⟩ | ⟨a, b, h, _, h1, h2, h3⟩
    · rw [hnd'] at h; cases h; cases hleaf
    · rw [hnd'] at h; cases h
      simp only [innerNode]; omega

end Sys2Proof.Machine
end

