-- ==== Sys2Proof/Laws/Ends.lean ====
section
/-! SUPPORT. COUNT and ENCODE end on any source (40_lifecycle.md R160). -/

namespace Sys2Proof.Machine

/-- A read of a byte moves the cursor on, or meets the end of the data. -/
theorem count_ends_aux : ∀ (n : Nat) (s : State) (counted : Bool), s.src.bits.length - s.src.pos ≤ n → s.Running →
    s.seq.pos = .countRead counted → s.src.pos ≤ s.src.bits.length →
    ∃ k f rd sy p e, 8 * k ≤ n + 16 ∧ p ≤ s.src.bits.length
      ∧ (MovesTo k s (finishBody { s with
            freq := f, rdBits := rd, syms := sy, src := { s.src with pos := p }
            status := { s.status with empty := e } })
        ∨ MovesTo k s (raise .countOvf { s with
            freq := f, rdBits := rd, syms := sy, src := { s.src with pos := p } })) := by
  intro n
  induction n using Nat.strongRecOn with
  | ind n ih =>
  intro s counted hn hr hp hpos
  rcases readBits_cases 8 s with ⟨hlt, e⟩ | ⟨hle, e⟩
  · refine ⟨1, s.freq, s.rdBits, s.syms, s.src.pos, !counted, by omega, hpos, .inl (hr.move1 ?_)⟩
    simp only [move, hp, countRead, e]
  · obtain ⟨b, hb⟩ : ∃ b, b = BitVec.ofNat 8 (valOf ((s.src.bits.drop s.src.pos).take 8)) := ⟨_, rfl⟩
    by_cases hov : freqAt s.freq b = fullCount s.cntW
    · refine ⟨1, s.freq, s.rdBits.add 8, s.syms, s.src.pos + 8, false, by omega, hle, .inr (hr.move1 ?_)⟩
      have hov' : freqAt (received 8 s).freq b = fullCount (received 8 s).cntW := hov
      simp only [move, hp, countRead, e, ← hb, hov', if_true]
      rfl
    · have hov' : ¬ freqAt (received 8 s).freq b = fullCount (received 8 s).cntW := hov
      have m1 : move s = .next (goto (.countRead true) (countSym { received 8 s with
          freq := setFreq s.freq b (freqAt s.freq b + 1) })) := by
        simp only [move, hp, countRead, e, ← hb, hov', if_false]
        rfl
      obtain ⟨k, f, rd, sy, p, e', hk, hp', h⟩ := ih (n - 8) (by omega)
        (goto (.countRead true) (countSym { received 8 s with freq := setFreq s.freq b (freqAt s.freq b + 1) })) true
        (by show s.src.bits.length - (s.src.pos + 8) ≤ _; omega) ⟨hr.1, hr.2.1, hr.2.2⟩ rfl hle
      refine ⟨k + 1, f, rd, sy, p, e', by omega, hp', ?_⟩
      rcases h with h | h
      · exact .inl ((hr.moves m1 h).to (finishBody_of_goto (.countRead true) rfl))
      · exact .inr ((hr.moves m1 h).to rfl)

/-- COUNT's body ends on any source (R160, R170, R172). -/
theorem count_ends {s : State} (hr : s.Running) (hp : s.seq.pos = .enter .count) (hpos : s.src.pos ≤ s.src.bits.length) :
    ∃ k f rd sy p e, k ≤ s.src.bits.length + 3 ∧ p ≤ s.src.bits.length
      ∧ (MovesTo k s (finishBody { s with
            freq := f, rdBits := rd, syms := sy, src := { s.src with pos := p }
            status := { s.status with phase := .count, empty := e } })
        ∨ MovesTo k s (raise .countOvf { s with
            freq := f, rdBits := rd, syms := sy, src := { s.src with pos := p }
            status := { s.status with phase := .count } })) := by
  obtain ⟨k, f, rd, sy, p, e, hk, hp', h⟩ := count_ends_aux _
    { clearSyms (start .count (.countRead false) s) with freq := Vector.replicate 256 0 } false le_rfl
    ⟨hr.1, hr.2.1, hr.2.2⟩ rfl hpos
  have m0 : move s = .next { clearSyms (start .count (.countRead false) s) with freq := Vector.replicate 256 0 } :=
    move_enter hp
  have hl : (clearSyms (start .count (.countRead false) s)).src = s.src := rfl
  refine ⟨k + 1, f, rd, sy, p, e, ?_, hp', ?_⟩
  · simp only [hl] at hk; omega
  · rcases h with h | h
    · exact .inl ((hr.moves m0 h).to (finishBody_of_goto (.countRead false) rfl))
    · exact .inr ((hr.moves m0 h).to rfl)

theorem encode_ends_aux : ∀ (n : Nat) (s : State), s.src.bits.length - s.src.pos ≤ n → s.Running →
    s.seq.pos = .encRead → s.src.pos ≤ s.src.bits.length → (∀ b, (byteCode s.lut b).length ≤ 256) →
    (sentinelCode s.lut).length ≤ 256 →
    ∃ k w rd wr sy p, 8 * k ≤ 9 * n + 80 ∧ p ≤ s.src.bits.length
      ∧ (MovesTo k s (finishBody { s with
            snk := s.snk.append w, rdBits := rd, wrBits := wr, syms := sy, src := { s.src with pos := p } })
        ∨ MovesTo k s (raise .noCode { s with
            snk := s.snk.append w, rdBits := rd, wrBits := wr, syms := sy, src := { s.src with pos := p } })) := by
  intro n
  induction n using Nat.strongRecOn with
  | ind n ih =>
  intro s hn hr hp hpos hlen helen
  rcases readBits_cases 8 s with ⟨hlt, e⟩ | ⟨hle, e⟩
  · cases hc : sentinelCode s.lut with
    | nil =>
      refine ⟨1, [], s.rdBits, s.wrBits, s.syms, s.src.pos, by omega, hpos, .inr (hr.move1 ?_)⟩
      simp only [move, hp, encRead, e, hc]
      simp [Sink.append]
    | cons c cs =>
      have m1 : move s = .next (goto (.encEmit (c :: cs) true) s) := by simp only [move, hp, encRead, e, hc]
      obtain ⟨w, _, h⟩ := emit_run true _ (c :: cs) (goto (.encEmit (c :: cs) true) s) rfl (by simp)
        ⟨hr.1, hr.2.1, hr.2.2⟩ rfl
      rw [hc] at helen
      refine ⟨_, c :: cs, s.rdBits, w, s.syms, s.src.pos, ?_, hpos, .inl ((hr.moves m1 h).to ?_)⟩
      · omega
      · exact finishBody_of_goto (.encEmit (c :: cs) true) rfl
  · obtain ⟨b, hb⟩ : ∃ b, b = BitVec.ofNat 8 (valOf ((s.src.bits.drop s.src.pos).take 8)) := ⟨_, rfl⟩
    cases hc : byteCode s.lut b with
    | nil =>
      refine ⟨1, [], s.rdBits.add 8, s.wrBits, s.syms, s.src.pos + 8, by omega, hle, .inr (hr.move1 ?_)⟩
      have hc' : byteCode (received 8 s).lut b = [] := hc
      simp only [move, hp, encRead, e, ← hb, hc']
      simp [Sink.append, received]
    | cons c cs =>
      have hc' : byteCode (received 8 s).lut b = c :: cs := hc
      have m1 : move s = .next (goto (.encEmit (c :: cs) false) (received 8 s)) := by
        simp only [move, hp, encRead, e, ← hb, hc']
      obtain ⟨w, _, h⟩ := emit_run false _ (c :: cs) (goto (.encEmit (c :: cs) false) (received 8 s)) rfl (by simp)
        ⟨hr.1, hr.2.1, hr.2.2⟩ rfl
      have hlb := hlen b
      rw [hc] at hlb
      obtain ⟨k, w', rd, wr, sy, p, hk, hp', h2⟩ := ih (n - 8) (by omega)
        (emitEnd false
          { goto (.encEmit (c :: cs) false) (received 8 s) with snk := s.snk.append (c :: cs), wrBits := w })
        (by show s.src.bits.length - (s.src.pos + 8) ≤ _; omega) ⟨hr.1, hr.2.1, hr.2.2⟩ rfl hle hlen helen
      refine ⟨((c :: cs).length + 31) / 32 + k + 1, c :: cs ++ w', rd, wr, sy, p, by omega, hp', ?_⟩
      · rcases h2 with h2 | h2
        · refine .inl ((hr.moves m1 (h.trans h2)).to (finishBody_of_goto .encRead ?_))
          simp [emitEnd, goto, countSym, received, Sink.append]
        · refine .inr ((hr.moves m1 (h.trans h2)).to ?_)
          simp [raise, emitEnd, goto, countSym, received, Sink.append]

/-- ENCODE's body ends on any source (R160, R232, R234, R235). -/
theorem encode_ends {s : State} (hr : s.Running) (hp : s.seq.pos = .enter .encode)
    (hpos : s.src.pos ≤ s.src.bits.length) (hlen : ∀ b, (byteCode s.lut b).length ≤ 256)
    (helen : (sentinelCode s.lut).length ≤ 256) :
    ∃ k w rd wr sy p, 8 * k ≤ 9 * s.src.bits.length + 88 ∧ p ≤ s.src.bits.length
      ∧ (MovesTo k s (finishBody { s with
            snk := s.snk.append w, rdBits := rd, wrBits := wr, syms := sy, src := { s.src with pos := p }
            status := { s.status with phase := .encode } })
        ∨ MovesTo k s (raise .noCode { s with
            snk := s.snk.append w, rdBits := rd, wrBits := wr, syms := sy, src := { s.src with pos := p }
            status := { s.status with phase := .encode } })) := by
  obtain ⟨k, w, rd, wr, sy, p, hk, hp', h⟩ := encode_ends_aux _ (clearSyms (start .encode .encRead s)) le_rfl
    ⟨hr.1, hr.2.1, hr.2.2⟩ rfl hpos hlen helen
  have hl : (clearSyms (start .encode .encRead s)).src = s.src := rfl
  refine ⟨k + 1, w, rd, wr, sy, p, ?_, hp', ?_⟩
  · rw [hl] at hk; omega
  · rcases h with h | h
    · exact .inl ((hr.moves (move_enter hp) h).to (finishBody_of_goto .encRead rfl))
    · exact .inr ((hr.moves (move_enter hp) h).to rfl)

end Sys2Proof.Machine
end

