-- ==== Sys2Proof/Laws/Inert.lean ====
section
/-! SUPPORT. No move reads or writes what the host last got, the events to come, the pace, or OVR (20_memory.md R85, 40_lifecycle.md
R151, 60_exceptions.md R280). -/

namespace Sys2Proof.Machine

/-- A state with another response, other events to come, another pace and another OVR. -/
def aside (r : Option Response) (p : List Event) (q : Option Nat) (o : Bool) (s : State) : State :=
  { s with response := r, pending := p, pace := q, status := { s.status with ovr := o } }

/-- The next state of an outcome, changed. -/
def mapNext (f : State → State) : Result → Result
  | .next s => .next (f s)
  | .fault r => .fault r
  | .refused r => .refused r

section
variable (r : Option Response) (p : List Event) (q : Option Nat) (o : Bool)

theorem finishBody_aside (s : State) : finishBody (aside r p q o s) = aside r p q o (finishBody s) := by
  unfold finishBody aside
  cases s.seq.rest <;> rfl

theorem raise_aside (e : ErrCode) (s : State) : raise e (aside r p q o s) = aside r p q o (raise e s) := rfl

theorem readBits_aside (n : Nat) (s : State) :
    readBits n (aside r p q o s) = ((readBits n s).1, aside r p q o (readBits n s).2) := by
  rcases readBits_cases n s with ⟨h, e⟩ | ⟨h, e⟩
  · rw [readBits_eod (s := aside r p q o s) h, e]
  · rcases readBits_cases n (aside r p q o s) with ⟨h', _⟩ | ⟨_, e'⟩
    · exact absurd h' (by show ¬ s.src.bits.length < s.src.pos + n; omega)
    · rw [e', e]; rfl

theorem desLeafDone_aside (nleaf : Nat) (i : Idx) (s : State) :
    desLeafDone nleaf i (aside r p q o s) = mapNext (aside r p q o) (desLeafDone nleaf i s) := by
  unfold desLeafDone
  rw [show (aside r p q o s).stk = s.stk from rfl, show (aside r p q o s).node = s.node from rfl]
  rcases desReturn s.stk i s.node with ⟨node, stk, _ | j⟩
  · rfl
  · simp only
    cases nodeAt node j with
    | none => rfl
    | some nd =>
      simp only
      split
      · rfl
      · exact congrArg Host.Outcome.next
          (finishBody_aside r p q o { s with
            node := node, stk := [], root := j, leafCount := BitVec.ofNat 9 nleaf
            status := { s.status with treeValid := true } })

/-- One move. -/
theorem move_aside (s : State) : move (aside r p q o s) = mapNext (aside r p q o) (move s) := by
  have hf := finishBody_aside r p q o
  have hrd := readBits_aside r p q o
  cases hp : s.seq.pos with
  | none => simp only [move, show (aside r p q o s).seq.pos = s.seq.pos from rfl, hp]; rfl
  | enter b =>
    simp only [move, show (aside r p q o s).seq.pos = s.seq.pos from rfl, hp]
    cases b <;> try rfl
    show buildEnter (aside r p q o s) = mapNext _ (buildEnter s)
    unfold buildEnter
    simp only [show (aside r p q o s).freq = s.freq from rfl]
    cases byteLeaves s.freq <;> rfl
  | peekRead =>
    simp only [move, show (aside r p q o s).seq.pos = s.seq.pos from rfl, hp, peekRead, hrd]
    rcases readBits 8 s with ⟨_ | v, s'⟩
    · rfl
    · exact congrArg Host.Outcome.next (hf s')
  | restartSource =>
    simp only [move, show (aside r p q o s).seq.pos = s.seq.pos from rfl, hp]
    exact congrArg Host.Outcome.next (hf (restartSource s))
  | countRead c =>
    simp only [move, show (aside r p q o s).seq.pos = s.seq.pos from rfl, hp, countRead, hrd]
    rcases readBits 8 s with ⟨_ | v, s'⟩
    · exact congrArg Host.Outcome.next (hf { s' with status := { s'.status with empty := !c } })
    · simp only [show (aside r p q o s').freq = s'.freq from rfl,
        show (aside r p q o s').cntW = s'.cntW from rfl]
      split <;> rfl
  | buildMerge leaves n =>
    simp only [move, show (aside r p q o s).seq.pos = s.seq.pos from rfl, hp, buildMerge,
      show (aside r p q o s).sel = s.sel from rfl, show (aside r p q o s).pops = s.pops from rfl,
      show (aside r p q o s).tieOrder = s.tieOrder from rfl]
    cases popMin s.tieOrder (Config.tieDraw s.pops) s.sel with
    | none => rfl
    | some a =>
      obtain ⟨a, sel1⟩ := a
      simp only
      cases popMin s.tieOrder (Config.tieDraw (s.pops + 1)) sel1 with
      | none =>
        exact congrArg Host.Outcome.next (hf { s with
          pops := s.pops + 1
          sel := [], root := a.idx, leafCount := BitVec.ofNat 9 leaves, nodeCount := BitVec.ofNat 10 n
          status := { s.status with treeValid := true } })
      | some b => simp only; split <;> rfl
  | genlutVisit =>
    simp only [move, show (aside r p q o s).seq.pos = s.seq.pos from rfl, hp, genlutVisit,
      show (aside r p q o s).stk = s.stk from rfl, show (aside r p q o s).node = s.node from rfl]
    cases s.stk with
    | nil => rfl
    | cons i stk =>
      simp only
      cases nodeAt s.node i with
      | none => rfl
      | some nd =>
        simp only
        split
        · split
          · cases stk with
            | nil =>
              exact congrArg Host.Outcome.next (hf { s with
                lut := setLut s.lut nd.value s.path.reverse, stk := [], path := backtrack s.path
                status := { s.status with lutValid := true } })
            | cons j stk => rfl
          · rfl
        · rfl
  | headerWrite =>
    simp only [move, show (aside r p q o s).seq.pos = s.seq.pos from rfl, hp]
    exact congrArg Host.Outcome.next (hf (writeBits 32 Config.magic.toNat s))
  | serVisit =>
    simp only [move, show (aside r p q o s).seq.pos = s.seq.pos from rfl, hp, serVisit,
      show (aside r p q o s).stk = s.stk from rfl, show (aside r p q o s).node = s.node from rfl]
    cases s.stk with
    | nil => rfl
    | cons i stk =>
      simp only
      cases nodeAt s.node i with
      | none => rfl
      | some nd => simp only; split <;> rfl
  | serId v =>
    simp only [move, show (aside r p q o s).seq.pos = s.seq.pos from rfl, hp, serId,
      show (aside r p q o s).stk = s.stk from rfl]
    cases s.stk with
    | nil => exact congrArg Host.Outcome.next (hf (writeBits 9 v.toNat s))
    | cons i stk => rfl
  | encRead =>
    simp only [move, show (aside r p q o s).seq.pos = s.seq.pos from rfl, hp, encRead, hrd]
    rcases readBits 8 s with ⟨_ | v, s'⟩
    · simp only [show (aside r p q o s').lut = s'.lut from rfl]
      cases sentinelCode s'.lut <;> rfl
    · simp only [show (aside r p q o s').lut = s'.lut from rfl]
      cases byteCode s'.lut (BitVec.ofNat 8 v) <;> rfl
  | encEmit rest last =>
    simp only [move, show (aside r p q o s).seq.pos = s.seq.pos from rfl, hp, encEmit]
    cases rest.drop (min 32 rest.length) with
    | cons c cs => rfl
    | nil =>
      cases last
      · rfl
      · exact congrArg Host.Outcome.next
          (hf (writeBits (min 32 rest.length) (valOf (rest.take (min 32 rest.length))) s))
  | magicRead =>
    simp only [move, show (aside r p q o s).seq.pos = s.seq.pos from rfl, hp, magicRead, hrd]
    rcases readBits 32 s with ⟨_ | v, s'⟩
    · rfl
    · simp only
      split
      · exact congrArg Host.Outcome.next (hf s')
      · rfl
  | desBit nleaf =>
    simp only [move, show (aside r p q o s).seq.pos = s.seq.pos from rfl, hp, desBit, hrd]
    rcases readBits 1 s with ⟨_ | v, s'⟩
    · rfl
    · simp only [show (aside r p q o s').nodeCount = s'.nodeCount from rfl]
      split
      · rfl
      · split
        · split <;> rfl
        · rfl
  | desId nleaf i =>
    simp only [move, show (aside r p q o s).seq.pos = s.seq.pos from rfl, hp, desId, hrd]
    rcases readBits 9 s with ⟨_ | v, s'⟩
    · rfl
    · simp only
      split
      · rfl
      · exact desLeafDone_aside r p q o (nleaf + 1) i
          { s' with node := setNode s'.node i.toNat (leafNode (BitVec.ofNat 9 v) 1) }
  | decRead =>
    simp only [move, show (aside r p q o s).seq.pos = s.seq.pos from rfl, hp, decRead, hrd]
    rcases readBits 1 s with ⟨_ | v, s'⟩
    · rfl
    · simp only [show (aside r p q o s').node = s'.node from rfl, show (aside r p q o s').cur = s'.cur from rfl]
      cases nodeAt s'.node s'.cur with
      | none => rfl
      | some nd =>
        simp only
        cases nodeAt s'.node (if v = 0 then nd.left else nd.right) with
        | none => rfl
        | some child =>
          simp only
          split
          · split
            · exact congrArg Host.Outcome.next (hf { s' with cur := if v = 0 then nd.left else nd.right })
            · rfl
          · rfl
  | decWrite =>
    simp only [move, show (aside r p q o s).seq.pos = s.seq.pos from rfl, hp, decWrite,
      show (aside r p q o s).node = s.node from rfl, show (aside r p q o s).cur = s.cur from rfl]
    cases nodeAt s.node s.cur <;> rfl
  | clearRun =>
    simp only [move, show (aside r p q o s).seq.pos = s.seq.pos from rfl, hp]
    exact congrArg Host.Outcome.next (hf { dropTree s with freq := Vector.replicate 256 0 })

/-- A run of moves. -/
theorem drive_aside (n : Nat) : ∀ s : State, drive n (aside r p q o s) = mapNext (aside r p q o) (drive n s) := by
  induction n with
  | zero => intro s; rfl
  | succ n ih =>
    intro s
    simp only [drive, show (aside r p q o s).halted = s.halted from rfl, move_aside]
    cases s.halted
    · simp only [Bool.false_eq_true, if_false]
      cases move s with
      | next s' => exact ih s'
      | fault f => rfl
      | refused f => rfl
    · rfl

end

end Sys2Proof.Machine
end

