-- ==== Sys2Proof/Laws/Moves.lean ====
section
/-! SUPPORT. Everything one move can do: what no move changes, how a command goes on or ends, and which body changes which state.
Runs of moves and commands inherit it. -/

namespace Sys2Proof.Machine

/-- What no move changes: the instance's CNT_W and TIE_ORDER (10_state.md R22, R48), the host's and the agents' own state
(10_state.md R55), OVR and LASTOP; the sink only grows. -/
def Kept (s t : State) : Prop :=
  (t.irqEn = s.irqEn ∧ t.freqIdx = s.freqIdx ∧ t.lutIdx = s.lutIdx ∧ t.nodeIdx = s.nodeIdx ∧ t.rstN = s.rstN
      ∧ t.cntW = s.cntW ∧ t.tieOrder = s.tieOrder)
    ∧ (t.response = s.response ∧ t.pending = s.pending ∧ t.pace = s.pace ∧ t.draws = s.draws)
    ∧ (t.src.bits = s.src.bits ∧ t.src.ready = s.src.ready ∧ t.snk.ready = s.snk.ready)
    ∧ (∃ bits, t.snk.bits = s.snk.bits ++ bits)
    ∧ t.status.lastOp = s.status.lastOp ∧ t.status.ovr = s.status.ovr

/-- The errors a body's procedure can raise (R272, without the preconditions' errors). -/
def bodyErrors : Body → List ErrCode
  | .count => [.countOvf]
  | .build => [.nosym]
  | .encode => [.noCode]
  | .checkMagic => [.format]
  | .deserialize => [.truncated, .badTree]
  | .decode => [.truncated]
  | .peek | .restart | .genlut | .header | .serialize | .clear => []

/-- The command goes on: what acceptance set stays, and the bodies to do are among those there were. -/
def GoesOn (s t : State) : Prop :=
  t.status.busy = s.status.busy ∧ t.status.done = s.status.done ∧ t.status.error = s.status.error
    ∧ t.status.errCode = s.status.errCode ∧ t.pend = s.pend ∧ t.seq.op = s.seq.op
    ∧ ∀ b ∈ t.seq.todo, b ∈ s.seq.todo

/-- The command ends successfully (R155). -/
def EndsDone (s t : State) : Prop :=
  t.status.busy = false ∧ t.status.done = true ∧ t.status.error = s.status.error ∧ t.status.errCode = s.status.errCode
    ∧ t.status.phase = .idle ∧ t.pend = true ∧ t.seq = Seq.idle

/-- The command ends with an error of its current body (R156, R272). -/
def EndsInError (s t : State) : Prop :=
  t.status.busy = false ∧ t.status.done = s.status.done ∧ t.status.error = true ∧ t.pend = true ∧ t.seq = Seq.idle
    ∧ ∃ b, s.seq.pos.body = some b ∧ t.status.errCode ∈ bodyErrors b

/-- What the body `b` leaves unchanged (R55). -/
def Only (b : Body) (s t : State) : Prop :=
    (b ∉ [.count, .clear] → t.freq = s.freq)
    ∧ (b ∉ [.build, .deserialize] → t.node = s.node)
    ∧ (b ∉ [.build, .deserialize, .clear] →
        t.leafCount = s.leafCount ∧ t.nodeCount = s.nodeCount ∧ t.root = s.root ∧ t.status.treeValid = s.status.treeValid)
    ∧ (b ≠ .genlut → t.lut = s.lut)
    ∧ (b ∉ [.build, .genlut, .deserialize, .clear] → t.status.lutValid = s.status.lutValid)
    ∧ (b ∉ [.peek, .count] → t.status.empty = s.status.empty)
    ∧ (b ≠ .build → t.sel = s.sel ∧ t.pops = s.pops)
    ∧ (b ≠ .genlut → t.path = s.path)
    ∧ (b ∉ [.genlut, .serialize, .deserialize] → t.stk = s.stk)
    ∧ (b ≠ .decode → t.cur = s.cur)
    ∧ (b ∉ [.peek, .restart, .count, .encode, .checkMagic, .deserialize, .decode] → t.src = s.src)
    ∧ (b ∉ [.peek, .count, .encode, .checkMagic, .deserialize, .decode] → t.rdBits = s.rdBits)
    ∧ (b ∉ [.header, .serialize, .encode, .decode] → t.snk = s.snk ∧ t.wrBits = s.wrBits)
    ∧ (b ∉ [.count, .encode, .decode] → t.syms = s.syms)

/-- The current body changes nothing but its own. -/
def OnlyBodies (s t : State) : Prop := ∀ b, s.seq.pos.body = some b → Only b s t

theorem onlyBodies {s t : State} {b : Body} (hb : s.seq.pos.body = some b) (h : Only b s t) : OnlyBodies s t := by
  intro c hc
  rw [hb] at hc
  cases hc
  exact h

/-- What one move does. -/
def Moved (s t : State) : Prop := Kept s t ∧ (GoesOn s t ∨ EndsDone s t ∨ EndsInError s t) ∧ OnlyBodies s t

/-- A state `u` between `s` and the state after a move: nothing of the command's fate is decided. -/
def Inside (s u : State) : Prop :=
  Kept s u ∧ OnlyBodies s u ∧ u.status.busy = s.status.busy ∧ u.status.done = s.status.done ∧ u.status.error = s.status.error
    ∧ u.status.errCode = s.status.errCode ∧ u.pend = s.pend ∧ u.seq.op = s.seq.op ∧ u.seq.rest = s.seq.rest

theorem Inside.raise {s u : State} {e : ErrCode} {b : Body} (h : Inside s u) (hb : s.seq.pos.body = some b)
    (he : e ∈ bodyErrors b) : Moved s (raise e u) := by
  obtain ⟨hk, ho, h1, h2, h3, h4, h5, h6, h7⟩ := h
  exact ⟨hk, .inr (.inr ⟨rfl, h2, rfl, rfl, rfl, b, hb, he⟩), ho⟩

theorem Inside.complete {s u : State} (h : Inside s u) : Moved s (complete u) := by
  obtain ⟨hk, ho, h1, h2, h3, h4, h5, h6, h7⟩ := h
  exact ⟨hk, .inr (.inl ⟨rfl, rfl, h3, h4, rfl, rfl, rfl⟩), ho⟩

theorem Inside.finish {s u : State} (h : Inside s u) : Moved s (finishBody u) := by
  cases hr : u.seq.rest with
  | nil =>
    have : finishBody u = Machine.complete u := by simp [finishBody, hr]
    rw [this]; exact h.complete
  | cons b bs =>
    obtain ⟨hk, ho, h1, h2, h3, h4, h5, h6, h7⟩ := h
    have : finishBody u = { u with seq := { u.seq with pos := .enter b, rest := bs } } := by simp [finishBody, hr]
    rw [this]
    refine ⟨hk, .inl ⟨h1, h2, h3, h4, h5, h6, fun c hc => ?_⟩, ho⟩
    have : c = b ∨ c ∈ bs := by simpa [Seq.todo, Pos.body] using hc
    have : c ∈ s.seq.rest := by rw [← h7, hr]; simpa using this
    simp [Seq.todo, this]

theorem Inside.on {s u : State} (h : Inside s u) (hb : ∀ b ∈ u.seq.pos.body, s.seq.pos.body = some b) : Moved s u := by
  obtain ⟨hk, ho, h1, h2, h3, h4, h5, h6, h7⟩ := h
  refine ⟨hk, .inl ⟨h1, h2, h3, h4, h5, h6, fun c hc => ?_⟩, ho⟩
  rcases List.mem_append.1 hc with hc | hc
  · exact List.mem_append_left _ (by simpa using hb c (by simpa using hc))
  · exact List.mem_append_right _ (h7 ▸ hc)

/-- The parts of a state that nothing inside a move changes. -/
def fixedPart (s : State) :=
  ((s.irqEn, s.freqIdx, s.lutIdx, s.nodeIdx, s.rstN, s.cntW, s.tieOrder), (s.response, s.pending, s.pace, s.draws),
    (s.src.bits, s.src.ready, s.snk.ready), (s.status.lastOp, s.status.ovr),
    (s.status.busy, s.status.done, s.status.error, s.status.errCode, s.pend, s.seq.op, s.seq.rest))

theorem Inside.of {s u : State} {b : Body} (bits : Bits) (hb : s.seq.pos.body = some b) (h : fixedPart u = fixedPart s)
    (hs : u.snk.bits = s.snk.bits ++ bits) (ho : Only b s u) : Inside s u := by
  simp only [fixedPart, Prod.mk.injEq] at h
  obtain ⟨h1, h2, h3, ⟨h4, h5⟩, h6, h7, h8, h9, h10, h11, h12⟩ := h
  exact ⟨⟨h1, h2, h3, ⟨bits, hs⟩, h4, h5⟩, onlyBodies hb ho, h6, h7, h8, h9, h10, h11, h12⟩

/-- A body starts. -/
theorem enterBody_moved {b : Body} {s t : State} (hp : s.seq.pos = .enter b) (h : enterBody b s = .next t) : Moved s t := by
  have hb : s.seq.pos.body = some b := by simp [hp, Pos.body]
  cases b with
  | build =>
    have key : ∀ u : State, fixedPart u = fixedPart s → u.snk = s.snk → Only .build s u → Inside s u := fun u h1 h2 h3 =>
      .of [] hb h1 (by rw [h2, List.append_nil]) h3
    simp only [enterBody, buildEnter] at h
    split at h
    · cases h
      refine (key { dropTree (start .build .none s) with sel := [] } rfl rfl ?_).raise hb (by simp [bodyErrors])
      simp [Only, dropTree, start, goto, setPhase]
    · cases h
      refine Inside.on (key _ rfl rfl ?_) (fun c hc => ?_)
      · simp [Only, dropTree, start, goto, setPhase]
      · rw [hb]; simpa [goto, Pos.body] using hc
  | peek | restart | count | genlut | header | serialize | encode | checkMagic | deserialize | decode | clear =>
    cases h
    refine Inside.on (.of [] hb rfl (List.append_nil _).symm ?_) (fun c hc => ?_)
    · simp [Only, dropTree, start, goto, setPhase, clearSyms]
    · rw [hb]; simpa [start, goto, Pos.body] using hc

theorem Inside.read {s : State} {b : Body} (n : Nat) (hb : s.seq.pos.body = some b)
    (h : b ∈ [.peek, .count, .encode, .checkMagic, .deserialize, .decode]) : Inside s (readBits n s).2 := by
  have key : ∀ r c, r.bits = s.src.bits → r.ready = s.src.ready → Inside s { s with src := r, rdBits := c } := by
    intro r c h1 h2
    refine .of [] hb ?_ (List.append_nil _).symm ?_
    · simp only [fixedPart, h1, h2]
    · simp only [List.mem_cons, List.not_mem_nil, or_false] at h
      rcases h with rfl | rfl | rfl | rfl | rfl | rfl <;> simp [Only]
  rcases readBits_cases n s with ⟨_, e⟩ | ⟨_, e⟩ <;> rw [e]
  · exact key s.src s.rdBits rfl rfl
  · exact key _ _ rfl rfl

theorem Only.trans {b : Body} {s u v : State} (h : Only b s u) (g : Only b u v) : Only b s v := by
  simp only [Only] at h g ⊢
  obtain ⟨h1, h2, h3, h4, h5, h6, h7, h8, h9, h10, h11, h12, h13, h14⟩ := h
  obtain ⟨g1, g2, g3, g4, g5, g6, g7, g8, g9, g10, g11, g12, g13, g14⟩ := g
  refine ⟨fun x => (g1 x).trans (h1 x), fun x => (g2 x).trans (h2 x), fun x => ?_, fun x => (g4 x).trans (h4 x),
    fun x => (g5 x).trans (h5 x), fun x => (g6 x).trans (h6 x), fun x => ⟨(g7 x).1.trans (h7 x).1, (g7 x).2.trans (h7 x).2⟩,
    fun x => (g8 x).trans (h8 x), fun x => (g9 x).trans (h9 x), fun x => (g10 x).trans (h10 x),
    fun x => (g11 x).trans (h11 x), fun x => (g12 x).trans (h12 x),
    fun x => ⟨(g13 x).1.trans (h13 x).1, (g13 x).2.trans (h13 x).2⟩, fun x => (g14 x).trans (h14 x)⟩
  obtain ⟨a1, a2, a3, a4⟩ := g3 x
  obtain ⟨c1, c2, c3, c4⟩ := h3 x
  exact ⟨a1.trans c1, a2.trans c2, a3.trans c3, a4.trans c4⟩

theorem Kept.refl (s : State) : Kept s s :=
  ⟨⟨rfl, rfl, rfl, rfl, rfl, rfl, rfl⟩, ⟨rfl, rfl, rfl, rfl⟩, ⟨rfl, rfl, rfl⟩, ⟨[], (List.append_nil _).symm⟩, rfl, rfl⟩

theorem Kept.trans {s t u : State} (h : Kept s t) (g : Kept t u) : Kept s u := by
  obtain ⟨⟨a1, a2, a3, a4, a5, a6, a7⟩, ⟨b1, b2, b3, b4⟩, ⟨c1, c2, c3⟩, ⟨l, hl⟩, d, e⟩ := h
  obtain ⟨⟨a1', a2', a3', a4', a5', a6', a7'⟩, ⟨b1', b2', b3', b4'⟩, ⟨c1', c2', c3'⟩, ⟨l', hl'⟩, d', e'⟩ := g
  exact ⟨⟨a1'.trans a1, a2'.trans a2, a3'.trans a3, a4'.trans a4, a5'.trans a5, a6'.trans a6, a7'.trans a7⟩,
    ⟨b1'.trans b1, b2'.trans b2, b3'.trans b3, b4'.trans b4⟩, ⟨c1'.trans c1, c2'.trans c2, c3'.trans c3⟩,
    ⟨l ++ l', by rw [hl', hl, List.append_assoc]⟩, d'.trans d, e'.trans e⟩

/-- More of the same body. -/
theorem Inside.then {s u v : State} {b : Body} (h : Inside s u) (hb : s.seq.pos.body = some b) (bits : Bits)
    (hf : fixedPart v = fixedPart u) (hs : v.snk.bits = u.snk.bits ++ bits) (ho : Only b u v) : Inside s v := by
  obtain ⟨⟨h1, h2, h3, ⟨l, hl⟩, h4, h5⟩, ho', h6, h7, h8, h9, h10, h11, h12⟩ := h
  have ho' := ho' b hb
  simp only [fixedPart, Prod.mk.injEq] at hf
  obtain ⟨f1, f2, f3, ⟨f4, f5⟩, f6, f7, f8, f9, f10, f11, f12⟩ := hf
  refine ⟨⟨?_, ?_, ?_, ⟨l ++ bits, by rw [hs, hl, List.append_assoc]⟩, f4.trans h4, f5.trans h5⟩, onlyBodies hb ?_,
    f6.trans h6, f7.trans h7, f8.trans h8, f9.trans h9, f10.trans h10, f11.trans h11, f12.trans h12⟩
  · simp only [f1, h1, and_self]
  · simp only [f2, h2, and_self]
  · simp only [f3, h3, and_self]
  · exact ho'.trans ho

/-- Everything one move can do. -/
theorem move_moved {s t : State} (h : move s = .next t) : Moved s t := by
  cases hp : s.seq.pos with
  | none => simp [move, hp] at h
  | enter b => exact enterBody_moved hp (by simpa [move, hp] using h)
  | peekRead =>
    have hb : s.seq.pos.body = some .peek := by simp [hp, Pos.body]
    have ins := Inside.read 8 hb (by simp)
    simp only [move, hp, peekRead] at h
    rcases hr : readBits 8 s with ⟨_ | v, s'⟩ <;> rw [hr] at h ins <;> cases h
    · exact (ins.then hb [] (v := { s' with status := { s'.status with empty := true } }) rfl (List.append_nil _).symm
        (by simp [Only])).complete
    · exact ins.finish
  | restartSource =>
    have hb : s.seq.pos.body = some .restart := by simp [hp, Pos.body]
    simp only [move, hp, restartRun] at h
    cases h
    exact Inside.finish (Inside.of [] hb rfl (List.append_nil _).symm (by simp [Only, restartSource]))
  | countRead counted =>
    have hb : s.seq.pos.body = some .count := by simp [hp, Pos.body]
    have ins := Inside.read 8 hb (by simp)
    simp only [move, hp, countRead] at h
    rcases hr : readBits 8 s with ⟨_ | v, s'⟩ <;> rw [hr] at h ins <;> simp only at h
    · cases h
      exact (ins.then hb [] (v := { s' with status := { s'.status with empty := !counted } }) rfl (List.append_nil _).symm
        (by simp [Only])).finish
    · split at h <;> cases h
      · exact ins.raise hb (by simp [bodyErrors])
      · refine Inside.on (ins.then hb [] rfl (List.append_nil _).symm (by simp [Only, goto, countSym])) fun c hc => ?_
        rw [hb]; simpa [goto, Pos.body] using hc
  | buildMerge leaves next =>
    have hb : s.seq.pos.body = some .build := by simp [hp, Pos.body]
    simp only [move, hp, buildMerge] at h
    split at h
    · cases h
    · split at h
      · cases h
        exact Inside.finish (u := { s with
            pops := s.pops + 1, sel := [], root := _, leafCount := _, nodeCount := _
            status := { s.status with treeValid := true } })
          (Inside.of [] hb rfl (List.append_nil _).symm (by simp [Only]))
      · split at h <;> cases h
        refine Inside.on (Inside.of [] hb rfl (List.append_nil _).symm (by simp [Only, goto])) fun c hc => ?_
        rw [hb]; simpa [goto, Pos.body] using hc
  | genlutVisit =>
    have hb : s.seq.pos.body = some .genlut := by simp [hp, Pos.body]
    simp only [move, hp, genlutVisit] at h
    split at h
    · cases h
    · split at h
      · cases h
      · split at h
        · split at h
          · split at h <;> cases h
            · exact Inside.finish (Inside.of [] hb rfl (List.append_nil _).symm (by simp [Only]))
            · exact Inside.on (Inside.of [] hb rfl (List.append_nil _).symm (by simp [Only])) (fun c hc => by simpa using hc)
          · cases h
        · cases h
          exact Inside.on (Inside.of [] hb rfl (List.append_nil _).symm (by simp [Only])) (fun c hc => by simpa using hc)
  | headerWrite =>
    have hb : s.seq.pos.body = some .header := by simp [hp, Pos.body]
    simp only [move, hp, headerWrite] at h
    cases h
    exact Inside.finish (Inside.of _ hb rfl rfl (by simp [Only, writeBits]))
  | serVisit =>
    have hb : s.seq.pos.body = some .serialize := by simp [hp, Pos.body]
    simp only [move, hp, serVisit] at h
    split at h
    · cases h
    · split at h
      · cases h
      · split at h <;> cases h
        · refine Inside.on (Inside.of _ hb rfl rfl (by simp [Only, writeBits, goto])) fun c hc => ?_
          rw [hb]; simpa [goto, Pos.body] using hc
        · exact Inside.on (Inside.of _ hb rfl rfl (by simp [Only, writeBits])) (fun c hc => by simpa [writeBits] using hc)
  | serId v =>
    have hb : s.seq.pos.body = some .serialize := by simp [hp, Pos.body]
    simp only [move, hp, serId] at h
    split at h <;> cases h
    · exact Inside.finish (Inside.of _ hb rfl rfl (by simp [Only, writeBits]))
    · refine Inside.on (Inside.of _ hb rfl rfl (by simp [Only, writeBits, goto])) fun c hc => ?_
      rw [hb]; simpa [goto, Pos.body] using hc
  | encRead =>
    have hb : s.seq.pos.body = some .encode := by simp [hp, Pos.body]
    have ins := Inside.read 8 hb (by simp)
    simp only [move, hp, encRead] at h
    rcases hr : readBits 8 s with ⟨_ | v, s'⟩ <;> rw [hr] at h ins <;> simp only at h
    all_goals
      split at h <;> cases h
      · exact ins.raise hb (by simp [bodyErrors])
      · refine Inside.on (ins.then hb [] rfl (List.append_nil _).symm (by simp [Only, goto])) fun c hc => ?_
        rw [hb]; simpa [goto, Pos.body] using hc
  | encEmit rest last =>
    have hb : s.seq.pos.body = some .encode := by simp [hp, Pos.body]
    simp only [move, hp, encEmit] at h
    split at h
    · cases h
      refine Inside.on (Inside.of _ hb rfl rfl (by simp [Only, writeBits, goto])) fun c hc => ?_
      rw [hb]; simpa [goto, Pos.body] using hc
    · split at h <;> cases h
      · exact Inside.finish (Inside.of _ hb rfl rfl (by simp [Only, writeBits]))
      · refine Inside.on (Inside.of _ hb rfl rfl (by simp [Only, writeBits, goto, countSym])) fun c hc => ?_
        rw [hb]; simpa [goto, Pos.body] using hc
  | magicRead =>
    have hb : s.seq.pos.body = some .checkMagic := by simp [hp, Pos.body]
    have ins := Inside.read 32 hb (by simp)
    simp only [move, hp, magicRead] at h
    rcases hr : readBits 32 s with ⟨_ | v, s'⟩ <;> rw [hr] at h ins <;> simp only at h
    · cases h; exact ins.raise hb (by simp [bodyErrors])
    · split at h <;> cases h
      · exact ins.finish
      · exact ins.raise hb (by simp [bodyErrors])
  | desBit nleaf =>
    have hb : s.seq.pos.body = some .deserialize := by simp [hp, Pos.body]
    have ins := Inside.read 1 hb (by simp)
    have fail : ∀ e, e ∈ [ErrCode.truncated, .badTree] → ∀ u, Inside s u → Moved s (desFail e u) := fun e he u hu =>
      (hu.then hb [] (v := { u with leafCount := 0#9, nodeCount := 0#10, root := 0#10, stk := [] }) rfl
        (List.append_nil _).symm (by simp [Only])).raise hb he
    simp only [move, hp, desBit] at h
    rcases hr : readBits 1 s with ⟨_ | v, s'⟩ <;> rw [hr] at h ins <;> simp only at h
    · cases h; exact fail _ (by simp) _ ins
    · split at h
      · cases h; exact fail _ (by simp) _ ins
      · split at h
        · split at h <;> cases h
          all_goals
            refine Inside.on (ins.then hb [] rfl (List.append_nil _).symm (by simp [Only, goto])) fun c hc => ?_
            rw [hb]; simpa [goto, Pos.body] using hc
        · cases h
  | desId nleaf i =>
    have hb : s.seq.pos.body = some .deserialize := by simp [hp, Pos.body]
    have ins := Inside.read 9 hb (by simp)
    have fail : ∀ e, e ∈ [ErrCode.truncated, .badTree] → ∀ u, Inside s u → Moved s (desFail e u) := fun e he u hu =>
      (hu.then hb [] (v := { u with leafCount := 0#9, nodeCount := 0#10, root := 0#10, stk := [] }) rfl
        (List.append_nil _).symm (by simp [Only])).raise hb he
    simp only [move, hp, desId] at h
    rcases hr : readBits 9 s with ⟨_ | v, s'⟩ <;> rw [hr] at h ins <;> simp only at h
    · cases h; exact fail _ (by simp) _ ins
    · split at h
      · cases h; exact fail _ (by simp) _ ins
      · unfold desLeafDone at h
        split at h
        · cases h
          refine Inside.on (ins.then hb [] rfl (List.append_nil _).symm (by simp [Only, goto])) fun c hc => ?_
          rw [hb]; simpa [goto, Pos.body] using hc
        · split at h
          · cases h
          · split at h <;> cases h
            · exact fail _ (by simp) _ (ins.then hb [] rfl (List.append_nil _).symm (by simp [Only]))
            · exact Inside.finish (ins.then hb [] rfl (List.append_nil _).symm (by simp [Only]))
  | decRead =>
    have hb : s.seq.pos.body = some .decode := by simp [hp, Pos.body]
    have ins := Inside.read 1 hb (by simp)
    simp only [move, hp, decRead] at h
    rcases hr : readBits 1 s with ⟨_ | v, s'⟩ <;> rw [hr] at h ins <;> simp only at h
    · cases h; exact ins.raise hb (by simp [bodyErrors])
    · split at h
      · cases h
      · split at h
        · cases h
        · split at h
          · split at h <;> cases h
            · exact Inside.finish (ins.then hb [] rfl (List.append_nil _).symm (by simp [Only]))
            · refine Inside.on (ins.then hb [] rfl (List.append_nil _).symm (by simp [Only, goto])) fun c hc => ?_
              rw [hb]; simpa [goto, Pos.body] using hc
          · cases h
            have hpos : s'.seq.pos = s.seq.pos := by
              have := congrArg (fun x => x.2.seq.pos) hr
              rcases readBits_cases 1 s with ⟨_, e⟩ | ⟨_, e⟩ <;> rw [e] at this <;> exact this.symm
            refine Inside.on (ins.then hb [] rfl (List.append_nil _).symm (by simp [Only])) fun c hc => ?_
            simpa [hpos] using hc
  | decWrite =>
    have hb : s.seq.pos.body = some .decode := by simp [hp, Pos.body]
    simp only [move, hp, decWrite] at h
    split at h <;> cases h
    refine Inside.on (Inside.of _ hb rfl rfl (by simp [Only, writeBits, goto, countSym])) fun c hc => ?_
    rw [hb]; simpa [goto, Pos.body] using hc
  | clearRun =>
    have hb : s.seq.pos.body = some .clear := by simp [hp, Pos.body]
    simp only [move, hp, clearRun] at h
    cases h
    exact Inside.finish (Inside.of [] hb rfl (List.append_nil _).symm (by simp [Only, dropTree]))

/-- Each command's precondition, first body and further bodies. -/
def commandOf : Instr → Precondition × Body × List Body
  | .compress => (.none, .peek, [.restart, .count, .build, .genlut, .header, .serialize, .restart, .encode])
  | .decompress => (.none, .checkMagic, [.deserialize, .decode])
  | .clear => (.none, .clear, [])
  | .restart => (.none, .restart, [])
  | .count => (.none, .count, [])
  | .build => (.none, .build, [])
  | .genlut => (.tree, .genlut, [])
  | .header => (.none, .header, [])
  | .serialize => (.tree, .serialize, [])
  | .encode => (.lut, .encode, [])
  | .checkmagic => (.none, .checkMagic, [])
  | .deserialize => (.none, .deserialize, [])
  | .decode => (.tree, .decode, [])

theorem exec_eq (i : Instr) (s : State) :
    exec i s = runCommand i (commandOf i).1 (commandOf i).2.1 (commandOf i).2.2 s := by
  cases i <;> rfl

/-- The errors of a command are those of its precondition and of its bodies (R272). -/
theorem errorsOf_eq (i : Instr) : (∀ s e, (commandOf i).1.fails s = some e → e ∈ errorsOf i)
    ∧ ∀ b ∈ (commandOf i).2.1 :: (commandOf i).2.2, ∀ e ∈ bodyErrors b, e ∈ errorsOf i := by
  constructor
  · intro s e
    cases i <;> simp [commandOf, Precondition.fails, errorsOf] <;> intro _ h <;> simp [← h]
  · cases i <;> decide

/-- In a move the current body is some body. -/
theorem move_body {s t : State} (h : move s = .next t) : ∃ b, s.seq.pos.body = some b := by
  cases hp : s.seq.pos with
  | none => simp [move, hp] at h
  | _ => exact ⟨_, rfl⟩

/-- A run of steps begins with its first step. -/
theorem run_next {n : Nat} {s s' : State} (h : step s = .next s') :
    Host.Core.run Sys2Proof.core (n + 1) s = Host.Core.run Sys2Proof.core n s' := by
  have h' : Sys2Proof.core.step s = .next s' := h
  simp only [Host.Core.run, h']

end Sys2Proof.Machine
end

