-- ==== Sys2Proof/Laws/PerInstr.lean ====
section
/-! SUPPORT. One lemma per command about its encoding, for statements over all commands: the host's case split names each. -/

namespace Sys2Proof.Laws.RoundTrip

/-- The command is well formed, its word is legal and is its opcode zero-extended (30_encoding.md R110), and the decoder reads the
command back from the word, from its byte lanes, and from the opcode table's bits. -/
def Statement (i : Instr) : Prop :=
  WellFormed.instr i = true ∧ WellFormed.legalWord (encode i) = true ∧ (encode i).toNat = i.opcode.toNat
    ∧ decode (encode i) = .ok i ∧ decodeBytes (lanesOf (encode i)) = .ok i
    ∧ decodeTableWord 32 i.opcode.toNat = some i

theorem compress : Statement .compress := by unfold Statement; decide

theorem decompress : Statement .decompress := by unfold Statement; decide

theorem clear : Statement .clear := by unfold Statement; decide

theorem restart : Statement .restart := by unfold Statement; decide

theorem count : Statement .count := by unfold Statement; decide

theorem build : Statement .build := by unfold Statement; decide

theorem genlut : Statement .genlut := by unfold Statement; decide

theorem header : Statement .header := by unfold Statement; decide

theorem serialize : Statement .serialize := by unfold Statement; decide

theorem encode : Statement .encode := by unfold Statement; decide

theorem checkmagic : Statement .checkmagic := by unfold Statement; decide

theorem deserialize : Statement .deserialize := by unfold Statement; decide

theorem decode : Statement .decode := by unfold Statement; decide

end Sys2Proof.Laws.RoundTrip
end

