-- ==== Sys2Proof/Machine/HostProgram.lean ====
section
/-! DEFINITION. The host's programs (30_encoding.md R131, R132): the notation, its bus encodings, the pseudo-instructions'
expansions, and a host that runs one against the block. What the notation leaves open is the model's choice (log entry 25):
names and labels are numbers, and where `BNZ` goes when its label is missing or stands in the program twice. -/

namespace Sys2Proof.Machine

/-- A host instruction (R131). -/
inductive HostInstr where
  /-- `W REG, imm32` -/
  | write (reg : Csr) (v : Word)
  /-- `R REG -> name` -/
  | read (reg : Csr) (name : Nat)
  /-- `BNZ name, mask, label`; which place a missing or repeated label means is the model's choice (log entry 25) -/
  | bnz (name : Nat) (mask : Word) (label : Nat)
  /-- `label:` -/
  | label (l : Nat)
  deriving DecidableEq, Repr

/-- The bus transaction a host instruction encodes, if it has one (R131). -/
def HostInstr.access : HostInstr → Option Access
  | .write reg v => some { write := true, offset := reg.offset, size := .bits32, data := v }
  | .read reg _ => some { write := false, offset := reg.offset, size := .bits32, data := 0#32 }
  | .bnz _ _ _ => none
  | .label _ => none

/-- `POLL` into name `st`, at label `p` (R132). -/
def pollCode (st p : Nat) : List HostInstr := [.label p, .read .status st, .bnz st 0x1#32 p]

/-- `RUN OP` (R132). -/
def runCode (i : Instr) (st p : Nat) : List HostInstr := .write .cmd (encode i) :: pollCode st p

/-- `ACK` (R132). -/
def ackCode : List HostInstr := [.write .irq 0x1#32]

/-- `SETF s, v` (R132). -/
def setfCode (s v : Word) : List HostInstr := [.write .freqIdx s, .write .freqData v]

/-- `GETF s -> x` (R132). -/
def getfCode (s : Word) (x : Nat) : List HostInstr := [.write .freqIdx s, .read .freqData x]

/-- `GETLUT s -> len, c0` (R132). -/
def getlutCode (s : Word) (len c0 : Nat) : List HostInstr := [.write .lutIdx s, .read .lutLen len, .read (.lutCode 0) c0]

/-- `GETNODE i -> info, child, wlo` (R132). -/
def getnodeCode (i : Word) (info child wlo : Nat) : List HostInstr :=
  [.write .nodeIdx i, .read .nodeInfo info, .read .nodeChild child, .read .nodeWlo wlo]

/-- A host program at a point of its run: where it is, what its names hold (latest first), and the block. -/
structure HostRun where
  prog : List HostInstr
  pc : Nat
  names : List (Nat × Word)
  machine : State
  deriving DecidableEq, Repr

/-- The value a name holds; 0 before it is read into. -/
def HostRun.valueOf (h : HostRun) (name : Nat) : Word := (h.names.lookup name).getD 0#32

/-- One host instruction: at most one CSR access, made and answered in one step of the machine (R85). The access comes
before any other pending event. `none` at the program's end. DESIGN CHOICE (log entry 25), R131 being silent on both: a `BNZ`
that jumps to a label the program does not have ends the program, and to one that stands in it several times goes to the
first. -/
def hostStep (h : HostRun) : Option (Host.Outcome HostRun Fault Refusal) :=
  match h.prog[h.pc]? with
  | none => none
  | some i =>
    match i.access with
    | some a =>
      match step { h.machine with pending := .access a :: h.machine.pending } with
      | .next s =>
        let names :=
          match i, s.response with
          | .read _ name, some (.data v) => (name, v) :: h.names
          | _, _ => h.names
        some (.next { h with pc := h.pc + 1, names := names, machine := s })
      | .fault f => some (.fault f)
      | .refused f => some (.refused f)
    | none =>
      match i with
      | .bnz name mask l =>
        if h.valueOf name &&& mask = 0#32 then some (.next { h with pc := h.pc + 1 })
        else some (.next { h with pc := h.prog.idxOf (.label l) })
      | _ => some (.next { h with pc := h.pc + 1 })

/-- A host program's run, up to `n` instructions. -/
def hostRun : Nat → HostRun → Host.Outcome HostRun Fault Refusal
  | 0, h => .next h
  | n + 1, h =>
    match hostStep h with
    | none => .next h
    | some (.next h') => hostRun n h'
    | some (.fault f) => .fault f
    | some (.refused f) => .refused f

end Sys2Proof.Machine
end

