-- ==== Sys2Proof/Machine/Trace.lean ====
section
/-! DEFINITION. The port transactions of a run (20_memory.md R92, R100): what the block requests of the source and the sink,
in order. -/

namespace Sys2Proof.Machine

/-- The transactions completed in up to `n` moves, in order. -/
def portTrace : Nat → State → List PortReq
  | 0, _ => []
  | n + 1, s =>
    if s.halted then []
    else
      match move s with
      | .next s' => s.request.toList ++ portTrace n s'
      | .fault _ => []
      | .refused _ => []

end Sys2Proof.Machine
end

