-- ==== Sys2Proof/Tests/Slice0.lean ====
section
/-! SUPPORT. Small tests, their expected results taken from spec/95_test_vectors.md (V1 to V54) or read off a rule, and a witness
for the hypotheses of each statement that has some. -/

namespace Sys2Proof.Tests

-- One theorem after another: checked side by side, each of them holds a thread, and their stacks add up.
set_option Elab.async false

open Sys2Proof Sys2Proof.Machine

/-! ### Ill-formed words -/

/-- R112: a set bit in the reserved field. -/
theorem test_reserved_nonzero_is_ill_formed :
    WellFormed.reservedZero 0x00000101#32 = false ∧ WellFormed.legalWord 0x00000101#32 = false
      ∧ decode 0x00000101#32 = .error .reservedNonzero ∧ decode 0x80000001#32 = .error .reservedNonzero := by decide

/-- R112: an OP outside the map, and the all-zero word. -/
theorem test_unknown_opcode_is_ill_formed :
    WellFormed.opcodeKnown 0x00000004#32 = false ∧ WellFormed.legalWord 0x00000004#32 = false
      ∧ decode 0x00000004#32 = .error .unknownOpcode ∧ decode 0x00000000#32 = .error .unknownOpcode
      ∧ decode 0x00000017#32 = .error .unknownOpcode ∧ decode 0x00000023#32 = .error .unknownOpcode
      ∧ decode 0x000000FF#32 = .error .unknownOpcode := by decide

/-- A command word is four byte lanes (R84). -/
theorem test_wrong_number_of_lanes :
    decodeBytes [] = .error .notOneWord ∧ decodeBytes [1#8, 0#8, 0#8] = .error .notOneWord
      ∧ decodeBytes [1#8, 0#8, 0#8, 0#8, 0#8] = .error .notOneWord := by decide

/-! ### Each word of the opcode map, bit by bit (R110, R111) -/

theorem test_decode_compress : decode 0b00000000000000000000000000000001#32 = .ok .compress := by decide
theorem test_decode_decompress : decode 0b00000000000000000000000000000010#32 = .ok .decompress := by decide
theorem test_decode_clear : decode 0b00000000000000000000000000000011#32 = .ok .clear := by decide
theorem test_decode_restart : decode 0b00000000000000000000000000010000#32 = .ok .restart := by decide
theorem test_decode_count : decode 0b00000000000000000000000000010001#32 = .ok .count := by decide
theorem test_decode_build : decode 0b00000000000000000000000000010010#32 = .ok .build := by decide
theorem test_decode_genlut : decode 0b00000000000000000000000000010011#32 = .ok .genlut := by decide
theorem test_decode_header : decode 0b00000000000000000000000000010100#32 = .ok .header := by decide
theorem test_decode_serialize : decode 0b00000000000000000000000000010101#32 = .ok .serialize := by decide
theorem test_decode_encode : decode 0b00000000000000000000000000010110#32 = .ok .encode := by decide
theorem test_decode_checkmagic : decode 0b00000000000000000000000000100000#32 = .ok .checkmagic := by decide
theorem test_decode_deserialize : decode 0b00000000000000000000000000100001#32 = .ok .deserialize := by decide
theorem test_decode_decode : decode 0b00000000000000000000000000100010#32 = .ok .decode := by decide

/-- The opcode table's first row, as the host asks for it, and on the byte lanes, lane 0 first. -/
theorem test_decodeTableWord : decodeTableWord 32 1 = some .compress ∧ decodeTableWord 8 0x22 = some .decode
    ∧ decodeBytes [0x13#8, 0#8, 0#8, 0#8] = .ok .genlut ∧ decodeBytes [0#8, 0#8, 0#8, 0x13#8] = .error .reservedNonzero := by
  decide

/-! ### Small states -/

/-- The next state's part that `f` reads; `none` where the machine stops. -/
def resultOf {α : Type} (f : State → α) (r : Result) : Option α :=
  match r with
  | .next t => some (f t)
  | .fault _ => none
  | .refused _ => none

/-- The machine after reset with a source that holds `bits` at position `pos`. -/
def withSource (bits : Bits) (pos : Nat) (s : State) : State := { s with src := { bits := bits, pos := pos, ready := true } }

/-- The code tree of the first worked example (95_test_vectors.md 1.2): the sentinel `0`, the byte `a` `1`. -/
def treeA : Tree := .inner (.leaf 256#9) (.leaf 97#9)

/-- The tree without a sentinel (V36): `a` `0`, `b` `1`. -/
def treeAB : Tree := .inner (.leaf 97#9) (.leaf 98#9)

/-- Three nodes: two leaves, and the root 2 with node `l` on the left and node `r` on the right. -/
def threeNodes (v0 v1 : Sym) (l r : Idx) : Vector Node 513 :=
  setNode (setNode (setNode State.reset.node 0 (leafNode v0 4)) 1 (leafNode v1 1)) 2 (innerNode 5 l r)

/-- A valid tree of these three nodes, and the code table of two codes of one bit. -/
def withTree (v0 v1 : Sym) (l r : Idx) (lutValid : Bool) (lut : Vector Bits 257) (s : State) : State :=
  { s with
    status := { s.status with treeValid := true, lutValid := lutValid }
    leafCount := 2#9, nodeCount := 3#10, root := 2#10, node := threeNodes v0 v1 l r, lut := lut }

/-- The tree and the code table of the first worked example. -/
def stateA : State :=
  withTree 97#9 256#9 1#10 0#10 true (setLut (setLut State.reset.lut 97#9 [true]) 256#9 [false]) State.reset

/-- The tree and the code table of `treeAB`. -/
def stateAB : State :=
  withTree 97#9 98#9 0#10 1#10 true (setLut (setLut State.reset.lut 97#9 [false]) 98#9 [true]) State.reset

/-- A COUNT that waits for its source. -/
def waitingState : State :=
  { State.reset with
    status := { State.reset.status with busy := true, phase := .count, lastOp := 0x11#8 }
    seq := Machine.Seq.mk (some .count) (.countRead false) []
    src := Source.mk [] 0 false }

/-- A COUNT at its first read, the source empty and answering. -/
def countingState : State := { waitingState with src := Source.mk [] 0 true }

/-- One count of 4 for byte 97. -/
def countedState (c : Count) : State := { State.reset with freq := setFreq State.reset.freq 97#8 c }

/-- `a`, 8 bits. -/
def bitsA : Bits := [false, true, true, false, false, false, false, true]

/-- The tree field of the first worked example (V32). -/
def treeBits : Bits := bitsOf 21 0b011000000001001100001

/-! ### The CSR bus and the life of a command -/

/-- V1 and V3: an illegal word ends at once with ILLEGAL_CMD in phase CHECK. -/
theorem test_illegal_word : resultOf (fun t => (t.status.pack, t.pend)) (runWord 0x17#32 State.reset) = some (0x0017D304#32, true)
    ∧ resultOf (fun t => t.status.pack) (runWord 0x101#32 State.reset) = some 0x0001D304#32 := by decide

/-- V5: a word written while a command runs is discarded and sets OVR. -/
theorem test_word_while_busy : resultOf (fun t => (t.status.ovr, t.status.busy, t.seq.pos, t.response))
    (step { waitingState with pending := [.access (cmdWrite 0x03#32)] })
      = some (true, true, .countRead false, some .done) := by decide +kernel

/-- R38: with CNT_W = 2 a write of FREQ_DATA keeps two bits; PARAM shows CNT_W. -/
theorem test_narrow_counts : (freqAt (csrWrite .freqData 0xFFFFFFFE#32 { State.reset with cntW := 2 }).freq 0#8) = 2#32
    ∧ (csrRead .param { State.reset with cntW := 2 }).1 = 0x02010902#32 := by decide +kernel

/-- R83, R309: a step that writes LUT_IDX while a command waits sets it, and the command goes on waiting. -/
theorem test_access_while_busy : resultOf (fun t => (t.lutIdx, t.status.busy, t.response))
    (step { waitingState with pending := [.access (Access.mk true 0x050#12 .bits32 5#32)] }) = some (5#9, true, some .done) := by
  decide +kernel

/-- R22 and R21: PARAM and ID. -/
theorem test_param_id : (csrRead .param State.reset).1 = 0x02010920#32 ∧ (csrRead .id State.reset).1 = 0x48554646#32 := by decide

/-- R81, R82: an unmapped offset, an offset that is no multiple of 4, and a size of 8 bits. -/
theorem test_bus_errors :
    (busAccess { write := false, offset := 0x00C#12, size := .bits32, data := 0#32 } State.reset).response = some .busError
    ∧ (busAccess { write := true, offset := 0x01A#12, size := .bits32, data := 1#32 } State.reset).response = some .busError
    ∧ (busAccess { write := true, offset := 0x018#12, size := .bits8, data := 1#32 } State.reset).response = some .busError := by
  decide

/-- R32: writing IRQ with bit 0 set clears PEND, with bit 0 clear leaves it. -/
theorem test_irq_ack : (csrWrite .irq 1#32 { State.reset with pend := true }).pend = false
    ∧ (csrWrite .irq 2#32 { State.reset with pend := true }).pend = true := by decide

/-- 95_test_vectors.md 1.3 and 1.2: the node and the LUT window on the tree of the first example. -/
theorem test_windows :
    (csrRead .nodeInfo stateA).1 = 0x80000261#32 ∧ (csrRead .nodeChild stateA).1 = 0x03FF03FF#32
    ∧ (csrRead .nodeInfo { stateA with nodeIdx := 2#10 }).1 = 0x800001FF#32
    ∧ (csrRead .nodeChild { stateA with nodeIdx := 2#10 }).1 = 0x00000001#32
    ∧ (csrRead .nodeInfo { stateA with nodeIdx := 3#10 }).1 = 0#32
    ∧ (csrRead .lutLen { stateA with lutIdx := 0x61#9 }).1 = 1#32
    ∧ (csrRead (.lutCode 0) { stateA with lutIdx := 0x61#9 }).1 = 0x80000000#32
    ∧ (csrRead .lutLen { stateA with lutIdx := 0x12C#9 }).1 = 0#32 := by decide +kernel

/-- The first step after a word is placed for the host runs it (V30). -/
theorem test_withFetchWord : resultOf (fun t => t.status.pack) (step (State.reset.withFetchWord 32 0x14)) = some 0x00140002#32 := by
  decide

/-- R132: RUN RESTART makes its bus write and its first poll. -/
theorem test_host_program :
    (match hostRun 4 (HostRun.mk (runCode .restart 0 0) 0 [] State.reset) with
      | .next h => (h.valueOf 0, h.pc)
      | .fault _ => (0#32, 0)
      | .refused _ => (0#32, 0)) = (0x00100002#32, 4) := by decide

/-! ### The commands -/

/-- V6 on the tree of the first example: CLEAR. -/
theorem test_clear : resultOf (fun t => (t.status.pack, t.leafCount, t.nodeCount, t.root)) (exec .clear stateA)
    = some (0x00030002#32, 0#9, 0#10, 0#10) := by decide +kernel

/-- V11: RESTART. -/
theorem test_restart : resultOf (fun t => (t.status.pack, t.src.pos, t.rdBits.now))
    (exec .restart (withSource (List.replicate 32 true) 17 State.reset)) = some (0x00100002#32, 0, 0#32) := by decide +kernel

/-- V14: COUNT of one byte and 4 bits more. -/
theorem test_count : resultOf (fun t => (t.status.pack, freqAt t.freq 97#8, t.syms.now, t.rdBits.now, t.src.pos))
    (exec .count (withSource (bitsA ++ [false, true, false, true]) 0 State.reset))
      = some (0x00110002#32, 1#32, 1#32, 8#32, 8) := by decide +kernel

/-- V13: COUNT of nothing. -/
theorem test_count_empty : resultOf (fun t => (t.status.pack, t.syms.now)) (exec .count State.reset)
    = some (0x0011000A#32, 0#32) := by decide +kernel

/-- V15: with CNT_W = 2 the fourth `a` meets a full entry. -/
theorem test_count_overflow :
    resultOf (fun t => (t.status.pack, freqAt t.freq 97#8, t.syms.now, t.rdBits.now))
      (exec .count { withSource (bitsA ++ bitsA ++ bitsA ++ bitsA) 0 State.reset with cntW := 2 })
      = some (0x00113904#32, 3#32, 3#32, 32#32) := by decide +kernel

/-- V17: BUILD with a count of 4 for `a`. -/
theorem test_build : resultOf (fun t => (t.status.pack, t.leafCount, t.nodeCount, t.root, nodeAt t.node 2#10))
    (exec .build (countedState 4#32)) = some (0x00120012#32, 2#9, 3#10, 2#10, some (innerNode 5 1#10 0#10)) := by decide +kernel

/-- V20 under `TIE_ORDER = ANY`: with leaves `a` 1, `b` 2, `c` 1 and the sentinel 1, `PopMin` may take node 0, 2 or 3, and so
`c` before `a`; `b` never; under STABLE_INDEX it takes node 0. -/
theorem test_popMin_any :
    let sel := selEntries 0 [leafNode 97#9 1, leafNode 98#9 2, leafNode 99#9 1, leafNode 256#9 1]
    (∀ k ∈ [0, 3, 6], (popMin .any k sel).map (·.1.idx) = some 0#10)
      ∧ (∀ k ∈ [1, 4, 7], (popMin .any k sel).map (·.1.idx) = some 2#10)
      ∧ (∀ k ∈ [2, 5, 8], (popMin .any k sel).map (·.1.idx) = some 3#10)
      ∧ ∀ k ∈ [0, 1, 2, 3], (popMin .stableIndex k sel).map (·.1.idx) = some 0#10 := by decide +kernel

/-- V22: BUILD with every count 0. -/
theorem test_build_nosym : resultOf (fun t => t.status.pack) (exec .build State.reset) = some 0x00124604#32 := by decide +kernel

/-- 95_test_vectors.md 1.2: GENLUT on its tree. -/
theorem test_genlut : resultOf (fun t => (t.status.pack, lutAt t.lut 97#9, lutAt t.lut 256#9, lutAt t.lut 98#9)) (exec .genlut stateA)
    = some (0x00130032#32, some [true], some [false], some []) := by decide +kernel

/-- V8: GENLUT without a tree. -/
theorem test_genlut_no_tree : resultOf (fun t => t.status.pack) (exec .genlut State.reset) = some 0x0013D404#32 := by decide

/-- V30: HEADER. -/
theorem test_header : resultOf (fun t => (t.status.pack, t.wrBits.now)) (exec .header State.reset)
    = some (0x00140002#32, 32#32) := by decide

/-- V29: SERIALIZE writes `0`, `1`, id 256, `1`, id 97. -/
theorem test_serialize : resultOf (fun t => (t.status.pack, valOf t.snk.bits, t.snk.bits.length, t.wrBits.now)) (exec .serialize stateA)
    = some (0x00150032#32, 0b011000000001001100001, 21, 21#32) := by decide +kernel

/-- V43: ENCODE of `ab` with no code for `b`. -/
theorem test_encode_no_code : resultOf (fun t => (t.status.pack, t.snk.bits, t.syms.now, t.rdBits.now))
    (exec .encode (withSource (bitsA ++ bitsOf 8 98) 0 stateA)) = some (0x00168834#32, [true], 1#32, 16#32) := by decide +kernel

/-- V47's shape: ENCODE of nothing writes the sentinel's code only. -/
theorem test_encode_empty : resultOf (fun t => (t.status.pack, t.snk.bits, t.syms.now)) (exec .encode stateA)
    = some (0x00160032#32, [false], 0#32) := by decide +kernel

/-- V42: CHECKMAGIC with 20 bits. -/
theorem test_checkmagic_short : resultOf (fun t => (t.status.pack, t.rdBits.now, t.src.pos))
    (exec .checkmagic (withSource (List.replicate 20 true) 0 State.reset)) = some (0x00209104#32, 0#32, 0) := by decide +kernel

/-- V32: DESERIALIZE of a tree of two leaves, and 4 bits more. -/
theorem test_deserialize : resultOf (fun t => (t.status.pack, t.rdBits.now, t.src.pos, t.leafCount, t.nodeCount))
    (exec .deserialize (withSource (treeBits ++ [false, true, true, true]) 0 State.reset))
      = some (0x00210012#32, 21#32, 21, 2#9, 3#10) := by decide +kernel

/-- V32: the nodes, numbered in preorder (R213), and their weights (R214). -/
theorem test_deserialize_nodes : resultOf (fun t => (t.root, nodeAt t.node 0#10, nodeAt t.node 2#10))
    (exec .deserialize (withSource treeBits 0 State.reset))
      = some (0#10, some (innerNode 0 1#10 2#10), some (leafNode 97#9 1)) := by decide +kernel

/-- V35: DESERIALIZE of a leaf with id 257. -/
theorem test_deserialize_bad_id : resultOf (fun t => (t.status.pack, t.rdBits.now, t.nodeCount))
    (exec .deserialize (withSource (bitsOf 11 0b01100000001) 0 State.reset)) = some (0x0021A704#32, 11#32, 0#10) := by decide +kernel

/-- Codes of the first example: DECODE of `1 1 0` writes `aa` and stops at the sentinel, one bit unread. -/
theorem test_decode : resultOf (fun t => (t.status.pack, t.snk.bits, t.src.pos))
    (exec .decode (withSource [true, true, false, true] 0 stateA)) = some (0x00220032#32, bitsA ++ bitsA, 3) := by decide +kernel

/-- V49: DECODE of a tree with no sentinel runs to the end of the data. -/
theorem test_decode_truncated : resultOf (fun t => (t.status.pack, t.snk.bits, t.syms.now))
    (exec .decode (withSource [false] 0 stateAB)) = some (0x0022B234#32, bitsA, 1#32) := by decide +kernel

/-- V52: COMPRESS at the source's end. -/
theorem test_compress_empty : resultOf (fun t => (t.status.pack, t.src.pos)) (exec .compress (withSource bitsA 8 State.reset))
    = some (0x0001000A#32, 8) := by decide

/-- 95_test_vectors.md 1.2's shape for the one byte `a`: 8 + 8 + 8 bits read, 32 + 21 + 2 written. -/
theorem test_compress : resultOf (fun t => (t.status.pack, t.rdBits.now, t.wrBits.now, t.syms.now, t.src.pos))
    (exec .compress (withSource bitsA 0 State.reset)) = some (0x00010032#32, 24#32, 55#32, 1#32, 8) := by decide +kernel

/-- 95_test_vectors.md 1.4: DECOMPRESS of nothing. -/
theorem test_decompress_empty : resultOf (fun t => (t.status.pack, t.snk.bits)) (exec .decompress State.reset)
    = some (0x00029104#32, []) := by decide

/-- R92: the port transactions of V29's SERIALIZE. -/
theorem test_port_trace : portTrace 20 { stateA with
      status := { stateA.status with busy := true }
      seq := Machine.Seq.mk (some .serialize) (.enter .serialize) [] }
    = [.write 1 0, .write 1 1, .write 9 256, .write 1 1, .write 9 97] := by decide +kernel

/-! ### Witnesses: a state and operands that meet the hypotheses of each statement that has some -/

/-- A state that writes `w` to CMD in its next step. -/
def poised (w : Word) : State := { State.reset with pending := [.access (cmdWrite w)] }

/-- COUNT at the end of its source, one move left. -/
def countedA : State :=
  { countingState with src := Source.mk bitsA 8 true }

theorem quiet_reset : State.reset.Quiet := ⟨rfl, rfl, rfl, rfl⟩

theorem quiet_withSource (bits : Bits) (pos : Nat) : (withSource bits pos State.reset).Quiet := ⟨rfl, rfl, rfl, rfl⟩

theorem quiet_stateA : stateA.Quiet := ⟨rfl, rfl, rfl, rfl⟩

theorem quiet_stateAB : stateAB.Quiet := ⟨rfl, rfl, rfl, rfl⟩

theorem nodeAt_threeNodes (v0 v1 : Sym) (l r : Idx) :
    nodeAt (threeNodes v0 v1 l r) 0#10 = some (leafNode v0 4) ∧ nodeAt (threeNodes v0 v1 l r) 1#10 = some (leafNode v1 1)
      ∧ nodeAt (threeNodes v0 v1 l r) 2#10 = some (innerNode 5 l r) := by
  simp [threeNodes, nodeAt_setNode]

theorem stateA_holdsTree : stateA.HoldsTree treeA := by
  obtain ⟨h0, h1, h2⟩ := nodeAt_threeNodes 97#9 256#9 1#10 0#10
  refine ⟨rfl, ⟨_, h2, rfl, ⟨_, h1, rfl, rfl⟩, ⟨_, h0, rfl, rfl⟩⟩, by decide, by decide, by decide⟩

theorem stateAB_holdsTree : stateAB.HoldsTree treeAB := by
  obtain ⟨h0, h1, h2⟩ := nodeAt_threeNodes 97#9 98#9 0#10 1#10
  refine ⟨rfl, ⟨_, h2, rfl, ⟨_, h0, rfl, rfl⟩, ⟨_, h1, rfl, rfl⟩⟩, by decide, by decide, by decide⟩

theorem stateA_holdsCodes : stateA.HoldsCodes treeA := ⟨rfl, by decide +kernel⟩

theorem stateAB_holdsCodes : stateAB.HoldsCodes treeAB := ⟨rfl, by decide +kernel⟩

theorem reset_tablesOk : State.reset.TablesOk := ⟨nofun, nofun⟩

theorem witness_LegalWordsAreZeroExtendedOpcodes : ∀ i : Instr, (0x101#32 : Word) ≠ i.opcode.setWidth 32 := by
  intro i; cases i <;> decide

theorem witness_StepRunsTheDecodedCommand : State.reset.rstN = true ∧ decode 0x13#32 = .ok .genlut := by decide

/-- The reserved field (its lowest and its highest bit), and the OP. -/
theorem witness_IllegalWordEndsAtOnce : State.reset.status.busy = false ∧ (0x101#32 : Word).extractLsb' 8 24 ≠ 0#24
    ∧ (0x80000001#32 : Word).extractLsb' 8 24 ≠ 0#24
    ∧ (0x17#32 : Word).extractLsb' 0 8 ∉ [0x01#8, 0x02#8, 0x03#8, 0x10#8, 0x11#8, 0x12#8, 0x13#8, 0x14#8, 0x15#8, 0x16#8,
        0x20#8, 0x21#8, 0x22#8] := by decide

theorem settle_waitingState : settle waitingState = .next waitingState := drive_halted (by decide)

theorem witness_WordWhileBusyIsDiscarded :
    waitingState.rstN = true ∧ waitingState.status.busy = true ∧ settle waitingState = .next waitingState :=
  ⟨rfl, rfl, settle_waitingState⟩

theorem witness_AcceptanceAndPrecondition : State.reset.status.busy = false ∧ ¬ State.reset.Ready .genlut
    ∧ ¬ State.reset.Ready .encode ∧ State.Ready { State.reset with pace := some 0 } .clear ∧ stateA.Ready .encode := by
  refine ⟨rfl, fun h => ?_, fun h => ?_, ⟨by decide, by decide⟩, ⟨by decide, by decide⟩⟩
  · exact absurd (h.1 (.inl rfl)) (by decide)
  · exact absurd (h.2 rfl) (by decide)

/-- GENLUT without a tree answers a next state with an error. -/
theorem exec_genlut_reset : exec .genlut State.reset = .next (raise .noTree (accept 0x13#8 State.reset)) := rfl

theorem witness_ErrorsOfEachCommand : State.reset.status.busy = false
    ∧ exec .genlut State.reset = .next (raise .noTree (accept 0x13#8 State.reset))
    ∧ (raise .noTree (accept 0x13#8 State.reset)).status.error = true
    ∧ decode 0x17#32 = .error .unknownOpcode
    ∧ runWord 0x17#32 State.reset = .next (raise .illegalCmd (accept 0x17#8 State.reset)) :=
  ⟨rfl, exec_genlut_reset, rfl, by decide, rfl⟩

theorem stateA_validTree : stateA.ValidTree := by
  obtain ⟨h0, h1, h2⟩ := nodeAt_threeNodes 97#9 256#9 1#10 0#10
  have three : ∀ i : Idx, i < 3#10 → i = 0#10 ∨ i = 1#10 ∨ i = 2#10 := by decide
  have kids : childList stateA.node 3 = [1#10, 0#10] := by decide +kernel
  have leafOrRoot : ∀ (i : Idx) (nd : Node), i < stateA.nodeCount → nodeAt stateA.node i = some nd →
      nd = leafNode 97#9 4 ∨ nd = leafNode 256#9 1 ∨ (i = 2#10 ∧ nd = innerNode 5 1#10 0#10) := by
    intro i nd hi hn
    rcases three i hi with rfl | rfl | rfl
    · exact .inl (Option.some.inj (hn.symm.trans h0))
    · exact .inr (.inl (Option.some.inj (hn.symm.trans h1)))
    · exact .inr (.inr ⟨rfl, Option.some.inj (hn.symm.trans h2)⟩)
  refine ⟨by decide, ⟨by decide, _, h2, rfl⟩, fun i nd hi hn hl => ?_, fun i nd hi hn hl => ?_, fun i hi => ?_, fun i => i.toNat,
    fun i nd hi hn hl => ?_⟩
  · rcases leafOrRoot i nd hi hn with rfl | rfl | ⟨_, rfl⟩
    · decide
    · decide
    · cases hl
  · rcases leafOrRoot i nd hi hn with rfl | rfl | ⟨_, rfl⟩
    · cases hl
    · cases hl
    · decide
  · show (childList stateA.node 3).count i = _
    rw [kids]
    rcases three i hi with rfl | rfl | rfl <;> decide
  · rcases leafOrRoot i nd hi hn with rfl | rfl | ⟨rfl, rfl⟩
    · cases hl
    · cases hl
    · decide

/-- No table valid; and a valid tree with its code table. -/
theorem witness_EveryCommandEndsAndKeepsTablesValid :
    (State.reset.Quiet ∧ State.reset.TablesOk ∧ State.reset.src.pos ≤ State.reset.src.bits.length)
    ∧ stateA.Quiet ∧ stateA.TablesOk ∧ stateA.src.pos ≤ stateA.src.bits.length
    ∧ stateA.status.treeValid = true ∧ stateA.status.lutValid = true :=
  ⟨⟨quiet_reset, reset_tablesOk, by decide⟩, quiet_stateA,
    ⟨fun _ => rfl, fun _ => ⟨stateA_validTree, treeA, stateA_holdsTree, by decide, by decide, fun _ => stateA_holdsCodes⟩⟩,
    by decide, rfl, rfl⟩

/-- What `resultOf` reads is read of a next state. -/
theorem next_of_resultOf {α : Type} {f : State → α} {r : Result} {v : α} (h : resultOf f r = some v) :
    ∃ t, r = .next t ∧ f t = v := by
  cases r with
  | next t => exact ⟨t, rfl, by simpa [resultOf] using h⟩
  | fault e => simp [resultOf] at h
  | refused e => simp [resultOf] at h

/-- CLEAR on a state with a tree ends, done. -/
theorem exec_clear_stateA : ∃ t, exec .clear stateA = .next t ∧ t.status.done = true :=
  next_of_resultOf (f := fun t => t.status.done) (by decide +kernel)

/-- A command that ends done, and one that ends with an error. -/
theorem witness_StatusAfterCommandIsItsOwn : (stateA.status.busy = false ∧ ∃ t, exec .clear stateA = .next t)
    ∧ State.reset.status.busy = false ∧ exec .genlut State.reset = .next (raise .noTree (accept 0x13#8 State.reset)) :=
  ⟨⟨rfl, exec_clear_stateA.imp fun _ h => h.1⟩, rfl, exec_genlut_reset⟩

/-- The end of COUNT, one move away. -/
theorem settle_countedA : ∃ t, settle countedA = .next t ∧ (t.status.busy, t.pend) = (false, true) :=
  next_of_resultOf (f := fun t => (t.status.busy, t.pend)) (by decide +kernel)

/-- A step that ends a command sets PEND; so does an illegal word. -/
theorem witness_PendIsSetExactlyByCommandEnds :
    (∃ t, step (poised 0x17#32) = .next t ∧ (poised 0x17#32).pend = false ∧ t.pend = true)
    ∧ (∃ t, settle countedA = .next t ∧ countedA.status.busy = true ∧ t.status.busy = false)
    ∧ ∃ t, runWord 0x17#32 State.reset = .next t ∧ t.status.busy = false := by
  refine ⟨⟨_, rfl, rfl, rfl⟩, ?_, ⟨_, rfl, rfl⟩⟩
  obtain ⟨t, h, hb⟩ := settle_countedA
  exact ⟨t, h, rfl, congrArg Prod.fst hb⟩

/-- No command running; and one that goes on running, PEND cleared. -/
theorem witness_IrqPendAndOutput : (State.reset.rstN = true ∧ State.reset.status.busy = false)
    ∧ waitingState.rstN = true ∧ waitingState.status.busy = true
    ∧ settle { waitingState with pend := true && !(1#32 : Word).getLsbD 0 } = .next waitingState :=
  ⟨by decide, rfl, rfl, settle_waitingState⟩

/-- No command running, each counter with its own value. -/
theorem witness_StatusBits :
    ({ State.reset with rdBits := Counter.zero.add 8, wrBits := Counter.zero.add 1 } : State).status.busy = false := rfl

/-- A size of 8 bits, an offset that is no multiple of 4, offsets with no register (after MAGIC, ROOT, LUT_LEN and NODE_WHI, and
the last of the window). -/
theorem witness_BusErrorHasNoEffect : waitingState.rstN = true ∧ settle waitingState = .next waitingState
    ∧ AccessSize.bits8 ≠ AccessSize.bits32 ∧ (0x019#12 : BitVec 12).toNat % 4 ≠ 0
    ∧ ∀ off ∈ [0x00C#12, 0x038#12, 0x05C#12, 0x094#12, 0xFFC#12],
      off ∉ [0x000#12, 0x004#12, 0x008#12, 0x010#12, 0x014#12, 0x018#12, 0x01C#12, 0x020#12, 0x024#12, 0x028#12,
        0x02C#12, 0x030#12, 0x034#12, 0x040#12, 0x044#12, 0x050#12, 0x054#12, 0x060#12, 0x064#12, 0x068#12, 0x06C#12,
        0x070#12, 0x074#12, 0x078#12, 0x07C#12, 0x080#12, 0x084#12, 0x088#12, 0x08C#12, 0x090#12] :=
  ⟨rfl, settle_waitingState, by decide, by decide, by decide⟩

/-- A step; and an instance of CNT_W = 32. -/
theorem witness_ConstantAndReadOnlyRegisters : (∃ t, step (poised 0x17#32) = .next t) ∧ State.reset.cntW.val = 32 :=
  ⟨⟨_, rfl⟩, rfl⟩

theorem witness_ReadsHaveNoSideEffect : (Access.mk false 0x014#12 .bits32 0#32).write = false := rfl

theorem witness_IndexRegistersAndFreqWindow : State.reset.status.busy = false ∧ waitingState.status.busy = true := by decide

/-- A code of 1 bit and one of the longest, 256 bits; no table; an index past the sentinel's. -/
theorem witness_LutWindowShowsTheCode :
    (stateA.status.busy = false ∧ stateA.status.lutValid = true
      ∧ lutAt stateA.lut 97#9 = some [true] ∧ [true].length ≤ 256)
    ∧ (lutAt (setLut stateA.lut 256#9 (List.replicate 256 true)) 256#9 = some (List.replicate 256 true)
      ∧ (List.replicate 256 true).length ≤ 256)
    ∧ State.reset.status.lutValid = false ∧ 256 < (257#9 : BitVec 9).toNat := by
  refine ⟨⟨rfl, rfl, by decide +kernel, by decide⟩, ⟨?_, List.length_replicate.le⟩, rfl, by decide⟩
  rw [lutAt_setLut, if_pos rfl]; rfl

/-- The first and the last entry of a tree; no tree; the first index past its entries. -/
theorem witness_NodeWindowShowsTheEntry : stateA.status.busy = false ∧ stateA.status.treeValid = true
    ∧ (0#10 : Idx) < stateA.nodeCount ∧ nodeAt stateA.node 0#10 = some (leafNode 97#9 4)
    ∧ (2#10 : Idx) < stateA.nodeCount ∧ nodeAt stateA.node 2#10 = some (innerNode 5 1#10 0#10)
    ∧ State.reset.status.treeValid = false ∧ stateA.nodeCount ≤ 3#10 := by
  obtain ⟨h0, _, h2⟩ := nodeAt_threeNodes 97#9 256#9 1#10 0#10
  exact ⟨rfl, rfl, by decide, h0, by decide, h2, rfl, by decide⟩

theorem witness_ReadsWhileBusy : waitingState.status.busy = true ∧ waitingState.rdBits.now ∈ waitingState.rdBits.held
    ∧ waitingState.wrBits.now ∈ waitingState.wrBits.held ∧ waitingState.syms.now ∈ waitingState.syms.held := by decide

theorem witness_ResetValues : ({ State.reset with rstN := false } : State).rstN = false := rfl

theorem witness_NothingIsAnsweredInReset : ({ State.reset with rstN := false } : State).rstN = false
    ∧ ({ State.reset with rstN := false } : State).status.busy = false := ⟨rfl, rfl⟩

/-- The block at position `p`, the source answering (or not), the sink accepting (or not), one move a step. -/
def heldAt (p : Pos) (src snk : Bool) : State :=
  { countingState with seq := Machine.Seq.mk (some .compress) p [], src := Source.mk [] 0 src, snk := Sink.mk [] snk, pace := some 1 }

/-- A read, a restart and a write, each with its agent silent (the other answering) and answering; and no request. -/
theorem witness_SilentAgentMakesTheBlockWait :
    (∀ p src snk, (heldAt p src snk).pending = [] ∧ (heldAt p src snk).status.busy = true ∧ (heldAt p src snk).pace = some 1)
    ∧ ((heldAt .peekRead false true).request = some (.read 8) ∧ (heldAt .peekRead false true).src.ready = false)
    ∧ ((heldAt .restartSource false true).request = some .restart ∧ (heldAt .restartSource false true).src.ready = false)
    ∧ ((heldAt .headerWrite true false).request = some (.write 32 Config.magic.toNat)
      ∧ (heldAt .headerWrite true false).snk.ready = false)
    ∧ ((heldAt .peekRead true false).request = some (.read 8) ∧ (heldAt .peekRead true false).src.ready = true)
    ∧ ((heldAt .restartSource true false).request = some .restart ∧ (heldAt .restartSource true false).src.ready = true)
    ∧ ((heldAt .headerWrite false true).request = some (.write 32 Config.magic.toNat)
      ∧ (heldAt .headerWrite false true).snk.ready = true)
    ∧ (heldAt .clearRun false false).request = none :=
  ⟨fun _ _ _ => ⟨rfl, rfl, rfl⟩, ⟨rfl, rfl⟩, ⟨rfl, rfl⟩, ⟨rfl, rfl⟩, ⟨rfl, rfl⟩, ⟨rfl, rfl⟩, ⟨rfl, rfl⟩, rfl⟩

theorem witness_OnlyACommandWriteStartsActivity : State.reset.pending = [] ∧ State.reset.status.busy = false
    ∧ (Event.access (Access.mk true 0x018#12 .bits32 1#32)).command State.reset = none
    ∧ ∃ t, step { State.reset with pending := [.access (Access.mk true 0x018#12 .bits32 1#32)] } = .next t :=
  ⟨rfl, rfl, by decide, _, rfl⟩

theorem witness_PaceDoesNotMatter : stateA.Quiet ∧ ∃ t, exec .clear stateA = .next t ∧ t.status.busy = false := by
  obtain ⟨t, h, hb⟩ := next_of_resultOf (r := exec .clear stateA) (f := fun t => t.status.busy) (v := false) (by decide +kernel)
  exact ⟨quiet_stateA, t, h, hb⟩

/-- A position that holds a request, for each body with one, and positions that hold none; in `Emit` one with more than 32 bits to
send; a move that reads, one that meets end-of-data, one that restarts, one that writes and one with no request. -/
theorem witness_PortWidthsOfEachStep :
    (goto .peekRead State.reset).request = some (.read 8) ∧ countingState.request = some (.read 8)
    ∧ (goto .restartSource State.reset).request = some .restart
    ∧ (goto .headerWrite State.reset).request = some (.write 32 Config.magic.toNat)
    ∧ (goto .serVisit { stateA with stk := [1#10] }).request = some (.write 1 1)
    ∧ (goto (.serId 256#9) State.reset).request = some (.write 9 256)
    ∧ (goto .encRead State.reset).request = some (.read 8)
    ∧ (goto (.encEmit (List.replicate 33 true) false) State.reset).request = some (.write 32 (2 ^ 32 - 1))
    ∧ List.replicate 33 true ≠ ([] : Bits)
    ∧ (goto .magicRead State.reset).request = some (.read 32) ∧ (goto (.desBit 0) State.reset).request = some (.read 1)
    ∧ (goto (.desId 0 0#10) State.reset).request = some (.read 9) ∧ (goto .decRead State.reset).request = some (.read 1)
    ∧ (goto .decWrite { stateA with cur := 0#10 }).request = some (.write 8 97)
    ∧ State.reset.request = none ∧ (goto (.enter .count) State.reset).request = none
    ∧ (goto (.buildMerge 2 2) State.reset).request = none ∧ (goto .genlutVisit State.reset).request = none
    ∧ (goto .clearRun State.reset).request = none
    ∧ (∃ t, move (goto .peekRead (withSource bitsA 0 State.reset)) = .next t) ∧ (∃ t, move countingState = .next t)
    ∧ (∃ t, move (goto .restartSource (withSource bitsA 8 State.reset)) = .next t)
    ∧ (∃ t, move (goto (.serId 256#9) { stateA with stk := [1#10] }) = .next t)
    ∧ ∃ t, move (goto .clearRun State.reset) = .next t := by
  refine ⟨rfl, rfl, rfl, rfl, ?_, rfl, rfl, by decide +kernel, by decide, rfl, rfl, rfl, rfl, ?_, rfl, rfl, rfl, rfl, rfl, ?_,
    ⟨_, rfl⟩, ⟨_, rfl⟩, ⟨_, rfl⟩, ⟨_, rfl⟩⟩
  · decide +kernel
  · decide +kernel
  · obtain ⟨t, h, _⟩ := next_of_resultOf (r := move (goto .peekRead (withSource bitsA 0 State.reset)))
      (f := fun t => t.src.pos) (v := 8) (by decide +kernel)
    exact ⟨t, h⟩

/-- The widest read, and one with a bit too few. -/
theorem witness_PortPrimitives : (1 : Nat) < 2 ^ 32
    ∧ (withSource (bitsOf 32 1 ++ [true]) 0 State.reset).src.pos ≤ (withSource (bitsOf 32 1 ++ [true]) 0 State.reset).src.bits.length
    ∧ (withSource (bitsOf 32 1 ++ [true]) 0 State.reset).src.bits.drop 0 = bitsOf 32 1 ++ [true]
    ∧ (withSource (List.replicate 31 true) 0 State.reset).src.bits.length < 0 + 32 := by decide +kernel

theorem witness_ClearCommand : stateA.Quiet := quiet_stateA

theorem witness_RestartCommand : stateA.Quiet := quiet_stateA

theorem witness_HeaderCommand : stateA.Quiet := quiet_stateA

theorem source_aa (tail : Bits) (h : tail.length < 8) : (withSource (bytesBits [97#8, 97#8] ++ tail) 0 State.reset).SourceHolds [97#8, 97#8] :=
  ⟨Nat.zero_le _, tail, rfl, h⟩

/-- Two bytes and a tail of 7 bits. -/
theorem witness_CountCommand : (withSource (bytesBits [97#8, 97#8] ++ List.replicate 7 true) 0 State.reset).Quiet
    ∧ (withSource (bytesBits [97#8, 97#8] ++ List.replicate 7 true) 0 State.reset).SourceHolds [97#8, 97#8]
    ∧ ∀ b : Byte, [97#8, 97#8].count b < 2 ^ 32 :=
  ⟨quiet_withSource _ _, source_aa _ (by decide), fun b => lt_of_le_of_lt List.count_le_length (by decide)⟩

/-- A source with 2^32 - 1 times one byte, then that byte again. -/
theorem witness_CountOverflow :
    (withSource (bytesBits (List.replicate (2 ^ 32 - 1) 97#8 ++ [97#8])) 0 State.reset).Quiet
    ∧ (withSource (bytesBits (List.replicate (2 ^ 32 - 1) 97#8 ++ [97#8])) 0 State.reset).SourceAt
        (bytesBits (List.replicate (2 ^ 32 - 1) 97#8 ++ [97#8]))
    ∧ (∀ c : Byte, (List.replicate (2 ^ 32 - 1) 97#8).count c < 2 ^ 32)
    ∧ (List.replicate (2 ^ 32 - 1) (97#8 : Byte)).count 97#8 = 2 ^ 32 - 1 := by
  generalize hn : 2 ^ 32 - 1 = n
  refine ⟨quiet_withSource _ _, ⟨Nat.zero_le _, [], by simp [withSource]⟩, fun c => ?_, List.count_replicate_self⟩
  refine lt_of_le_of_lt List.count_le_length ?_
  rw [List.length_replicate]; omega

theorem quiet_countedState (c : Count) : (countedState c).Quiet := ⟨rfl, rfl, rfl, rfl⟩

theorem freqAt_countedState (c : Count) (b : Byte) : freqAt (countedState c).freq b = if b = 97#8 then c else 0#32 := by
  rw [countedState, freqAt_setFreq]
  simp [State.reset, freqAt]

theorem witness_BuildCommand : (countedState 4#32).Quiet ∧ ∃ b, freqAt (countedState 4#32).freq b ≠ 0#32 :=
  ⟨quiet_countedState _, 97#8, by simp [freqAt_countedState]⟩

/-- Under STABLE_INDEX and under ANY. -/
theorem witness_BuildNodes (o : TieOrder) : ({ countedState 4#32 with tieOrder := o } : State).Quiet
    ∧ ∃ b, freqAt ({ countedState 4#32 with tieOrder := o } : State).freq b ≠ 0#32 := witness_BuildCommand

/-- A count of 1 and a count of more than 1; on this hardware, which takes STABLE_INDEX. -/
theorem witness_BuildOfOneByteValue (c : Count) (hc : c = 1#32 ∨ c = 4#32) : (countedState c).Quiet
    ∧ freqAt (countedState c).freq 97#8 ≠ 0#32 ∧ (∀ b, b ≠ 97#8 → freqAt (countedState c).freq b = 0#32)
    ∧ (countedState c).tieOrder = .stableIndex := by
  refine ⟨quiet_countedState _, ?_, fun b hb => by simp [freqAt_countedState, hb], rfl⟩
  rcases hc with rfl | rfl <;> simp [freqAt_countedState]

theorem witness_BuildWithNoSymbol : State.reset.Quiet ∧ ∀ b, freqAt State.reset.freq b = 0#32 :=
  ⟨quiet_reset, fun b => by simp [State.reset, freqAt]⟩

/-- BUILD of two leaves at its one merge. -/
def mergingState (o : TieOrder) : State :=
  { countingState with
    tieOrder := o, seq := Machine.Seq.mk (some .build) (.buildMerge 2 2) []
    sel := [SelEntry.mk 0#10 1, SelEntry.mk 1#10 1] }

/-- Two entries of equal weight; and BUILD at a merge of two leaves, under either TIE_ORDER. -/
theorem witness_PopMinTakesALeastEntry (o : TieOrder) :
    (popMin .stableIndex 0 [SelEntry.mk 5#10 2, SelEntry.mk 1#10 2, SelEntry.mk 7#10 3]
      = some (SelEntry.mk 1#10 2, [SelEntry.mk 5#10 2, SelEntry.mk 7#10 3])
    ∧ popMin .any 0 [SelEntry.mk 5#10 2, SelEntry.mk 1#10 2, SelEntry.mk 7#10 3]
      = some (SelEntry.mk 5#10 2, [SelEntry.mk 1#10 2, SelEntry.mk 7#10 3])
    ∧ SelEntry.mk 5#10 2 ∈ [SelEntry.mk 5#10 2, SelEntry.mk 1#10 2, SelEntry.mk 7#10 3]
    ∧ ∀ x ∈ [SelEntry.mk 5#10 2, SelEntry.mk 1#10 2, SelEntry.mk 7#10 3], (SelEntry.mk 5#10 2).weight ≤ x.weight)
    ∧ (mergingState o).seq.pos = .buildMerge 2 2 ∧ 2 ≤ (mergingState o).sel.length
    ∧ ∃ t, move (mergingState o) = .next t := by
  refine ⟨by decide +kernel, rfl, le_rfl, ?_⟩
  obtain ⟨a, r, h1, hp1, _⟩ := popMin_spec o (Config.tieDraw 0) (sel := (mergingState o).sel) (by simp [mergingState])
  obtain ⟨b, r', h2, _⟩ := popMin_spec o (Config.tieDraw 1) (sel := r) (by
    rintro rfl
    exact absurd hp1.length_eq (show ¬ 2 = 1 by decide))
  exact ⟨_, movesTo_merge (s := mergingState o) ⟨rfl, rfl, rfl⟩ rfl h1 h2 (by decide) |>.2.choose_spec.1⟩

theorem witness_BuildIsOptimal : (countedState 4#32).Quiet ∧ (∃ b, freqAt (countedState 4#32).freq b ≠ 0#32)
    ∧ PrefixFree treeA.codeOf treeA.leaves := ⟨witness_BuildCommand.1, witness_BuildCommand.2, by unfold PrefixFree; decide⟩

theorem witness_GenlutCommand : stateA.Quiet ∧ stateA.HoldsTree treeA := ⟨quiet_stateA, stateA_holdsTree⟩

theorem witness_CodesArePrefixFreeAndFillTheSpace : treeA.isInner = true ∧ treeA.size ≤ 513 ∧ treeA.leaves.Nodup := by decide

theorem witness_SerializeCommand : stateA.Quiet ∧ stateA.HoldsTree treeA := ⟨quiet_stateA, stateA_holdsTree⟩

theorem witness_DeserializeCommand : (withSource (treeA.serial ++ [true]) 0 State.reset).Quiet
    ∧ (withSource (treeA.serial ++ [true]) 0 State.reset).SourceAt treeA.serial ∧ treeA.size ≤ 513 ∧ treeA.isInner = true
    ∧ ∀ v ∈ treeA.leaves, v ≤ Config.eos :=
  ⟨quiet_withSource _ _, ⟨Nat.zero_le _, [true], rfl⟩, by decide, by decide, by decide⟩

/-- A tree, and each way to end without one: no bit, an id of 257, a single leaf (R216, R218), 514 control bits 0, a node too many
(V38), and 513 of them, where the bits run out first (V39). -/
theorem witness_DeserializeOfAnyBits : (withSource treeBits 0 State.reset).Quiet
    ∧ (withSource treeBits 0 State.reset).src.pos ≤ (withSource treeBits 0 State.reset).src.bits.length
    ∧ treeFieldEnd treeBits = none ∧ treeFieldEnd [] = some .truncated ∧ treeFieldEnd (bitsOf 11 0b01100000001) = some .badTree
    ∧ treeFieldEnd (bitsOf 10 0b1001100001) = some .badTree ∧ treeFieldEnd (List.replicate 514 false) = some .badTree
    ∧ treeFieldEnd (List.replicate 513 false) = some .truncated :=
  ⟨quiet_withSource _ _, Nat.zero_le _, by decide +kernel, by decide +kernel, by decide +kernel, by decide +kernel,
    by decide +kernel, by decide +kernel⟩

theorem sourceHolds_of (s : State) (x : List Byte) : (withSource (bytesBits x) 0 s).SourceHolds x :=
  ⟨Nat.zero_le _, [], by simp [withSource], by simp⟩

theorem witness_EncodeCommand : (withSource (bytesBits [97#8]) 0 stateA).Quiet ∧ (withSource (bytesBits [97#8]) 0 stateA).HoldsCodes treeA
    ∧ treeA.size ≤ 513 ∧ treeA.isInner = true ∧ (withSource (bytesBits [97#8]) 0 stateA).SourceHolds [97#8]
    ∧ (∀ b ∈ [97#8], (b : Byte).setWidth 9 ∈ treeA.leaves) ∧ Config.eos ∈ treeA.leaves :=
  ⟨⟨rfl, rfl, rfl, rfl⟩, stateA_holdsCodes, by decide, by decide, sourceHolds_of _ _, by decide, by decide⟩

/-- A byte with no code; and no code for the sentinel. -/
theorem witness_EncodeWithoutACode :
    ((withSource (bytesBits [97#8, 98#8]) 0 stateA).Quiet ∧ (withSource (bytesBits [97#8, 98#8]) 0 stateA).HoldsCodes treeA
      ∧ treeA.size ≤ 513 ∧ treeA.isInner = true ∧ (∀ b ∈ [97#8], (b : Byte).setWidth 9 ∈ treeA.leaves)
      ∧ (98#8 : Byte).setWidth 9 ∉ treeA.leaves
      ∧ (withSource (bytesBits [97#8, 98#8]) 0 stateA).SourceAt (bytesBits ([97#8] ++ [98#8])))
    ∧ ((withSource (bytesBits [97#8, 97#8]) 0 stateAB).Quiet ∧ (withSource (bytesBits [97#8, 97#8]) 0 stateAB).HoldsCodes treeAB
      ∧ treeAB.size ≤ 513 ∧ treeAB.isInner = true ∧ (∀ b ∈ [97#8, 97#8], (b : Byte).setWidth 9 ∈ treeAB.leaves)
      ∧ Config.eos ∉ treeAB.leaves ∧ (withSource (bytesBits [97#8, 97#8]) 0 stateAB).SourceHolds [97#8, 97#8]) := by
  refine ⟨⟨⟨rfl, rfl, rfl, rfl⟩, stateA_holdsCodes, by decide, by decide, by decide, by decide, ⟨Nat.zero_le _, [], ?_⟩⟩,
    ⟨⟨rfl, rfl, rfl, rfl⟩, stateAB_holdsCodes, by decide, by decide, by decide, by decide, sourceHolds_of _ _⟩⟩
  simp [withSource]

/-- 31 bits, and 32 of them: MAGIC, and MAGIC with its last bit flipped. -/
theorem witness_CheckmagicCommand :
    ((withSource (List.replicate 31 true) 0 State.reset).Quiet
      ∧ (0 : Nat) ≤ (withSource (List.replicate 31 true) 0 State.reset).src.bits.length
      ∧ (withSource (List.replicate 31 true) 0 State.reset).src.bits.length < 0 + 32)
    ∧ ((withSource (bitsOf 32 Config.magic.toNat) 0 State.reset).Quiet
      ∧ ((withSource (bitsOf 32 Config.magic.toNat) 0 State.reset).src.bits.drop 0).take 32 = bitsOf 32 Config.magic.toNat)
    ∧ bitsOf 32 (Config.magic ^^^ 1#32).toNat ≠ bitsOf 32 Config.magic.toNat := by
  refine ⟨⟨quiet_withSource _ _, Nat.zero_le _, by decide +kernel⟩, ⟨quiet_withSource _ _, ?_⟩, fun h => ?_⟩
  · show (bitsOf 32 _).take 32 = _
    rw [List.take_of_length_le (by simp)]
  · have h' := congrArg valOf h
    rw [valOf_bitsOf (BitVec.isLt _), valOf_bitsOf (BitVec.isLt _)] at h'
    have h2 := congrArg (fun w : Word => w.getLsbD 0) (BitVec.eq_of_toNat_eq h')
    simp at h2

/-- No bit, and so TRUNCATED; and two bytes with the sentinel's code after them, where it completes. -/
theorem witness_DecodeCommand :
    (stateA.Quiet ∧ stateA.HoldsTree treeA ∧ stateA.src.pos ≤ stateA.src.bits.length
      ∧ (decodeFrom treeA treeA (stateA.src.bits.drop stateA.src.pos)).2.2 = false)
    ∧ (withSource [true, true, false, true] 0 stateA).Quiet ∧ (withSource [true, true, false, true] 0 stateA).HoldsTree treeA
    ∧ (withSource [true, true, false, true] 0 stateA).src.pos ≤ (withSource [true, true, false, true] 0 stateA).src.bits.length
    ∧ (decodeFrom treeA treeA ((withSource [true, true, false, true] 0 stateA).src.bits.drop 0)).2.2 = true :=
  ⟨⟨quiet_stateA, stateA_holdsTree, by decide, by decide⟩, ⟨rfl, rfl, rfl, rfl⟩, stateA_holdsTree, by decide, by decide⟩

/-- With CNT_W = 2 the fourth `a` meets a full entry. -/
theorem witness_CompressCommand_overflow :
    let s := { withSource (bytesBits ([97#8, 97#8, 97#8] ++ [97#8]) ++ [true]) 0 State.reset with cntW := 2 }
    s.Quiet ∧ s.src.bits = bytesBits ([97#8, 97#8, 97#8] ++ [97#8]) ++ [true]
    ∧ (∀ c : Byte, [97#8, 97#8, 97#8].count c < 2 ^ s.cntW.val) ∧ [97#8, 97#8, 97#8].count 97#8 = 2 ^ s.cntW.val - 1
    ∧ s.src.pos + 8 ≤ s.src.bits.length :=
  ⟨⟨rfl, rfl, rfl, rfl⟩, rfl, fun _ => lt_of_le_of_lt List.count_le_length (by decide), by decide, by decide +kernel⟩

/-- Two bytes and a tail of 7 bits, from the first byte. -/
theorem witness_CompressCommand : (withSource (bytesBits [97#8, 97#8] ++ List.replicate 7 true) 0 State.reset).Quiet
    ∧ (List.replicate 7 true).length < 8 ∧ [97#8, 97#8] ≠ ([] : List Byte) ∧ (∀ b : Byte, [97#8, 97#8].count b < 2 ^ 32)
    ∧ 0 + 8 ≤ (withSource (bytesBits [97#8, 97#8] ++ List.replicate 7 true) 0 State.reset).src.bits.length :=
  ⟨quiet_withSource _ _, by decide, by decide, fun b => lt_of_le_of_lt List.count_le_length (by decide), by decide +kernel⟩

/-- 7 bits left. -/
theorem witness_CompressEmptyInput : (withSource (List.replicate 7 true) 0 State.reset).Quiet
    ∧ (withSource (List.replicate 7 true) 0 State.reset).src.bits.length < 0 + 8 := ⟨quiet_withSource _ _, by decide⟩

/-- The stream of `a` under `treeA`, and one bit more. -/
theorem witness_DecompressCommand (rest : Bits) (hr : rest = treeA.payload [97#8] ++ [true]) :
    (withSource (bitsOf 32 Config.magic.toNat ++ (treeA.serial ++ rest)) 0 State.reset).Quiet
    ∧ (withSource (bitsOf 32 Config.magic.toNat ++ (treeA.serial ++ rest)) 0 State.reset).SourceIs
        (bitsOf 32 Config.magic.toNat ++ (treeA.serial ++ rest))
    ∧ treeA.size ≤ 513 ∧ treeA.isInner = true ∧ (∀ v ∈ treeA.leaves, v ≤ Config.eos) ∧ rest = [true, false, true] :=
  ⟨quiet_withSource _ _, ⟨Nat.zero_le _, rfl⟩, by decide, by decide, by decide, hr.trans (by decide)⟩

/-- MAGIC, then no bit (TRUNCATED), or a tree that is a single leaf (BAD_TREE). -/
theorem witness_DecompressCommand_badField (field : Bits) :
    (withSource (bitsOf 32 Config.magic.toNat ++ field) 0 State.reset).Quiet
    ∧ (withSource (bitsOf 32 Config.magic.toNat ++ field) 0 State.reset).SourceIs (bitsOf 32 Config.magic.toNat ++ field)
    ∧ treeFieldEnd [] = some .truncated ∧ treeFieldEnd (bitsOf 10 0b1001100001) = some .badTree :=
  ⟨quiet_withSource _ _, ⟨Nat.zero_le _, rfl⟩, by decide +kernel, by decide +kernel⟩

/-- Nothing at all; and 32 bits that are not MAGIC. -/
theorem witness_DecompressFormatError :
    (State.reset.Quiet ∧ State.reset.src.pos ≤ State.reset.src.bits.length
      ∧ (State.reset.src.bits.drop State.reset.src.pos).take 32 ≠ bitsOf 32 Config.magic.toNat)
    ∧ (withSource (bitsOf 32 (Config.magic ^^^ 1#32).toNat) 0 State.reset).Quiet
    ∧ bitsOf 32 (Config.magic ^^^ 1#32).toNat ≠ bitsOf 32 Config.magic.toNat := by
  refine ⟨⟨quiet_reset, by decide, fun h => ?_⟩, quiet_withSource _ _, witness_CheckmagicCommand.2.2⟩
  have := congrArg List.length h
  simp [State.reset] at this

/-- Two bytes, and none; on a machine that takes `TIE_ORDER = ANY` too. -/
theorem witness_CompressThenDecompress :
    ((withSource (bytesBits [97#8, 97#8] ++ List.replicate 7 true) 0 State.reset).Quiet
      ∧ (List.replicate 7 true).length < 8 ∧ [97#8, 97#8] ≠ ([] : List Byte) ∧ (∀ b : Byte, [97#8, 97#8].count b < 2 ^ 32)
      ∧ 0 + 8 ≤ (withSource (bytesBits [97#8, 97#8] ++ List.replicate 7 true) 0 State.reset).src.bits.length)
    ∧ (State.reset.Quiet ∧ State.reset.src.bits = [] ∧ State.reset.src.pos = 0)
    ∧ ({ withSource (bytesBits [97#8, 97#8] ++ List.replicate 7 true) 0 State.reset with tieOrder := .any } : State).Quiet :=
  ⟨witness_CompressCommand, ⟨quiet_reset, rfl, rfl⟩, rfl, rfl, rfl, rfl⟩

theorem witness_SerializeThenDeserialize : stateA.Quiet ∧ stateA.HoldsTree treeA := ⟨quiet_stateA, stateA_holdsTree⟩

theorem witness_PrimitiveCommandsReproduceTheWhole :
    ((withSource (bytesBits [97#8, 97#8] ++ List.replicate 7 true) 0 State.reset).Quiet
      ∧ (List.replicate 7 true).length < 8 ∧ [97#8, 97#8] ≠ ([] : List Byte) ∧ (∀ b : Byte, [97#8, 97#8].count b < 2 ^ 32)
      ∧ 0 + 8 ≤ (withSource (bytesBits [97#8, 97#8] ++ List.replicate 7 true) 0 State.reset).src.bits.length)
    ∧ (State.reset.Quiet ∧ State.reset.src.bits = [] ∧ State.reset.src.pos = 0)
    ∧ (withSource (bitsOf 32 Config.magic.toNat ++ (treeA.serial ++ [true])) 0 State.reset).SourceIs
        (bitsOf 32 Config.magic.toNat ++ (treeA.serial ++ [true])) :=
  ⟨witness_CompressCommand, ⟨quiet_reset, rfl, rfl⟩, Nat.zero_le _, rfl⟩

theorem reset_coherent : State.reset.Coherent := by
  simp [State.reset, Status.reset, Counter.zero, State.Coherent, State.StatusCoherent, State.TreeCoherent, State.RestCoherent,
    Machine.Seq.idle, Machine.Seq.todo, Pos.body, Pos.started, Pos.makesTree, tablesSuffice, Pos.deserializing]

/-- A coherent state in the middle of a command, and one about to take a word. -/
theorem witness_EveryStepKeepsTheStateCoherent : (poised 0x17#32).Coherent ∧ (∃ t, step (poised 0x17#32) = .next t)
    ∧ countedA.Coherent ∧ ∃ t, step countedA = .next t := by
  refine ⟨reset_coherent, ⟨_, rfl⟩, ?_, ?_⟩
  · simp [countedA, countingState, waitingState, bitsA, State.reset, Status.reset, Counter.zero, State.Coherent,
      State.StatusCoherent, State.TreeCoherent, State.RestCoherent, Machine.Seq.todo, Pos.body, Pos.started, Pos.makesTree,
      tablesSuffice, Pos.deserializing, Body.phase]
  · obtain ⟨t, h, _⟩ := settle_countedA
    exact ⟨t, h⟩

theorem witness_NoCommandTouchesTheHostsState : ∃ t, exec .clear stateA = .next t :=
  exec_clear_stateA.imp fun _ h => h.1

theorem witness_OnlyTheirCommandsChangeTheTables : stateA.status.busy = false ∧ ∃ t, exec .clear stateA = .next t :=
  ⟨rfl, exec_clear_stateA.imp fun _ h => h.1⟩

theorem witness_OnlyTheirCommandsUseTheStreams : stateA.status.busy = false ∧ ∃ t, exec .clear stateA = .next t :=
  ⟨rfl, exec_clear_stateA.imp fun _ h => h.1⟩

/-- The first and the last register, CMD, and the offsets next to them that have none; accesses that are no command word: a write
of CTRL while no command runs, and while one does a write of LUT_IDX and a read of CMD. -/
theorem witness_RegisterMap : State.reset.rstN = true ∧ Csr.ofOffset 0x000#12 = some .id ∧ Csr.ofOffset 0x090#12 = some .nodeWhi
    ∧ Csr.ofOffset 0x010#12 = some .cmd ∧ Csr.ofOffset 0x00C#12 = none ∧ Csr.ofOffset 0x094#12 = none
    ∧ Csr.ofOffset 0x003#12 = none
    ∧ (Access.mk true 0x018#12 .bits32 1#32).command State.reset = none
    ∧ waitingState.rstN = true ∧ (Access.mk true 0x050#12 .bits32 5#32).command waitingState = none
    ∧ (Access.mk false 0x010#12 .bits32 0#32).command waitingState = none := by decide

end Sys2Proof.Tests
end

/-! SUPPORT. Reads and writes of the registers, what keeps CNT_W and TIE_ORDER, and the LUT window (10_state.md R21 to R23, R46, R48). -/

namespace Sys2Proof.Machine

/-! ### Reads and writes of registers (R83, R309) -/

/-- While no command runs a window register shows its value, and the read changes nothing (R38, R39, R41). -/
theorem readWindow_idle {s : State} (v : Word) (h : s.status.busy = false) : readWindow v s = (v, s) := by
  simp [readWindow, h]

theorem readWindow_snd (v : Word) (s : State) : ∃ d, (readWindow v s).2 = { s with draws := d } := by
  unfold readWindow
  split
  · exact ⟨s.draws + 1, rfl⟩
  · exact ⟨s.draws, rfl⟩

theorem readCounter_snd (c : Counter) (s : State) : ∃ d, (readCounter c s).2 = { s with draws := d } := by
  unfold readCounter
  split
  · exact ⟨s.draws + 1, rfl⟩
  · exact ⟨s.draws, rfl⟩

/-- A read moves at most the model's count of free values (R83). -/
theorem csrRead_snd (r : Csr) (s : State) : ∃ d, (csrRead r s).2 = { s with draws := d } := by
  cases r with
  | freqData | lutLen | lutCode k | nodeInfo | nodeChild | nodeWlo | nodeWhi => exact readWindow_snd _ s
  | rdBits | wrBits | syms => exact readCounter_snd _ s
  | id | param | magic | cmd | status | ctrl | irq | leafCount | nodeCount | root | freqIdx | lutIdx | nodeIdx =>
    exact ⟨s.draws, rfl⟩

/-- The registers that `csrWrite` can change. -/
def Csr.writable : List Csr := [.ctrl, .irq, .freqIdx, .freqData, .lutIdx, .nodeIdx]

/-- A write of any other register changes nothing (R83). -/
theorem csrWrite_of_not_writable {r : Csr} (h : r ∉ Csr.writable) (v : Word) (s : State) : csrWrite r v s = s := by
  cases r with
  | ctrl | irq | freqIdx | freqData | lutIdx | nodeIdx => exact absurd h (by decide)
  | _ => rfl

/-- PARAM's CNT_W field is its low byte; the other two are constants (R22). -/
theorem paramWord_eq (w : Fin (Config.cntMax + 1)) : paramWord w = 0x02010900#32 + BitVec.ofNat 32 w.val := by
  revert w
  decide

/-! ### CNT_W and TIE_ORDER -/

/-- The two parameters that a state carries, CNT_W and TIE_ORDER, are the same (R22, R48; log entries 12 and 31). -/
def SameParams (s t : State) : Prop := t.cntW = s.cntW ∧ t.tieOrder = s.tieOrder

theorem SameParams.refl (s : State) : SameParams s s := ⟨rfl, rfl⟩

theorem SameParams.trans {s t u : State} (h : SameParams s t) (g : SameParams t u) : SameParams s u :=
  ⟨g.1.trans h.1, g.2.trans h.2⟩

theorem Kept.sameParams {s t : State} (h : Kept s t) : SameParams s t := by
  obtain ⟨⟨_, _, _, _, _, hc, ht⟩, _⟩ := h
  exact ⟨hc, ht⟩

/-- The moves of a step keep what each move keeps. -/
theorem settle_kept {s t : State} (h : settle s = .next t) : Kept s t :=
  drive_keeps (fun _ _ _ hk hm => hk.trans (move_moved hm).1) h (Kept.refl s)

theorem settle_sameParams {s t : State} (h : settle s = .next t) : SameParams s t := (settle_kept h).sameParams

theorem runCommand_sameParams {op : Instr} {pre : Precondition} {b : Body} {bs : List Body} {s t : State}
    (h : runCommand op pre b bs s = .next t) : SameParams s t := by
  cases hb : s.status.busy with
  | true =>
    rw [runCommand_busy hb] at h
    exact .trans (t := discard s) ⟨rfl, rfl⟩ (settle_sameParams h)
  | false =>
    cases hp : pre.fails s with
    | some e =>
      rw [runCommand_fails hb hp] at h
      cases h
      exact ⟨rfl, rfl⟩
    | none =>
      rw [runCommand_runs hb hp] at h
      exact .trans (t := dispatched op b bs s) ⟨rfl, rfl⟩ (settle_sameParams h)

theorem illegalCommand_sameParams {w : Word} {s t : State} (h : illegalCommand w s = .next t) : SameParams s t := by
  unfold illegalCommand at h
  split at h
  · exact .trans (t := discard s) ⟨rfl, rfl⟩ (settle_sameParams h)
  · cases h
    exact ⟨rfl, rfl⟩

theorem runWord_sameParams {w : Word} {s t : State} (h : runWord w s = .next t) : SameParams s t := by
  unfold runWord at h
  split at h
  · rw [exec_eq] at h
    exact runCommand_sameParams h
  · exact illegalCommand_sameParams h

theorem csrWrite_sameParams (r : Csr) (v : Word) (s : State) : SameParams s (csrWrite r v s) := by
  by_cases hr : r ∈ Csr.writable
  · cases r with
    | freqData => simp only [csrWrite]; split <;> exact ⟨rfl, rfl⟩
    | ctrl | irq | freqIdx | lutIdx | nodeIdx => exact ⟨rfl, rfl⟩
    | _ => exact absurd hr (by simp [Csr.writable])
  · rw [csrWrite_of_not_writable hr]
    exact .refl s

theorem busAccess_sameParams (a : Access) (s : State) : SameParams s (busAccess a s) := by
  unfold busAccess
  split
  · split
    · exact ⟨rfl, rfl⟩
    next r _ =>
      split
      · exact csrWrite_sameParams r a.data s
      · obtain ⟨d, hd⟩ := csrRead_snd r s
        rw [hd]
        exact ⟨rfl, rfl⟩
  · exact ⟨rfl, rfl⟩

/-- A reset loads every register but these (R301, R302; log entries 12 and 31). -/
theorem resetPin_sameParams (level : Bool) (s : State) : SameParams s (resetPin level s) := by
  unfold resetPin
  split <;> exact ⟨rfl, rfl⟩

theorem exclusive_sameParams {s u t : State} (hu : SameParams s u) (h : exclusive s u = .next t) :
    SameParams s t := by
  unfold exclusive at h
  split at h <;> cases h
  exact hu

theorem foreignUse_sameParams (u : StreamUse) (s : State) : SameParams s (foreignUse u s) := by
  cases u <;> exact ⟨rfl, rfl⟩

theorem serve_sameParams {e : Event} {s t : State} (h : serve e s = .next t) : SameParams s t := by
  cases e with
  | access a => cases h; exact busAccess_sameParams a s
  | rst level => cases h; exact resetPin_sameParams level s
  | sourceReady | sinkReady | sourceChanges | pace => cases h; exact ⟨rfl, rfl⟩
  | attach bits pos => exact exclusive_sameParams (u := { s with src := s.src.attach bits pos }) ⟨rfl, rfl⟩ h
  | foreign u => exact exclusive_sameParams (foreignUse_sameParams u s) h

theorem thenSettle_sameParams {s t : State} {r : Result} (hr : ∀ u, r = .next u → SameParams s u)
    (h : thenSettle r = .next t) : SameParams s t := by
  cases r with
  | next u => exact (hr u rfl).trans (settle_sameParams h)
  | fault | refused => cases h

theorem step_sameParams {s t : State} (h : step s = .next t) : SameParams s t := by
  unfold step at h
  split at h
  · exact settle_sameParams h
  next e es _ =>
    split at h
    · exact .trans (t := respond .done { s with pending := es }) ⟨rfl, rfl⟩ (runWord_sameParams h)
    · exact .trans (t := { s with pending := es }) ⟨rfl, rfl⟩
        (thenSettle_sameParams (fun _ hu => serve_sameParams hu) h)

/-! ### The LUT window (R46) -/

/-- Bit `j` of a bit string, first bit first, is bit `length - 1 - j` of its number (R8). -/
theorem testBit_valOf (l : Bits) {j : Nat} (h : j < l.length) : (valOf l).testBit (l.length - 1 - j) = l[j] := by
  induction l generalizing j with
  | nil => cases h
  | cons b l ih =>
    rw [valOf_cons, Nat.mul_comm, Nat.testBit_two_pow_mul_add _ (valOf_lt l)]
    cases j with
    | zero => cases b <;> simp
    | succ j =>
      have hj : j < l.length := Nat.lt_of_succ_lt_succ h
      have hi : (b :: l).length - 1 - (j + 1) = l.length - 1 - j := by simp; omega
      rw [hi, if_pos (by omega), ih hj, List.getElem_cons_succ]

theorem codeSlice_length (c : Bits) (k : Nat) : (codeSlice c k).length = 32 := by simp [codeSlice]

/-- Bit `31 - j` of a slice's word is bit `j` of the slice. -/
theorem getLsbD_codeSlice (c : Bits) (k : Nat) {j : Nat} (hj : j < 32) :
    (BitVec.ofNat 32 (valOf (codeSlice c k))).getLsbD (31 - j) = c.getD (32 * k + j) false := by
  have hj' : j < (codeSlice c k).length := by rw [codeSlice_length]; exact hj
  have hbit : (valOf (codeSlice c k)).testBit (31 - j) = (codeSlice c k)[j] := by
    simpa [codeSlice_length] using testBit_valOf (codeSlice c k) hj'
  have hlow : 31 - j < 32 := by omega
  rw [BitVec.getLsbD_ofNat, hbit]
  simp [hlow, codeSlice]

theorem windowCode_of_lutValid {s : State} (h : s.status.lutValid = true) : windowCode s = lutAt s.lut s.lutIdx := by
  simp [windowCode, h]

theorem windowCode_eq_none {s : State} (h : s.status.lutValid = false ∨ 256 < s.lutIdx.toNat) : windowCode s = none := by
  rcases h with hv | hi
  · simp [windowCode, hv]
  · have : lutAt s.lut s.lutIdx = none := Vector.getElem?_eq_none hi
    simp [windowCode, this]

theorem lutLenWord_of_code {s : State} {c : Bits} (h : windowCode s = some c) (hc : c.length ≤ 256) :
    lutLenWord s = BitVec.ofNat 32 c.length := by
  simp only [lutLenWord, h]
  exact BitVec.setWidth_ofNat_of_le_of_lt (by decide) (by omega)

theorem lutCodeWord_of_code {s : State} {c : Bits} (h : windowCode s = some c) (k : Nat) :
    lutCodeWord k s = BitVec.ofNat 32 (valOf (codeSlice c k)) := by
  simp [lutCodeWord, h]

theorem csrRead_lutLen_idle {s : State} (h : s.status.busy = false) : csrRead .lutLen s = (lutLenWord s, s) :=
  readWindow_idle _ h

theorem csrRead_lutCode_idle {s : State} (h : s.status.busy = false) (k : Fin 8) :
    csrRead (.lutCode k) s = (lutCodeWord k.val s, s) := readWindow_idle _ h

/-- Settles O18: bit `31 - j` of the word of a 32-bit slice is the slice's bit `j`. -/
theorem lutWindowShowsTheCode : Obligations.LutWindowShowsTheCode := by
  intro s hbusy
  constructor
  · intro c hvalid hcode hlen
    have hw : windowCode s = some c := (windowCode_of_lutValid hvalid).trans hcode
    constructor
    · rw [csrRead_lutLen_idle hbusy, lutLenWord_of_code hw hlen]
    · intro k j hj
      rw [csrRead_lutCode_idle hbusy, lutCodeWord_of_code hw, getLsbD_codeSlice c k.val hj]
  · intro hnone
    have hw : windowCode s = none := windowCode_eq_none hnone
    constructor
    · rw [csrRead_lutLen_idle hbusy]
      simp [lutLenWord, hw]
    · intro k
      rw [csrRead_lutCode_idle hbusy]
      simp [lutCodeWord, hw]

/-- Settles O14: the constants stand in the read function; CNT_W and TIE_ORDER are kept by each part of a step; and no
register of the list is one that `csrWrite` can change. -/
theorem constantAndReadOnlyRegisters : Obligations.ConstantAndReadOnlyRegisters := by
  intro s v
  have hparam : csrRead .param s = (0x02010900#32 + BitVec.ofNat 32 s.cntW.val, s) :=
    congrArg (·, s) (paramWord_eq s.cntW)
  refine ⟨rfl, hparam, fun hw => ?_, fun t ht => step_sameParams ht, rfl, rfl, by decide, fun e he => ?_⟩
  · rw [hparam, hw]
    rfl
  · have hmap : Csr.ofOffset e.1 = some e.2 ∧ e.2 ∉ Csr.writable := by
      revert e
      decide
    exact ⟨hmap.1, csrWrite_of_not_writable hmap.2 v s⟩

end Sys2Proof.Machine

/-! SUPPORT. The register map read both ways, and what an access that is no command word does (20_memory.md R81, R82, R85, R280). -/

namespace Sys2Proof.Machine

/-! ### The register map (R82) -/

theorem find?_offset_cons (r : Csr) (rs : List Csr) (off : BitVec 12) :
    ((r :: rs).find? fun q => q.offset == off) = if off = r.offset then some r else rs.find? fun q => q.offset == off := by
  by_cases h : off = r.offset
  · simp [h]
  · simp [h, Ne.symm h]

theorem ofOffset_offset (r : Csr) : Csr.ofOffset r.offset = some r := by
  cases r with
  | lutCode k => revert k; decide
  | _ => rfl

/-- The map gives a register exactly at its offset. -/
theorem ofOffset_eq_some_iff {r : Csr} {off : BitVec 12} : Csr.ofOffset off = some r ↔ r.offset = off := by
  constructor
  · intro h
    simpa using List.find?_some h
  · rintro rfl
    exact ofOffset_offset r

theorem ofOffset_eq_none_iff {off : BitVec 12} : Csr.ofOffset off = none ↔ off ∉ Csr.all.map Csr.offset := by
  simp [Csr.ofOffset]

/-- Every register stands at a multiple of 4 (R81). -/
theorem offset_mod_four (r : Csr) : r.offset.toNat % 4 = 0 := by
  cases r with
  | lutCode k => revert k; decide
  | _ => rfl

/-! ### Accesses -/

theorem target_eq_none {a : Access}
    (h : a.size ≠ .bits32 ∨ a.offset.toNat % 4 ≠ 0 ∨ a.offset ∉ Csr.all.map Csr.offset) : a.target = none := by
  unfold Access.target
  cases hsize : a.size with
  | bits32 =>
    have hoff : a.offset ∉ Csr.all.map Csr.offset := by
      rcases h with h | h | h
      · exact absurd hsize h
      · intro hm
        obtain ⟨r, _, hr⟩ := List.mem_map.mp hm
        exact h (hr ▸ offset_mod_four r)
      · exact h
    exact ofOffset_eq_none_iff.mpr hoff
  | bits8 | bits16 => rfl

theorem busAccess_of_no_target {a : Access} {s : State} (hr : s.rstN = true) (ht : a.target = none) :
    busAccess a s = respond .busError s := by
  simp [busAccess, hr, ht]

theorem busAccess_read {a : Access} {s : State} {r : Csr} (hr : s.rstN = true) (ht : a.target = some r)
    (hw : a.write = false) : busAccess a s = respond (.data (csrRead r s).1) (csrRead r s).2 := by
  simp [busAccess, hr, ht, hw]

theorem busAccess_write {a : Access} {s : State} {r : Csr} (hr : s.rstN = true) (ht : a.target = some r)
    (hw : a.write = true) : busAccess a s = respond .done (csrWrite r a.data s) := by
  simp [busAccess, hr, ht, hw]

theorem command_of_no_target {a : Access} (ht : a.target = none) (s : State) : a.command s = none := by
  simp [Access.command, ht]

theorem command_of_write_cmd {a : Access} {s : State} (hr : s.rstN = true) (ht : a.target = some .cmd)
    (hw : a.write = true) : a.command s = some a.data := by
  simp [Access.command, hr, ht, hw]

/-- An access that is no command word is made, and the sequencer goes on from there (R83, R85). -/
theorem step_access {a : Access} {s : State} (es : List Event) (h : a.command s = none) :
    step { s with pending := .access a :: es } = settle (busAccess a { s with pending := es }) := by
  have hc : (Event.access a).command { s with pending := .access a :: es } = none := h
  simp only [step, hc]
  rfl

/-- The sequencer's part of a step does not see the answer to the last access or the events to come (R280). -/
theorem settle_respond {s t : State} (r : Response) (es : List Event) (h : settle s = .next t) :
    settle (respond r { s with pending := es }) = .next { t with response := some r, pending := es } := by
  obtain ⟨_, ⟨_, _, hpace, _⟩, _, _, _, hovr⟩ := settle_kept h
  have hrun : settle (aside (some r) es s.pace s.status.ovr s) = .next (aside (some r) es s.pace s.status.ovr t) :=
    (drive_aside (some r) es s.pace s.status.ovr s.quantum s).trans (congrArg _ h)
  have ht : aside (some r) es s.pace s.status.ovr t = { t with response := some r, pending := es } := by
    rw [← hpace, ← hovr]
    rfl
  exact hrun.trans (congrArg Host.Outcome.next ht)

/-- Settles O15: no register is reached, so the bus answers with an error, and a run of moves reads neither that answer
nor the events to come. -/
theorem busErrorHasNoEffect : Obligations.BusErrorHasNoEffect := by
  intro s t es a hr hs ha
  have ht : a.target = none := target_eq_none ha
  calc step { s with pending := .access a :: es }
      = settle (busAccess a { s with pending := es }) := step_access es (command_of_no_target ht s)
    _ = settle (respond .busError { s with pending := es }) := congrArg settle (busAccess_of_no_target hr ht)
    _ = .next { t with response := some .busError, pending := es } := settle_respond .busError es hs

/-- Settles O60: the map's search written out as its chain of offsets, the access at each kind of offset, and the step. -/
theorem registerMap : Obligations.RegisterMap := by
  refine ⟨fun off => ?_, fun r off => ofOffset_eq_some_iff.symm, fun w => rfl, fun s off d hr => ⟨fun r h => ?_, fun h w => ?_⟩,
    fun s es a _ h => step_access es h⟩
  · simp only [Csr.ofOffset, Csr.all, find?_offset_cons]
    rfl
  · refine ⟨busAccess_read (a := ⟨false, off, .bits32, d⟩) hr h rfl, fun _ => ?_, fun hcmd => ?_⟩
    · exact busAccess_write (a := ⟨true, off, .bits32, d⟩) hr h rfl
    · subst hcmd
      exact command_of_write_cmd (a := ⟨true, off, .bits32, d⟩) hr h rfl
  · exact busAccess_of_no_target (a := ⟨w, off, .bits32, d⟩) hr h

/-- Settles O27: the bits at the cursor are the number's own, which `val` reads back. -/
theorem portPrimitives : Obligations.PortPrimitives := by
  intro s n v tail hv
  refine ⟨fun hpos hbits => ?_, readBits_eod, rfl, bitsOf_length n v, valOf_bitsOf hv⟩
  rw [readBits_of_drop hpos hbits (bitsOf_length n v), valOf_bitsOf hv]
  rfl

end Sys2Proof.Machine

/-! SUPPORT. The port request at each position (20_memory.md R91, R92) and what a move does to the two streams. -/

namespace Sys2Proof.Machine

/-! ### The request at a position -/

/-- At a control bit of SERIALIZE the request is the write of one bit, 1 for a leaf (R210). -/
theorem request_serVisit {s : State} {q : PortReq} (hp : s.seq.pos = .serVisit) (hq : s.request = some q) :
    ∃ nd : Node, q = .write 1 nd.leaf.toNat := by
  simp only [State.request, hp] at hq
  split at hq
  · cases hq
  next i stk _ =>
    obtain ⟨nd, _, rfl⟩ := Option.map_eq_some_iff.mp hq
    exact ⟨nd, rfl⟩

/-- At DECODE's write the request is the write of a byte (R251). -/
theorem request_decWrite {s : State} {q : PortReq} (hp : s.seq.pos = .decWrite) (hq : s.request = some q) :
    ∃ v : Byte, q = .write 8 v.toNat := by
  simp only [State.request, hp] at hq
  obtain ⟨nd, _, rfl⟩ := Option.map_eq_some_iff.mp hq
  exact ⟨nd.value.setWidth 8, rfl⟩

/-- A piece of a code that is not used up is of 1 to 32 bits, and its number fits them (R130, R233). -/
theorem emit_piece_bounds {rest : Bits} (h : rest ≠ []) :
    1 ≤ min 32 rest.length ∧ min 32 rest.length ≤ 32
      ∧ valOf (rest.take (min 32 rest.length)) < 2 ^ min 32 rest.length := by
  have hpos : 0 < rest.length := List.length_pos_iff.mpr h
  have hval := valOf_lt (rest.take (min 32 rest.length))
  rw [List.length_take, min_eq_left (min_le_right _ _)] at hval
  exact ⟨by omega, by omega, hval⟩

/-! ### The streams after a move -/

/-- The source and the sink after a port request is carried out, or after none (R87, R88, R90). -/
def afterRequest : Option PortReq → State → Source × Sink
  | none, s => (s.src, s.snk)
  | some (.read n), s => ((s.src.read n).2, s.snk)
  | some .restart, s => (s.src.restart, s.snk)
  | some (.write n v), s => (s.src, s.snk.write n v)

/-- If the outcome is a next state, its streams are `p`. -/
def StreamsAre (p : Source × Sink) : Result → Prop
  | .next t => (t.src, t.snk) = p
  | .fault _ => True
  | .refused _ => True

@[simp] theorem streamsAre_next (p : Source × Sink) (t : State) : StreamsAre p (.next t) ↔ (t.src, t.snk) = p := .rfl
@[simp] theorem streamsAre_fault (p : Source × Sink) (f : Fault) : StreamsAre p (.fault f) := trivial

@[simp] theorem finishBody_src (s : State) : (finishBody s).src = s.src := by
  unfold finishBody
  cases s.seq.rest <;> rfl

@[simp] theorem finishBody_snk (s : State) : (finishBody s).snk = s.snk := by
  unfold finishBody
  cases s.seq.rest <;> rfl

@[simp] theorem desFail_src (e : ErrCode) (s : State) : (desFail e s).src = s.src := rfl
@[simp] theorem desFail_snk (e : ErrCode) (s : State) : (desFail e s).snk = s.snk := rfl

/-- `ReadBits(n)` moves the source's cursor or, at end-of-data, nothing (R87). -/
theorem readBits_streams {n : Nat} {s t : State} {v : Option Nat} (h : readBits n s = (v, t)) :
    (t.src, t.snk) = afterRequest (some (.read n)) s := by
  rcases readBits_cases n s with ⟨hlt, e⟩ | ⟨hle, e⟩ <;> rw [e] at h <;> cases h
  · simp [afterRequest, Source.read, Nat.not_le.mpr hlt]
  · simp [afterRequest, Source.read, hle, received]

/-- The start of a body uses no stream. -/
theorem enterBody_streams (b : Body) (s : State) : StreamsAre (afterRequest none s) (enterBody b s) := by
  cases b with
  | build =>
    simp only [enterBody, buildEnter]
    split <;> rfl
  | _ => rfl

theorem peekRead_streams (s : State) : StreamsAre (afterRequest (some (.read 8)) s) (peekRead s) := by
  unfold peekRead
  split
  all_goals
    next hr => simpa using readBits_streams hr

theorem countRead_streams (c : Bool) (s : State) : StreamsAre (afterRequest (some (.read 8)) s) (countRead c s) := by
  unfold countRead
  split
  next hr => simpa using readBits_streams hr
  next hr =>
    dsimp only
    split <;> simpa using readBits_streams hr

theorem encRead_streams (s : State) : StreamsAre (afterRequest (some (.read 8)) s) (encRead s) := by
  unfold encRead
  split
  all_goals
    next hr => split <;> simpa using readBits_streams hr

theorem magicRead_streams (s : State) : StreamsAre (afterRequest (some (.read 32)) s) (magicRead s) := by
  unfold magicRead
  split
  next hr => simpa using readBits_streams hr
  next hr => split <;> simpa using readBits_streams hr

theorem desBit_streams (l : Nat) (s : State) : StreamsAre (afterRequest (some (.read 1)) s) (desBit l s) := by
  unfold desBit
  split
  next hr => simpa using readBits_streams hr
  next hr =>
    split
    · simpa using readBits_streams hr
    · dsimp only
      split
      · split <;> simpa using readBits_streams hr
      · trivial

/-- The returns after a leaf use no stream. -/
theorem desLeafDone_streams (l : Nat) (i : Idx) (s : State) : StreamsAre (s.src, s.snk) (desLeafDone l i s) := by
  unfold desLeafDone
  split
  · rfl
  · split
    · trivial
    · split <;> simp

theorem desId_streams (l : Nat) (i : Idx) (s : State) : StreamsAre (afterRequest (some (.read 9)) s) (desId l i s) := by
  unfold desId
  split
  next hr => simpa using readBits_streams hr
  next v s' hr =>
    split
    · simpa using readBits_streams hr
    · rw [← readBits_streams hr]
      exact desLeafDone_streams _ _ _

theorem decRead_streams (s : State) : StreamsAre (afterRequest (some (.read 1)) s) (decRead s) := by
  unfold decRead
  split
  next hr => simpa using readBits_streams hr
  next hr =>
    split
    · trivial
    · dsimp only
      split
      · trivial
      · split
        · split <;> simpa using readBits_streams hr
        · simpa using readBits_streams hr

theorem buildMerge_streams (l n : Nat) (s : State) : StreamsAre (afterRequest none s) (buildMerge l n s) := by
  unfold buildMerge
  split
  · trivial
  · split
    · simp [buildDone, afterRequest]
    · split
      · rfl
      · trivial

theorem genlutVisit_streams (s : State) : StreamsAre (afterRequest none s) (genlutVisit s) := by
  unfold genlutVisit
  split
  · trivial
  · split
    · trivial
    · split
      · split
        · dsimp only
          split <;> simp [afterRequest]
        · trivial
      · rfl

theorem serId_streams (v : Sym) (s : State) :
    StreamsAre (afterRequest (some (.write 9 v.toNat)) s) (serId v s) := by
  unfold serId
  split <;> simp [afterRequest]

theorem encEmit_streams (rest : Bits) (last : Bool) (s : State) :
    StreamsAre (afterRequest (some (.write (min 32 rest.length) (valOf (rest.take (min 32 rest.length))))) s)
      (encEmit rest last s) := by
  unfold encEmit
  dsimp only
  split
  · rfl
  · split <;> simp [afterRequest]

/-- A move does to the streams what it requested, and nothing else (R87, R88, R90, R91). -/
theorem move_streams (s : State) : StreamsAre (afterRequest s.request s) (move s) := by
  cases hp : s.seq.pos with
  | none => simp only [move, hp]; trivial
  | enter b => simpa only [move, State.request, hp] using enterBody_streams b s
  | peekRead => simpa only [move, State.request, hp] using peekRead_streams s
  | restartSource => simp [move, State.request, hp, restartRun, afterRequest]
  | countRead c => simpa only [move, State.request, hp] using countRead_streams c s
  | buildMerge l n => simpa only [move, State.request, hp] using buildMerge_streams l n s
  | genlutVisit => simpa only [move, State.request, hp] using genlutVisit_streams s
  | headerWrite => simp [move, State.request, hp, headerWrite, afterRequest]
  | serVisit =>
    simp only [move, State.request, hp, serVisit]
    cases s.stk with
    | nil => trivial
    | cons i stk =>
      dsimp only
      cases nodeAt s.node i with
      | none => trivial
      | some nd => cases hl : nd.leaf <;> simp [hl, afterRequest]
  | serId v => simpa only [move, State.request, hp] using serId_streams v s
  | encRead => simpa only [move, State.request, hp] using encRead_streams s
  | encEmit rest last => simpa only [move, State.request, hp] using encEmit_streams rest last s
  | magicRead => simpa only [move, State.request, hp] using magicRead_streams s
  | desBit l => simpa only [move, State.request, hp] using desBit_streams l s
  | desId l i => simpa only [move, State.request, hp] using desId_streams l i s
  | decRead => simpa only [move, State.request, hp] using decRead_streams s
  | decWrite =>
    simp only [move, State.request, hp, decWrite]
    cases nodeAt s.node s.cur with
    | none => trivial
    | some nd => rfl
  | clearRun => simp [move, State.request, hp, clearRun, afterRequest]

theorem streams_of_move {s t : State} (h : move s = .next t) : (t.src, t.snk) = afterRequest s.request s := by
  have hm := move_streams s
  rwa [h] at hm

/-- Settles O26: the positions of each body hold its requests; the request at each position; and the streams after a move. -/
theorem portWidthsOfEachStep : Obligations.PortWidthsOfEachStep := by
  refine ⟨fun s b q hne hb hq => ?_, fun s => ?_, fun s t h => ?_⟩
  · cases hp : s.seq.pos with
    | none | enter b' | buildMerge l n | genlutVisit | clearRun => simp [State.request, hp] at hq
    | peekRead | restartSource | countRead c | headerWrite | magicRead =>
      simp only [State.request, Pos.body, hp] at hq hb
      cases hb
      cases hq
      rfl
    | encRead | desBit l | decRead =>
      simp only [State.request, Pos.body, hp] at hq hb
      cases hb
      cases hq
      exact .inl rfl
    | desId l i =>
      simp only [State.request, Pos.body, hp] at hq hb
      cases hb
      cases hq
      exact .inr rfl
    | serVisit =>
      simp only [Pos.body, hp] at hb
      cases hb
      obtain ⟨nd, rfl⟩ := request_serVisit hp hq
      exact .inl ⟨nd.leaf.toNat, Bool.toNat_lt _, rfl⟩
    | serId v =>
      simp only [State.request, Pos.body, hp] at hq hb
      cases hb
      cases hq
      exact .inr ⟨v, rfl⟩
    | encEmit rest last =>
      simp only [State.request, Pos.body, hp] at hq hb
      cases hb
      cases hq
      obtain ⟨h1, h32, hv⟩ := emit_piece_bounds (hne rest last hp)
      exact .inr ⟨_, _, h1, h32, hv, rfl⟩
    | decWrite =>
      simp only [Pos.body, hp] at hb
      cases hb
      exact .inr (request_decWrite hp hq)
  · refine ⟨?_, ?_, ?_, fun i stk nd hp hstk hnd => ?_, ?_, fun rest last hp => ?_, ?_, ?_, ?_, fun nd hp hnd => ?_, ?_⟩
    · rintro (hp | ⟨c, hp⟩ | hp) <;> simp only [State.request, hp]
    · intro hp; simp only [State.request, hp]
    · intro hp; simp only [State.request, hp]
    · simp only [State.request, hp, hstk, hnd, Option.map_some]
      cases nd.leaf <;> rfl
    · intro v hp; simp only [State.request, hp]
    · simp only [State.request, hp, ← List.take_eq_take_min]
    · intro hp; simp only [State.request, hp]
    · rintro (⟨l, hp⟩ | hp) <;> simp only [State.request, hp]
    · intro l i hp; simp only [State.request, hp]
    · simp [State.request, hp, hnd]
    · rintro (hp | ⟨b, hp⟩ | ⟨l, n, hp⟩ | hp | hp) <;> simp only [State.request, hp]
  · have hs := streams_of_move h
    refine ⟨fun n hq => ?_, fun hq => ?_, fun n v hq => ?_, fun hq => ?_⟩ <;> rw [hq] at hs
    · exact Prod.mk.inj hs
    · exact Prod.mk.inj hs
    · exact (Prod.mk.inj hs).symm
    · exact Prod.mk.inj hs

end Sys2Proof.Machine

/-! SUPPORT. The decoder as one equivalence: a word is a command's exactly when it is that command's encoding (30_encoding.md R110). -/

namespace Sys2Proof

/-- Every row of the opcode map pairs a command with its own OP. -/
theorem opcode_of_mem_opcodeMap : ∀ row ∈ opcodeMap, row.1 = row.2.opcode := by decide

theorem opcode_of_lookup_opcodeMap {op : Byte} {i : Instr} (h : opcodeMap.lookup op = some i) : op = i.opcode := by
  obtain ⟨pre, post, hmap, _⟩ := List.lookup_eq_some_iff.mp h
  exact opcode_of_mem_opcodeMap (op, i) (by simp [hmap])

/-- A word whose reserved field is 0 is its OP field, zero-extended. -/
theorem eq_setWidth_of_reserved_zero {w : Word} (h : w.extractLsb' 8 24 = 0#24) :
    w = (w.extractLsb' 0 8).setWidth 32 := by
  calc w = w.extractLsb' 8 24 ++ w.extractLsb' 0 8 := by
        rw [BitVec.extractLsb'_append_extractLsb'_eq_extractLsb' (by rfl), BitVec.extractLsb'_eq_self]
    _ = 0#24 ++ w.extractLsb' 0 8 := by rw [h]
    _ = (w.extractLsb' 0 8).setWidth 32 := (BitVec.setWidth_eq_append (by decide)).symm

theorem decode_encode (i : Instr) : decode (encode i) = .ok i := by
  cases i <;> decide

theorem eq_encode_of_decode {w : Word} {i : Instr} (h : decode w = .ok i) : w = encode i := by
  unfold decode at h
  split at h
  case isTrue hzero =>
    split at h
    case h_1 j hrow =>
      cases h
      rw [eq_setWidth_of_reserved_zero hzero, opcode_of_lookup_opcodeMap hrow, encode]
    case h_2 => cases h
  case isFalse => cases h

theorem decode_eq_ok_iff {w : Word} {i : Instr} : decode w = .ok i ↔ w = encode i :=
  ⟨eq_encode_of_decode, fun h => h ▸ decode_encode i⟩

/-- Settles O1: the decoder accepts exactly the encodings, so a word that is none of them is answered with an error. -/
theorem legalWordsAreZeroExtendedOpcodes : Obligations.LegalWordsAreZeroExtendedOpcodes := by
  refine fun w => ⟨fun i => decode_eq_ok_iff, fun hnone => ?_⟩
  cases hw : decode w with
  | ok i => exact absurd (decode_eq_ok_iff.mp hw) (hnone i)
  | error e => exact ⟨e, rfl⟩

end Sys2Proof

/-! SUPPORT. A word written to CMD, from the bus to its fate (40_lifecycle.md R151, R152), and CLEAR (R159). -/

namespace Sys2Proof.Machine

/-! ### A word while a command runs (R151) -/

/-- The write of a word to CMD is taken by the bus, whatever the word is (R84, R99). -/
theorem step_cmdWrite {s : State} (hr : s.rstN = true) (es : List Event) (w : Word) :
    step { s with pending := .access (cmdWrite w) :: es } = runWord w (respond .done { s with pending := es }) := by
  have hc : (Event.access (cmdWrite w)).command { s with pending := .access (cmdWrite w) :: es } = some w :=
    command_of_write_cmd hr (by rfl) rfl
  simp only [step, hc]

theorem illegalCommand_busy {w : Word} {s : State} (h : s.status.busy = true) :
    illegalCommand w s = settle (discard s) := by
  simp [illegalCommand, h]

/-- While a command runs, a legal word and an illegal one are discarded alike. -/
theorem runWord_busy {w : Word} {s : State} (h : s.status.busy = true) : runWord w s = settle (discard s) := by
  unfold runWord
  split
  · rw [exec_eq, runCommand_busy h]
  · exact illegalCommand_busy h

/-- The sequencer's part of a step does not see OVR. -/
theorem settle_discard {s t : State} (h : settle s = .next t) : settle (discard s) = .next (discard t) := by
  obtain ⟨_, ⟨hresp, hpend, hpace, _⟩, _⟩ := settle_kept h
  have hrun : settle (discard s) = .next (aside s.response s.pending s.pace true t) :=
    (drive_aside s.response s.pending s.pace true s.quantum s).trans (congrArg _ h)
  rw [hrun, ← hresp, ← hpend, ← hpace]
  rfl

/-- Settles O6: the word is discarded, and the moves that follow read neither OVR nor the bus. -/
theorem wordWhileBusyIsDiscarded : Obligations.WordWhileBusyIsDiscarded := by
  intro s t es w hr hb hs
  calc step { s with pending := .access (cmdWrite w) :: es }
      = runWord w (respond .done { s with pending := es }) := step_cmdWrite hr es w
    _ = settle (discard (respond .done { s with pending := es })) := runWord_busy hb
    _ = .next (discard { t with response := some .done, pending := es }) :=
        settle_discard (settle_respond .done es hs)

/-! ### An illegal word while none runs (R152) -/

theorem opcode_mem_opcodes (i : Instr) :
    i.opcode ∈ [0x01#8, 0x02#8, 0x03#8, 0x10#8, 0x11#8, 0x12#8, 0x13#8, 0x14#8, 0x15#8, 0x16#8, 0x20#8, 0x21#8, 0x22#8] := by
  cases i <;> decide

theorem encode_reserved (i : Instr) : (encode i).extractLsb' 8 24 = 0#24 := by
  cases i <;> decide

theorem encode_op (i : Instr) : (encode i).extractLsb' 0 8 = i.opcode := by
  cases i <;> decide

theorem illegalCommand_idle {w : Word} {s : State} (h : s.status.busy = false) :
    illegalCommand w s = .next (raise .illegalCmd (accept (w.extractLsb' 0 8) s)) := by
  simp [illegalCommand, h]

/-- Settles O5: such a word is no command's encoding, so the decoder rejects it. -/
theorem illegalWordEndsAtOnce : Obligations.IllegalWordEndsAtOnce := by
  intro s w hb hw
  unfold runWord
  cases hd : decode w with
  | ok i =>
    obtain rfl : w = encode i := decode_eq_ok_iff.mp hd
    rcases hw with hrsvd | hop
    · exact absurd (encode_reserved i) hrsvd
    · exact absurd (encode_op i ▸ opcode_mem_opcodes i) hop
  | error e => exact illegalCommand_idle hb

/-! ### CLEAR (R159) -/

/-- Settles O28: the two moves of CLEAR's body, after which no body is left. -/
theorem clearCommand : Obligations.ClearCommand := by
  intro s hq
  have hmoves := clear_body (hq.dispatched .clear .clear []) rfl
  rw [finishBody_last rfl] at hmoves
  rw [exec_eq]
  exact runCommand_ends (pre := .none) hq rfl hmoves (by omega) rfl

end Sys2Proof.Machine

/-! SUPPORT. How a command's last move leaves it (40_lifecycle.md R155, R156), and COUNT (41_count.md R170 to R174). -/

namespace Sys2Proof.Machine

/-! ### The two ends of a command -/

/-- `complete()` of a command that has met no error and discarded no word since its acceptance (R150, R155). -/
theorem completed_complete {op : Instr} {s : State} (herr : s.status.error = false) (hovr : s.status.ovr = false)
    (hcode : s.status.errCode = .none) (hop : s.status.lastOp = op.opcode) : State.Completed op (complete s) :=
  ⟨rfl, rfl, herr, hovr, hcode, rfl, hop, rfl, rfl⟩

/-- An error raised in a command that has discarded no word since its acceptance (R150, R156). -/
theorem failed_raise {op : Instr} {s : State} (e : ErrCode) (hdone : s.status.done = false) (hovr : s.status.ovr = false)
    (hop : s.status.lastOp = op.opcode) : State.Failed op e s.status.phase (raise e s) :=
  ⟨rfl, hdone, rfl, hovr, rfl, rfl, hop, rfl, rfl⟩

/-! ### COUNT -/

/-- The source is at least as long as the bytes at its cursor. -/
theorem bytesAt_length_le {s : State} {x : List Byte} {tail : Bits}
    (hd : s.src.bits.drop s.src.pos = bytesBits x ++ tail) : 8 * x.length ≤ s.src.bits.length := by
  have hlen := congrArg List.length hd
  rw [List.length_drop, List.length_append, bytesBits_length] at hlen
  omega

/-- Settles O31: the bytes are counted one by one until end-of-data, and no body is left after COUNT's. -/
theorem countCommand : Obligations.CountCommand := by
  intro s x hq hx hc
  obtain ⟨rd, sy, hrd, hsy, hmoves⟩ := count_body (hq.dispatched .count .count []) rfl hx hc
  obtain ⟨_, _, hd, _⟩ := hx
  have hlen := bytesAt_length_le hd
  rw [finishBody_last rfl] at hmoves
  refine ⟨_, (exec_eq .count s).trans (runCommand_ends (pre := .none) hq rfl hmoves (by omega) rfl),
    completed_complete rfl rfl rfl rfl, countFreq_toNat hc, rfl, hsy, ?_, rfl, rfl, rfl, rfl, rfl, rfl, rfl, rfl, rfl, rfl⟩
  exact hrd.trans (BitVec.zero_add _)

/-- Settles O32: the bytes before `b` are counted, and the move that reads `b` raises the error. -/
theorem countOverflow : Obligations.CountOverflow := by
  intro s x b hq ⟨hle, tail, hd⟩ hc hb
  obtain ⟨rd, sy, hrd, hsy, hmoves⟩ := count_overflow (hq.dispatched .count .count []) rfl hle hd hc hb
  have hlen := bytesAt_length_le hd
  rw [List.length_append] at hlen
  refine ⟨_, (exec_eq .count s).trans (runCommand_ends (pre := .none) hq rfl hmoves (by omega) rfl),
    failed_raise .countOvf rfl rfl rfl, countFreq_toNat hc, hsy, ?_, rfl, rfl⟩
  exact hrd.trans (BitVec.zero_add _)

end Sys2Proof.Machine

/-! SUPPORT. The priority selector (42_build.md R182, R186) and how BUILD ends (R185, R189, R190). -/

namespace Sys2Proof.Machine

/-! ### The selector -/

theorem popMin_eq_none_iff {o : TieOrder} {k : Nat} {sel : List SelEntry} : popMin o k sel = none ↔ sel = [] := by
  cases sel <;> simp [popMin]

theorem popMin_of_ne_nil (o : TieOrder) (k : Nat) {sel : List SelEntry} (h : sel ≠ []) :
    ∃ e rest, popMin o k sel = some (e, rest) := by
  obtain ⟨e, rest, hpop, _⟩ := popMin_spec o k h
  exact ⟨e, rest, hpop⟩

/-- What `PopMin` answers, read off its answer: an entry of least weight, of least key under STABLE_INDEX, and the others. -/
theorem popMin_least {o : TieOrder} {k : Nat} {sel rest : List SelEntry} {e : SelEntry} (h : popMin o k sel = some (e, rest)) :
    sel.Perm (e :: rest) ∧ (∀ x ∈ sel, e.weight ≤ x.weight)
      ∧ (o = .stableIndex → ∀ x ∈ sel, x.weight = e.weight → e.idx ≤ x.idx) := by
  have hne : sel ≠ [] := fun h0 => by rw [popMin_eq_none_iff.mpr h0] at h; cases h
  obtain ⟨e', rest', h', hperm, hweight, hkey⟩ := popMin_spec o k hne
  obtain ⟨rfl, rfl⟩ := Prod.mk.inj (Option.some.inj (h'.symm.trans h))
  refine ⟨hperm, hweight, fun ho x hx hxe => ?_⟩
  rcases (before_false_iff x e').mp (hkey ho x hx) with hlt | ⟨_, hle⟩
  · rw [hxe] at hlt; exact absurd hlt (lt_irrefl _)
  · exact hle

/-- Under ANY an entry of least weight is chosen for the free number that is its place among those of that weight (R186). -/
theorem popMin_any_reaches {sel : List SelEntry} {e : SelEntry} (he : e ∈ sel) (hleast : ∀ x ∈ sel, e.weight ≤ x.weight) :
    ∃ k rest, popMin .any k sel = some (e, rest) := by
  cases sel with
  | nil => cases he
  | cons a es =>
    obtain ⟨hmem, hmin⟩ := leastEntry_spec a es
    have hw : e.weight = (leastEntry a es).weight :=
      BitVec.le_antisymm (hleast _ hmem) (before_false_weight (hmin e he))
    have htie : e ∈ (a :: es).filter fun x => x.weight == (leastEntry a es).weight :=
      List.mem_filter.mpr ⟨he, beq_iff_eq.mpr hw⟩
    obtain ⟨k, hk, hget⟩ := List.getElem_of_mem htie
    have hchoose : chooseMin .any k a es = e := by
      simp only [chooseMin]
      rw [Nat.mod_eq_of_lt hk, List.getD_eq_getElem _ _ hk, hget]
    exact ⟨k, _, by rw [popMin, hchoose]⟩

/-- Settles O37: the selector's part is `PopMin`'s own; with two entries in SEL a merge pops twice. -/
theorem popMinTakesALeastEntry : Obligations.PopMinTakesALeastEntry := by
  refine ⟨fun _ _ _ _ _ => popMin_least, fun _ _ _ => popMin_eq_none_iff, fun _ _ => popMin_any_reaches, ?_⟩
  intro s t leaves n hp hlen hm
  have hne : s.sel ≠ [] := fun h => by rw [h] at hlen; simp at hlen
  obtain ⟨a, rest, ha⟩ := popMin_of_ne_nil s.tieOrder (Config.tieDraw s.pops) hne
  have hrest : rest ≠ [] := fun h => by
    have hl := (popMin_least ha).1.length_eq
    rw [h, List.length_singleton] at hl
    omega
  obtain ⟨b, rest', hb⟩ := popMin_of_ne_nil s.tieOrder (Config.tieDraw (s.pops + 1)) hrest
  simp only [move, hp, buildMerge, ha, hb] at hm
  split at hm
  · cases hm
    exact ⟨a, b, rest, rest', ha, hb, rfl, List.perm_append_singleton _ _, rfl, rfl⟩
  · cases hm

/-! ### Ends of BUILD -/

theorem byteLeaves_eq_nil {freq : Vector Count 256} (h : ∀ b, freqAt freq b = 0) : byteLeaves freq = [] := by
  refine List.eq_nil_iff_forall_not_mem.mpr fun nd hnd => ?_
  obtain ⟨b, hb, _⟩ := mem_byteLeaves.mp hnd
  exact hb (h b)

/-- Settles O36: BUILD's first move finds no leaf to make. -/
theorem buildWithNoSymbol : Obligations.BuildWithNoSymbol := by
  intro s hq hzero
  have hmoves := build_nosym (hq.dispatched .build .build []) rfl (byteLeaves_eq_nil hzero)
  rw [exec_eq]
  exact runCommand_ends (pre := .none) hq rfl hmoves (by omega) rfl

/-- The state in which BUILD ends on a table with some byte counted (R185). -/
def buildEnd (s : State) : State :=
  complete (built (buildLeaves s.freq).length (builtNodes s.tieOrder s.pops s.freq s.node) (dispatched .build .build [] s))

theorem two_le_buildLeaves_length {freq : Vector Count 256} (h : ∃ b, freqAt freq b ≠ 0) : 2 ≤ (buildLeaves freq).length := by
  obtain ⟨b, hb⟩ := h
  have := List.length_pos_iff.mpr (byteLeaves_ne_nil hb)
  rw [buildLeaves_length]
  omega

theorem buildLeaves_length_le (freq : Vector Count 256) : (buildLeaves freq).length ≤ 257 := by
  have := byteLeaves_length_le freq
  rw [buildLeaves_length]
  omega

/-- One leaf for each byte with a count, and the sentinel's (R181, R185). -/
theorem buildLeaves_length_eq_countP (freq : Vector Count 256) :
    (buildLeaves freq).length = ((List.range 256).countP fun k => freqAt freq (BitVec.ofNat 8 k) ≠ 0) + 1 := by
  have h := congrArg List.length (byteLeaves_eq freq)
  rw [List.length_map, List.length_map, ← List.countP_eq_length_filter] at h
  rw [buildLeaves_length, h]

/-- BUILD on a table with some byte counted ends in the step that issues it, its loop's invariant holding of one tree. -/
theorem exec_build {s : State} (hq : s.Quiet) (h : ∃ b, freqAt s.freq b ≠ 0) :
    exec .build s = .next (buildEnd s)
      ∧ ∃ p, BuildInv s.tieOrder s.freq (2 * (buildLeaves s.freq).length - 1) (buildEnd s).node [p] := by
  obtain ⟨b, hb⟩ := h
  obtain ⟨p, hinv, _, hmoves⟩ := build_body (hq.dispatched .build .build []) rfl (byteLeaves_ne_nil (freq := s.freq) hb)
  rw [finishBody_last rfl] at hmoves
  refine ⟨(exec_eq .build s).trans (runCommand_ends (pre := .none) hq rfl hmoves ?_ rfl), p, hinv⟩
  have := buildLeaves_length_le s.freq
  show (buildLeaves s.freq).length + 1 ≤ _
  omega

/-- At BUILD's end ROOT holds the tree of the loop's invariant. -/
theorem BuildInv.holdsTree_buildEnd {s : State} {p : SelEntry × Tree} (hL : 2 ≤ (buildLeaves s.freq).length)
    (h : BuildInv s.tieOrder s.freq (2 * (buildLeaves s.freq).length - 1) (buildEnd s).node [p]) :
    (buildEnd s).HoldsTree p.2 := by
  obtain ⟨hholds, hsize, hinner, _, hle⟩ := h.holdsTree hL
  have hbound := h.bound
  have hroot : p.1.idx = (buildEnd s).root := by
    rw [h.root, Nat.sub_sub]; rfl
  exact ⟨rfl, hroot ▸ hholds, by omega, hinner, hle⟩

/-- Settles O33: what the loop's invariant says of the one tree left. -/
theorem buildCommand : Obligations.BuildCommand := by
  intro s hq hcount
  obtain ⟨hexec, p, hinv⟩ := exec_build hq hcount
  have hL := two_le_buildLeaves_length hcount
  have hL257 := buildLeaves_length_le s.freq
  obtain ⟨_, _, _, hperm, _⟩ := hinv.holdsTree hL
  have hlc : (buildEnd s).leafCount.toNat = (buildLeaves s.freq).length := by
    show (BitVec.ofNat 9 _).toNat = _
    rw [BitVec.toNat_ofNat]; exact Nat.mod_eq_of_lt (by omega)
  have hnc : (buildEnd s).nodeCount.toNat = 2 * (buildLeaves s.freq).length - 1 := idx_toNat (by omega)
  have hrt : (buildEnd s).root.toNat = 2 * (buildLeaves s.freq).length - 2 := idx_toNat (by omega)
  have hlen : p.2.leaves.length = (buildLeaves s.freq).length := by rw [hperm.length_eq, leafSyms, List.length_map]
  exact ⟨buildEnd s, p.2, hexec, completed_complete rfl rfl rfl rfl, hinv.validTree (s := dispatched .build .build [] s) hL,
    hinv.holdsTree_buildEnd hL, hperm.nodup_iff.mpr (leafSyms_nodup s.freq), fun _ => hperm.mem_iff.trans mem_leafSyms,
    hlc.trans (buildLeaves_length_eq_countP s.freq), hlc.trans hlen.symm, by rw [hnc, hlc], by rw [hrt, hlc],
    rfl, rfl, rfl, rfl, rfl, rfl⟩

end Sys2Proof.Machine

/-! SUPPORT. Codes and their least sum of weight times length: Kraft's inequality (43_codetable.md R204) and Huffman's
exchange argument, on weights alone (42_build.md R187). -/

namespace Sys2Proof.Machine

/-! ### Kraft's inequality -/

/-- Of two or more symbols none has the empty code, which every code begins with (R204). -/
theorem PrefixFree.code_ne_nil {code : Sym → Bits} {symbols : List Sym} (h : PrefixFree code symbols)
    (hnd : symbols.Nodup) (hlen : 2 ≤ symbols.length) : ∀ v ∈ symbols, code v ≠ [] := by
  intro v hv hnil
  have hsub : symbols ⊆ [v] := fun u hu => List.mem_singleton.mpr (h v hv u hu (hnil ▸ List.nil_prefix)).symm
  have hone := (hnd.subperm hsub).length_le
  rw [List.length_singleton] at hone
  omega

/-- Where no code begins with another, a string is decoded from left to right: two equal strings have the same first code. -/
theorem PrefixFree.uniquelyDecodable {code : Sym → Bits} {symbols : List Sym} (h : PrefixFree code symbols)
    (hne : ∀ v ∈ symbols, code v ≠ []) :
    InformationTheory.UniquelyDecodable ((symbols.map code).toFinset : Set Bits) := by
  have hmem : ∀ c : Bits, c ∈ ((symbols.map code).toFinset : Set Bits) ↔ ∃ v ∈ symbols, code v = c := by simp
  intro xs
  induction xs with
  | nil =>
    intro ys _ hys hflat
    cases ys with
    | nil => rfl
    | cons y ys =>
      obtain ⟨v, hv, rfl⟩ := (hmem y).mp (hys y (by simp))
      exact absurd (List.append_eq_nil_iff.mp hflat.symm).1 (hne v hv)
  | cons x xs ih =>
    intro ys hxs hys hflat
    obtain ⟨u, hu, rfl⟩ := (hmem x).mp (hxs x (by simp))
    cases ys with
    | nil => exact absurd (List.append_eq_nil_iff.mp hflat).1 (hne u hu)
    | cons y ys =>
      obtain ⟨v, hv, rfl⟩ := (hmem y).mp (hys y (by simp))
      have huv : u = v := by
        rcases List.prefix_or_prefix_of_prefix (List.prefix_append (code u) xs.flatten)
          ⟨ys.flatten, hflat.symm⟩ with hp | hp
        · exact h u hu v hv hp
        · exact (h v hv u hu hp).symm
      subst huv
      rw [ih ys (fun w hw => hxs w (by simp [hw])) (fun w hw => hys w (by simp [hw])) (List.append_cancel_left hflat)]

/-- The Kraft sum of (weight, length) pairs. -/
noncomputable def kraftSum (ps : Multiset (ℕ × ℕ)) : ℝ := (ps.map fun p => (1 / 2 : ℝ) ^ p.2).sum

/-- The sum of weight times length of (weight, length) pairs (R187). -/
def codeCost (ps : Multiset (ℕ × ℕ)) : ℕ := (ps.map fun p => p.1 * p.2).sum

@[simp] theorem kraftSum_cons (p : ℕ × ℕ) (ps : Multiset (ℕ × ℕ)) : kraftSum (p ::ₘ ps) = (1 / 2) ^ p.2 + kraftSum ps := by
  simp [kraftSum]

@[simp] theorem codeCost_cons (p : ℕ × ℕ) (ps : Multiset (ℕ × ℕ)) : codeCost (p ::ₘ ps) = p.1 * p.2 + codeCost ps := by
  simp [codeCost]

theorem kraftSum_nonneg (ps : Multiset (ℕ × ℕ)) : 0 ≤ kraftSum ps := by
  refine Multiset.sum_nonneg fun x hx => ?_
  obtain ⟨p, _, rfl⟩ := Multiset.mem_map.mp hx
  positivity

/-- The symbols' weights with the lengths of their codes. -/
def codeProfile (weight : Sym → ℕ) (code : Sym → Bits) (symbols : List Sym) : Multiset (ℕ × ℕ) :=
  ↑(symbols.map fun v => (weight v, (code v).length))

theorem codeCost_codeProfile (weight : Sym → ℕ) (code : Sym → Bits) (symbols : List Sym) :
    codeCost (codeProfile weight code symbols) = weightedLength weight code symbols := by
  simp [codeCost, codeProfile, weightedLength, Function.comp_def]

theorem map_fst_codeProfile (weight : Sym → ℕ) (code : Sym → Bits) (symbols : List Sym) :
    (codeProfile weight code symbols).map Prod.fst = ↑(symbols.map weight) := by
  simp [codeProfile, Function.comp_def]

/-- Kraft's inequality for a code of two or more symbols. -/
theorem PrefixFree.kraftSum_le_one {code : Sym → Bits} {symbols : List Sym} (h : PrefixFree code symbols)
    (hnd : symbols.Nodup) (hlen : 2 ≤ symbols.length) (weight : Sym → ℕ) :
    kraftSum (codeProfile weight code symbols) ≤ 1 := by
  have hinj : (symbols.map code).Nodup :=
    hnd.map_on fun u hu v hv huv => h u hu v hv (huv ▸ List.prefix_refl _)
  have hkraft := InformationTheory.kraft_mcmillan_inequality (h.uniquelyDecodable (h.code_ne_nil hnd hlen))
  rw [List.sum_toFinset _ hinj, Fintype.card_bool] at hkraft
  simpa [kraftSum, codeProfile, Function.comp_def] using hkraft

/-! ### The least cost of a code for given weights -/

/-- No lengths that satisfy Kraft's inequality give these weights a smaller sum of weight times length than `c`. -/
def BoundsCost (c : ℕ) (weights : Multiset ℕ) : Prop :=
  ∀ ps : Multiset (ℕ × ℕ), ps.map Prod.fst = weights → kraftSum ps ≤ 1 → c ≤ codeCost ps

theorem BoundsCost.zero (weights : Multiset ℕ) : BoundsCost 0 weights := fun _ _ _ => Nat.zero_le _

/-- Lengths up to `m` have a Kraft sum that is a multiple of `2^-m`. -/
theorem kraftSum_mul_pow {m : ℕ} {ps : Multiset (ℕ × ℕ)} (h : ∀ p ∈ ps, p.2 ≤ m) : ∃ N : ℕ, kraftSum ps * 2 ^ m = N := by
  induction ps using Multiset.induction with
  | empty => exact ⟨0, by simp [kraftSum]⟩
  | cons p ps ih =>
    obtain ⟨N, hN⟩ := ih fun q hq => h q (Multiset.mem_cons_of_mem hq)
    obtain ⟨k, rfl⟩ := Nat.exists_eq_add_of_le (h p (Multiset.mem_cons_self p ps))
    refine ⟨2 ^ k + N, ?_⟩
    rw [kraftSum_cons, add_mul, hN, pow_add, ← mul_assoc, ← mul_pow]
    push_cast
    norm_num

/-- A single longest length can be cut down to the next longest, `m`: the other terms leave at least `2^-m` free. -/
theorem kraftSum_cut {m l a b : ℕ} {ps : Multiset (ℕ × ℕ)} (hle : ∀ p ∈ ps, p.2 ≤ m)
    (h : kraftSum ((b, l) ::ₘ ps) ≤ 1) : kraftSum ((a, m) ::ₘ ps) ≤ 1 := by
  obtain ⟨N, hN⟩ := kraftSum_mul_pow hle
  rw [kraftSum_cons] at h ⊢
  have hm : (0 : ℝ) < 2 ^ m := by positivity
  have hl : (0 : ℝ) < (1 / 2) ^ l := by positivity
  have hlt : (N : ℝ) < 2 ^ m := by rw [← hN]; nlinarith
  have hsucc : (N : ℝ) + 1 ≤ 2 ^ m := by exact_mod_cast hlt
  have hunit : (1 / 2 : ℝ) ^ m * 2 ^ m = 1 := by rw [← mul_pow]; norm_num
  refine le_of_mul_le_mul_right ?_ hm
  rw [add_mul, hunit, hN]
  linarith

/-- The two longest lengths belong to `a` and `b`: with `b`'s cut to `a`'s the two are siblings, and merging them saves
`a + b`. -/
theorem BoundsCost.le_of_longest {c a b la lb : ℕ} {rest : Multiset (ℕ × ℕ)}
    (h : BoundsCost c ((a + b) ::ₘ rest.map Prod.fst)) (hab : la ≤ lb) (hlong : ∀ p ∈ rest, p.2 ≤ la)
    (hk : kraftSum ((a, la) ::ₘ (b, lb) ::ₘ rest) ≤ 1) : c + (a + b) ≤ codeCost ((a, la) ::ₘ (b, lb) ::ₘ rest) := by
  have hcut : kraftSum ((b, la) ::ₘ (a, la) ::ₘ rest) ≤ 1 := by
    rw [Multiset.cons_swap] at hk
    exact kraftSum_cut (by simpa using hlong) hk
  simp only [kraftSum_cons] at hcut
  cases la with
  | zero => have := kraftSum_nonneg rest; norm_num at hcut; linarith
  | succ m =>
    have hmerged : kraftSum ((a + b, m) ::ₘ rest) ≤ 1 := by
      rw [kraftSum_cons]; rw [pow_succ] at hcut; linarith
    have hc := h _ (by simp) hmerged
    simp only [codeCost_cons] at hc ⊢
    have := Nat.mul_le_mul_left b hab
    linarith

/-- Huffman's exchange: where `a` and `b` are least, a longer length of another weight is exchanged for `a`'s or `b`'s until theirs are the two longest. -/
theorem BoundsCost.le_of_least {c : ℕ} (n : ℕ) : ∀ {a b la lb : ℕ} {rest : Multiset (ℕ × ℕ)},
    (rest.map Prod.snd).sum = n → BoundsCost c ((a + b) ::ₘ rest.map Prod.fst) →
    (∀ p ∈ rest, a ≤ p.1 ∧ b ≤ p.1) → kraftSum ((a, la) ::ₘ (b, lb) ::ₘ rest) ≤ 1 →
    c + (a + b) ≤ codeCost ((a, la) ::ₘ (b, lb) ::ₘ rest) := by
  induction n using Nat.strong_induction_on with
  | _ n ih =>
    intro a b la lb rest hn h hleast hk
    wlog hab : la ≤ lb generalizing a b la lb
    · rw [Multiset.cons_swap, add_comm a b]
      rw [Multiset.cons_swap] at hk
      exact this (add_comm a b ▸ h) (fun p hp => (hleast p hp).symm) hk (le_of_not_ge hab)
    by_cases hlong : ∀ p ∈ rest, p.2 ≤ la
    · exact h.le_of_longest hab hlong hk
    · push Not at hlong
      obtain ⟨⟨w, l⟩, hp, hl⟩ := hlong
      obtain ⟨rest, rfl⟩ := Multiset.exists_cons_of_mem hp
      have haw : a ≤ w := (hleast _ hp).1
      have hswap := ih ((((w, la) ::ₘ rest).map Prod.snd).sum) (by simp at hn ⊢; omega)
        (a := a) (b := b) (la := l) (lb := lb) rfl (by simpa using h) (by simpa using hleast)
        (by simp only [kraftSum_cons] at hk ⊢; linarith)
      simp only [codeCost_cons] at hswap ⊢
      have : a * l + w * la ≤ a * la + w * l := by nlinarith
      omega

/-- Huffman's step on a bound: unmerging the two least weights adds their sum to it. -/
theorem BoundsCost.unmerge {c a b : ℕ} {weights : Multiset ℕ} (h : BoundsCost c ((a + b) ::ₘ weights))
    (hleast : ∀ w ∈ weights, a ≤ w ∧ b ≤ w) : BoundsCost (c + (a + b)) (a ::ₘ b ::ₘ weights) := by
  intro ps hps hk
  obtain ⟨⟨_, la⟩, ha, rfl, hps'⟩ := (Multiset.map_eq_cons _ _ _ _).mpr hps
  obtain ⟨⟨_, lb⟩, hb, rfl, rfl⟩ := (Multiset.map_eq_cons _ _ _ _).mpr hps'
  rw [← Multiset.cons_erase ha, ← Multiset.cons_erase hb] at hk ⊢
  exact BoundsCost.le_of_least _ rfl h (fun p hp => hleast _ (Multiset.mem_map_of_mem _ hp)) hk

end Sys2Proof.Machine

/-! SUPPORT. Huffman's theorem for BUILD (42_build.md R187): its merge loop keeps a forest from which every bound on the cost of
the trees' weights grows to one on the cost of the symbols'. -/

namespace Sys2Proof.Machine

/-! ### The cost of a code tree -/

/-- The sum of the leaves' weights. -/
def Tree.weight (w : Sym → ℕ) (t : Tree) : ℕ := (t.leaves.map w).sum

/-- The sum of the internal nodes' weights. -/
def Tree.cost (w : Sym → ℕ) : Tree → ℕ
  | .leaf _ => 0
  | .inner l r => l.cost w + r.cost w + (l.weight w + r.weight w)

@[simp] theorem Tree.weight_leaf (w : Sym → ℕ) (v : Sym) : (Tree.leaf v).weight w = w v := by simp [Tree.weight, Tree.leaves]

@[simp] theorem Tree.weight_inner (w : Sym → ℕ) (l r : Tree) : (Tree.inner l r).weight w = l.weight w + r.weight w := by
  simp [Tree.weight, Tree.leaves]

theorem Tree.sum_codes_fst (w : Sym → ℕ) (t : Tree) : (t.codes.map fun e => w e.1).sum = t.weight w := by
  rw [Tree.weight, ← t.codes_fst, List.map_map]; rfl

/-- Each internal node adds its weight once for the bit it puts before the codes below it. -/
theorem Tree.sum_codes (w : Sym → ℕ) (t : Tree) : (t.codes.map fun e => w e.1 * e.2.length).sum = t.cost w := by
  induction t with
  | leaf v => simp [Tree.codes, Tree.cost]
  | inner l r ihl ihr =>
    simp [Tree.codes, Tree.cost, Function.comp_def, mul_add, ihl, ihr, Tree.sum_codes_fst]
    omega

/-- With leaves of distinct symbols each leaf's path is its symbol's code (R203). -/
theorem Tree.codeOf_of_mem_codes {t : Tree} (hnd : t.leaves.Nodup) {e : Sym × Bits} (he : e ∈ t.codes) :
    t.codeOf e.1 = e.2 := by
  have hmem : (e.1, t.codeOf e.1) ∈ t.codes := Tree.codeOf_mem (t.codes_fst ▸ List.mem_map_of_mem he)
  rw [← t.codes_fst] at hnd
  exact congrArg Prod.snd (List.inj_on_of_nodup_map hnd hmem he rfl)

/-- R187's sum over the leaves of a tree. -/
theorem Tree.weightedLength_codeOf (w : Sym → ℕ) {t : Tree} (hnd : t.leaves.Nodup) :
    weightedLength w t.codeOf t.leaves = t.cost w := by
  rw [← Tree.sum_codes, weightedLength, ← t.codes_fst, List.map_map]
  refine congrArg List.sum (List.map_congr_left fun e he => ?_)
  show w e.1 * (t.codeOf e.1).length = _
  rw [Tree.codeOf_of_mem_codes hnd he]

/-! ### Forests on the way to an optimal tree -/

/-- Whatever bounds the cost of a code for the trees' weights bounds, with the trees' own costs added, the cost of one for
`weights`. -/
def OptimalForest (w : Sym → ℕ) (weights : Multiset ℕ) (ts : Multiset Tree) : Prop :=
  ∀ c, BoundsCost c (ts.map (Tree.weight w)) → BoundsCost (c + (ts.map (Tree.cost w)).sum) weights

theorem OptimalForest.leaves (w : Sym → ℕ) (symbols : List Sym) :
    OptimalForest w ↑(symbols.map w) ↑(symbols.map Tree.leaf) := by
  intro c hc
  simpa [Function.comp_def, Tree.cost] using hc

/-- Two trees of least weight can be merged (R183). -/
theorem OptimalForest.merge {w : Sym → ℕ} {weights : Multiset ℕ} {a b : Tree} {ts : Multiset Tree}
    (h : OptimalForest w weights (a ::ₘ b ::ₘ ts)) (hleast : ∀ t ∈ ts, a.weight w ≤ t.weight w ∧ b.weight w ≤ t.weight w) :
    OptimalForest w weights (.inner a b ::ₘ ts) := by
  intro c hc
  have hunmerged := BoundsCost.unmerge (a := a.weight w) (b := b.weight w) (weights := ts.map (Tree.weight w))
    (by simpa using hc) (by simpa using hleast)
  have hbound := h _ (by simpa using hunmerged)
  convert hbound using 1
  simp [Tree.cost]
  omega

/-- A single tree left is optimal. -/
theorem OptimalForest.singleton {w : Sym → ℕ} {weights : Multiset ℕ} {t : Tree} (h : OptimalForest w weights {t}) :
    BoundsCost (t.cost w) weights := by
  simpa using h 0 (BoundsCost.zero _)

/-! ### The merge loop -/

/-- The trees of SEL's entries. -/
def forestOf (items : List (SelEntry × Tree)) : Multiset Tree := ↑(items.map Prod.snd)

@[simp] theorem forestOf_cons (p : SelEntry × Tree) (items : List (SelEntry × Tree)) :
    forestOf (p :: items) = p.2 ::ₘ forestOf items := rfl

theorem forestOf_perm {items items' : List (SelEntry × Tree)} (h : items.Perm items') : forestOf items = forestOf items' :=
  Multiset.coe_eq_coe.mpr (h.map _)

theorem firstItems_snd (nds : List Node) : ∀ n, (firstItems n nds).map Prod.snd = (nds.map (·.value)).map Tree.leaf := by
  induction nds with
  | nil => intro n; rfl
  | cons nd nds ih => intro n; simp [firstItems, ih]

/-- `PopMin` on the entries of a forest takes one entry, of least weight, with its tree (R182). -/
theorem popMin_items (o : TieOrder) (k : Nat) {sel : List SelEntry} {items : List (SelEntry × Tree)}
    (hs : sel.Perm (items.map Prod.fst)) (hne : items ≠ []) :
    ∃ p rest items', popMin o k sel = some (p.1, rest) ∧ items.Perm (p :: items') ∧ rest.Perm (items'.map Prod.fst)
      ∧ (∀ q ∈ items, p.1.weight ≤ q.1.weight) ∧ (o = .stableIndex → ∀ q ∈ items, q.1.before p.1 = false) := by
  have hsel : sel ≠ [] := fun h => hne (List.map_eq_nil_iff.mp (List.nil_perm.mp (h ▸ hs)))
  obtain ⟨e, rest, hpop, hperm, hweight, hkey⟩ := popMin_spec o k hsel
  obtain ⟨p, items', rfl, hitems, hrest⟩ := perm_map_cons Prod.fst (hs.symm.trans hperm)
  have hmem : ∀ q ∈ items, q.1 ∈ sel := fun q hq => hs.mem_iff.mpr (List.mem_map_of_mem hq)
  exact ⟨p, rest, items', hpop, hitems, hrest.symm, fun q hq => hweight _ (hmem q hq), fun ho q hq => hkey ho _ (hmem q hq)⟩

/-- In the loop the weight of an entry is that of its tree (R184). -/
theorem BuildInv.tree_weight {o : TieOrder} {freq : Vector Count 256} {n : Nat} {node : Vector Node 513}
    {items : List (SelEntry × Tree)} (h : BuildInv o freq n node items) {p : SelEntry × Tree} (hp : p ∈ items) :
    p.2.weight (symWeight freq) = p.1.weight.toNat := (h.sums p hp).symm

/-- Each merge of the loop merges two trees of least weight, so that the tree left is optimal. -/
theorem mergeAll_optimal (o : TieOrder) (freq : Vector Count 256) (weights : Multiset ℕ) (m : Nat) :
    ∀ (k n : Nat) (sel : List SelEntry) (node : Vector Node 513) (items : List (SelEntry × Tree)),
    sel.Perm (items.map Prod.fst) → BuildInv o freq n node items → items.length = m + 1 →
    OptimalForest (symWeight freq) weights (forestOf items) →
    ∃ p, BuildInv o freq (n + m) (mergeAll o k m n sel node) [p] ∧ OptimalForest (symWeight freq) weights {p.2} := by
  induction m with
  | zero =>
    intro k n sel node items _ hinv hlen hopt
    obtain ⟨p, rfl⟩ := List.length_eq_one_iff.mp hlen
    exact ⟨p, hinv, hopt⟩
  | succ m ih =>
    intro k n sel node items hs hinv hlen hopt
    obtain ⟨a, sel1, items1, hpopa, hperma, hs1, hwa, hka⟩ :=
      popMin_items o (Config.tieDraw k) hs (List.ne_nil_of_length_eq_add_one hlen)
    have hlen1 : items1.length = m + 1 := by
      have := hperma.length_eq; rw [List.length_cons] at this; omega
    obtain ⟨b, sel2, items2, hpopb, hpermb, hs2, hwb, _⟩ :=
      popMin_items o (Config.tieDraw (k + 1)) hs1 (List.ne_nil_of_length_eq_add_one hlen1)
    have hperm : items.Perm (a :: b :: items2) := hperma.trans (hpermb.cons a)
    have hb : b ∈ items := hperm.mem_iff.mpr (by simp)
    have hinv2 := hinv.perm hperm
    obtain ⟨_, hnext⟩ := hinv2.merge (hwa b hb) fun ho => hka ho b hb
    have hleast : ∀ t ∈ forestOf items2, a.2.weight (symWeight freq) ≤ t.weight (symWeight freq)
        ∧ b.2.weight (symWeight freq) ≤ t.weight (symWeight freq) := by
      intro t ht
      obtain ⟨q, hq, rfl⟩ := List.mem_map.mp (Multiset.mem_coe.mp ht)
      rw [hinv2.tree_weight (by simp), hinv2.tree_weight (p := b) (by simp), hinv2.tree_weight (p := q) (by simp [hq])]
      exact ⟨hwa q (hperm.mem_iff.mpr (by simp [hq])), hwb q (hpermb.mem_iff.mpr (by simp [hq]))⟩
    have hmerged := OptimalForest.merge (by simpa [forestOf_perm hperm] using hopt) hleast
    obtain ⟨p, hp, hp'⟩ := ih (k + 2) (n + 1) _ _ _
      ((List.perm_append_singleton _ _).trans (hs2.cons { idx := BitVec.ofNat 10 n, weight := a.1.weight + b.1.weight }))
      hnext (by have := hpermb.length_eq; rw [List.length_cons] at this ⊢; omega) hmerged
    refine ⟨p, ?_, hp'⟩
    rw [mergeAll, hpopa]
    simp only [hpopb]
    rw [show n + (m + 1) = n + 1 + m by omega]
    exact hp

/-- The node memory BUILD leaves holds a tree whose cost bounds that of every code for the symbols' weights. -/
theorem builtNodes_optimal (o : TieOrder) (k : Nat) (freq : Vector Count 256) (node : Vector Node 513) :
    ∃ p, BuildInv o freq (2 * (buildLeaves freq).length - 1) (builtNodes o k freq node) [p]
      ∧ BoundsCost (p.2.cost (symWeight freq)) ↑((leafSyms freq).map (symWeight freq)) := by
  have hlen := buildLeaves_length freq
  obtain ⟨p, hinv, hopt⟩ := mergeAll_optimal o freq ↑((leafSyms freq).map (symWeight freq)) ((buildLeaves freq).length - 1) k
    (buildLeaves freq).length (selEntries 0 (buildLeaves freq)) (placeNodes 0 (buildLeaves freq) node)
    (firstItems 0 (buildLeaves freq)) (.of_eq (firstItems_fst _ _).symm) (BuildInv.first o freq node)
    (by rw [firstItems_length]; omega) (by rw [forestOf, firstItems_snd]; exact OptimalForest.leaves _ _)
  rw [show (buildLeaves freq).length + ((buildLeaves freq).length - 1) = 2 * (buildLeaves freq).length - 1 by omega] at hinv
  exact ⟨p, hinv, hopt.singleton⟩

/-- Settles O38: the cost of BUILD's tree bounds that of all lengths that satisfy Kraft's inequality. -/
theorem buildIsOptimal : Obligations.BuildIsOptimal := by
  intro s hq hcount
  have hL := two_le_buildLeaves_length hcount
  obtain ⟨p, hinv, hbound⟩ := builtNodes_optimal s.tieOrder s.pops s.freq s.node
  obtain ⟨_, _, _, hperm, _⟩ := hinv.holdsTree hL
  have hnd : p.2.leaves.Nodup := hperm.nodup_iff.mpr (leafSyms_nodup s.freq)
  have hlen : 2 ≤ p.2.leaves.length := by rw [hperm.length_eq, leafSyms, List.length_map]; exact hL
  refine ⟨buildEnd s, p.2, (exec_build hq hcount).1, hinv.holdsTree_buildEnd hL, fun code hfree => ?_⟩
  calc weightedLength (symWeight s.freq) p.2.codeOf p.2.leaves
      = p.2.cost (symWeight s.freq) := Tree.weightedLength_codeOf _ hnd
    _ ≤ codeCost (codeProfile (symWeight s.freq) code p.2.leaves) :=
        hbound _ ((map_fst_codeProfile _ _ _).trans (Multiset.coe_eq_coe.mpr (hperm.map _))) (hfree.kraftSum_le_one hnd hlen _)
    _ = weightedLength (symWeight s.freq) code p.2.leaves := codeCost_codeProfile _ _ _

end Sys2Proof.Machine

/-! SUPPORT. SERIALIZE and DESERIALIZE run to their ends, and one after the other (44_serdes.md R211, R220, R221). -/

namespace Sys2Proof.Machine

/-! ### The ends of the two commands -/

/-- The state in which SERIALIZE of the tree `t` ends, `wr` being its count of bits written (R211). -/
def serializeEnd (t : Tree) (wr : Counter) (s : State) : State :=
  complete
    { dispatched .serialize .serialize [] s with
      snk := s.snk.append t.serial, wrBits := wr, stk := []
      status := { (dispatched .serialize .serialize [] s).status with phase := .serialize } }

/-- The state in which DESERIALIZE of the encoding of the tree `t` ends, `rd` being its count of bits read (R212, R221). -/
def deserializeEnd (t : Tree) (rd : Counter) (s : State) : State :=
  complete
    { dispatched .deserialize .deserialize [] s with
      node := placeTree t 0 s.node, stk := [], root := 0#10
      nodeCount := BitVec.ofNat 10 t.size, leafCount := BitVec.ofNat 9 t.leaves.length
      rdBits := rd, src := { s.src with pos := s.src.pos + t.serial.length }
      status := { (dispatched .deserialize .deserialize [] s).status with
                  treeValid := true, lutValid := false, phase := .deserialize } }

/-- SERIALIZE of a held tree ends in the step that issues it, its 11L - 1 bits counted (R210, R211). -/
theorem exec_serialize {s : State} {t : Tree} (hq : s.Quiet) (ht : s.HoldsTree t) :
    ∃ wr, wr.now = BitVec.ofNat 32 t.serial.length ∧ exec .serialize s = .next (serializeEnd t wr s) := by
  obtain ⟨k, wr, hk, hwr, hmoves⟩ := serialize_body (hq.dispatched .serialize .serialize []) rfl (t := t) ht
  obtain ⟨hvalid, _, hsize, _⟩ := ht
  have hpre : Precondition.tree.fails s = none := by simp [Precondition.fails, hvalid]
  rw [finishBody_last rfl] at hmoves
  exact ⟨wr, hwr.trans (BitVec.zero_add _), (exec_eq .serialize s).trans (runCommand_ends hq hpre hmoves (by omega) rfl)⟩

/-- DESERIALIZE of a tree's encoding, whatever follows it, ends in the step that issues it (R212, R221). -/
theorem exec_deserialize {s : State} {t : Tree} (hq : s.Quiet) (hsrc : s.SourceAt t.serial) (hsize : t.size ≤ 513)
    (hinner : t.isInner = true) (hle : ∀ v ∈ t.leaves, v ≤ Config.eos) :
    ∃ rd, rd.now = BitVec.ofNat 32 t.serial.length ∧ exec .deserialize s = .next (deserializeEnd t rd s) := by
  obtain ⟨hpos, _, hdrop⟩ := hsrc
  obtain ⟨k, rd, hk, hrd, hmoves⟩ :=
    deserialize_body (hq.dispatched .deserialize .deserialize []) rfl hsize hinner hle hpos hdrop
  rw [finishBody_last rfl] at hmoves
  exact ⟨rd, hrd.trans (BitVec.zero_add _),
    (exec_eq .deserialize s).trans (runCommand_ends (pre := .none) hq rfl hmoves (by omega) rfl)⟩

theorem completed_serializeEnd (t : Tree) (wr : Counter) (s : State) : State.Completed .serialize (serializeEnd t wr s) :=
  completed_complete rfl rfl rfl rfl

theorem completed_deserializeEnd (t : Tree) (rd : Counter) (s : State) :
    State.Completed .deserialize (deserializeEnd t rd s) :=
  completed_complete rfl rfl rfl rfl

theorem serializeEnd_snk (t : Tree) (wr : Counter) (s : State) :
    (serializeEnd t wr s).snk = { s.snk with bits := s.snk.bits ++ t.serial } := rfl

/-- The nodes DESERIALIZE places from 0 on are the tree it has read (R213). -/
theorem deserializeEnd_holdsTree {t : Tree} (rd : Counter) (s : State) (hsize : t.size ≤ 513) (hinner : t.isInner = true)
    (hle : ∀ v ∈ t.leaves, v ≤ Config.eos) : (deserializeEnd t rd s).HoldsTree t :=
  ⟨rfl, (placeTree_holds t 0 s.node (by omega)).holds, hsize, hinner, hle⟩

/-! ### Between two commands -/

theorem State.Quiet.serializeEnd {s : State} (hq : s.Quiet) (t : Tree) (wr : Counter) : (serializeEnd t wr s).Quiet :=
  ⟨rfl, hq.2⟩

theorem State.Quiet.deserializeEnd {s : State} (hq : s.Quiet) (t : Tree) (rd : Counter) : (deserializeEnd t rd s).Quiet :=
  ⟨rfl, hq.2⟩

/-- The state with a source of these bits in place of its own, at their first (R305). -/
def rewound (bits : Bits) (s : State) : State := { s with src := { s.src with bits := bits, pos := 0 } }

theorem State.Quiet.rewound {s : State} (hq : s.Quiet) (bits : Bits) : (rewound bits s).Quiet := hq

theorem sourceAt_rewound (bits extra : Bits) (s : State) : (rewound (bits ++ extra) s).SourceAt bits :=
  ⟨Nat.zero_le _, extra, rfl⟩

/-! ### The statements -/

/-- Settles O41: what SERIALIZE's end state is, and the length of the encoding. -/
theorem serializeCommand : Obligations.SerializeCommand := by
  intro s tree hq ht
  obtain ⟨wr, hwr, hexec⟩ := exec_serialize hq ht
  obtain ⟨hvalid, _⟩ := ht
  have hlen : tree.serial.length = 11 * tree.leaves.length - 1 := Nat.eq_sub_of_add_eq tree.serial_length
  exact ⟨serializeEnd tree wr s, hexec, completed_serializeEnd tree wr s, serializeEnd_snk tree wr s, hlen, hlen ▸ hwr,
    rfl, rfl, rfl, rfl, rfl, hvalid, rfl, rfl, rfl, rfl⟩

/-- Settles O53: what SERIALIZE writes is the tree's encoding, DESERIALIZE of that encoding holds the tree again, and so the
second SERIALIZE writes the same. -/
theorem serializeThenDeserialize : Obligations.SerializeThenDeserialize := by
  intro s tree hq ht
  obtain ⟨wr, _, hser⟩ := exec_serialize hq ht
  obtain ⟨_, _, hsize, hinner, hle⟩ := ht
  refine ⟨serializeEnd tree wr s, tree.serial, hser, congrArg Sink.bits (serializeEnd_snk tree wr s), fun extra => ?_⟩
  have hqSrc := (hq.serializeEnd tree wr).rewound (tree.serial ++ extra)
  obtain ⟨rd, _, hdes⟩ := exec_deserialize hqSrc (sourceAt_rewound _ _ _) hsize hinner hle
  have htree := deserializeEnd_holdsTree rd (rewound (tree.serial ++ extra) (serializeEnd tree wr s)) hsize hinner hle
  obtain ⟨wr', _, hser'⟩ := exec_serialize (hqSrc.deserializeEnd tree rd) htree
  exact ⟨_, _, hdes, completed_deserializeEnd _ _ _, Nat.zero_add _, htree, hser', completed_serializeEnd _ _ _,
    congrArg Sink.bits (serializeEnd_snk _ _ _)⟩

end Sys2Proof.Machine

/-! SUPPORT. RESTART (45_compress.md R230), HEADER (R231), COMPRESS of no input (R237), and the two ends of ENCODE with NO_CODE
(R234, R235). -/

namespace Sys2Proof.Machine

/-! ### Commands of one body -/

/-- Settles O29: the two moves of RESTART's body, after which no body is left. -/
theorem restartCommand : Obligations.RestartCommand := by
  intro s hq
  have hmoves := restart_body (hq.dispatched .restart .restart []) rfl
  rw [finishBody_last rfl] at hmoves
  rw [exec_eq]
  exact runCommand_ends (pre := .none) hq rfl hmoves (by omega) rfl

/-- Settles O30: the two moves of HEADER's body, after which no body is left. -/
theorem headerCommand : Obligations.HeaderCommand := by
  intro s hq
  have hmoves := header_body (hq.dispatched .header .header []) rfl
  rw [finishBody_last rfl] at hmoves
  rw [exec_eq]
  exact runCommand_ends (pre := .none) hq rfl hmoves (by omega) rfl

/-- Settles O49: the peek finds end-of-data and completes, whatever bodies are left. -/
theorem compressEmptyInput : Obligations.CompressEmptyInput := by
  intro s hq heod
  have hmoves := peek_empty
    (hq.dispatched .compress .peek [.restart, .count, .build, .genlut, .header, .serialize, .restart, .encode]) rfl heod
  rw [exec_eq]
  exact runCommand_ends (pre := .none) hq rfl hmoves (by omega) rfl

/-! ### ENCODE with NO_CODE -/

@[simp] theorem dispatched_lut (op : Instr) (b : Body) (bs : List Body) (s : State) : (dispatched op b bs s).lut = s.lut := rfl

theorem State.HoldsCodes.byteCode_eq {s : State} {t : Tree} (h : s.HoldsCodes t) : Machine.byteCode s.lut = t.byteCode :=
  funext h.byteCode

theorem State.HoldsCodes.byteCode_ne_nil {s : State} {t : Tree} (h : s.HoldsCodes t) (hinner : t.isInner = true) {b : Byte}
    (hb : b.setWidth 9 ∈ t.leaves) : Machine.byteCode s.lut b ≠ [] :=
  h.byteCode b ▸ Tree.codeOf_ne_nil hinner hb

theorem State.HoldsCodes.byteCode_length_le {s : State} {t : Tree} (h : s.HoldsCodes t) (hsize : t.size ≤ 513) (b : Byte) :
    (Machine.byteCode s.lut b).length ≤ 256 :=
  h.byteCode b ▸ Tree.codeOf_length_le hsize _

theorem State.HoldsCodes.lut_fails {s : State} {t : Tree} (h : s.HoldsCodes t) : Precondition.lut.fails s = none := by
  simp [Precondition.fails, h.1]

/-- The state in which ENCODE ends with NO_CODE, `sent` being the bits it has written and `n` the number of bits it has consumed
(R234, R235). -/
def noCodeEnd (sent : Bits) (n : Nat) (rd wr sy : Counter) (s : State) : State :=
  raise .noCode
    { dispatched .encode .encode [] s with
      snk := s.snk.append sent, src := { s.src with pos := s.src.pos + n }
      rdBits := rd, wrBits := wr, syms := sy
      status := { (dispatched .encode .encode [] s).status with phase := .encode } }

theorem failed_noCodeEnd (sent : Bits) (n : Nat) (rd wr sy : Counter) (s : State) :
    State.Failed .encode .noCode .encode (noCodeEnd sent n rd wr sy s) :=
  failed_raise .noCode rfl rfl rfl

/-- ENCODE meets a byte without a code after bytes that have codes (R234). -/
theorem exec_encode_noCode {s : State} {t : Tree} {x : List Byte} {b : Byte} (hq : s.Quiet) (ht : s.HoldsCodes t)
    (hsize : t.size ≤ 513) (hinner : t.isInner = true) (hx : ∀ b ∈ x, b.setWidth 9 ∈ t.leaves)
    (hb : b.setWidth 9 ∉ t.leaves) (hsrc : s.SourceAt (bytesBits (x ++ [b]))) :
    ∃ rd wr sy, rd.now = BitVec.ofNat 32 (8 * (x.length + 1)) ∧ sy.now = BitVec.ofNat 32 x.length
      ∧ exec .encode s = .next (noCodeEnd (x.flatMap t.byteCode) (8 * (x.length + 1)) rd wr sy s) := by
  obtain ⟨hle, tail, hdrop⟩ := hsrc
  obtain ⟨k, rd, wr, sy, hk, hrd, -, hsy, hmoves⟩ := encode_noCode (hq.dispatched .encode .encode []) rfl hle hdrop
    (fun c hc => ht.byteCode_ne_nil hinner (hx c hc)) ((ht.byteCode b).trans (Tree.codeOf_eq_nil hb))
    (ht.byteCode_length_le hsize)
  have hlen := bytesAt_length_le hdrop
  rw [List.length_append] at hlen
  rw [dispatched_lut, ht.byteCode_eq] at hmoves
  exact ⟨rd, wr, sy, hrd.trans (BitVec.zero_add _), hsy,
    (exec_eq .encode s).trans (runCommand_ends hq ht.lut_fails hmoves (by omega) rfl)⟩

/-- ENCODE has sent the codes of all bytes, and there is no code for the sentinel (R235). -/
theorem exec_encode_noSentinel {s : State} {t : Tree} {x : List Byte} (hq : s.Quiet) (ht : s.HoldsCodes t)
    (hsize : t.size ≤ 513) (hinner : t.isInner = true) (hx : ∀ b ∈ x, b.setWidth 9 ∈ t.leaves)
    (heos : Config.eos ∉ t.leaves) (hsrc : s.SourceHolds x) :
    ∃ rd wr sy, rd.now = BitVec.ofNat 32 (8 * x.length) ∧ sy.now = BitVec.ofNat 32 x.length
      ∧ exec .encode s = .next (noCodeEnd (x.flatMap t.byteCode) (8 * x.length) rd wr sy s) := by
  obtain ⟨k, rd, wr, sy, hk, hrd, -, hsy, hmoves⟩ := encode_noSentinel (hq.dispatched .encode .encode []) rfl hsrc
    (fun c hc => ht.byteCode_ne_nil hinner (hx c hc)) (ht.sentinelCode.trans (Tree.codeOf_eq_nil heos))
    (ht.byteCode_length_le hsize)
  obtain ⟨_, _, hdrop, _⟩ := hsrc
  have hlen := bytesAt_length_le hdrop
  rw [dispatched_lut, ht.byteCode_eq] at hmoves
  exact ⟨rd, wr, sy, hrd.trans (BitVec.zero_add _), hsy,
    (exec_eq .encode s).trans (runCommand_ends hq ht.lut_fails hmoves (by omega) rfl)⟩

/-- Settles O45: the two ways in which ENCODE meets an empty entry of the LUT, both after the codes of `x`. -/
theorem encodeWithoutACode : Obligations.EncodeWithoutACode := by
  intro s tree x hq ht hsize hinner hx
  constructor
  case left =>
    intro b hb hsrc
    obtain ⟨rd, wr, sy, hrd, hsy, hexec⟩ := exec_encode_noCode hq ht hsize hinner hx hb hsrc
    exact ⟨_, hexec, failed_noCodeEnd _ _ _ _ _ _, rfl, hsy, hrd, rfl⟩
  case right =>
    intro heos hsrc
    obtain ⟨rd, wr, sy, hrd, hsy, hexec⟩ := exec_encode_noSentinel hq ht hsize hinner hx heos hsrc
    exact ⟨_, hexec, failed_noCodeEnd _ _ _ _ _ _, rfl, hsy, hrd, rfl⟩

end Sys2Proof.Machine

/-! SUPPORT. Commands that begin with CHECKMAGIC, whatever bodies follow it: the three ways in which the check ends (46_decompress.md
R250), for CHECKMAGIC itself and for DECOMPRESS (R259). -/

namespace Sys2Proof.Machine

/-! ### The three ends of the check -/

/-- With fewer than 32 bits left the command ends with FORMAT, nothing consumed (R250, R259). -/
theorem runCommand_checkMagic_eod (op : Instr) (bs : List Body) {s : State} (hq : s.Quiet)
    (heod : s.src.bits.length < s.src.pos + 32) :
    runCommand op .none .checkMagic bs s = .next (raise .format (setPhase .checkMagic (dispatched op .checkMagic bs s))) :=
  runCommand_ends hq rfl (checkmagic_eod (hq.dispatched op .checkMagic bs) rfl heod) (by omega) rfl

/-- On 32 bits that are not MAGIC the command ends with FORMAT, those bits consumed (R250, R259). -/
theorem runCommand_checkMagic_mismatch (op : Instr) (bs : List Body) {s : State} (hq : s.Quiet)
    (hlen : s.src.pos + 32 ≤ s.src.bits.length)
    (hne : (s.src.bits.drop s.src.pos).take 32 ≠ bitsOf 32 Config.magic.toNat) :
    runCommand op .none .checkMagic bs s =
      .next (raise .format (received 32 (setPhase .checkMagic (dispatched op .checkMagic bs s)))) := by
  have hl : ((s.src.bits.drop s.src.pos).take 32).length = 32 := by
    rw [List.length_take, List.length_drop]; omega
  have hmoves := checkmagic_mismatch (hq.dispatched op .checkMagic bs) rfl (Nat.le_of_add_right_le hlen)
    (List.take_append_drop 32 _).symm hl hne
  exact runCommand_ends hq rfl hmoves (by omega) rfl

/-- CHECKMAGIC on MAGIC completes, its 32 bits consumed (R250). -/
theorem exec_checkmagic_match {s : State} (hq : s.Quiet) (hpos : s.src.pos ≤ s.src.bits.length)
    (heq : (s.src.bits.drop s.src.pos).take 32 = bitsOf 32 Config.magic.toNat) :
    exec .checkmagic s =
      .next (complete (received 32 (setPhase .checkMagic (dispatched .checkmagic .checkMagic [] s)))) := by
  have hdrop : s.src.bits.drop s.src.pos = bitsOf 32 Config.magic.toNat ++ (s.src.bits.drop s.src.pos).drop 32 := by
    rw [← heq, List.take_append_drop]
  have hmoves := checkmagic_body (hq.dispatched .checkmagic .checkMagic []) rfl hpos hdrop
  rw [finishBody_last rfl] at hmoves
  exact (exec_eq .checkmagic s).trans (runCommand_ends (pre := .none) hq rfl hmoves (by omega) rfl)

/-! ### The statements -/

/-- Settles O46: too few bits, MAGIC, or 32 other bits. -/
theorem checkmagicCommand : Obligations.CheckmagicCommand := by
  intro s hq hpos
  by_cases heod : s.src.bits.length < s.src.pos + 32
  case pos =>
    have hexec := (exec_eq .checkmagic s).trans (runCommand_checkMagic_eod .checkmagic [] hq heod)
    exact ⟨_, hexec, rfl, rfl, rfl, rfl, rfl, rfl, rfl, rfl, rfl, rfl,
      (if_pos heod).mpr ⟨failed_raise .format rfl rfl rfl, rfl, rfl⟩⟩
  case neg =>
    by_cases hmagic : (s.src.bits.drop s.src.pos).take 32 = bitsOf 32 Config.magic.toNat
    case pos =>
      exact ⟨_, exec_checkmagic_match hq hpos hmagic, rfl, rfl, rfl, rfl, rfl, rfl, rfl, rfl, rfl, rfl,
        (if_neg heod).mpr ⟨rfl, rfl, (if_pos hmagic).mpr (completed_complete rfl rfl rfl rfl)⟩⟩
    case neg =>
      have hexec := (exec_eq .checkmagic s).trans
        (runCommand_checkMagic_mismatch .checkmagic [] hq (Nat.le_of_not_lt heod) hmagic)
      exact ⟨_, hexec, rfl, rfl, rfl, rfl, rfl, rfl, rfl, rfl, rfl, rfl,
        (if_neg heod).mpr ⟨rfl, rfl, (if_neg hmagic).mpr (failed_raise .format rfl rfl rfl)⟩⟩

/-- Settles O51: DECOMPRESS ends in its first body, before DESERIALIZE drops the tree. -/
theorem decompressFormatError : Obligations.DecompressFormatError := by
  intro s hq _ hne
  by_cases heod : s.src.bits.length < s.src.pos + 32
  case pos =>
    have hexec := (exec_eq .decompress s).trans
      (runCommand_checkMagic_eod .decompress [.deserialize, .decode] hq heod)
    exact ⟨_, hexec, failed_raise .format rfl rfl rfl, rfl, rfl, rfl, rfl, rfl, rfl, rfl, rfl, rfl, rfl, rfl,
      (if_pos heod).mpr ⟨rfl, rfl⟩⟩
  case neg =>
    have hexec := (exec_eq .decompress s).trans
      (runCommand_checkMagic_mismatch .decompress [.deserialize, .decode] hq (Nat.le_of_not_lt heod) hne)
    exact ⟨_, hexec, failed_raise .format rfl rfl rfl, rfl, rfl, rfl, rfl, rfl, rfl, rfl, rfl, rfl, rfl, rfl,
      (if_neg heod).mpr ⟨rfl, rfl⟩⟩

end Sys2Proof.Machine

/-! SUPPORT. The errors a command can end with (60_exceptions.md R272). -/

namespace Sys2Proof.Machine

/-! ### A command's own errors (R272) -/

/-- What a command keeps from its acceptance to its end: its bodies to do are among its own, and an error it shows is one of
its own. -/
def State.WithinCommand (i : Instr) (s : State) : Prop :=
  (∀ b ∈ s.seq.todo, b ∈ (commandOf i).2.1 :: (commandOf i).2.2)
    ∧ (s.status.error = true → s.status.errCode ∈ errorsOf i)

theorem mem_todo_of_pos_body {q : Seq} {b : Body} (h : q.pos.body = some b) : b ∈ q.todo := by
  simp [Seq.todo, h]

theorem todo_idle : Seq.idle.todo = [] := rfl

theorem withinCommand_dispatched (i : Instr) (s : State) :
    State.WithinCommand i (dispatched i (commandOf i).2.1 (commandOf i).2.2 s) :=
  ⟨fun _ hb => hb, nofun⟩

/-- An error that a move raises is the current body's, and the current body is one of the command's. -/
theorem move_withinCommand {i : Instr} {s t : State} (hs : s.WithinCommand i) (h : move s = .next t) :
    t.WithinCommand i := by
  obtain ⟨hbodies, herrors⟩ := hs
  obtain ⟨_, hfate, _⟩ := move_moved h
  rcases hfate with hon | hdone | herr
  · obtain ⟨_, _, herror, hcode, _, _, htodo⟩ := hon
    exact ⟨fun b hb => hbodies b (htodo b hb), fun ht => hcode ▸ herrors (herror ▸ ht)⟩
  · obtain ⟨_, _, herror, hcode, _, _, hseq⟩ := hdone
    exact ⟨by simp [hseq, todo_idle], fun ht => hcode ▸ herrors (herror ▸ ht)⟩
  · obtain ⟨_, _, _, _, hseq, b, hb, hcode⟩ := herr
    exact ⟨by simp [hseq, todo_idle], fun _ => (errorsOf_eq i).2 b (hbodies b (mem_todo_of_pos_body hb)) _ hcode⟩

theorem settle_withinCommand {i : Instr} {s t : State} (hs : s.WithinCommand i) (h : settle s = .next t) :
    t.WithinCommand i :=
  drive_keeps (fun _ _ _ => move_withinCommand) h hs

theorem runWord_ok {w : Word} {i : Instr} (h : decode w = .ok i) (s : State) : runWord w s = exec i s := by
  simp only [runWord, h]

theorem runWord_error {w : Word} {e : DecodeError} (h : decode w = .error e) (s : State) :
    runWord w s = illegalCommand w s := by
  simp only [runWord, h]

/-- Settles O9: the error is the precondition's, or one that a body of the command raised. -/
theorem errorsOfEachCommand : Obligations.ErrorsOfEachCommand := by
  constructor
  · intro s t i hb h herr
    rw [exec_eq] at h
    cases hp : (commandOf i).1.fails s with
    | some e =>
      rw [runCommand_fails hb hp] at h
      cases h
      exact (errorsOf_eq i).1 s e hp
    | none =>
      rw [runCommand_runs hb hp] at h
      obtain ⟨_, herrors⟩ := settle_withinCommand (withinCommand_dispatched i s) h
      exact herrors herr
  · intro s t w e hb hd h
    rw [runWord_error hd, illegalCommand_idle hb] at h
    cases h
    rfl

end Sys2Proof.Machine

/-! SUPPORT. What sets IRQ.PEND (60_exceptions.md R277): the moves of a step, a command word, and every other event. -/

namespace Sys2Proof.Machine

/-! ### The end of a command -/

/-- A command has just ended, done or with an error, and PEND is set (R155, R156, R277). -/
def State.JustEnded (t : State) : Prop :=
  t.status.busy = false ∧ t.pend = true ∧ (t.status.done = true ∨ t.status.error = true)

/-- BUSY and PEND are the same. -/
def SameBusyPend (s t : State) : Prop := t.status.busy = s.status.busy ∧ t.pend = s.pend

theorem justEnded_raise (e : ErrCode) (s : State) : (raise e s).JustEnded := ⟨rfl, rfl, .inr rfl⟩

/-- A move ends the command or touches neither BUSY nor PEND. -/
theorem move_justEnded_or_same {s t : State} (h : move s = .next t) : t.JustEnded ∨ SameBusyPend s t := by
  obtain ⟨_, hfate, _⟩ := move_moved h
  rcases hfate with ⟨hbusy, _, _, _, hpend, _⟩ | ⟨hbusy, hdone, _, _, _, hpend, _⟩ | ⟨hbusy, _, herr, hpend, _⟩
  · exact .inr ⟨hbusy, hpend⟩
  · exact .inl ⟨hbusy, hpend, .inl hdone⟩
  · exact .inl ⟨hbusy, hpend, .inr herr⟩

/-- So do the moves of a step: after the end of a command no move is possible. -/
theorem settle_justEnded_or_same {s t : State} (h : settle s = .next t) : t.JustEnded ∨ SameBusyPend s t := by
  refine drive_keeps (P := fun u => u.JustEnded ∨ SameBusyPend s u) (fun u v hu hs hm => ?_) h (.inr ⟨rfl, rfl⟩)
  rcases hs with ⟨hidle, _⟩ | ⟨hbusy, hpend⟩
  · simp [halted_of_not_busy hidle] at hu
  · rcases move_justEnded_or_same hm with hv | ⟨hbusy', hpend'⟩
    · exact .inl hv
    · exact .inr ⟨hbusy'.trans hbusy, hpend'.trans hpend⟩

/-- Moves that set PEND end the command that was running. -/
theorem settle_sets_pend {s t : State} (h : settle s = .next t) (hs : s.pend = false) (ht : t.pend = true) :
    t.JustEnded ∧ s.status.busy = true := by
  have hbusy : s.status.busy ≠ false := fun hidle => by
    rw [settle_idle hidle] at h
    cases h
    simp [hs] at ht
  rcases settle_justEnded_or_same h with hend | ⟨_, hpend⟩
  · exact ⟨hend, by simpa using hbusy⟩
  · simp [hpend, hs] at ht

/-! ### A command word -/

theorem runCommand_justEnded_or_busy {op : Instr} {pre : Precondition} {b : Body} {bs : List Body} {s t : State}
    (hb : s.status.busy = false) (h : runCommand op pre b bs s = .next t) :
    t.JustEnded ∨ (t.status.busy = true ∧ t.pend = s.pend) := by
  cases hp : pre.fails s with
  | some e =>
    rw [runCommand_fails hb hp] at h
    cases h
    exact .inl (justEnded_raise e _)
  | none =>
    rw [runCommand_runs hb hp] at h
    exact settle_justEnded_or_same h

/-- A word taken from the bus has ended a command, its own or the running one, or a command runs and PEND is as before. -/
theorem runWord_justEnded_or_busy {w : Word} {s t : State} (h : runWord w s = .next t) :
    t.JustEnded ∨ (t.status.busy = true ∧ t.pend = s.pend) := by
  cases hb : s.status.busy with
  | true =>
    rw [runWord_busy hb] at h
    exact (settle_justEnded_or_same h).imp_right fun ⟨hbusy, hpend⟩ => ⟨hbusy.trans hb, hpend⟩
  | false =>
    cases hd : decode w with
    | ok i =>
      rw [runWord_ok hd, exec_eq] at h
      exact runCommand_justEnded_or_busy hb h
    | error e =>
      rw [runWord_error hd, illegalCommand_idle hb] at h
      cases h
      exact .inl (justEnded_raise .illegalCmd _)

/-! ### Every other event -/

/-- Neither BUSY nor PEND is set; they may be cleared. -/
def SetsNeither (s t : State) : Prop :=
  (t.pend = true → s.pend = true) ∧ (t.status.busy = true → s.status.busy = true)

theorem SetsNeither.refl (s : State) : SetsNeither s s := ⟨id, id⟩

/-- A write of IRQ clears PEND or leaves it (R32); no other write of a register touches it. -/
theorem csrWrite_setsNeither (r : Csr) (v : Word) (s : State) : SetsNeither s (csrWrite r v s) := by
  by_cases hr : r ∈ Csr.writable
  · cases r with
    | irq => exact ⟨fun h => (Bool.and_eq_true_iff.mp h).1, id⟩
    | freqData => simp only [csrWrite]; split <;> exact ⟨id, id⟩
    | ctrl | freqIdx | lutIdx | nodeIdx => exact ⟨id, id⟩
    | _ => exact absurd hr (by simp [Csr.writable])
  · rw [csrWrite_of_not_writable hr]
    exact .refl s

theorem busAccess_setsNeither (a : Access) (s : State) : SetsNeither s (busAccess a s) := by
  unfold busAccess
  split
  · split
    · exact ⟨id, id⟩
    next r _ =>
      split
      · exact csrWrite_setsNeither r a.data s
      · obtain ⟨d, hd⟩ := csrRead_snd r s
        rw [hd]
        exact ⟨id, id⟩
  · exact ⟨id, id⟩

/-- A reset clears both (R302). -/
theorem resetPin_setsNeither (level : Bool) (s : State) : SetsNeither s (resetPin level s) := by
  unfold resetPin
  split
  · exact .refl s
  · exact ⟨nofun, nofun⟩

theorem exclusive_eq_next {s u t : State} (h : exclusive s u = .next t) : t = u := by
  unfold exclusive at h
  split at h <;> cases h
  rfl

theorem foreignUse_setsNeither (u : StreamUse) (s : State) : SetsNeither s (foreignUse u s) := by
  cases u <;> exact ⟨id, id⟩

theorem serve_setsNeither {e : Event} {s t : State} (h : serve e s = .next t) : SetsNeither s t := by
  cases e with
  | access a => cases h; exact busAccess_setsNeither a s
  | rst level => cases h; exact resetPin_setsNeither level s
  | sourceReady | sinkReady | sourceChanges | pace => cases h; exact ⟨id, id⟩
  | attach bits pos => rw [exclusive_eq_next h]; exact ⟨id, id⟩
  | foreign u => rw [exclusive_eq_next h]; exact foreignUse_setsNeither u s

/-- A step that sets PEND ends a command, one that ran before or one whose word it takes. -/
theorem step_sets_pend {s t : State} (h : step s = .next t) (hs : s.pend = false) (ht : t.pend = true) :
    t.JustEnded ∧ (s.status.busy = true ∨ ∃ e es w, s.pending = e :: es ∧ e.command s = some w) := by
  unfold step at h
  split at h
  · exact (settle_sets_pend h hs ht).imp_right .inl
  next e es hpending =>
    split at h
    next w hword =>
      rcases runWord_justEnded_or_busy h with hend | ⟨_, hpend⟩
      · exact ⟨hend, .inr ⟨e, es, w, hpending, hword⟩⟩
      · simp [hpend, hs] at ht
    next =>
      cases hserve : serve e { s with pending := es } with
      | next u =>
        rw [hserve] at h
        obtain ⟨hpend, hbusy⟩ := serve_setsNeither hserve
        have hu : u.pend = false := Bool.eq_false_iff.mpr fun hset => Bool.false_ne_true (hs.symm.trans (hpend hset))
        obtain ⟨hend, hrunning⟩ := settle_sets_pend h hu ht
        exact ⟨hend, .inl (hbusy hrunning)⟩
      | fault | refused => rw [hserve] at h; cases h

/-- Settles O11: only the end of a command sets PEND, and whatever leaves BUSY at 0 after a command ran has ended it. -/
theorem pendIsSetExactlyByCommandEnds : Obligations.PendIsSetExactlyByCommandEnds := by
  refine ⟨fun s t h hs ht => ?_, fun s t h hs ht => ?_, fun s t w h ht => ?_⟩
  · obtain ⟨⟨hidle, _, hended⟩, hcommand⟩ := step_sets_pend h hs ht
    exact ⟨hidle, hended, hcommand⟩
  · rcases settle_justEnded_or_same h with ⟨_, hpend, _⟩ | ⟨hbusy, _⟩
    · exact hpend
    · simp [hbusy, hs] at ht
  · rcases runWord_justEnded_or_busy h with ⟨_, hpend, _⟩ | ⟨hbusy, _⟩
    · exact hpend
    · simp [hbusy] at ht

end Sys2Proof.Machine

/-! SUPPORT. What a whole command changes and leaves unchanged (10_state.md R34 to R36, R55), and the STATUS it leaves (R26, R30). -/

namespace Sys2Proof.Machine

/-! ### STATUS of a command (R26, R30, R314) -/

/-- STATUS is that of the command `i`: it runs, or it has ended, done or with an error (R26, R30). -/
def State.OwnStatus (i : Instr) (t : State) : Prop :=
  t.status.lastOp = i.opcode ∧ t.status.ovr = false
    ∧ ((t.status.busy = true ∧ t.status.done = false ∧ t.status.error = false ∧ t.status.errCode = .none)
      ∨ (t.status.busy = false ∧ t.status.done = true ∧ t.status.error = false ∧ t.status.errCode = .none
          ∧ t.status.phase = .idle)
      ∨ (t.status.busy = false ∧ t.status.done = false ∧ t.status.error = true ∧ t.status.errCode ≠ .none))

theorem bodyErrors_ne_none {b : Body} {e : ErrCode} (h : e ∈ bodyErrors b) : e ≠ .none := by
  rintro rfl
  cases b <;> simp [bodyErrors] at h

theorem fails_ne_none {p : Precondition} {s : State} {e : ErrCode} (h : p.fails s = some e) : e ≠ .none := by
  rintro rfl
  cases p <;> simp [Precondition.fails] at h

theorem busy_of_not_halted {s : State} (h : s.halted = false) : s.status.busy = true := by
  cases hb : s.status.busy with
  | true => rfl
  | false => simp [halted_of_not_busy hb] at h

theorem move_ownStatus {i : Instr} {s t : State} (hh : s.halted = false) (hs : s.OwnStatus i) (h : move s = .next t) :
    t.OwnStatus i := by
  obtain ⟨hop, hovr, hfate⟩ := hs
  have hb := busy_of_not_halted hh
  rcases hfate with ⟨_, hdone, herr, hcode⟩ | ⟨hidle, _⟩ | ⟨hidle, _⟩
  · obtain ⟨⟨_, _, _, _, hop', hovr'⟩, hmove, _⟩ := move_moved h
    refine ⟨hop'.trans hop, hovr'.trans hovr, ?_⟩
    rcases hmove with ⟨hb', hd', he', hc', _⟩ | ⟨hb', hd', he', hc', hp', _⟩ | ⟨hb', hd', he', _, _, b, _, hc'⟩
    · exact .inl ⟨hb'.trans hb, hd'.trans hdone, he'.trans herr, hc'.trans hcode⟩
    · exact .inr (.inl ⟨hb', hd', he'.trans herr, hc'.trans hcode, hp'⟩)
    · exact .inr (.inr ⟨hb', hd'.trans hdone, he', bodyErrors_ne_none hc'⟩)
  all_goals exact absurd (hidle.symm.trans hb) Bool.false_ne_true

/-- Settles O8: acceptance sets STATUS so, and every move of the command keeps it so. -/
theorem statusAfterCommandIsItsOwn : Obligations.StatusAfterCommandIsItsOwn := by
  intro s t i hb h
  rw [exec_eq] at h
  cases hp : (commandOf i).1.fails s with
  | some e =>
    rw [runCommand_fails hb hp] at h
    cases h
    exact ⟨rfl, rfl, .inr (.inr ⟨rfl, rfl, rfl, fails_ne_none hp⟩)⟩
  | none =>
    rw [runCommand_runs hb hp] at h
    exact drive_keeps (P := State.OwnStatus i) (fun _ _ => move_ownStatus) h ⟨rfl, rfl, .inl ⟨rfl, rfl, rfl, rfl⟩⟩

/-! ### What is not the block's (R55) -/

/-- What no command touches (R22, R55); the sink only grows. -/
def HostsKept (s t : State) : Prop :=
  t.irqEn = s.irqEn ∧ t.freqIdx = s.freqIdx ∧ t.lutIdx = s.lutIdx ∧ t.nodeIdx = s.nodeIdx ∧ t.rstN = s.rstN
    ∧ t.response = s.response ∧ t.pending = s.pending ∧ t.pace = s.pace ∧ t.draws = s.draws
    ∧ t.cntW = s.cntW ∧ t.tieOrder = s.tieOrder
    ∧ t.src.bits = s.src.bits ∧ t.src.ready = s.src.ready ∧ t.snk.ready = s.snk.ready
    ∧ ∃ bits, t.snk.bits = s.snk.bits ++ bits

theorem Kept.hostsKept {s t : State} (h : Kept s t) : HostsKept s t := by
  obtain ⟨⟨h1, h2, h3, h4, h5, h6, h7⟩, ⟨h8, h9, h10, h11⟩, ⟨h12, h13, h14⟩, h15, _⟩ := h
  exact ⟨h1, h2, h3, h4, h5, h8, h9, h10, h11, h6, h7, h12, h13, h14, h15⟩

/-- Settles O57: neither acceptance nor the discarding of a word touches it, and no move does. -/
theorem noCommandTouchesTheHostsState : Obligations.NoCommandTouchesTheHostsState := by
  intro s t i h
  rw [exec_eq] at h
  cases hb : s.status.busy with
  | true =>
    rw [runCommand_busy hb] at h
    exact (settle_kept h).hostsKept
  | false =>
    cases hp : (commandOf i).1.fails s with
    | some e =>
      rw [runCommand_fails hb hp] at h
      cases h
      exact (Kept.refl s).hostsKept
    | none =>
      rw [runCommand_runs hb hp] at h
      exact (settle_kept h).hostsKept

/-! ### What each command changes of the block's own state (R34 to R36, R55, R91) -/

/-- The bodies of a command (R154). -/
def bodiesOf (i : Instr) : List Body := (commandOf i).2.1 :: (commandOf i).2.2

theorem mem_all (i : Instr) : i ∈ Instr.all := by cases i <;> decide

/-- A part `f` of the state that none of the command's bodies changes has the value after it that acceptance gives it. -/
theorem exec_frame {α : Type} (f : State → α) {i : Instr} {s t : State} {a : α} (hb : s.status.busy = false)
    (h : exec i s = .next t) (hf : ∀ u v : State, ∀ b ∈ bodiesOf i, Only b u v → f v = f u)
    (hraise : ∀ e, f (raise e (accept i.opcode s)) = a)
    (hstart : f (dispatched i (commandOf i).2.1 (commandOf i).2.2 s) = a) : f t = a := by
  rw [exec_eq] at h
  cases hp : (commandOf i).1.fails s with
  | some e =>
    rw [runCommand_fails hb hp] at h
    cases h
    exact hraise e
  | none =>
    rw [runCommand_runs hb hp] at h
    refine (drive_keeps (P := fun u => u.WithinCommand i ∧ f u = a) (fun u v _ ⟨hu, hfu⟩ hm => ?_) h
      ⟨withinCommand_dispatched i s, hstart⟩).2
    obtain ⟨b, hbody⟩ := move_body hm
    obtain ⟨_, _, honly⟩ := move_moved hm
    exact ⟨move_withinCommand hu hm, (hf u v b (hu.1 b (mem_todo_of_pos_body hbody)) (honly b hbody)).trans hfu⟩

theorem not_mem_of_bodiesOf {is : List Instr} {bs : List Body}
    (hall : ∀ i ∈ Instr.all, i ∉ is → ∀ b ∈ bodiesOf i, b ∉ bs) {i : Instr} (hi : i ∉ is) {b : Body} (hb : b ∈ bodiesOf i) :
    b ∉ bs := hall i (mem_all i) hi b hb

theorem not_mem_of_bodiesOf_mem {is : List Instr} {bs : List Body} (hall : ∀ i ∈ is, ∀ b ∈ bodiesOf i, b ∉ bs) {i : Instr}
    (hi : i ∈ is) {b : Body} (hb : b ∈ bodiesOf i) : b ∉ bs := hall i hi b hb

/-- Settles O58: each clause is about a part of the state that none of the other commands' bodies changes. -/
theorem onlyTheirCommandsChangeTheTables : Obligations.OnlyTheirCommandsChangeTheTables := by
  intro s t i hb h
  refine ⟨fun hi => ?freq, fun hi => ?node, fun hi => ?tree, fun hi => ?lut, fun hi => ?lutValid, fun hi => ?empty,
    fun hi => ?sel, fun hi => ?path, fun hi => ?stk, fun hi => ?cur⟩
  case freq =>
    exact exec_frame (·.freq) hb h (fun _ _ b hm ⟨hfreq, _⟩ => hfreq (not_mem_of_bodiesOf (by decide) hi hm)) (fun _ => rfl) rfl
  case node =>
    exact exec_frame (·.node) hb h (fun _ _ b hm ⟨_, hnode, _⟩ => hnode (not_mem_of_bodiesOf (by decide) hi hm)) (fun _ => rfl) rfl
  case tree =>
    have htree := exec_frame (fun u => (u.leafCount, u.nodeCount, u.root, u.status.treeValid))
      (a := (s.leafCount, s.nodeCount, s.root, s.status.treeValid)) hb h
      (fun _ _ b hm ⟨_, _, htree, _⟩ => by
        obtain ⟨h1, h2, h3, h4⟩ := htree (not_mem_of_bodiesOf (by decide) hi hm)
        simp only [h1, h2, h3, h4]) (fun _ => rfl) rfl
    simpa only [Prod.mk.injEq] using htree
  case lut =>
    exact exec_frame (·.lut) hb h (fun _ _ b hm ⟨_, _, _, hlut, _⟩ => hlut (List.ne_of_not_mem_cons (not_mem_of_bodiesOf (bs := [_]) (by decide) hi hm)))
      (fun _ => rfl) rfl
  case lutValid =>
    exact exec_frame (·.status.lutValid) hb h
      (fun _ _ b hm ⟨_, _, _, _, hvalid, _⟩ => hvalid (not_mem_of_bodiesOf (by decide) hi hm)) (fun _ => rfl) rfl
  case empty =>
    exact exec_frame (·.status.empty) hb h
      (fun _ _ b hm ⟨_, _, _, _, _, hempty, _⟩ => hempty (not_mem_of_bodiesOf (by decide) hi hm)) (fun _ => rfl) rfl
  case sel =>
    have hsel := exec_frame (fun u => (u.sel, u.pops)) (a := (s.sel, s.pops)) hb h
      (fun _ _ b hm ⟨_, _, _, _, _, _, hsel, _⟩ => by
        obtain ⟨h1, h2⟩ := hsel (List.ne_of_not_mem_cons (not_mem_of_bodiesOf (bs := [_]) (by decide) hi hm))
        simp only [h1, h2]) (fun _ => rfl) rfl
    simpa only [Prod.mk.injEq] using hsel
  case path =>
    exact exec_frame (·.path) hb h
      (fun _ _ b hm ⟨_, _, _, _, _, _, _, hpath, _⟩ => hpath (List.ne_of_not_mem_cons (not_mem_of_bodiesOf (bs := [_]) (by decide) hi hm))) (fun _ => rfl) rfl
  case stk =>
    exact exec_frame (·.stk) hb h
      (fun _ _ b hm ⟨_, _, _, _, _, _, _, _, hstk, _⟩ => hstk (not_mem_of_bodiesOf (by decide) hi hm)) (fun _ => rfl) rfl
  case cur =>
    exact exec_frame (·.cur) hb h
      (fun _ _ b hm ⟨_, _, _, _, _, _, _, _, _, hcur, _⟩ => hcur (List.ne_of_not_mem_cons (not_mem_of_bodiesOf (bs := [_]) (by decide) hi hm))) (fun _ => rfl) rfl

/-- Settles O59: each clause is about a stream or a counter that none of these commands' bodies uses. -/
theorem onlyTheirCommandsUseTheStreams : Obligations.OnlyTheirCommandsUseTheStreams := by
  intro s t i hb h
  refine ⟨fun hi => ?src, fun hi => ?rdBits, fun hi => ?snk, fun hi => ?syms⟩
  case src =>
    exact exec_frame (·.src) hb h
      (fun _ _ b hm ⟨_, _, _, _, _, _, _, _, _, _, hsrc, _⟩ => hsrc (not_mem_of_bodiesOf_mem (by decide) hi hm)) (fun _ => rfl) rfl
  case rdBits =>
    have hrd := exec_frame (·.rdBits) hb h
      (fun _ _ b hm ⟨_, _, _, _, _, _, _, _, _, _, _, hrd, _⟩ => hrd (not_mem_of_bodiesOf_mem (by decide) hi hm)) (fun _ => rfl) rfl
    exact congrArg Counter.now hrd
  case snk =>
    have hsnk := exec_frame (fun u => (u.snk, u.wrBits)) (a := (s.snk, Counter.zero)) hb h
      (fun _ _ b hm ⟨_, _, _, _, _, _, _, _, _, _, _, _, hsnk, _⟩ => by
        obtain ⟨h1, h2⟩ := hsnk (not_mem_of_bodiesOf_mem (by decide) hi hm)
        simp only [h1, h2]) (fun _ => rfl) rfl
    exact ⟨congrArg Prod.fst hsnk, congrArg (·.2.now) hsnk⟩
  case syms =>
    have hsyms := exec_frame (·.syms) hb h
      (fun _ _ b hm ⟨_, _, _, _, _, _, _, _, _, _, _, _, _, hsyms⟩ => hsyms (not_mem_of_bodiesOf (by decide) hi hm))
      (fun _ => rfl) rfl
    exact congrArg Counter.now hsyms

end Sys2Proof.Machine

/-! SUPPORT. GENLUT (43_codetable.md R200 to R205), ENCODE with every code there (45_compress.md R232), DECODE (46_decompress.md
R251 to R255) and DESERIALIZE (44_serdes.md R212 to R221), each to its end in the step that issues it. -/

namespace Sys2Proof.Machine

/-! ### GENLUT -/

/-- The state in which GENLUT on the tree `t` ends (R200). -/
def genlutEnd (t : Tree) (s : State) : State :=
  complete
    { dispatched .genlut .genlut [] s with
      lut := recordCodes t [] (Vector.replicate 257 []), stk := [], path := []
      status := { (dispatched .genlut .genlut [] s).status with lutValid := true, phase := .genlut } }

theorem State.HoldsTree.tree_fails {s : State} {t : Tree} (h : s.HoldsTree t) : Precondition.tree.fails s = none := by
  simp [Precondition.fails, h.1]

theorem exec_genlut {s : State} {t : Tree} (hq : s.Quiet) (ht : s.HoldsTree t) :
    exec .genlut s = .next (genlutEnd t s) := by
  have hmoves := genlut_body (hq.dispatched .genlut .genlut []) rfl (t := t) ht
  rw [finishBody_last rfl] at hmoves
  have hpre := ht.tree_fails
  obtain ⟨_, _, hsize, _⟩ := ht
  exact (exec_eq .genlut s).trans (runCommand_ends hq hpre hmoves (by omega) rfl)

/-- A symbol has a code of at least one bit exactly when it has a leaf (R205). -/
theorem Tree.codeOf_ne_nil_iff {t : Tree} (hinner : t.isInner = true) {v : Sym} : t.codeOf v ≠ [] ↔ v ∈ t.leaves :=
  ⟨fun h => by_contra fun hv => h (Tree.codeOf_eq_nil hv), Tree.codeOf_ne_nil hinner⟩

/-- Settles O39: the walk records each leaf's path, and touches nothing but the LUT and its own state. -/
theorem genlutCommand : Obligations.GenlutCommand := by
  intro s tree hq ht
  have hexec := exec_genlut hq ht
  obtain ⟨hvalid, hholds, hsize, hinner, hle⟩ := ht
  exact ⟨genlutEnd tree s, hexec, completed_complete rfl rfl rfl rfl, ⟨rfl, recordCodes_codeOf tree hle⟩,
    ⟨hvalid, hholds, hsize, hinner, hle⟩,
    fun v _ => ⟨Tree.codeOf_ne_nil_iff hinner, Tree.codeOf_length_le hsize v⟩, rfl, rfl, rfl, rfl, rfl, rfl, rfl, rfl, rfl⟩

/-! ### ENCODE -/

/-- The state in which ENCODE of the bytes `x` ends when every byte and the sentinel have codes in `t` (R232). -/
def encodeEnd (t : Tree) (x : List Byte) (rd wr sy : Counter) (s : State) : State :=
  complete
    { dispatched .encode .encode [] s with
      snk := s.snk.append (t.payload x), src := { s.src with pos := s.src.pos + 8 * x.length }
      rdBits := rd, wrBits := wr, syms := sy
      status := { (dispatched .encode .encode [] s).status with phase := .encode } }

theorem exec_encode {s : State} {t : Tree} {x : List Byte} (hq : s.Quiet) (ht : s.HoldsCodes t) (hsize : t.size ≤ 513)
    (hinner : t.isInner = true) (hsrc : s.SourceHolds x) (hx : ∀ b ∈ x, b.setWidth 9 ∈ t.leaves)
    (heos : Config.eos ∈ t.leaves) :
    ∃ rd wr sy, rd.now = BitVec.ofNat 32 (8 * x.length) ∧ wr.now = BitVec.ofNat 32 (t.payload x).length
      ∧ sy.now = BitVec.ofNat 32 x.length ∧ exec .encode s = .next (encodeEnd t x rd wr sy s) := by
  obtain ⟨k, rd, wr, sy, hk, hrd, hwr, hsy, hmoves⟩ := encode_body (hq.dispatched .encode .encode []) rfl hsrc
    (fun c hc => ht.byteCode_ne_nil hinner (hx c hc)) (ht.sentinelCode ▸ Tree.codeOf_ne_nil hinner heos)
    (ht.byteCode_length_le hsize) (ht.sentinelCode ▸ Tree.codeOf_length_le hsize _)
  obtain ⟨_, _, hdrop, _⟩ := hsrc
  have hlen := bytesAt_length_le hdrop
  rw [finishBody_last rfl] at hmoves
  rw [dispatched_lut, ht.byteCode_eq, ht.sentinelCode] at hwr hmoves
  exact ⟨rd, wr, sy, hrd.trans (BitVec.zero_add _), hwr.trans (BitVec.zero_add _), hsy,
    (exec_eq .encode s).trans (runCommand_ends hq ht.lut_fails hmoves (by omega) rfl)⟩

/-- Settles O44: the codes of the bytes and the sentinel's are sent, and nothing but the sink and the source moves. -/
theorem encodeCommand : Obligations.EncodeCommand := by
  intro s tree x hq ht hsize hinner hsrc hx heos
  obtain ⟨rd, wr, sy, hrd, hwr, hsy, hexec⟩ := exec_encode hq ht hsize hinner hsrc hx heos
  exact ⟨_, hexec, completed_complete rfl rfl rfl rfl, rfl, hwr, hsy, hrd, rfl, rfl, rfl, rfl, rfl, ht.1⟩

/-! ### DECODE -/

/-- Where DECODE's walk of the tree `t` has led from `s`, at the node `cur` (R251). -/
def decoded (t : Tree) (rd wr sy : Counter) (cur : Idx) (s : State) : State :=
  { s with
    snk := s.snk.append (bytesBits (decodeFrom t t (s.src.bits.drop s.src.pos)).1)
    src := { s.src with pos := s.src.pos + (decodeFrom t t (s.src.bits.drop s.src.pos)).2.1 }
    rdBits := rd, wrBits := wr, syms := sy, cur := cur
    status := { s.status with phase := .decode } }

/-- DECODE's last body either completes or raises TRUNCATED; nothing else of the state depends on which (R253, R255). -/
theorem decodeEnd_last {s : State} (ok : Bool) (h : s.seq.rest = []) :
    decodeEnd ok s = if ok then complete s else raise .truncated s := by
  cases ok
  · rfl
  · exact finishBody_last h

theorem exec_decode {s : State} {t : Tree} (hq : s.Quiet) (ht : s.HoldsTree t) (hpos : s.src.pos ≤ s.src.bits.length) :
    let d := decodeFrom t t (s.src.bits.drop s.src.pos)
    ∃ rd wr sy cur, rd.now = BitVec.ofNat 32 d.2.1 ∧ wr.now = BitVec.ofNat 32 (8 * d.1.length)
      ∧ sy.now = BitVec.ofNat 32 d.1.length
      ∧ exec .decode s = .next (if d.2.2 then complete (decoded t rd wr sy cur (dispatched .decode .decode [] s))
          else raise .truncated (decoded t rd wr sy cur (dispatched .decode .decode [] s))) := by
  intro d
  obtain ⟨k, rd, wr, sy, cur, hk, hrd, hwr, hsy, hmoves⟩ :=
    decode_body (hq.dispatched .decode .decode []) rfl (t := t) ht hpos
  rw [decodeEnd_last _ rfl] at hmoves
  refine ⟨rd, wr, sy, cur, hrd.trans (BitVec.zero_add _), hwr.trans (BitVec.zero_add _), hsy,
    (exec_eq .decode s).trans (runCommand_ends hq ht.tree_fails hmoves ?_ ?_)⟩
  · have : k ≤ 2 * s.src.bits.length + 2 := hk
    omega
  · split <;> rfl

/-- Settles O47: the two ends of DECODE differ in STATUS only. -/
theorem decodeCommand : Obligations.DecodeCommand := by
  intro s tree hq ht hpos d
  obtain ⟨rd, wr, sy, cur, hrd, hwr, hsy, hexec⟩ := exec_decode hq ht hpos
  cases hok : d.2.2 with
  | true =>
    rw [show (decodeFrom tree tree (s.src.bits.drop s.src.pos)).2.2 = true from hok] at hexec
    exact ⟨_, hexec, rfl, hsy, hwr, hrd, rfl, ht, rfl, rfl, rfl, rfl, completed_complete rfl rfl rfl rfl⟩
  | false =>
    rw [show (decodeFrom tree tree (s.src.bits.drop s.src.pos)).2.2 = false from hok] at hexec
    exact ⟨_, hexec, rfl, hsy, hwr, hrd, rfl, ht, rfl, rfl, rfl, rfl, failed_raise .truncated rfl rfl rfl⟩

/-! ### DESERIALIZE -/

/-- The tree DESERIALIZE leaves is valid (R43, R213). -/
theorem deserializeEnd_validTree {t : Tree} (rd : Counter) (s : State) (hsize : t.size ≤ 513) (hinner : t.isInner = true)
    (hle : ∀ v ∈ t.leaves, v ≤ Config.eos) : (deserializeEnd t rd s).ValidTree :=
  placeTree_validTree (s := deserializeEnd t rd s) hsize hinner hle rfl rfl rfl rfl

theorem Tree.leaves_length_le {t : Tree} (hsize : t.size ≤ 513) : t.leaves.length ≤ 257 := by
  have := t.size_leaves
  omega

theorem sym_toNat {n : Nat} (h : n < 512) : (BitVec.ofNat 9 n).toNat = n := by
  rw [BitVec.toNat_ofNat]
  exact Nat.mod_eq_of_lt h

/-- Settles O42: the nodes that `Des()` places, read back one by one. -/
theorem deserializeCommand : Obligations.DeserializeCommand := by
  intro s tree hq hsrc hsize hinner hle
  obtain ⟨rd, hrd, hexec⟩ := exec_deserialize hq hsrc hsize hinner hle
  have hL := Tree.leaves_length_le hsize
  have hn : (BitVec.ofNat 10 tree.size).toNat = tree.size := idx_toNat (by omega)
  refine ⟨_, hexec, completed_deserializeEnd tree rd s, deserializeEnd_holdsTree rd s hsize hinner hle,
    deserializeEnd_validTree rd s hsize hinner hle, rfl, hn, sym_toNat (by omega), fun i nd hi hnd => ?_, hrd, rfl, rfl, rfl,
    rfl, rfl⟩
  have hi' : i.toNat < 0 + tree.size := by
    have := BitVec.lt_def.mp hi
    rw [Nat.zero_add, ← hn]
    exact this
  rcases placeTree_node tree 0 s.node (by omega) i (Nat.zero_le _) hi' with ⟨v, _, hleaf⟩ | ⟨a, b, hnode, ha, _⟩
  · obtain rfl := Option.some.inj (hnd.symm.trans hleaf)
    exact ⟨fun _ => rfl, nofun⟩
  · obtain rfl := Option.some.inj (hnd.symm.trans hnode)
    exact ⟨nofun, fun _ => ⟨rfl, ha⟩⟩

/-- Settles O43: the bits begin with a tree's encoding, or `treeField` says where reading one fails. -/
theorem deserializeOfAnyBits : Obligations.DeserializeOfAnyBits := by
  intro s hq hpos bits used
  cases hend : treeFieldEnd bits with
  | none =>
    obtain ⟨tree, rest, hbits, hsize, hinner, hle, hused⟩ := treeFieldEnd_none hend
    obtain ⟨rd, hrd, hexec⟩ := exec_deserialize hq ⟨hpos, rest, hbits⟩ hsize hinner hle
    rw [← show used = tree.serial.length from hused] at hrd
    refine ⟨_, hexec, ?_, hrd, rfl, completed_deserializeEnd tree rd s, tree,
      deserializeEnd_holdsTree rd s hsize hinner hle, ?_⟩
    · rw [show used = tree.serial.length from hused]
      rfl
    · rw [show used = tree.serial.length from hused, hbits, List.take_left]
  | some e =>
    obtain ⟨k, rd, node, hk, hrd, hmoves⟩ :=
      deserialize_fails (hq.dispatched .deserialize .deserialize []) rfl hpos hend
    exact ⟨_, (exec_eq .deserialize s).trans (runCommand_ends (pre := .none) hq rfl hmoves (by omega) rfl), rfl,
      hrd.trans (BitVec.zero_add _), rfl, failed_raise e rfl rfl rfl, rfl, rfl, rfl, rfl, rfl⟩

/-! ### Codes -/

/-- No leaf's code is a prefix of another leaf's (R204). -/
theorem Tree.codes_prefixFree (t : Tree) : ∀ e ∈ t.codes, ∀ e' ∈ t.codes, e.2 <+: e'.2 → e = e' := by
  induction t with
  | leaf v => simp [Tree.codes]
  | inner l r ihl ihr =>
    simp only [Tree.codes, List.mem_append, List.mem_map]
    rintro _ (⟨e, he, rfl⟩ | ⟨e, he, rfl⟩) _ (⟨e', he', rfl⟩ | ⟨e', he', rfl⟩) hpre
    · rw [ihl e he e' he' (List.cons_prefix_cons.mp hpre).2]
    · exact absurd (List.cons_prefix_cons.mp hpre).1 Bool.false_ne_true
    · exact absurd (List.cons_prefix_cons.mp hpre).1.symm Bool.false_ne_true
    · rw [ihr e he e' he' (List.cons_prefix_cons.mp hpre).2]

theorem Tree.exists_mem_codes (t : Tree) : ∃ e, e ∈ t.codes := by
  induction t with
  | leaf v => exact ⟨_, List.mem_singleton_self _⟩
  | inner l r ihl _ =>
    obtain ⟨e, he⟩ := ihl
    exact ⟨(e.1, false :: e.2), by simp [Tree.codes, he]⟩

/-- Each step down the tree halves the code space (R204). -/
theorem Tree.sum_codes_pow (t : Tree) : ∀ d, (∀ e ∈ t.codes, e.2.length ≤ d) →
    (t.codes.map fun e => 2 ^ (d - e.2.length)).sum = 2 ^ d := by
  induction t with
  | leaf v => simp [Tree.codes]
  | inner l r ihl ihr =>
    rintro (_ | d) hd
    · obtain ⟨e, he⟩ := (Tree.inner l r).exists_mem_codes
      exact absurd (List.length_eq_zero_iff.mp (Nat.le_zero.mp (hd e he))) (Tree.codes_ne_nil rfl e he)
    · have hl := ihl d fun e he => Nat.le_of_succ_le_succ (hd (e.1, false :: e.2) (by simp [Tree.codes, he]))
      have hr := ihr d fun e he => Nat.le_of_succ_le_succ (hd (e.1, true :: e.2) (by simp [Tree.codes, he]))
      simp [Tree.codes, Function.comp_def, hl, hr, Nat.pow_succ, Nat.mul_two]

/-- Settles O40: a leaf's code is its path, so what is shown of the paths holds of the codes. -/
theorem codesArePrefixFreeAndFillTheSpace : Obligations.CodesArePrefixFreeAndFillTheSpace := by
  intro tree hinner hsize hnodup
  refine ⟨fun v hv => ⟨List.length_pos_iff.mpr (Tree.codeOf_ne_nil hinner hv), Tree.codeOf_length_le hsize v⟩,
    fun u hu v hv hpre => ?_, ?_⟩
  · exact congrArg Prod.fst (tree.codes_prefixFree _ (Tree.codeOf_mem hu) _ (Tree.codeOf_mem hv) hpre)
  · rw [← tree.sum_codes_pow 256 fun e he => by have := tree.codes_depth e he; omega, ← tree.codes_fst, List.map_map]
    refine congrArg List.sum (List.map_congr_left fun e he => ?_)
    rw [Function.comp_apply, Tree.codeOf_of_mem_codes hnodup he]

end Sys2Proof.Machine

/-! SUPPORT. COMPRESS (45_compress.md R236, R239, R240) and DECOMPRESS (46_decompress.md R256, R257) to their ends in the step that
issues them, and one after the other (R258). -/

namespace Sys2Proof.Machine

/-! ### COMPRESS -/

/-- The table COUNT makes of the bytes `x` (R173). -/
abbrev countsOf (x : List Byte) : Vector Count 256 := countFreq x (Vector.replicate 256 0)

/-- The node memory that BUILD makes of the counts of `x` in the state `s` (R180). -/
abbrev nodesFor (s : State) (x : List Byte) : Vector Node 513 := builtNodes s.tieOrder s.pops (countsOf x) s.node

/-- `tree` is the code tree for `x` that BUILD makes in the state `s` (R190). -/
structure BuiltFor (s : State) (x : List Byte) (tree : Tree) : Prop where
  codesFor : tree.codesFor x
  size : tree.size ≤ 513
  inner : tree.isInner = true
  le : ∀ v ∈ tree.leaves, v ≤ Config.eos
  leaves : tree.leaves.length = (buildLeaves (countsOf x)).length
  holds : Holds (nodesFor s x) (BitVec.ofNat 10 (tree.size - 1)) tree
  valid : ∀ u : State, (built (buildLeaves (countsOf x)).length (nodesFor s x) u).ValidTree

/-- What makes a tree valid is in the node memory and the tree's registers (R43). -/
theorem State.ValidTree.congr {s t : State} (h : s.ValidTree) (hnode : t.node = s.node) (hroot : t.root = s.root)
    (hn : t.nodeCount = s.nodeCount) (hl : t.leafCount = s.leafCount) : t.ValidTree := by
  unfold State.ValidTree at h ⊢
  rwa [hnode, hroot, hn, hl]

/-- COMPRESS has read its byte and is about to restart the source (R236). -/
def peeked (s : State) : State :=
  { received 8 (setPhase .peek (dispatched .compress .peek
      [.restart, .count, .build, .genlut, .header, .serialize, .restart, .encode] s)) with
    seq := Seq.mk (some .compress) (.enter .restart) [.count, .build, .genlut, .header, .serialize, .restart, .encode] }

/-- The state in which COMPRESS of the bytes `x` ends, `tree` being the code tree it has built (R239, R240). -/
def compressEnd (x : List Byte) (tree : Tree) (rd wr sy : Counter) (s : State) : State :=
  complete (compressed x (nodesFor s x) tree rd wr sy (peeked s))

/-- COMPRESS of a source that holds non-empty bytes from position 0 and a byte for the peek (R236, R239, R240). -/
theorem exec_compress {s : State} {x : List Byte} {tail : Bits} (hq : s.Quiet) (hsrc : s.src.bits = bytesBits x ++ tail)
    (htail : tail.length < 8) (hx : x ≠ []) (hc : ∀ b, x.count b < 2 ^ s.cntW.val) (hpeek : s.src.pos + 8 ≤ s.src.bits.length) :
    ∃ tree rd wr sy, BuiltFor s x tree ∧ rd.now = BitVec.ofNat 32 (8 + 16 * x.length)
      ∧ wr.now = BitVec.ofNat 32 (tree.stream x).length ∧ sy.now = BitVec.ofNat 32 x.length
      ∧ exec .compress s = .next (compressEnd x tree rd wr sy s) := by
  have hrun := hq.dispatched .compress .peek [.restart, .count, .build, .genlut, .header, .serialize, .restart, .encode]
  have hmoves := peek_body hrun rfl hpeek
  rw [finishBody_next rfl] at hmoves
  obtain ⟨p, k, rd, wr, sy, hinv, hidx, hholds, hcodes, hsize, hinner, hle, hk, hrd, hwr, hsy, hmoves'⟩ :=
    compress_tail (s := peeked s) hrun rfl hsrc htail hx hc
  have hleaves : p.2.leaves.length = (buildLeaves (countsOf x)).length := by
    have hcount : 1 + p.2.size = 2 * (buildLeaves (countsOf x)).length := hinv.count
    have := p.2.size_leaves
    omega
  have hL : 2 ≤ (buildLeaves (countsOf x)).length := by
    obtain ⟨b, hb⟩ := List.exists_mem_of_ne_nil x hx
    exact two_le_buildLeaves_length ⟨b, (countFreq_ne_zero hc b).mpr hb⟩
  have hsizeL : p.2.size = 2 * (buildLeaves (countsOf x)).length - 1 := by
    have := p.2.size_leaves
    omega
  refine ⟨p.2, rd, wr, sy, ⟨hcodes, hsize, hinner, hle, hleaves, hidx ▸ hholds, fun u => ?_⟩, ?_, hwr.trans (BitVec.zero_add _),
    hsy, (exec_eq .compress s).trans (runCommand_ends (pre := .none) hq rfl (hmoves.trans hmoves') ?_ rfl)⟩
  · exact BuildInv.validTree (o := s.tieOrder) (hsizeL ▸ hinv) hL
  · rw [hrd]
    show Counter.zero.now + BitVec.ofNat 32 8 + _ = _
    rw [add_ofNat, counter_zero_now, BitVec.zero_add]
  · have hlen := congrArg List.length hsrc
    rw [List.length_append, bytesBits_length] at hlen
    omega

section
variable {s : State} {x : List Byte} {tree : Tree} (h : BuiltFor s x tree) (rd wr sy : Counter)
include h

theorem BuiltFor.size_eq : tree.size = 2 * (buildLeaves (countsOf x)).length - 1 := by
  have := tree.size_leaves
  have := h.leaves
  omega

theorem BuiltFor.holdsTree_compressEnd : (compressEnd x tree rd wr sy s).HoldsTree tree :=
  ⟨rfl, h.holds, h.size, h.inner, h.le⟩

theorem BuiltFor.holdsCodes_compressEnd : (compressEnd x tree rd wr sy s).HoldsCodes tree :=
  ⟨rfl, recordCodes_codeOf tree h.le⟩

theorem BuiltFor.validTree_compressEnd : (compressEnd x tree rd wr sy s).ValidTree := by
  refine (h.valid s).congr rfl ?_ ?_ ?_
  · show BitVec.ofNat 10 (tree.size - 1) = BitVec.ofNat 10 _
    rw [h.size_eq, Nat.sub_sub]
  · show BitVec.ofNat 10 tree.size = BitVec.ofNat 10 _
    rw [h.size_eq]
  · show BitVec.ofNat 9 tree.leaves.length = BitVec.ofNat 9 _
    rw [h.leaves]

theorem BuiltFor.leafCount_compressEnd : (compressEnd x tree rd wr sy s).leafCount.toNat = tree.leaves.length :=
  sym_toNat (Nat.lt_of_le_of_lt (Tree.leaves_length_le h.size) (by decide))

theorem BuiltFor.nodeCount_compressEnd : (compressEnd x tree rd wr sy s).nodeCount.toNat = tree.size :=
  idx_toNat (Nat.lt_of_le_of_lt h.size (by decide))

end

theorem completed_compressEnd (x : List Byte) (tree : Tree) (rd wr sy : Counter) (s : State) :
    State.Completed .compress (compressEnd x tree rd wr sy s) :=
  completed_complete rfl rfl rfl rfl

theorem Tree.stream_length (t : Tree) (x : List Byte) :
    (t.stream x).length = 32 + (11 * t.leaves.length - 1) + (t.payload x).length := by
  have := t.serial_length
  rw [Tree.stream, List.length_append, List.length_append, bitsOf_length]
  omega

/-- The state in which COMPRESS ends when COUNT meets a full entry after the bytes `x` (R172). -/
def compressOverflow (x : List Byte) (rd sy : Counter) (s : State) : State :=
  raise .countOvf
    { dispatched .compress .peek [.restart, .count, .build, .genlut, .header, .serialize, .restart, .encode] s with
      freq := countsOf x, rdBits := rd, syms := sy, src := { s.src with pos := 8 * (x.length + 1) }
      status := { (dispatched .compress .peek [] s).status with phase := .count } }

theorem exec_compress_overflow {s : State} {x : List Byte} {b : Byte} {tail : Bits} (hq : s.Quiet)
    (hsrc : s.src.bits = bytesBits (x ++ [b]) ++ tail) (hc : ∀ c, x.count c < 2 ^ s.cntW.val)
    (hb : x.count b = 2 ^ s.cntW.val - 1) (hpeek : s.src.pos + 8 ≤ s.src.bits.length) :
    ∃ rd sy, rd.now = BitVec.ofNat 32 (8 + 8 * (x.length + 1)) ∧ sy.now = BitVec.ofNat 32 x.length
      ∧ exec .compress s = .next (compressOverflow x rd sy s) := by
  obtain ⟨rd, sy, hrd, hsy, hmoves⟩ := compress_overflow
    (hq.dispatched .compress .peek [.restart, .count, .build, .genlut, .header, .serialize, .restart, .encode])
    rfl hsrc hpeek hc hb
  refine ⟨rd, sy, hrd.trans (BitVec.zero_add _), hsy,
    (exec_eq .compress s).trans (runCommand_ends (pre := .none) hq rfl hmoves ?_ rfl)⟩
  have hlen := congrArg List.length hsrc
  rw [List.length_append, bytesBits_length, List.length_append] at hlen
  omega

/-- Settles O48: what COMPRESS's end state is, and what its tree is. -/
theorem compressCommand : Obligations.CompressCommand := by
  constructor
  case left =>
    intro s x tail hq hsrc htail hx hc hpeek
    obtain ⟨tree, rd, wr, sy, h, hrd, hwr, hsy, hexec⟩ := exec_compress hq hsrc htail hx hc hpeek
    exact ⟨_, tree, hexec, completed_compressEnd _ _ _ _ _ _, h.codesFor, rfl, tree.stream_length x, hwr, hrd, hsy, rfl,
      countFreq_toNat hc, h.holdsTree_compressEnd _ _ _, h.holdsCodes_compressEnd _ _ _, h.validTree_compressEnd _ _ _,
      h.leafCount_compressEnd _ _ _, h.nodeCount_compressEnd _ _ _, rfl⟩
  case right =>
    intro s x b tail hq hsrc hc hb hpeek
    obtain ⟨rd, sy, hrd, hsy, hexec⟩ := exec_compress_overflow hq hsrc hc hb hpeek
    exact ⟨_, hexec, failed_raise .countOvf rfl rfl rfl, hrd, hsy, rfl, rfl, rfl, countFreq_toNat hc, rfl, rfl, rfl, rfl, rfl,
      rfl, rfl, rfl⟩

/-! ### DECOMPRESS -/

/-- Where DECOMPRESS of the encoding of the tree `t` and then `rest` has led from `s`, at the node `cur` (R256). -/
def decompressed (t : Tree) (rest : Bits) (rd wr sy : Counter) (cur : Idx) (s : State) : State :=
  { dispatched .decompress .checkMagic [] s with
    node := placeTree t 0 s.node, stk := [], root := 0#10, cur := cur
    nodeCount := BitVec.ofNat 10 t.size, leafCount := BitVec.ofNat 9 t.leaves.length
    src := { s.src with pos := s.src.pos + (32 + t.serial.length + (decodeFrom t t rest).2.1) }
    snk := s.snk.append (bytesBits (decodeFrom t t rest).1)
    rdBits := rd, wrBits := wr, syms := sy
    status := { (dispatched .decompress .checkMagic [] s).status with treeValid := true, lutValid := false, phase := .decode }
    seq := Seq.mk (some .decompress) .none [] }

theorem exec_decompress {s : State} {t : Tree} {rest : Bits} (hq : s.Quiet)
    (hsrc : s.SourceIs (bitsOf 32 Config.magic.toNat ++ (t.serial ++ rest))) (hsize : t.size ≤ 513)
    (hinner : t.isInner = true) (hle : ∀ v ∈ t.leaves, v ≤ Config.eos) :
    let d := decodeFrom t t rest
    ∃ rd wr sy cur, rd.now = BitVec.ofNat 32 (32 + t.serial.length + d.2.1) ∧ wr.now = BitVec.ofNat 32 (8 * d.1.length)
      ∧ sy.now = BitVec.ofNat 32 d.1.length
      ∧ exec .decompress s = .next (if d.2.2 then complete (decompressed t rest rd wr sy cur s)
          else raise .truncated (decompressed t rest rd wr sy cur s)) := by
  intro d
  obtain ⟨hpos, hdrop⟩ := hsrc
  obtain ⟨k, rd, wr, sy, cur, hk, hrd, hwr, hsy, hmoves⟩ := decompress_run
    (hq.dispatched .decompress .checkMagic [.deserialize, .decode]) rfl hpos hdrop hsize hinner hle
  rw [decodeEnd_last _ rfl] at hmoves
  refine ⟨rd, wr, sy, cur, hrd.trans (BitVec.zero_add _), hwr.trans (BitVec.zero_add _), hsy,
    (exec_eq .decompress s).trans (runCommand_ends (pre := .none) hq rfl hmoves ?_ ?_)⟩
  · have : k ≤ 2 * s.src.bits.length + 2000 := hk
    omega
  · split <;> rfl

theorem treeField_error {cap n : Nat} {bits : Bits} {e : ErrCode} (h : (treeField cap n bits).1 = some e) :
    e = .truncated ∨ e = .badTree := by
  fun_induction treeField cap n bits with
  | case1 => cases h
  | case2 | case5 => exact .inl (Option.some.inj h).symm
  | case3 | case6 => exact .inr (Option.some.inj h).symm
  | case4 _ _ _ _ ih | case7 _ _ _ _ _ _ ih => exact ih h

theorem treeFieldEnd_error {bits : Bits} {e : ErrCode} (h : treeFieldEnd bits = some e) : e = .truncated ∨ e = .badTree := by
  unfold treeFieldEnd at h
  split at h
  next e' he =>
    cases h
    exact treeField_error he
  next =>
    split at h <;> cases h
    exact .inr rfl

theorem exec_decompress_bad_tree {s : State} {field : Bits} {e : ErrCode} (hq : s.Quiet)
    (hsrc : s.SourceIs (bitsOf 32 Config.magic.toNat ++ field)) (hend : treeFieldEnd field = some e) :
    ∃ rd node, rd.now = BitVec.ofNat 32 (32 + (treeField 513 1 field).2)
      ∧ exec .decompress s = .next (raise e
          { dispatched .decompress .checkMagic [] s with
            node := node, stk := [], leafCount := 0#9, nodeCount := 0#10, root := 0#10
            src := { s.src with pos := s.src.pos + (32 + (treeField 513 1 field).2) }, rdBits := rd
            status := { (dispatched .decompress .checkMagic [] s).status with
                        treeValid := false, lutValid := false, phase := .deserialize } }) := by
  obtain ⟨hpos, hdrop⟩ := hsrc
  obtain ⟨k, rd, node, hk, hrd, hmoves⟩ := decompress_bad_tree
    (hq.dispatched .decompress .checkMagic [.deserialize, .decode]) rfl hpos hdrop hend
  exact ⟨rd, node, hrd.trans (BitVec.zero_add _),
    (exec_eq .decompress s).trans (runCommand_ends (pre := .none) hq rfl hmoves (by omega) rfl)⟩

/-- The tree DECOMPRESS leaves is valid and held at 0 (R43, R213), however the decoding ends. -/
theorem decompressed_tree {t : Tree} (rest : Bits) (rd wr sy : Counter) (cur : Idx) (s : State) (hsize : t.size ≤ 513)
    (hinner : t.isInner = true) (hle : ∀ v ∈ t.leaves, v ≤ Config.eos) :
    (decompressed t rest rd wr sy cur s).HoldsTree t ∧ (decompressed t rest rd wr sy cur s).ValidTree :=
  ⟨⟨rfl, (placeTree_holds t 0 s.node (by omega)).holds, hsize, hinner, hle⟩,
    placeTree_validTree (s := decompressed t rest rd wr sy cur s) hsize hinner hle rfl rfl rfl rfl⟩

/-- Settles O50: the two ends of the decoding differ in STATUS only, and a tree field that fails ends the command. -/
theorem decompressCommand : Obligations.DecompressCommand := by
  constructor
  case left =>
    intro s tree rest hq hsrc hsize hinner hle d
    obtain ⟨rd, wr, sy, cur, hrd, hwr, hsy, hexec⟩ := exec_decompress hq hsrc hsize hinner hle
    obtain ⟨htree, hvalid⟩ := decompressed_tree rest rd wr sy cur s hsize hinner hle
    cases hok : d.2.2 with
    | true =>
      rw [show (decodeFrom tree tree rest).2.2 = true from hok] at hexec
      exact ⟨_, hexec, rfl, hsy, hwr, hrd, rfl, htree, hvalid, rfl, rfl, rfl, completed_complete rfl rfl rfl rfl⟩
    | false =>
      rw [show (decodeFrom tree tree rest).2.2 = false from hok] at hexec
      exact ⟨_, hexec, rfl, hsy, hwr, hrd, rfl, htree, hvalid, rfl, rfl, rfl, failed_raise .truncated rfl rfl rfl⟩
  case right =>
    intro s field e hq hsrc hend used
    obtain ⟨rd, node, hrd, hexec⟩ := exec_decompress_bad_tree hq hsrc hend
    exact ⟨_, hexec, treeFieldEnd_error hend, failed_raise e rfl rfl rfl, rfl, rfl, rfl, hrd, rfl, rfl, rfl, rfl, rfl, rfl,
      rfl, rfl⟩

/-! ### The round trip -/

/-- A command that has ended leaves a quiet state quiet (R55). -/
theorem State.Quiet.exec {s t : State} {i : Instr} (hq : s.Quiet) (h : exec i s = .next t) (hb : t.status.busy = false) :
    t.Quiet := by
  obtain ⟨_, hsrc, hsnk, hpace⟩ := hq
  obtain ⟨_, _, _, _, _, _, _, hpace', _, _, _, _, hsrc', hsnk', _⟩ := noCommandTouchesTheHostsState s t i h
  exact ⟨hb, hsrc'.trans hsrc, hsnk'.trans hsnk, hpace'.trans hpace⟩

/-- Settles O52: what COMPRESS writes is MAGIC, its tree's encoding and the payload, and DECODE of that payload with the same
tree writes the bytes again. -/
theorem compressThenDecompress : Obligations.CompressThenDecompress := by
  constructor
  case left =>
    intro s x tail hq hsrc htail hx hc hpeek
    obtain ⟨tree, rd, wr, sy, h, _, _, _, hexec⟩ := exec_compress hq hsrc htail hx hc hpeek
    refine ⟨_, tree.stream x, hexec, completed_compressEnd _ _ _ _ _ _, rfl, fun extra => ?_⟩
    have hq' : (rewound (tree.stream x ++ extra) (compressEnd x tree rd wr sy s)).Quiet := (hq.exec hexec rfl).rewound _
    have hsrc' : (rewound (tree.stream x ++ extra) (compressEnd x tree rd wr sy s)).SourceIs
        (bitsOf 32 Config.magic.toNat ++ (tree.serial ++ (tree.payload x ++ extra))) :=
      ⟨Nat.zero_le _, by simp [rewound, Tree.stream, List.append_assoc]⟩
    obtain ⟨hnodup, hmem⟩ := h.codesFor
    have hdec : decodeFrom tree tree (tree.payload x ++ extra) = (x, (tree.payload x).length, true) :=
      decodeFrom_payload tree h.inner x extra (fun b hb => (hmem _).mpr (.inr ⟨b, hb, rfl⟩)) ((hmem _).mpr (.inl rfl))
    obtain ⟨rd', wr', sy', cur, _, _, _, hexec'⟩ := exec_decompress hq' hsrc' h.size h.inner h.le
    rw [hdec] at hexec'
    refine ⟨_, hexec', completed_complete rfl rfl rfl rfl, ?_, ?_⟩
    · show _ ++ bytesBits (decodeFrom tree tree (tree.payload x ++ extra)).1 = _
      rw [hdec]
      rfl
    · show 0 + (32 + tree.serial.length + (decodeFrom tree tree (tree.payload x ++ extra)).2.1) = _
      rw [hdec, Tree.stream, List.length_append, List.length_append, bitsOf_length, Nat.zero_add, Nat.add_assoc]
  case right =>
    intro s hq hbits hpos
    have hexec := compressEmptyInput s hq (by rw [hbits, hpos]; decide)
    have hne : (s.src.bits.drop s.src.pos).take 32 ≠ bitsOf 32 Config.magic.toNat := fun h => by
      have := congrArg List.length h
      simp [hbits] at this
    obtain ⟨u, hexec', hfailed, _⟩ :=
      decompressFormatError _ (hq.exec hexec rfl) (Nat.le_of_eq (by rw [hbits, hpos]; rfl)) hne
    exact ⟨_, u, hexec, ⟨rfl, rfl, rfl, rfl, rfl, rfl, rfl, rfl, rfl⟩, rfl, hexec', hfailed⟩

end Sys2Proof.Machine

/-! SUPPORT. The primitive commands issued one after another (70_reset_and_hazards.md R307), against COMPRESS and DECOMPRESS. -/

namespace Sys2Proof.Machine

theorem runAll_cons {i : Instr} {is : List Instr} {s t : State} (h : exec i s = .next t) :
    runAll (i :: is) s = runAll is t := by
  simp only [runAll, h]

/-! ### The tree and the code table between commands (R55) -/

/-- The tree, its registers and the code table are the same, and the valid bits with them. -/
structure SameTables (s t : State) : Prop where
  node : t.node = s.node
  lut : t.lut = s.lut
  root : t.root = s.root
  leafCount : t.leafCount = s.leafCount
  nodeCount : t.nodeCount = s.nodeCount
  treeValid : t.status.treeValid = s.status.treeValid
  lutValid : t.status.lutValid = s.status.lutValid

theorem SameTables.trans {s t u : State} (h : SameTables s t) (g : SameTables t u) : SameTables s u :=
  ⟨g.node.trans h.node, g.lut.trans h.lut, g.root.trans h.root, g.leafCount.trans h.leafCount,
    g.nodeCount.trans h.nodeCount, g.treeValid.trans h.treeValid, g.lutValid.trans h.lutValid⟩

theorem SameTables.holdsTree {s t : State} (h : SameTables s t) {tree : Tree} (ht : s.HoldsTree tree) : t.HoldsTree tree := by
  unfold State.HoldsTree at ht ⊢
  rwa [h.treeValid, h.node, h.root]

theorem SameTables.holdsCodes {s t : State} (h : SameTables s t) {tree : Tree} (ht : s.HoldsCodes tree) :
    t.HoldsCodes tree := by
  unfold State.HoldsCodes at ht ⊢
  rwa [h.lutValid, h.lut]

/-- The commands that change neither the tree nor the code table. -/
def tableReaders : List Instr := [.restart, .count, .header, .serialize, .encode, .checkmagic, .decode]

theorem exec_sameTables {s t : State} {i : Instr} (hi : i ∈ tableReaders) (hb : s.status.busy = false)
    (h : exec i s = .next t) : SameTables s t := by
  obtain ⟨_, hnode, htree, hlut, hlutValid, _⟩ := onlyTheirCommandsChangeTheTables s t i hb h
  have hnot : ∀ is : List Instr, (∀ j ∈ tableReaders, j ∉ is) → i ∉ is := fun _ hall => hall i hi
  obtain ⟨hleafCount, hnodeCount, hroot, htreeValid⟩ := htree (hnot _ (by decide))
  exact ⟨hnode (hnot _ (by decide)), hlut (hnot _ (by decide)), hroot, hleafCount, hnodeCount, htreeValid,
    hlutValid (hnot _ (by decide))⟩

/-! ### The primitive commands of COMPRESS -/

/-- RESTART, COUNT and BUILD make of the bytes the tree that COMPRESS makes of them (R180, R190, R230). -/
theorem runAll_build {s : State} {x : List Byte} {tail : Bits} {tree : Tree} (hq : s.Quiet)
    (hsrc : s.src.bits = bytesBits x ++ tail) (htail : tail.length < 8) (hx : x ≠ []) (hc : ∀ b, x.count b < 2 ^ s.cntW.val)
    (h : BuiltFor s x tree) (is : List Instr) :
    ∃ u, runAll (.restart :: .count :: .build :: is) s = runAll is u ∧ u.Quiet ∧ u.HoldsTree tree
      ∧ u.freq = countsOf x ∧ u.node = nodesFor s x ∧ u.root = BitVec.ofNat 10 (tree.size - 1)
      ∧ u.leafCount = BitVec.ofNat 9 tree.leaves.length ∧ u.nodeCount = BitVec.ofNat 10 tree.size
      ∧ u.snk = s.snk ∧ u.src.bits = s.src.bits ∧ u.src.ready = s.src.ready := by
  have hrestart := restartCommand s hq
  have hq1 := hq.exec hrestart rfl
  obtain ⟨rd, sy, _, _, hmoves⟩ := count_body (hq1.dispatched .count .count []) rfl (x := x)
    ⟨Nat.zero_le _, tail, hsrc, htail⟩ hc
  rw [finishBody_last rfl] at hmoves
  have hcount := (exec_eq .count _).trans (runCommand_ends (pre := .none) hq1 rfl hmoves (by
    have := congrArg List.length hsrc
    rw [List.length_append, bytesBits_length] at this
    show _ ≤ 2 * s.src.bits.length + 4096
    omega) rfl)
  have hq2 := hq1.exec hcount rfl
  obtain ⟨b, hb⟩ := List.exists_mem_of_ne_nil x hx
  obtain ⟨hbuild, _⟩ := exec_build hq2 ⟨b, (countFreq_ne_zero hc b).mpr hb⟩
  have hsize := h.size_eq
  have hroot : tree.size - 1 = 2 * (buildLeaves (countsOf x)).length - 2 := by rw [hsize, Nat.sub_sub]
  refine ⟨_, ?_, hq2.exec hbuild rfl, ⟨rfl, ?_, h.size, h.inner, h.le⟩, rfl, rfl, ?_, ?_, ?_, rfl, rfl, rfl⟩
  · rw [runAll_cons hrestart, runAll_cons hcount, runAll_cons hbuild]
  · have := h.holds
    rw [hroot] at this
    exact this
  · rw [hroot]
    rfl
  · rw [h.leaves]
    rfl
  · rw [hsize]
    rfl

/-- HEADER, SERIALIZE, RESTART and ENCODE write the compressed stream of the bytes and change no table (R114). -/
theorem runAll_stream {s : State} {x : List Byte} {tail : Bits} {tree : Tree} (hq : s.Quiet) (ht : s.HoldsTree tree)
    (hcodes : s.HoldsCodes tree) (hfor : tree.codesFor x) (hsrc : s.src.bits = bytesBits x ++ tail) (htail : tail.length < 8) :
    ∃ u, runAll [.header, .serialize, .restart, .encode] s = .next u ∧ u.status.done = true ∧ SameTables s u
      ∧ u.freq = s.freq ∧ u.snk = s.snk.append (tree.stream x) ∧ u.src = { s.src with pos := 8 * x.length }
      ∧ u.syms.now = BitVec.ofNat 32 x.length := by
  obtain ⟨s1, h1, hb1, hf1, hsnk1, hsrc1⟩ : ∃ t, exec .header s = .next t ∧ t.status.busy = false ∧ t.freq = s.freq
      ∧ t.snk = s.snk.append (bitsOf 32 Config.magic.toNat) ∧ t.src = s.src := ⟨_, headerCommand s hq, rfl, rfl, rfl, rfl⟩
  have same1 := exec_sameTables (by decide) hq.1 h1
  have hq1 := hq.exec h1 hb1
  obtain ⟨s2, h2, ⟨hb2, _⟩, hsnk2, _, _, _, hsrc2, _, _, hf2, _⟩ := serializeCommand s1 tree hq1 (same1.holdsTree ht)
  have same2 := same1.trans (exec_sameTables (by decide) hq1.1 h2)
  have hq2 := hq1.exec h2 hb2
  obtain ⟨s3, h3, hb3, hf3, hsnk3, hsrc3⟩ : ∃ t, exec .restart s2 = .next t ∧ t.status.busy = false ∧ t.freq = s2.freq
      ∧ t.snk = s2.snk ∧ t.src = { s2.src with pos := 0 } := ⟨_, restartCommand s2 hq2, rfl, rfl, rfl, rfl⟩
  have same3 := same2.trans (exec_sameTables (by decide) hq2.1 h3)
  have hq3 := hq2.exec h3 hb3
  have hsrc3' : s3.src = { s.src with pos := 0 } := by rw [hsrc3, hsrc2, hsrc1]
  obtain ⟨_, _, hsize, hinner, _⟩ := ht
  obtain ⟨_, hmem⟩ := hfor
  have hholds : s3.SourceHolds x := ⟨by rw [hsrc3']; exact Nat.zero_le _, tail, by rw [hsrc3']; exact hsrc, htail⟩
  obtain ⟨s4, h4, ⟨_, hdone, _⟩, hsnk4, _, hsyms4, _, hsrc4, _, _, hf4, _⟩ := encodeCommand s3 tree x hq3
    (same3.holdsCodes hcodes) hsize hinner hholds (fun b hb => (hmem _).mpr (.inr ⟨b, hb, rfl⟩)) ((hmem _).mpr (.inl rfl))
  refine ⟨s4, ?_, hdone, same3.trans (exec_sameTables (by decide) hq3.1 h4), ?_, ?_, ?_, hsyms4⟩
  · rw [runAll_cons h1, runAll_cons h2, runAll_cons h3, runAll_cons h4]
    rfl
  · rw [hf4, hf3, hf2, hf1]
  · rw [hsnk4, hsnk3, hsnk2, hsnk1]
    simp only [Sink.append, Tree.stream, List.append_assoc]
  · rw [hsrc4, hsrc3', Nat.zero_add]

/-- BUILD after RESTART and COUNT of an empty source meets NOSYM (R189). -/
theorem runAll_build_empty {s : State} (hq : s.Quiet) (hbits : s.src.bits = []) :
    ∃ u, runAll [.restart, .count, .build] s = .next u ∧ State.Failed .build .nosym .build u := by
  have hrestart := restartCommand s hq
  have hq1 := hq.exec hrestart rfl
  obtain ⟨s2, hcount, ⟨hb2, _⟩, hfreq, _⟩ := countCommand _ [] hq1
    ⟨Nat.zero_le _, [], by rw [hbits]; rfl, by decide⟩ (fun _ => Nat.two_pow_pos _)
  have hbuild := buildWithNoSymbol s2 (hq1.exec hcount hb2) fun b => BitVec.eq_of_toNat_eq (hfreq b)
  rw [runAll_cons hrestart, runAll_cons hcount, runAll_cons hbuild]
  exact ⟨_, rfl, rfl, rfl, rfl, rfl, rfl, rfl, rfl, rfl, rfl⟩

/-! ### The primitive commands of DECOMPRESS -/

/-- CHECKMAGIC and DESERIALIZE leave the tree and the source as DECOMPRESS does before its DECODE (R307). -/
theorem runAll_deserialize {s : State} {t : Tree} {rest : Bits} (hq : s.Quiet)
    (hsrc : s.SourceIs (bitsOf 32 Config.magic.toNat ++ (t.serial ++ rest))) (hsize : t.size ≤ 513)
    (hinner : t.isInner = true) (hle : ∀ v ∈ t.leaves, v ≤ Config.eos) (is : List Instr) :
    ∃ u, runAll (.checkmagic :: .deserialize :: is) s = runAll is u ∧ u.Quiet ∧ u.HoldsTree t
      ∧ u.node = placeTree t 0 s.node ∧ u.root = 0#10 ∧ u.leafCount = BitVec.ofNat 9 t.leaves.length
      ∧ u.nodeCount = BitVec.ofNat 10 t.size ∧ u.snk = s.snk
      ∧ u.src = { s.src with pos := s.src.pos + (32 + t.serial.length) } ∧ u.SourceIs rest := by
  obtain ⟨hpos, hdrop⟩ := hsrc
  have hcheck := exec_checkmagic_match hq hpos (by rw [hdrop, List.take_left' (bitsOf_length _ _)])
  have hdrop1 := received_drop hdrop
  have hpos1 := received_pos_le hpos hdrop
  rw [bitsOf_length] at hdrop1 hpos1
  obtain ⟨s1, h1, hb1, hnode1, hsnk1, hsrc1⟩ : ∃ s1, exec .checkmagic s = .next s1 ∧ s1.status.busy = false
      ∧ s1.node = s.node ∧ s1.snk = s.snk ∧ s1.src = (received 32 s).src := ⟨_, hcheck, rfl, rfl, rfl, rfl⟩
  rw [← hsrc1] at hdrop1 hpos1
  have hq1 := hq.exec h1 hb1
  obtain ⟨rd, _, hdes⟩ := exec_deserialize (t := t) hq1 ⟨hpos1, rest, hdrop1⟩ hsize hinner hle
  refine ⟨_, by rw [runAll_cons h1, runAll_cons hdes], hq1.exec hdes rfl, deserializeEnd_holdsTree rd s1 hsize hinner hle,
    congrArg _ hnode1, rfl, rfl, rfl, hsnk1, ?_, received_pos_le hpos1 hdrop1, received_drop hdrop1⟩
  show ({ s1.src with pos := s1.src.pos + t.serial.length } : Source) = _
  rw [hsrc1]
  show ({ s.src with pos := s.src.pos + 32 + t.serial.length } : Source) = _
  rw [Nat.add_assoc]

/-- Settles O54: the ends of the commands one by one, against the end of the one command. -/
theorem primitiveCommandsReproduceTheWhole : Obligations.PrimitiveCommandsReproduceTheWhole := by
  refine ⟨?compress, ?empty, ?decompress⟩
  case compress =>
    intro s x tail hq hsrc htail hx hc hpeek
    obtain ⟨tree, rd, wr, sy, h, _, _, hsy, hexec⟩ := exec_compress hq hsrc htail hx hc hpeek
    obtain ⟨u1, hrun1, hq1, ht1, hfreq1, hnode1, hroot1, hleafCount1, hnodeCount1, hsnk1, hbits1, hready1⟩ :=
      runAll_build hq hsrc htail hx hc h [.genlut, .header, .serialize, .restart, .encode]
    have hgenlut := exec_genlut hq1 ht1
    obtain ⟨u, hrun, hdone, same, hfreq, hsnk, hsrc', hsyms⟩ := runAll_stream (x := x) (tree := tree) (tail := tail)
      (hq1.exec hgenlut rfl) ht1 ⟨rfl, recordCodes_codeOf tree h.le⟩ h.codesFor (hbits1.trans hsrc) htail
    refine ⟨_, u, hexec, hrun1.trans ((runAll_cons hgenlut).trans hrun), rfl, hdone, ?_, ?_, hfreq.trans hfreq1,
      same.node.trans hnode1, same.lut, same.root.trans hroot1, same.leafCount.trans hleafCount1,
      same.nodeCount.trans hnodeCount1, same.treeValid.trans ht1.1, same.lutValid, hsyms.trans hsy.symm⟩
    · rw [hsnk]
      show u1.snk.append _ = s.snk.append _
      rw [hsnk1]
    · rw [hsrc']
      show Source.mk u1.src.bits _ u1.src.ready = Source.mk s.src.bits _ s.src.ready
      rw [hbits1, hready1]
  case empty =>
    intro s hq hbits hpos
    have hexec := compressEmptyInput s hq (by rw [hbits, hpos]; decide)
    obtain ⟨u, hrun, hfailed⟩ := runAll_build_empty hq hbits
    exact ⟨_, u, hexec, ⟨rfl, rfl, rfl, rfl, rfl, rfl, rfl, rfl, rfl⟩, rfl, hrun, hfailed⟩
  case decompress =>
    intro s tree rest hq hsrc hsize hinner hle
    obtain ⟨rd, wr, sy, cur, _, _, hsy, hexec⟩ := exec_decompress hq hsrc hsize hinner hle
    obtain ⟨u1, hrun1, hq1, ht1, hnode1, hroot1, hleafCount1, hnodeCount1, hsnk1, hsrc1, hpos1, hdrop1⟩ :=
      runAll_deserialize hq hsrc hsize hinner hle [.decode]
    obtain ⟨u, hdecode, hsnk, hsyms, _, _, hsrc', _, _, _, _, _, hend⟩ := decodeCommand u1 tree hq1 ht1 hpos1
    rw [hdrop1] at hsnk hsyms hsrc' hend
    have same := exec_sameTables (by decide) hq1.1 hdecode
    have hrun := hrun1.trans (runAll_cons hdecode)
    have hsnk' : u.snk = s.snk.append (bytesBits (decodeFrom tree tree rest).1) := by rw [hsnk, hsnk1]; rfl
    have hsrc'' : u.src = { s.src with pos := s.src.pos + (32 + tree.serial.length + (decodeFrom tree tree rest).2.1) } := by
      rw [hsrc', hsrc1]
      exact congrArg (Source.mk s.src.bits · s.src.ready) (Nat.add_assoc _ _ _)
    have hvalid : u.status.treeValid = true := same.treeValid.trans ht1.1
    cases hok : (decodeFrom tree tree rest).2.2
    all_goals
      rw [hok] at hexec hend
      obtain ⟨_, hdone, _, _, hcode, _⟩ := hend
      exact ⟨_, u, hexec, hrun, hsnk', hsrc'', same.node.trans hnode1, same.root.trans hroot1,
        same.leafCount.trans hleafCount1, same.nodeCount.trans hnodeCount1, hvalid, hdone, hcode, hsyms.trans hsy.symm⟩

end Sys2Proof.Machine

/-! SUPPORT. Every command ends in the step that issues it, and leaves TREE_VALID and LUT_VALID true to the tables (40_lifecycle.md
R160, 10_state.md R28, R43). -/

namespace Sys2Proof.Machine

/-! ### When the valid bits tell the truth -/

theorem SameTables.tablesOk {s t : State} (h : SameTables s t) (hs : s.TablesOk) : t.TablesOk := by
  obtain ⟨hlut, htree⟩ := hs
  refine ⟨fun hl => h.treeValid.trans (hlut (h.lutValid.symm.trans hl)), fun hv => ?_⟩
  obtain ⟨hvalid, tree, hholds, hn, hl, hcodes⟩ := htree (h.treeValid.symm.trans hv)
  exact ⟨hvalid.congr h.node h.root h.nodeCount h.leafCount, tree, h.holdsTree hholds, h.nodeCount ▸ hn, h.leafCount ▸ hl,
    fun hv' => h.holdsCodes (hcodes (h.lutValid.symm.trans hv'))⟩

theorem tablesOk_of_invalid {s : State} (ht : s.status.treeValid = false) (hl : s.status.lutValid = false) : s.TablesOk :=
  ⟨fun h => absurd (hl.symm.trans h) Bool.false_ne_true, fun h => absurd (ht.symm.trans h) Bool.false_ne_true⟩

theorem tablesOk_of_tree {s : State} {t : Tree} (ht : s.HoldsTree t) (hv : s.ValidTree) (hn : s.nodeCount.toNat = t.size)
    (hl : s.leafCount.toNat = t.leaves.length) (hc : s.status.lutValid = true → s.HoldsCodes t) : s.TablesOk :=
  ⟨fun _ => ht.1, fun _ => ⟨hv, t, ht, hn, hl, hc⟩⟩

/-- The command `i` issued in `s` ends in that step. -/
def EndsFrom (s : State) (i : Instr) : Prop := ∃ t, exec i s = .next t ∧ t.status.busy = false

/-- It does, and the valid bits tell the truth then. -/
def EndsTrueFrom (s : State) (i : Instr) : Prop := ∃ t, exec i s = .next t ∧ t.status.busy = false ∧ t.TablesOk

theorem EndsFrom.endsTrue {s : State} {i : Instr} (hi : i ∈ tableReaders) (hq : s.Quiet) (hok : s.TablesOk)
    (h : EndsFrom s i) : EndsTrueFrom s i := by
  obtain ⟨t, hexec, hb⟩ := h
  exact ⟨t, hexec, hb, (exec_sameTables hi hq.1 hexec).tablesOk hok⟩

theorem exec_fails {s : State} {i : Instr} {e : ErrCode} (hb : s.status.busy = false) (h : (commandOf i).1.fails s = some e) :
    exec i s = .next (raise e (accept i.opcode s)) :=
  (exec_eq i s).trans (runCommand_fails hb h)

/-- A command whose precondition fails changes no table (R153). -/
theorem endsTrue_of_fails {s : State} {i : Instr} {e : ErrCode} (hb : s.status.busy = false) (hok : s.TablesOk)
    (h : (commandOf i).1.fails s = some e) : EndsTrueFrom s i :=
  ⟨_, exec_fails hb h, rfl, SameTables.tablesOk ⟨rfl, rfl, rfl, rfl, rfl, rfl, rfl⟩ hok⟩

/-! ### The commands of one body -/

section
variable {s : State} (hq : s.Quiet) (hpos : s.src.pos ≤ s.src.bits.length)
include hq

theorem restart_endsFrom : EndsFrom s .restart := ⟨_, restartCommand s hq, rfl⟩

theorem header_endsFrom : EndsFrom s .header := ⟨_, headerCommand s hq, rfl⟩

theorem clear_endsTrueFrom : EndsTrueFrom s .clear := ⟨_, clearCommand s hq, rfl, tablesOk_of_invalid rfl rfl⟩

theorem build_endsTrueFrom : EndsTrueFrom s .build := by
  by_cases hcount : ∃ b, freqAt s.freq b ≠ 0#32
  case pos =>
    obtain ⟨t, tree, hexec, ⟨hb, _⟩, hvalid, hholds, _, _, _, hl, hn, _, _, hlut, _⟩ := buildCommand s hq hcount
    have := tree.size_leaves
    exact ⟨t, hexec, hb, tablesOk_of_tree hholds hvalid (by omega) hl
      fun h => absurd (hlut.symm.trans h) Bool.false_ne_true⟩
  case neg =>
    exact ⟨_, buildWithNoSymbol s hq fun b => not_not.mp fun h => hcount ⟨b, h⟩, rfl, tablesOk_of_invalid rfl rfl⟩

include hpos

theorem count_endsFrom : EndsFrom s .count := by
  obtain ⟨k, f, rd, sy, p, e, hk, _, hmoves⟩ := count_ends (hq.dispatched .count .count []) rfl hpos
  have hk' : k ≤ 2 * s.src.bits.length + 4096 := by
    have : k ≤ s.src.bits.length + 3 := hk
    omega
  rcases hmoves with hmoves | hmoves
  · rw [finishBody_last rfl] at hmoves
    exact ⟨_, (exec_eq .count s).trans (runCommand_ends (pre := .none) hq rfl hmoves hk' rfl), rfl⟩
  · exact ⟨_, (exec_eq .count s).trans (runCommand_ends (pre := .none) hq rfl hmoves hk' rfl), rfl⟩

theorem encode_endsFrom {t : Tree} (ht : s.HoldsCodes t) (hsize : t.size ≤ 513) : EndsFrom s .encode := by
  obtain ⟨k, w, rd, wr, sy, p, hk, _, hmoves⟩ := encode_ends (hq.dispatched .encode .encode []) rfl hpos
    (ht.byteCode_length_le hsize) (ht.sentinelCode ▸ Tree.codeOf_length_le hsize _)
  have hk' : k ≤ 2 * s.src.bits.length + 4096 := by
    have : 8 * k ≤ 9 * s.src.bits.length + 88 := hk
    omega
  rcases hmoves with hmoves | hmoves
  · rw [finishBody_last rfl] at hmoves
    exact ⟨_, (exec_eq .encode s).trans (runCommand_ends hq ht.lut_fails hmoves hk' rfl), rfl⟩
  · exact ⟨_, (exec_eq .encode s).trans (runCommand_ends hq ht.lut_fails hmoves hk' rfl), rfl⟩

theorem checkmagic_endsFrom : EndsFrom s .checkmagic := by
  obtain ⟨t, hexec, _, _, _, _, _, _, _, _, _, _, hend⟩ := checkmagicCommand s hq hpos
  refine ⟨t, hexec, ?_⟩
  split at hend
  · exact hend.1.1
  · obtain ⟨_, _, hend⟩ := hend
    split at hend <;> exact hend.1

theorem decode_endsFrom {t : Tree} (ht : s.HoldsTree t) : EndsFrom s .decode := by
  obtain ⟨u, hexec, _, _, _, _, _, _, _, _, _, _, hend⟩ := decodeCommand s t hq ht hpos
  refine ⟨u, hexec, ?_⟩
  split at hend <;> exact hend.1

theorem deserialize_endsTrueFrom : EndsTrueFrom s .deserialize := by
  cases hend : treeFieldEnd (s.src.bits.drop s.src.pos) with
  | none =>
    obtain ⟨tree, rest, hbits, hsize, hinner, hle, _⟩ := treeFieldEnd_none hend
    obtain ⟨t, hexec, ⟨hb, _⟩, hholds, hvalid, _, hn, hl, _, _, _, _, hlut, _⟩ :=
      deserializeCommand s tree hq ⟨hpos, rest, hbits⟩ hsize hinner hle
    exact ⟨t, hexec, hb, tablesOk_of_tree hholds hvalid hn hl fun h => absurd (hlut.symm.trans h) Bool.false_ne_true⟩
  | some e =>
    obtain ⟨t, hexec, _, _, _, hfail⟩ := deserializeOfAnyBits s hq hpos
    rw [hend] at hfail
    obtain ⟨⟨hb, _⟩, htree, hlut, _⟩ := hfail
    exact ⟨t, hexec, hb, tablesOk_of_invalid htree hlut⟩

end

theorem serialize_endsFrom {s : State} {t : Tree} (hq : s.Quiet) (ht : s.HoldsTree t) : EndsFrom s .serialize := by
  obtain ⟨_, _, hexec⟩ := exec_serialize hq ht
  exact ⟨_, hexec, rfl⟩

/-- GENLUT's code table is that of the tree that was valid before it (R28). -/
theorem genlut_endsTrueFrom {s : State} {t : Tree} (hq : s.Quiet) (ht : s.HoldsTree t) (hv : s.ValidTree)
    (hn : s.nodeCount.toNat = t.size) (hl : s.leafCount.toNat = t.leaves.length) : EndsTrueFrom s .genlut := by
  obtain ⟨u, hexec, ⟨hb, _⟩, hcodes, hholds, _, hnode, _, hleafCount, hnodeCount, hroot, _⟩ := genlutCommand s t hq ht
  exact ⟨u, hexec, hb, tablesOk_of_tree hholds (hv.congr hnode hroot hnodeCount hleafCount) (hnodeCount ▸ hn)
    (hleafCount ▸ hl) fun _ => hcodes⟩

/-! ### COMPRESS -/

/-- Any bits are bytes and then fewer than 8 bits (R94). -/
theorem exists_bytesBits (n : Nat) : ∀ bits : Bits, bits.length ≤ n →
    ∃ (x : List Byte) (tail : Bits), bits = bytesBits x ++ tail ∧ tail.length < 8 := by
  induction n with
  | zero => exact fun bits h => ⟨[], bits, rfl, by omega⟩
  | succ n ih =>
    intro bits hn
    by_cases h8 : bits.length < 8
    case pos => exact ⟨[], bits, rfl, h8⟩
    case neg =>
      obtain ⟨x, tail, hrest, htail⟩ := ih (bits.drop 8) (by rw [List.length_drop]; omega)
      have hlen : (bits.take 8).length = 8 := by rw [List.length_take]; omega
      have hval : valOf (bits.take 8) < 2 ^ 8 := by
        have h := valOf_lt (bits.take 8)
        rwa [hlen] at h
      have hbyte : byteBits (BitVec.ofNat 8 (valOf (bits.take 8))) = bits.take 8 := by
        have h := bitsOf_valOf (bits.take 8)
        rwa [hlen, ← Nat.mod_eq_of_lt hval] at h
      exact ⟨BitVec.ofNat 8 (valOf (bits.take 8)) :: x, tail,
        by rw [bytesBits_cons, hbyte, List.append_assoc, ← hrest, List.take_append_drop], htail⟩

/-- Either every byte occurs fewer than `n` times, or some byte meets a full entry after those before it (R172). -/
theorem count_lt_or_overflow {n : Nat} (hn : 0 < n) (x : List Byte) :
    (∀ b, x.count b < n) ∨ ∃ (y : List Byte) (b : Byte) (z : List Byte), x = y ++ [b] ++ z ∧ (∀ c, y.count c < n)
      ∧ y.count b = n - 1 := by
  induction x using List.reverseRecOn with
  | nil => exact .inl fun _ => hn
  | append_singleton x b ih =>
    rcases ih with hlt | ⟨y, c, z, rfl, hy⟩
    · by_cases hb : x.count b = n - 1
      case pos => exact .inr ⟨x, b, [], by rw [List.append_nil], hlt, hb⟩
      case neg =>
        refine .inl fun c => ?_
        have hc := hlt c
        by_cases hcb : c = b
        · subst hcb
          rw [List.count_append, List.count_singleton_self]
          omega
        · rwa [List.count_append, List.count_eq_zero_of_not_mem (a := c) (l := [b]) (by simpa using hcb), Nat.add_zero]
    · exact .inr ⟨y, c, z ++ [b], by simp only [List.append_assoc], hy⟩

theorem compress_endsTrueFrom {s : State} (hq : s.Quiet) (hok : s.TablesOk) : EndsTrueFrom s .compress := by
  by_cases hpeek : s.src.pos + 8 ≤ s.src.bits.length
  case neg =>
    exact ⟨_, compressEmptyInput s hq (Nat.lt_of_not_le hpeek), rfl,
      SameTables.tablesOk ⟨rfl, rfl, rfl, rfl, rfl, rfl, rfl⟩ hok⟩
  case pos =>
    obtain ⟨x, tail, hsrc, htail⟩ := exists_bytesBits _ s.src.bits le_rfl
    have hlen := congrArg List.length hsrc
    rw [List.length_append, bytesBits_length] at hlen
    have hx : x ≠ [] := by
      rintro rfl
      rw [List.length_nil] at hlen
      omega
    rcases count_lt_or_overflow (Nat.two_pow_pos s.cntW.val) x with hc | ⟨y, b, z, rfl, hy, hb⟩
    · obtain ⟨tree, rd, wr, sy, h, _, _, _, hexec⟩ := exec_compress hq hsrc htail hx hc hpeek
      exact ⟨_, hexec, rfl, tablesOk_of_tree (h.holdsTree_compressEnd rd wr sy) (h.validTree_compressEnd rd wr sy)
        (h.nodeCount_compressEnd rd wr sy) (h.leafCount_compressEnd rd wr sy) fun _ => h.holdsCodes_compressEnd rd wr sy⟩
    · have hsrc' : s.src.bits = bytesBits (y ++ [b]) ++ (bytesBits z ++ tail) := by
        rw [hsrc, bytesBits, List.flatMap_append, List.append_assoc]
        rfl
      obtain ⟨rd, sy, _, _, hexec⟩ := exec_compress_overflow hq hsrc' hy hb hpeek
      exact ⟨_, hexec, rfl, SameTables.tablesOk ⟨rfl, rfl, rfl, rfl, rfl, rfl, rfl⟩ hok⟩

/-! ### DECOMPRESS -/

theorem decompress_endsTrueFrom {s : State} (hq : s.Quiet) (hpos : s.src.pos ≤ s.src.bits.length) (hok : s.TablesOk) :
    EndsTrueFrom s .decompress := by
  by_cases hmagic : (s.src.bits.drop s.src.pos).take 32 = bitsOf 32 Config.magic.toNat
  case neg =>
    obtain ⟨t, hexec, ⟨hb, _⟩, _, _, hnode, hlut, htree, hlutValid, _, hl, hn, hroot, _⟩ :=
      decompressFormatError s hq hpos hmagic
    exact ⟨t, hexec, hb, SameTables.tablesOk ⟨hnode, hlut, hroot, hl, hn, htree, hlutValid⟩ hok⟩
  case pos =>
    have hdrop : s.src.bits.drop s.src.pos
        = bitsOf 32 Config.magic.toNat ++ (s.src.bits.drop s.src.pos).drop 32 := by
      rw [← hmagic, List.take_append_drop]
    cases hend : treeFieldEnd ((s.src.bits.drop s.src.pos).drop 32) with
    | none =>
      obtain ⟨tree, rest, hbits, hsize, hinner, hle, _⟩ := treeFieldEnd_none hend
      rw [hbits] at hdrop
      obtain ⟨rd, wr, sy, cur, _, _, _, hexec⟩ := exec_decompress hq ⟨hpos, hdrop⟩ hsize hinner hle
      obtain ⟨htree, hvalid⟩ := decompressed_tree rest rd wr sy cur s hsize hinner hle
      have hn : (BitVec.ofNat 10 tree.size).toNat = tree.size := idx_toNat (by omega)
      have hl : (BitVec.ofNat 9 tree.leaves.length).toNat = tree.leaves.length :=
        sym_toNat (Nat.lt_of_le_of_lt (Tree.leaves_length_le hsize) (by decide))
      refine ⟨_, hexec, ?_⟩
      split <;> exact ⟨rfl, tablesOk_of_tree htree hvalid hn hl nofun⟩
    | some e =>
      obtain ⟨rd, node, _, hexec⟩ := exec_decompress_bad_tree hq ⟨hpos, hdrop⟩ hend
      exact ⟨_, hexec, rfl, tablesOk_of_invalid rfl rfl⟩

/-! ### Every command -/

/-- A command that needs a valid tree finds none, or one that the tables bear out (R153). -/
theorem endsTrueFrom_of_tree {s : State} {i : Instr} (hb : s.status.busy = false) (hok : s.TablesOk)
    (hpre : (commandOf i).1 = .tree)
    (h : ∀ t, s.HoldsTree t → s.ValidTree → s.nodeCount.toNat = t.size → s.leafCount.toNat = t.leaves.length →
      EndsTrueFrom s i) : EndsTrueFrom s i := by
  cases htree : s.status.treeValid with
  | false => exact endsTrue_of_fails (e := .noTree) hb hok (by simp [hpre, Precondition.fails, htree])
  | true =>
    obtain ⟨hvalid, t, hholds, hn, hl, _⟩ := hok.2 htree
    exact h t hholds hvalid hn hl

theorem endsTrueFrom {s : State} (i : Instr) (hq : s.Quiet) (hok : s.TablesOk) (hpos : s.src.pos ≤ s.src.bits.length) :
    EndsTrueFrom s i := by
  cases i with
  | compress => exact compress_endsTrueFrom hq hok
  | decompress => exact decompress_endsTrueFrom hq hpos hok
  | clear => exact clear_endsTrueFrom hq
  | restart => exact (restart_endsFrom hq).endsTrue (by decide) hq hok
  | count => exact (count_endsFrom hq hpos).endsTrue (by decide) hq hok
  | build => exact build_endsTrueFrom hq
  | header => exact (header_endsFrom hq).endsTrue (by decide) hq hok
  | checkmagic => exact (checkmagic_endsFrom hq hpos).endsTrue (by decide) hq hok
  | deserialize => exact deserialize_endsTrueFrom hq hpos
  | genlut => exact endsTrueFrom_of_tree hq.1 hok rfl fun _ hholds hvalid hn hl => genlut_endsTrueFrom hq hholds hvalid hn hl
  | serialize =>
    exact endsTrueFrom_of_tree hq.1 hok rfl fun _ hholds _ _ _ =>
      (serialize_endsFrom hq hholds).endsTrue (by decide) hq hok
  | decode =>
    exact endsTrueFrom_of_tree hq.1 hok rfl fun _ hholds _ _ _ =>
      (decode_endsFrom hq hpos hholds).endsTrue (by decide) hq hok
  | encode =>
    cases hlut : s.status.lutValid with
    | false => exact endsTrue_of_fails (e := .noLut) hq.1 hok (by simp [commandOf, Precondition.fails, hlut])
    | true =>
      obtain ⟨_, t, ⟨_, _, hsize, _⟩, _, _, hcodes⟩ := hok.2 (hok.1 hlut)
      exact (encode_endsFrom hq hpos (hcodes hlut) hsize).endsTrue (by decide) hq hok

/-- Settles O10: each command comes to one of its ends, and STATUS is that command's (O8). -/
theorem everyCommandEndsAndKeepsTablesValid : Obligations.EveryCommandEndsAndKeepsTablesValid := by
  intro s i hq hok hpos
  obtain ⟨t, hexec, hb, hok'⟩ := endsTrueFrom i hq hok hpos
  refine ⟨t, hexec, hb, ?_, hok'⟩
  obtain ⟨_, _, ⟨hbusy, _⟩ | ⟨_, hdone, herr, _⟩ | ⟨_, hdone, herr, _⟩⟩ := statusAfterCommandIsItsOwn s t i hq.1 hexec
  · exact absurd (hb.symm.trans hbusy) Bool.false_ne_true
  all_goals rw [hdone, herr]; rfl

end Sys2Proof.Machine

/-! SUPPORT. Every move of the sequencer keeps the state coherent (10_state.md sections 2 to 4, 40_lifecycle.md): what holds of a
running command at every position, and what each position adds. -/

namespace Sys2Proof.Machine

/-! ### A running command, at any position -/

/-- What coherence says of a running command whatever its position. -/
structure Steady (s : State) : Prop where
  busy : s.status.busy = true
  op : s.seq.op.isSome = true
  done : s.status.done = false
  error : s.status.error = false
  code : s.status.errCode = .none
  valid : s.status.lutValid = true → s.status.treeValid = true
  registers : s.status.treeValid = false → s.leafCount = 0#9 ∧ s.root = 0#10
  source : s.src.pos ≤ s.src.bits.length
  pin : s.rstN = true
  rdBits : s.rdBits.now ∈ s.rdBits.held
  wrBits : s.wrBits.now ∈ s.wrBits.held
  syms : s.syms.now ∈ s.syms.held
  width : 1 ≤ s.cntW.val
  freq : ∀ b, (freqAt s.freq b).toNat < 2 ^ s.cntW.val

theorem State.Coherent.steady {s : State} (h : s.Coherent) (hb : s.status.busy = true) : Steady s := by
  obtain ⟨⟨_, hrun, _, hcode, _⟩, ⟨hvalid, _, _, _, hregs⟩, ⟨_, _, hsrc, hpin, ⟨hrd, hwr, hsy⟩, hwidth, hfreq⟩⟩ := h
  obtain ⟨hop, _, hdone, herr⟩ := hrun hb
  refine ⟨hb, hop, hdone, herr, hcode.mp herr, hvalid, fun ht => ?_, hsrc, ?_, hrd, hwr, hsy, hwidth, hfreq⟩
  · obtain ⟨hl, hr, _⟩ := hregs ht
    exact ⟨hl, hr⟩
  · cases hr : s.rstN with
    | true => rfl
    | false => exact absurd ((hpin hr).1.symm.trans hb) Bool.false_ne_true

/-- Coherence at a position `p` inside the body `b`: what holds at every position, and what this one asks for. -/
theorem Steady.at {s : State} {b : Body} {p : Pos} (h : Steady s) (hp : s.seq.pos = p) (hb : p.body = some b)
    (hphase : p.started = true → s.status.phase = b.phase)
    (hsuff : tablesSuffice s.status.treeValid s.status.lutValid (b :: s.seq.rest) = true)
    (hmakes : p.makesTree = true → s.status.treeValid = false) (hgenlut : p = .genlutVisit → s.status.lutValid = false)
    (hn : s.status.treeValid = false → s.nodeCount = 0#10 ∨ p.deserializing = true)
    (hsel : s.sel = [] ∨ ∃ leaves next, p = .buildMerge leaves next)
    (hemit : ∀ rest last, p = .encEmit rest last → rest ≠ []) : s.Coherent := by
  subst hp
  have hnone : s.seq.pos ≠ .none := fun h' => by simp [h', Pos.body] at hb
  have htodo : s.seq.todo = b :: s.seq.rest := by simp [Seq.todo, hb]
  refine ⟨⟨fun hi => ?_, fun _ => ⟨h.op, hnone, h.done, h.error⟩, fun hd => ?_, ?_, fun hi => ?_, fun hs => ⟨b, hb, hphase hs⟩⟩,
    ⟨h.valid, hmakes, hgenlut, htodo ▸ hsuff, fun ht => ?_⟩,
    ⟨hsel, hemit, h.source, fun hr => ?_, ⟨h.rdBits, h.wrBits, h.syms⟩, h.width, h.freq⟩⟩
  · exact absurd (hi.symm.trans h.busy) Bool.false_ne_true
  · exact absurd (h.done.symm.trans hd) Bool.false_ne_true
  · exact ⟨fun _ => h.code, fun _ => h.error⟩
  · exact absurd (hi.symm.trans h.busy) Bool.false_ne_true
  · obtain ⟨hl, hr⟩ := h.registers ht
    exact ⟨hl, hr, hn ht⟩
  · exact absurd (hr.symm.trans h.pin) Bool.false_ne_true

/-- A command that has ended, STATUS being `f` then. -/
theorem Steady.ended {s : State} {f : Status} (h : Steady s) (hsel : s.sel = [])
    (hn : s.status.treeValid = false → s.nodeCount = 0#10) (htree : f.treeValid = s.status.treeValid)
    (hlut : f.lutValid = s.status.lutValid) (hstatus : State.StatusCoherent { s with status := f, pend := true, seq := Seq.idle }) :
    State.Coherent { s with status := f, pend := true, seq := Seq.idle } := by
  refine ⟨hstatus, ⟨fun hl => htree.trans (h.valid (hlut.symm.trans hl)), nofun, nofun, rfl, fun ht => ?_⟩,
    ⟨.inl hsel, nofun, h.source, fun hr => ?_, ⟨h.rdBits, h.wrBits, h.syms⟩, h.width, h.freq⟩⟩
  · obtain ⟨hl, hr⟩ := h.registers (htree.symm.trans ht)
    exact ⟨hl, hr, .inl (hn (htree.symm.trans ht))⟩
  · exact absurd (hr.symm.trans h.pin) Bool.false_ne_true

theorem Steady.raise {s : State} {e : ErrCode} (h : Steady s) (he : e ≠ .none) (hsel : s.sel = [])
    (hn : s.status.treeValid = false → s.nodeCount = 0#10) : (Machine.raise e s).Coherent := by
  refine h.ended hsel hn rfl rfl ⟨fun _ => rfl, nofun, fun hd => ?_, ⟨nofun, fun h' => absurd h' he⟩, nofun, nofun⟩
  exact absurd (h.done.symm.trans hd) Bool.false_ne_true

theorem Steady.complete {s : State} (h : Steady s) (hsel : s.sel = [])
    (hn : s.status.treeValid = false → s.nodeCount = 0#10) : (Machine.complete s).Coherent :=
  h.ended hsel hn rfl rfl
    ⟨fun _ => rfl, nofun, fun _ => ⟨h.error, rfl⟩, ⟨fun _ => h.code, fun _ => h.error⟩, fun _ _ => rfl, nofun⟩

/-- The end of a body: the bodies after it find the tables they read (R153, R154). -/
theorem Steady.finish {s : State} (h : Steady s) (hsel : s.sel = []) (hn : s.status.treeValid = false → s.nodeCount = 0#10)
    (hsuff : tablesSuffice s.status.treeValid s.status.lutValid s.seq.rest = true) : (finishBody s).Coherent := by
  rcases finishBody_cases s with ⟨_, hfin⟩ | ⟨b, bs, hrest, hfin⟩
  · rw [hfin]
    exact h.complete hsel hn
  · rw [hfin]
    rw [hrest] at hsuff
    exact Steady.at (p := .enter b) { h with } rfl rfl nofun hsuff nofun nofun (fun ht => .inl (hn ht)) (.inl hsel) nofun

theorem Steady.received {s : State} {n : Nat} (h : Steady s) (hn : s.src.pos + n ≤ s.src.bits.length) :
    Steady (Machine.received n s) :=
  { h with source := hn, rdBits := List.mem_cons_self }

/-- What `ReadBits(n)` leaves: end-of-data, or the bits read (R87). -/
theorem Steady.read {s : State} (h : Steady s) (n : Nat) :
    readBits n s = (none, s) ∨ ∃ v, readBits n s = (some v, Machine.received n s) ∧ Steady (Machine.received n s) := by
  rcases readBits_cases n s with ⟨_, he⟩ | ⟨hle, he⟩
  · exact .inl he
  · exact .inr ⟨_, he, h.received hle⟩

/-! ### What coherence says at a position -/

section
variable {s : State} (h : s.Coherent)
include h

theorem State.Coherent.enough {b : Body} (hb : s.seq.pos.body = some b) :
    tablesSuffice s.status.treeValid s.status.lutValid (b :: s.seq.rest) = true := by
  obtain ⟨_, ⟨_, _, _, hsuff, _⟩, _⟩ := h
  simpa [Seq.todo, hb] using hsuff

theorem State.Coherent.phase {b : Body} (hs : s.seq.pos.started = true) (hb : s.seq.pos.body = some b) :
    s.status.phase = b.phase := by
  obtain ⟨⟨_, _, _, _, _, hphase⟩, _⟩ := h
  obtain ⟨c, hc, hp⟩ := hphase hs
  rw [hb] at hc
  exact Option.some.inj hc ▸ hp

theorem State.Coherent.sel_nil (hp : ∀ leaves next, s.seq.pos ≠ .buildMerge leaves next) : s.sel = [] := by
  obtain ⟨_, _, ⟨hsel, _⟩⟩ := h
  exact hsel.resolve_right fun ⟨l, n, he⟩ => hp l n he

theorem State.Coherent.nodeCount_zero (hp : s.seq.pos.deserializing = false) (ht : s.status.treeValid = false) :
    s.nodeCount = 0#10 := by
  obtain ⟨_, ⟨_, _, _, _, hregs⟩, _⟩ := h
  obtain ⟨_, _, hn⟩ := hregs ht
  exact hn.resolve_right (by simp [hp])

theorem State.Coherent.tree_invalid (hp : s.seq.pos.makesTree = true) :
    s.status.treeValid = false ∧ s.status.lutValid = false := by
  obtain ⟨_, ⟨hvalid, hmakes, _⟩, _⟩ := h
  refine ⟨hmakes hp, Bool.eq_false_iff.mpr fun hl => ?_⟩
  exact Bool.false_ne_true ((hmakes hp).symm.trans (hvalid hl))

end

/-! ### The moves -/

theorem freq_zero_lt (w : Nat) (b : Byte) : (freqAt (Vector.replicate 256 (0#Config.cntMax)) b).toNat < 2 ^ w := by
  rw [freqAt_zero]
  exact Nat.two_pow_pos w

theorem Steady.start {s : State} (h : Steady s) (b : Body) (p : Pos) : Steady (start b p s) := { h with }

/-- With the tree dropped there is nothing for the registers to agree with (R28, R37). -/
theorem Steady.dropTree {s : State} (h : Steady s) : Steady (Machine.dropTree s) :=
  { h with valid := nofun, registers := fun _ => ⟨rfl, rfl⟩ }

/-- The start of a body. -/
theorem enterBody_coherent {s t : State} {b : Body} (h : s.Coherent) (hb : s.status.busy = true)
    (hp : s.seq.pos = .enter b) (hm : enterBody b s = .next t) : t.Coherent := by
  have hs := h.steady hb
  have hsuff := h.enough (b := b) (by rw [hp]; rfl)
  have hsel := h.sel_nil (by simp [hp])
  have hn := h.nodeCount_zero (by simp [hp, Pos.deserializing])
  cases b with
  | peek | restart | header | checkMagic | clear | serialize =>
    cases hm
    exact Steady.at { hs with } rfl rfl (fun _ => rfl) hsuff nofun nofun (fun ht => .inl (hn ht)) (.inl hsel) nofun
  | encode | decode =>
    cases hm
    exact Steady.at { hs with syms := List.mem_cons_self } rfl rfl (fun _ => rfl) hsuff nofun nofun
      (fun ht => .inl (hn ht)) (.inl hsel) nofun
  | count =>
    cases hm
    exact Steady.at { hs with syms := List.mem_cons_self, freq := freq_zero_lt _ } rfl rfl (fun _ => rfl) hsuff nofun nofun
      (fun ht => .inl (hn ht)) (.inl hsel) nofun
  | genlut =>
    cases hm
    exact Steady.at { hs with valid := nofun } rfl rfl (fun _ => rfl) hsuff nofun (fun _ => rfl)
      (fun ht => .inl (hn ht)) (.inl hsel) nofun
  | deserialize =>
    cases hm
    exact Steady.at { hs.dropTree with } rfl rfl (fun _ => rfl) hsuff (fun _ => rfl) nofun (fun _ => .inr rfl) (.inl hsel) nofun
  | build =>
    simp only [enterBody, buildEnter] at hm
    split at hm <;> cases hm
    · exact Steady.raise { hs.dropTree with } nofun rfl fun _ => rfl
    · exact Steady.at { hs.dropTree with } rfl rfl (fun _ => rfl) hsuff (fun _ => rfl) nofun (fun _ => .inl rfl)
        (.inr ⟨_, _, rfl⟩) nofun

/-- What coherence says of a running command at a position past the start of the body `b`, neither BUILD nor DESERIALIZE. -/
structure InBody (b : Body) (s : State) : Prop extends Steady s where
  phase : s.status.phase = b.phase
  enough : tablesSuffice s.status.treeValid s.status.lutValid (b :: s.seq.rest) = true
  sel : s.sel = []
  nodeCount : s.status.treeValid = false → s.nodeCount = 0#10

theorem State.Coherent.inBody {s : State} {p : Pos} {b : Body} (h : s.Coherent) (hb : s.status.busy = true)
    (hp : s.seq.pos = p) (hbody : p.body = some b) (hstarted : p.started = true) (hmakes : p.makesTree = false) :
    InBody b s := by
  subst hp
  refine { h.steady hb with
    phase := h.phase hstarted hbody, enough := h.enough hbody, sel := h.sel_nil fun l n he => ?_
    nodeCount := h.nodeCount_zero ?_ }
  · simp [he, Pos.makesTree] at hmakes
  · cases hp : s.seq.pos <;> simp [hp, Pos.makesTree] at hmakes <;> rfl

section
variable {s : State} {b : Body} (h : InBody b s)
include h

/-- Another position of the body. -/
theorem InBody.at {p : Pos} (hp : s.seq.pos = p) (hbody : p.body = some b) (hmakes : p.makesTree = false)
    (hgenlut : p = .genlutVisit → s.status.lutValid = false) (hemit : ∀ rest last, p = .encEmit rest last → rest ≠ []) :
    s.Coherent :=
  h.toSteady.at hp hbody (fun _ => h.phase) h.enough (fun hm => absurd (hmakes.symm.trans hm) Bool.false_ne_true) hgenlut
    (fun ht => .inl (h.nodeCount ht)) (.inl h.sel) hemit

theorem InBody.ends (hrest : tablesSuffice s.status.treeValid s.status.lutValid s.seq.rest = true) :
    (finishBody s).Coherent :=
  h.toSteady.finish h.sel h.nodeCount hrest

theorem InBody.fails {e : ErrCode} (he : e ≠ .none) : (Machine.raise e s).Coherent :=
  h.toSteady.raise he h.sel h.nodeCount

theorem InBody.reads (n : Nat) :
    readBits n s = (none, s) ∨ ∃ v, readBits n s = (some v, Machine.received n s) ∧ InBody b (Machine.received n s) := by
  rcases h.toSteady.read n with he | ⟨v, he, hr⟩
  · exact .inl he
  · exact .inr ⟨v, he, { hr with phase := h.phase, enough := h.enough, sel := h.sel, nodeCount := h.nodeCount }⟩

end

/-- `Fail` leaves no tree (R219). -/
theorem Steady.desFail {s : State} {e : ErrCode} (h : Steady s) (he : e ≠ .none) (hsel : s.sel = []) :
    (Machine.desFail e s).Coherent :=
  Steady.raise { h with registers := fun _ => ⟨rfl, rfl⟩ } he hsel fun _ => rfl

section
variable {s t : State} (h : s.Coherent) (hb : s.status.busy = true)
include h hb

theorem peekRead_coherent (hp : s.seq.pos = .peekRead) (hm : peekRead s = .next t) : t.Coherent := by
  have hin : InBody .peek s := h.inBody hb hp rfl rfl rfl
  rcases hin.reads 8 with he | ⟨v, he, hr⟩ <;> simp only [peekRead, he] at hm <;> cases hm
  · exact Steady.complete { hin with } hin.sel hin.nodeCount
  · exact hr.ends hr.enough

theorem countRead_coherent {counted : Bool} (hp : s.seq.pos = .countRead counted) (hm : countRead counted s = .next t) :
    t.Coherent := by
  have hin : InBody .count s := h.inBody hb hp rfl rfl rfl
  rcases hin.reads 8 with he | ⟨v, he, hr⟩ <;> simp only [countRead, he] at hm
  · cases hm
    exact InBody.ends (b := .count) { hin with } hin.enough
  · split at hm <;> cases hm
    · exact hr.fails nofun
    next hfull =>
      refine InBody.at (b := .count) { hr with syms := List.mem_cons_self, freq := fun b => ?_ } rfl rfl rfl nofun nofun
      show (freqAt (setFreq s.freq _ _) b).toNat < _
      rw [freqAt_setFreq]
      split
      · exact succ_not_full (hin.freq _) hfull
      · exact hin.freq b

theorem genlutVisit_coherent (hp : s.seq.pos = .genlutVisit) (hm : genlutVisit s = .next t) : t.Coherent := by
  have hin : InBody .genlut s := h.inBody hb hp rfl rfl rfl
  obtain ⟨htree, hrest⟩ := Bool.and_eq_true_iff.mp hin.enough
  obtain ⟨_, ⟨_, _, hlut, _⟩, _⟩ := h
  unfold genlutVisit at hm
  split at hm
  · cases hm
  · split at hm
    · cases hm
    · split at hm
      · split at hm
        · split at hm <;> cases hm
          · exact Steady.finish { hin with valid := fun _ => htree } hin.sel hin.nodeCount hrest
          · exact InBody.at (b := .genlut) { hin with } hp rfl rfl (fun _ => hlut hp) nofun
        · cases hm
      · cases hm
        exact InBody.at (b := .genlut) { hin with } hp rfl rfl (fun _ => hlut hp) nofun

theorem serVisit_coherent (hp : s.seq.pos = .serVisit) (hm : serVisit s = .next t) : t.Coherent := by
  have hin : InBody .serialize s := h.inBody hb hp rfl rfl rfl
  unfold serVisit at hm
  split at hm
  · cases hm
  · split at hm
    · cases hm
    · split at hm <;> cases hm
      · exact InBody.at (b := .serialize) { hin with wrBits := List.mem_cons_self } rfl rfl rfl nofun nofun
      · exact InBody.at (b := .serialize) { hin with wrBits := List.mem_cons_self } hp rfl rfl nofun nofun

theorem serId_coherent {v : Sym} (hp : s.seq.pos = .serId v) (hm : serId v s = .next t) : t.Coherent := by
  have hin : InBody .serialize s := h.inBody hb hp rfl rfl rfl
  unfold serId at hm
  split at hm <;> cases hm
  · exact InBody.ends (b := .serialize) { hin with wrBits := List.mem_cons_self } (Bool.and_eq_true_iff.mp hin.enough).2
  · exact InBody.at (b := .serialize) { hin with wrBits := List.mem_cons_self } rfl rfl rfl nofun nofun

theorem encRead_coherent (hp : s.seq.pos = .encRead) (hm : encRead s = .next t) : t.Coherent := by
  have hin : InBody .encode s := h.inBody hb hp rfl rfl rfl
  rcases hin.reads 8 with he | ⟨v, he, hr⟩ <;> simp only [encRead, he] at hm <;> split at hm <;> cases hm
  · exact hin.fails nofun
  · exact InBody.at (b := .encode) { hin with } rfl rfl rfl nofun (by rintro _ _ ⟨⟩; exact List.cons_ne_nil _ _)
  · exact hr.fails nofun
  · exact InBody.at (b := .encode) { hr with } rfl rfl rfl nofun (by rintro _ _ ⟨⟩; exact List.cons_ne_nil _ _)

theorem encEmit_coherent {rest : Bits} {last : Bool} (hp : s.seq.pos = .encEmit rest last)
    (hm : encEmit rest last s = .next t) : t.Coherent := by
  have hin : InBody .encode s := h.inBody hb hp rfl rfl rfl
  unfold encEmit at hm
  dsimp only at hm
  split at hm
  · cases hm
    exact InBody.at (b := .encode) { hin with wrBits := List.mem_cons_self } rfl rfl rfl nofun
      (by rintro _ _ ⟨⟩; exact List.cons_ne_nil _ _)
  · split at hm <;> cases hm
    · exact InBody.ends (b := .encode) { hin with wrBits := List.mem_cons_self } (Bool.and_eq_true_iff.mp hin.enough).2
    · exact InBody.at (b := .encode) { hin with wrBits := List.mem_cons_self, syms := List.mem_cons_self } rfl rfl rfl nofun nofun

theorem magicRead_coherent (hp : s.seq.pos = .magicRead) (hm : magicRead s = .next t) : t.Coherent := by
  have hin : InBody .checkMagic s := h.inBody hb hp rfl rfl rfl
  rcases hin.reads 32 with he | ⟨v, he, hr⟩ <;> simp only [magicRead, he] at hm
  · cases hm
    exact hin.fails nofun
  · split at hm <;> cases hm
    · exact hr.ends hr.enough
    · exact hr.fails nofun

theorem decRead_coherent (hp : s.seq.pos = .decRead) (hm : decRead s = .next t) : t.Coherent := by
  have hin : InBody .decode s := h.inBody hb hp rfl rfl rfl
  rcases hin.reads 1 with he | ⟨v, he, hr⟩ <;> simp only [decRead, he] at hm
  · cases hm
    exact hin.fails nofun
  · split at hm
    · cases hm
    · split at hm
      · cases hm
      · split at hm
        · split at hm <;> cases hm
          · exact InBody.ends (b := .decode) { hr with } (Bool.and_eq_true_iff.mp hr.enough).2
          · exact InBody.at (b := .decode) { hr with } rfl rfl rfl nofun nofun
        · cases hm
          exact InBody.at (b := .decode) { hr with } hp rfl rfl nofun nofun

theorem decWrite_coherent (hp : s.seq.pos = .decWrite) (hm : decWrite s = .next t) : t.Coherent := by
  have hin : InBody .decode s := h.inBody hb hp rfl rfl rfl
  unfold decWrite at hm
  split at hm <;> cases hm
  exact InBody.at (b := .decode) { hin with wrBits := List.mem_cons_self, syms := List.mem_cons_self } rfl rfl rfl nofun nofun

theorem buildMerge_coherent {leaves next : Nat} (hp : s.seq.pos = .buildMerge leaves next)
    (hm : buildMerge leaves next s = .next t) : t.Coherent := by
  have hs := h.steady hb
  have hsuff := h.enough (b := .build) (by rw [hp]; rfl)
  have hphase := h.phase (b := .build) (by rw [hp]; rfl) (by rw [hp]; rfl)
  obtain ⟨htree, hlut⟩ := h.tree_invalid (by rw [hp]; rfl)
  have hn := h.nodeCount_zero (by rw [hp]; rfl) htree
  unfold buildMerge at hm
  split at hm
  · cases hm
  · split at hm
    · cases hm
      rw [hlut] at hsuff
      exact Steady.finish { hs with valid := fun _ => rfl, registers := nofun } rfl nofun (hlut ▸ hsuff)
    · split at hm <;> cases hm
      exact Steady.at { hs with } rfl rfl (fun _ => hphase) hsuff (fun _ => htree) nofun (fun _ => .inl hn)
        (.inr ⟨_, _, rfl⟩) nofun

theorem desBit_coherent {nleaf : Nat} (hp : s.seq.pos = .desBit nleaf) (hm : desBit nleaf s = .next t) : t.Coherent := by
  have hs := h.steady hb
  have hsuff := h.enough (b := .deserialize) (by rw [hp]; rfl)
  have hphase := h.phase (b := .deserialize) (by rw [hp]; rfl) (by rw [hp]; rfl)
  obtain ⟨htree, _⟩ := h.tree_invalid (by rw [hp]; rfl)
  have hsel := h.sel_nil (by simp [hp])
  rcases hs.read 1 with he | ⟨v, he, hr⟩ <;> simp only [desBit, he] at hm
  · cases hm
    exact hs.desFail nofun hsel
  · split at hm
    · cases hm
      exact hr.desFail nofun hsel
    · split at hm
      · split at hm <;> cases hm
        all_goals
          exact Steady.at { hr with } rfl rfl (fun _ => hphase) hsuff (fun _ => htree) nofun (fun _ => .inr rfl) (.inl hsel)
            nofun
      · cases hm

theorem desId_coherent {nleaf : Nat} {i : Idx} (hp : s.seq.pos = .desId nleaf i) (hm : desId nleaf i s = .next t) :
    t.Coherent := by
  have hs := h.steady hb
  have hsuff := h.enough (b := .deserialize) (by rw [hp]; rfl)
  have hphase := h.phase (b := .deserialize) (by rw [hp]; rfl) (by rw [hp]; rfl)
  obtain ⟨htree, hlut⟩ := h.tree_invalid (by rw [hp]; rfl)
  have hsel := h.sel_nil (by simp [hp])
  rcases hs.read 9 with he | ⟨v, he, hr⟩ <;> simp only [desId, he] at hm
  · cases hm
    exact hs.desFail nofun hsel
  · split at hm
    · cases hm
      exact hr.desFail nofun hsel
    · unfold desLeafDone at hm
      split at hm
      · cases hm
        exact Steady.at { hr with } rfl rfl (fun _ => hphase) hsuff (fun _ => htree) nofun (fun _ => .inr rfl) (.inl hsel) nofun
      · split at hm
        · cases hm
        · split at hm <;> cases hm
          · exact Steady.desFail { hr with } nofun hsel
          · exact Steady.finish { hr with valid := fun _ => rfl, registers := nofun } hsel nofun (hlut ▸ hsuff)

/-- Every move keeps the state coherent. -/
theorem move_coherent (hm : move s = .next t) : t.Coherent := by
  cases hp : s.seq.pos with
  | none => simp [move, hp] at hm
  | enter b => exact enterBody_coherent h hb hp (by simpa only [move, hp] using hm)
  | peekRead => exact peekRead_coherent h hb hp (by simpa only [move, hp] using hm)
  | restartSource =>
    have hin : InBody .restart s := h.inBody hb hp rfl rfl rfl
    simp only [move, hp, restartRun] at hm
    cases hm
    exact InBody.ends (b := .restart) { hin with source := Nat.zero_le _ } hin.enough
  | countRead counted => exact countRead_coherent h hb hp (by simpa only [move, hp] using hm)
  | buildMerge leaves next => exact buildMerge_coherent h hb hp (by simpa only [move, hp] using hm)
  | genlutVisit => exact genlutVisit_coherent h hb hp (by simpa only [move, hp] using hm)
  | headerWrite =>
    have hin : InBody .header s := h.inBody hb hp rfl rfl rfl
    simp only [move, hp, headerWrite] at hm
    cases hm
    exact InBody.ends (b := .header) { hin with wrBits := List.mem_cons_self } hin.enough
  | serVisit => exact serVisit_coherent h hb hp (by simpa only [move, hp] using hm)
  | serId v => exact serId_coherent h hb hp (by simpa only [move, hp] using hm)
  | encRead => exact encRead_coherent h hb hp (by simpa only [move, hp] using hm)
  | encEmit rest last => exact encEmit_coherent h hb hp (by simpa only [move, hp] using hm)
  | magicRead => exact magicRead_coherent h hb hp (by simpa only [move, hp] using hm)
  | desBit nleaf => exact desBit_coherent h hb hp (by simpa only [move, hp] using hm)
  | desId nleaf i => exact desId_coherent h hb hp (by simpa only [move, hp] using hm)
  | decRead => exact decRead_coherent h hb hp (by simpa only [move, hp] using hm)
  | decWrite => exact decWrite_coherent h hb hp (by simpa only [move, hp] using hm)
  | clearRun =>
    have hin : InBody .clear s := h.inBody hb hp rfl rfl rfl
    simp only [move, hp, clearRun] at hm
    cases hm
    exact Steady.finish { hin.toSteady.dropTree with freq := freq_zero_lt _ } hin.sel (fun _ => rfl) hin.enough

end

theorem settle_coherent {s t : State} (h : s.Coherent) (hm : settle s = .next t) : t.Coherent :=
  drive_keeps (fun _ _ hh hs hmove => move_coherent hs (busy_of_not_halted hh) hmove) hm h

end Sys2Proof.Machine

/-! SUPPORT. Every step keeps the state coherent: command words (40_lifecycle.md R150 to R153), accesses, reset and the agents
(70_reset_and_hazards.md section 1). -/

namespace Sys2Proof.Machine

/-! ### Command words -/

/-- Acceptance of a command while none runs (R150). -/
theorem State.Coherent.dispatched_steady {s : State} (h : s.Coherent) (hr : s.rstN = true) (i : Instr) (b : Body)
    (bs : List Body) : Steady (dispatched i b bs s) := by
  obtain ⟨_, ⟨hvalid, _, _, _, hregs⟩, ⟨_, _, hsrc, _, _, hwidth, hfreq⟩⟩ := h
  exact ⟨rfl, rfl, rfl, rfl, rfl, hvalid, fun ht => ⟨(hregs ht).1, (hregs ht).2.1⟩, hsrc, hr, List.mem_singleton_self _,
    List.mem_singleton_self _, List.mem_singleton_self _, hwidth, hfreq⟩

section
variable {s : State} (h : s.Coherent) (hb : s.status.busy = false)
include h hb

theorem State.Coherent.idle : s.seq = Seq.idle := h.1.1 hb

theorem State.Coherent.idle_sel : s.sel = [] := h.sel_nil (by simp [h.idle hb, Seq.idle])

theorem State.Coherent.idle_nodeCount : s.status.treeValid = false → s.nodeCount = 0#10 :=
  h.nodeCount_zero (by simp [h.idle hb, Seq.idle, Pos.deserializing])

end

theorem treeValid_of_fails {s : State} (h : Precondition.tree.fails s = none) : s.status.treeValid = true := by
  simpa [Precondition.fails] using h

theorem lutValid_of_fails {s : State} (h : Precondition.lut.fails s = none) : s.status.lutValid = true := by
  simpa [Precondition.fails] using h

/-- A command whose precondition holds finds the tables that its bodies read, now or when they come to it (R153). -/
theorem commandOf_enough {i : Instr} {s : State} (h : (commandOf i).1.fails s = none) :
    tablesSuffice s.status.treeValid s.status.lutValid (bodiesOf i) = true := by
  cases i with
  | genlut | serialize | decode => rw [treeValid_of_fails h]; rfl
  | encode => rw [lutValid_of_fails h]; rfl
  | _ => rfl

theorem exec_coherent {s t : State} {i : Instr} (h : s.Coherent) (hr : s.rstN = true) (hexec : exec i s = .next t) :
    t.Coherent := by
  rw [exec_eq] at hexec
  cases hb : s.status.busy with
  | true =>
    rw [runCommand_busy hb] at hexec
    exact settle_coherent (s := discard s) h hexec
  | false =>
    have hs := h.dispatched_steady hr i (commandOf i).2.1 (commandOf i).2.2
    have hsel := h.idle_sel hb
    have hn := h.idle_nodeCount hb
    cases hp : (commandOf i).1.fails s with
    | some e =>
      rw [runCommand_fails hb hp] at hexec
      cases hexec
      exact hs.raise (fails_ne_none hp) hsel hn
    | none =>
      rw [runCommand_runs hb hp] at hexec
      exact settle_coherent (hs.at (p := .enter (commandOf i).2.1) rfl rfl nofun (commandOf_enough hp) nofun nofun
        (fun ht => .inl (hn ht)) (.inl hsel) nofun) hexec

theorem runWord_coherent {s t : State} {w : Word} (h : s.Coherent) (hr : s.rstN = true) (hm : runWord w s = .next t) :
    t.Coherent := by
  cases hd : decode w with
  | ok i =>
    rw [runWord_ok hd] at hm
    exact exec_coherent h hr hm
  | error e =>
    rw [runWord_error hd] at hm
    cases hb : s.status.busy with
    | true =>
      rw [illegalCommand_busy hb] at hm
      exact settle_coherent (s := discard s) h hm
    | false =>
      rw [illegalCommand_idle hb] at hm
      cases hm
      have hs := h.dispatched_steady hr .clear .clear []
      exact Steady.raise (s := { dispatched .clear .clear [] s with
        status := { (dispatched .clear .clear [] s).status with lastOp := w.extractLsb' 0 8 } }) { hs with } nofun
        (h.idle_sel hb) (h.idle_nodeCount hb)

/-! ### Every other event -/

theorem csrWrite_coherent {s : State} (r : Csr) (v : Word) (h : s.Coherent) (hr : s.rstN = true) : (csrWrite r v s).Coherent := by
  by_cases hw : r ∈ Csr.writable
  · obtain ⟨hstatus, htree, hsel, hemit, hsrc, hpin, hcounters, hwidth, hfreq⟩ := h
    cases r with
    | ctrl | freqIdx | lutIdx | nodeIdx => exact ⟨hstatus, htree, hsel, hemit, hsrc, hpin, hcounters, hwidth, hfreq⟩
    | irq =>
      exact ⟨hstatus, htree, hsel, hemit, hsrc, fun hr' => absurd (hr'.symm.trans hr) Bool.false_ne_true, hcounters, hwidth, hfreq⟩
    | freqData =>
      simp only [csrWrite]
      split
      · exact ⟨hstatus, htree, hsel, hemit, hsrc, hpin, hcounters, hwidth, hfreq⟩
      · refine ⟨hstatus, htree, hsel, hemit, hsrc, hpin, hcounters, hwidth, fun b => ?_⟩
        show (freqAt (setFreq s.freq _ _) b).toNat < _
        rw [freqAt_setFreq]
        split
        · exact countOfWord_lt _ _
        · exact hfreq b
    | _ => exact absurd hw (by simp [Csr.writable])
  · rwa [csrWrite_of_not_writable hw]

theorem busAccess_coherent {s : State} (a : Access) (h : s.Coherent) : (busAccess a s).Coherent := by
  unfold busAccess
  split
  next hr =>
    split
    · exact h
    next r _ =>
      split
      · exact csrWrite_coherent r a.data h hr
      · obtain ⟨d, hd⟩ := csrRead_snd r s
        rw [hd]
        exact h
  · exact h

/-- Settles O56: no command is in progress, nothing is valid, and every table and counter is empty. -/
theorem resetStateIsCoherent : Obligations.ResetStateIsCoherent :=
  ⟨⟨fun _ => rfl, nofun, nofun, ⟨fun _ => rfl, fun _ => rfl⟩, fun _ _ => rfl, nofun⟩,
    ⟨nofun, nofun, nofun, rfl, fun _ => ⟨rfl, rfl, .inl rfl⟩⟩,
    ⟨.inl rfl, nofun, Nat.zero_le _, nofun,
      ⟨List.mem_singleton_self _, List.mem_singleton_self _, List.mem_singleton_self _⟩, by decide, freq_zero_lt _⟩⟩

/-- A reset gives every register its reset value and leaves the source inside its bits and CNT_W alone (R301, R302). -/
theorem blockReset_coherent {s : State} (level : Bool) (h : s.Coherent) : (blockReset level s).Coherent := by
  obtain ⟨_, _, _, _, hsrc, _, _, hwidth, _⟩ := h
  obtain ⟨hstatus, htree, hsel, hemit, _, _, hcounters, _, _⟩ := resetStateIsCoherent
  exact ⟨hstatus, htree, hsel, hemit, hsrc, fun _ => ⟨rfl, rfl, rfl⟩, hcounters, hwidth, freq_zero_lt _⟩

theorem resetPin_coherent {s : State} (level : Bool) (h : s.Coherent) : (resetPin level s).Coherent := by
  unfold resetPin
  split
  · exact h
  · exact blockReset_coherent level h

/-- The source may change as long as its cursor stays inside its bits (R53). -/
theorem State.Coherent.source {s : State} (h : s.Coherent) {r : Source} (hr : r.pos ≤ r.bits.length) :
    State.Coherent { s with src := r } := by
  obtain ⟨hstatus, htree, hsel, hemit, _, hrest⟩ := h
  exact ⟨hstatus, htree, hsel, hemit, hr, hrest⟩

theorem State.Coherent.pos_le {s : State} (h : s.Coherent) : s.src.pos ≤ s.src.bits.length := by
  obtain ⟨_, _, _, _, hsrc, _⟩ := h
  exact hsrc

theorem foreignUse_coherent {s : State} (u : StreamUse) (h : s.Coherent) : (foreignUse u s).Coherent := by
  cases u with
  | readSource n =>
    refine h.source ?_
    unfold Source.read
    split
    next hle => exact hle
    next => exact h.pos_le
  | restartSource => exact h.source (Nat.zero_le _)
  | writeSink bits => exact h

theorem serve_coherent {e : Event} {s t : State} (h : s.Coherent) (hm : serve e s = .next t) : t.Coherent := by
  cases e with
  | access a => cases hm; exact busAccess_coherent a h
  | rst level => cases hm; exact resetPin_coherent level h
  | sourceReady b => cases hm; exact h.source h.pos_le
  | sourceChanges bits => cases hm; exact h.source (Nat.min_le_right _ _)
  | sinkReady | pace => cases hm; exact h
  | attach bits pos => rw [exclusive_eq_next hm]; exact h.source (Nat.min_le_right _ _)
  | foreign u => rw [exclusive_eq_next hm]; exact foreignUse_coherent u h

theorem command_rstN {e : Event} {s : State} {w : Word} (h : e.command s = some w) : s.rstN = true := by
  cases e with
  | access a =>
    cases hr : s.rstN with
    | true => rfl
    | false => simp [Event.command, Access.command, hr] at h
  | _ => cases h

theorem thenSettle_eq_next {r : Result} {t : State} (h : thenSettle r = .next t) : ∃ u, r = .next u ∧ settle u = .next t := by
  cases r with
  | next u => exact ⟨u, rfl, h⟩
  | fault | refused => cases h

/-- What one step can do: its moves alone, a word taken from the bus, or another event and then its moves. -/
theorem step_cases {s t : State} (h : step s = .next t) :
    (s.pending = [] ∧ settle s = .next t)
      ∨ ∃ e es, s.pending = e :: es
        ∧ ((∃ w, e.command s = some w ∧ runWord w (respond .done { s with pending := es }) = .next t)
          ∨ e.command s = none ∧ ∃ u, serve e { s with pending := es } = .next u ∧ settle u = .next t) := by
  unfold step at h
  split at h
  next hp => exact .inl ⟨hp, h⟩
  next e es hp =>
    refine .inr ⟨e, es, hp, ?_⟩
    split at h
    next w hw => exact .inl ⟨w, hw, h⟩
    next hw => exact .inr ⟨hw, thenSettle_eq_next h⟩

/-- Settles O55: a word, another event, and every move after it keep the state coherent. -/
theorem everyStepKeepsTheStateCoherent : Obligations.EveryStepKeepsTheStateCoherent := by
  intro s t h hm
  rcases step_cases hm with ⟨_, hs⟩ | ⟨e, es, _, ⟨w, hw, hrun⟩ | ⟨_, u, hserve, hs⟩⟩
  · exact settle_coherent h hs
  · exact runWord_coherent (s := respond .done { s with pending := es }) h (command_rstN hw) hrun
  · exact settle_coherent (serve_coherent (s := { s with pending := es }) h hserve) hs

/-! ### Activity (20_memory.md R83, 60_exceptions.md R295) -/

/-- Settles O24: no other event sets BUSY, and without BUSY there is no move. -/
theorem onlyACommandWriteStartsActivity : Obligations.OnlyACommandWriteStartsActivity := by
  constructor
  · intro s hp hb
    rw [step, hp]
    exact settle_idle hb
  · intro s t e es hp hw hb hm
    rcases step_cases hm with ⟨hp', _⟩ | ⟨e', es', hp', ⟨w, hw', _⟩ | ⟨_, u, hserve, hs⟩⟩
    · rw [hp] at hp'
      cases hp'
    · rw [hp] at hp'
      cases hp'
      rw [hw] at hw'
      cases hw'
    · obtain ⟨_, hbusy⟩ := serve_setsNeither hserve
      have hidle : u.status.busy = false := Bool.eq_false_iff.mpr fun hu => Bool.false_ne_true (hb.symm.trans (hbusy hu))
      rw [settle_idle hidle] at hs
      cases hs
      exact hidle

/-! ### Pace (70_reset_and_hazards.md R320) -/

theorem drive_kept {n : Nat} {s t : State} (h : drive n s = .next t) : Kept s t :=
  drive_keeps (fun _ _ _ hk hm => hk.trans (move_moved hm).1) h (Kept.refl s)

/-- The events that set one pace after another, and at last none. -/
def paceEvents (ps : List Nat) : List Event := (ps.map fun q => Event.pace (some q)) ++ [.pace none]

/-- A step that sets the pace. -/
theorem step_pace (r : Option Response) (es : List Event) (q q' : Option Nat) (o : Bool) (s : State) :
    step (aside r (.pace q' :: es) q o s)
      = mapNext (aside r es q' o) (drive (q'.getD (2 * s.src.bits.length + 4096)) s) :=
  drive_aside r es q' o _ s

/-- Whatever the paces, the steps that set them make the moves that end the command (R320). -/
theorem run_paceEvents (r : Option Response) (o : Bool) {t : State} (ht : t.status.busy = false) (ps : List Nat) :
    ∀ (q : Option Nat) (s : State), drive (2 * s.src.bits.length + 4096) s = .next t →
      Host.Core.run Sys2Proof.core (ps.length + 1) (aside r (paceEvents ps) q o s) = .next (aside r [] none o t) := by
  induction ps with
  | nil =>
    intro q s h
    have hstep : step (aside r [.pace none] q o s) = .next (aside r [] none o t) :=
      (step_pace r [] q none o s).trans (congrArg _ h)
    exact (run_next hstep).trans rfl
  | cons p ps ih =>
    intro q s h
    obtain ⟨u, hu, hut⟩ := drive_cut p h ht
    have hstep : step (aside r (paceEvents (p :: ps)) q o s) = .next (aside r (paceEvents ps) (some p) o u) :=
      (step_pace r (paceEvents ps) q (some p) o s).trans (congrArg _ hu)
    obtain ⟨_, _, ⟨hbits, _⟩, _⟩ := drive_kept hu
    rw [← hbits] at hut
    exact (run_next hstep).trans (ih (some p) u hut)

/-- Settles O25: the moves of the first step and those of the steps after it are the moves of the one step (R320). -/
theorem paceDoesNotMatter : Obligations.PaceDoesNotMatter := by
  intro s t i p ps hq hexec ht
  have htEnd : aside s.response [] none false t = { t with pending := [] } := by
    obtain ⟨_, hovr, _⟩ := statusAfterCommandIsItsOwn s t i hq.1 hexec
    obtain ⟨_, _, _, _, _, hresp, _, hpace, _⟩ := noCommandTouchesTheHostsState s t i hexec
    rw [← hresp, ← hovr, ← hq.2.2.2, ← hpace]
    rfl
  rw [← htEnd]
  suffices h : ∃ v, exec i { s with pace := some p, pending := paceEvents ps }
        = .next (aside s.response (paceEvents ps) (some p) false v)
      ∧ drive (2 * v.src.bits.length + 4096) v = .next t by
    obtain ⟨v, hv, hdrive⟩ := h
    exact ⟨_, hv, run_paceEvents s.response false ht ps (some p) v hdrive⟩
  rw [exec_eq] at hexec ⊢
  cases hp : (commandOf i).1.fails s with
  | some e =>
    rw [runCommand_fails hq.1 hp] at hexec
    cases hexec
    exact ⟨raise e (accept i.opcode s), runCommand_fails (s := { s with pace := some p, pending := paceEvents ps }) hq.1 hp,
      drive_halted (halted_of_not_busy ht)⟩
  | none =>
    rw [runCommand_runs hq.1 hp] at hexec
    have hpace : settle (dispatched i (commandOf i).2.1 (commandOf i).2.2 s)
        = drive (2 * s.src.bits.length + 4096) (dispatched i (commandOf i).2.1 (commandOf i).2.2 s) := by
      rw [settle, State.quantum, show (dispatched i (commandOf i).2.1 (commandOf i).2.2 s).pace = none from hq.2.2.2]
      rfl
    rw [hpace] at hexec
    obtain ⟨v, hv, hdrive⟩ := drive_cut p hexec ht
    obtain ⟨_, _, ⟨hbits, _⟩, _⟩ := drive_kept hv
    refine ⟨v, ?_, by rw [hbits]; exact hdrive⟩
    rw [runCommand_runs (s := { s with pace := some p, pending := paceEvents ps }) hq.1 hp]
    exact (drive_aside s.response (paceEvents ps) (some p) false p _).trans (congrArg _ hv)

end Sys2Proof.Machine

/-! SUPPORT. The nodes of a built tree (42_build.md R181, R183, R184, R188). -/

namespace Sys2Proof.Machine

theorem buildEnd_leafCount {s : State} : (buildEnd s).leafCount.toNat = (buildLeaves s.freq).length :=
  sym_toNat (Nat.lt_of_le_of_lt (buildLeaves_length_le s.freq) (by decide))

theorem buildEnd_nodeCount {s : State} : (buildEnd s).nodeCount.toNat = 2 * (buildLeaves s.freq).length - 1 :=
  idx_toNat (by have := buildLeaves_length_le s.freq; omega)

/-! ### The leaves, in order (R181) -/

/-- The leaves stand in ascending order of their symbols (R181). -/
theorem leafSyms_pairwise (freq : Vector Count 256) : (leafSyms freq).Pairwise (· < ·) := by
  rw [leafSyms, buildLeaves, List.map_append, byteLeaves_eq, List.pairwise_append]
  refine ⟨?_, List.pairwise_singleton _ _, ?_⟩
  · rw [List.pairwise_map]
    refine (List.pairwise_lt_range.filter _).imp_of_mem fun {a b} ha hb hab => ?_
    have ha' : a < 256 := List.mem_range.mp (List.mem_filter.mp ha).1
    have hb' : b < 256 := List.mem_range.mp (List.mem_filter.mp hb).1
    rw [BitVec.lt_def, sym_toNat (by omega), sym_toNat (by omega)]
    exact hab
  · intro v hv w hw
    obtain ⟨k, hk, rfl⟩ := List.mem_map.mp hv
    obtain rfl := List.mem_singleton.mp (by simpa using hw)
    have hk' : k < 256 := List.mem_range.mp (List.mem_filter.mp hk).1
    rw [BitVec.lt_def]
    show (BitVec.ofNat 9 k).toNat < 256
    rw [sym_toNat (by omega)]
    exact hk'

/-- A later leaf has the greater symbol (R181). -/
theorem buildLeaves_value_lt {freq : Vector Count 256} {j k : Nat} {nd nd' : Node} (hjk : j < k)
    (h : (buildLeaves freq)[j]? = some nd) (h' : (buildLeaves freq)[k]? = some nd') : nd.value < nd'.value := by
  obtain ⟨hj, rfl⟩ := List.getElem?_eq_some_iff.mp h
  obtain ⟨hk, rfl⟩ := List.getElem?_eq_some_iff.mp h'
  exact List.pairwise_iff_getElem.mp (List.pairwise_map.mp (leafSyms_pairwise freq)) j k hj hk hjk

/-- The sentinel's leaf is the last one, and the only one of its value (R181). -/
theorem buildLeaves_value_eos_iff {freq : Vector Count 256} {k : Nat} {nd : Node} (h : (buildLeaves freq)[k]? = some nd) :
    nd.value = Config.eos ↔ k + 1 = (buildLeaves freq).length := by
  obtain ⟨hk, _⟩ := List.getElem?_eq_some_iff.mp h
  rw [buildLeaves_length] at hk ⊢
  by_cases hbyte : k < (byteLeaves freq).length
  case pos =>
    rw [buildLeaves, List.getElem?_append_left hbyte] at h
    obtain ⟨b, _, rfl⟩ := mem_byteLeaves.mp (List.mem_of_getElem? h)
    exact ⟨fun he => absurd he (byte_ne_eos b), fun he => by omega⟩
  case neg =>
    obtain rfl : k = (byteLeaves freq).length := by omega
    rw [buildLeaves, List.getElem?_concat_length] at h
    cases h
    exact ⟨fun _ => rfl, fun _ => rfl⟩

/-! ### The root's weight (R184) -/

theorem symWeight_byte (freq : Vector Count 256) {k : Nat} (hk : k < 256) :
    symWeight freq (BitVec.ofNat 9 k) = (freqAt freq (BitVec.ofNat 8 k)).toNat := by
  have hbyte : BitVec.ofNat 9 k = (BitVec.ofNat 8 k).setWidth 9 := by
    apply BitVec.eq_of_toNat_eq
    simp
    omega
  rw [hbyte, symWeight, if_neg (byte_ne_eos _), byte_setWidth]

/-- Bytes without a count add nothing. -/
theorem sum_filter_freq (freq : Vector Count 256) (ks : List Nat) :
    ((ks.filter fun k => freqAt freq (BitVec.ofNat 8 k) ≠ 0).map fun k => (freqAt freq (BitVec.ofNat 8 k)).toNat).sum
      = (ks.map fun k => (freqAt freq (BitVec.ofNat 8 k)).toNat).sum := by
  induction ks with
  | nil => rfl
  | cons k ks ih =>
    by_cases hk : freqAt freq (BitVec.ofNat 8 k) = 0
    · rw [List.filter_cons_of_neg (by simpa using hk), ih, List.map_cons, List.sum_cons, hk]
      exact (Nat.zero_add _).symm
    · rw [List.filter_cons_of_pos (by simpa using hk), List.map_cons, List.map_cons, List.sum_cons, List.sum_cons, ih]

/-- The leaves weigh the sentinel's 1 and all counts together (R184). -/
theorem sum_leafSyms (freq : Vector Count 256) : ((leafSyms freq).map (symWeight freq)).sum
    = 1 + ((List.range 256).map fun k => (freqAt freq (BitVec.ofNat 8 k)).toNat).sum := by
  rw [leafSyms, buildLeaves, List.map_append, byteLeaves_eq, List.map_append, List.map_map, List.sum_append, Nat.add_comm,
    ← sum_filter_freq]
  congr 2
  refine List.map_congr_left fun k hk => ?_
  exact symWeight_byte freq (List.mem_range.mp (List.mem_filter.mp hk).1)

/-- Settles O34: what the loop's invariant says of the nodes. -/
theorem buildNodes : Obligations.BuildNodes := by
  intro s hq hcount
  obtain ⟨hexec, p, hinv⟩ := exec_build hq hcount
  refine ⟨buildEnd s, hexec, ?leaves, ?merged, ?root⟩
  case leaves =>
    intro i nd hi hnd
    rw [buildEnd_leafCount] at hi ⊢
    have hleaf := (hinv.leaves i hi).symm.trans hnd
    obtain ⟨hl, _, _, _, hw⟩ := buildLeaves_mem (List.mem_of_getElem? hleaf)
    refine ⟨hl, hw, buildLeaves_value_eos_iff hleaf, fun j nd' hij hj hnd' => ?_⟩
    exact buildLeaves_value_lt (BitVec.lt_def.mp hij) hleaf ((hinv.leaves j hj).symm.trans hnd')
  case merged =>
    intro i nd hi hlt hnd
    rw [buildEnd_leafCount] at hi
    rw [BitVec.lt_def, buildEnd_nodeCount] at hlt
    obtain ⟨nd', hnd', hl, hv, hleft, hright, _, l, r, hnl, hnr, hw, hle, htie⟩ := hinv.merged i hi hlt
    obtain rfl := Option.some.inj (hnd'.symm.trans hnd)
    exact ⟨hl, hv, BitVec.lt_def.mpr hleft, BitVec.lt_def.mpr hright, l, r, hnl, hnr, hw, hle, htie⟩
  case root =>
    obtain ⟨nd, hnd, hw⟩ := hinv.weight p (List.mem_singleton_self p)
    have hroot : p.1.idx = (buildEnd s).root := by
      rw [hinv.root, Nat.sub_sub]
      rfl
    have hperm : p.2.leaves.Perm (leafSyms s.freq) := by simpa using hinv.symbols
    refine ⟨nd, hroot ▸ hnd, ?_⟩
    rw [hw, hinv.sums p (List.mem_singleton_self p), (hperm.map _).sum_eq, sum_leafSyms]

/-! ### One byte value (R188) -/

theorem Tree.eq_leaf_of_leaves_length {t : Tree} (h : t.leaves.length = 1) : ∃ v, t = .leaf v := by
  cases t with
  | leaf v => exact ⟨v, rfl⟩
  | inner l r =>
    have := l.size_pos
    have := l.size_leaves
    have := r.size_pos
    have := r.size_leaves
    rw [Tree.leaves, List.length_append] at h
    omega

/-- A tree of two leaves. -/
theorem Tree.eq_inner_of_leaves_perm {t : Tree} {v w : Sym} (h : t.leaves.Perm [v, w]) :
    t = .inner (.leaf v) (.leaf w) ∨ t = .inner (.leaf w) (.leaf v) := by
  have hlen := h.length_eq
  cases t with
  | leaf u => simp [Tree.leaves] at hlen
  | inner l r =>
    have := l.size_pos
    have := l.size_leaves
    have := r.size_pos
    have := r.size_leaves
    rw [Tree.leaves, List.length_append, List.length_cons, List.length_singleton] at hlen
    obtain ⟨x, rfl⟩ := Tree.eq_leaf_of_leaves_length (t := l) (by omega)
    obtain ⟨y, rfl⟩ := Tree.eq_leaf_of_leaves_length (t := r) (by omega)
    have hxy : [x, y].Perm [v, w] := h
    rcases List.perm_pair.mp hxy.symm with hpair | hpair <;> cases hpair
    · exact .inl rfl
    · exact .inr rfl

/-- With one byte counted the leaves are its and the sentinel's (R181, R188). -/
theorem leafSyms_of_one {freq : Vector Count 256} {b : Byte} (hb : freqAt freq b ≠ 0#32)
    (h0 : ∀ c, c ≠ b → freqAt freq c = 0#32) : (leafSyms freq).Perm [b.setWidth 9, Config.eos] := by
  refine (List.perm_ext_iff_of_nodup (leafSyms_nodup freq) (by simpa using byte_ne_eos b)).mpr fun v => ?_
  rw [mem_leafSyms, List.mem_pair, or_comm]
  refine or_congr_left ⟨?_, fun hv => ⟨b, hb, hv⟩⟩
  rintro ⟨c, hc, rfl⟩
  rw [not_imp_comm.mp (h0 c) hc]

theorem symWeight_eos (freq : Vector Count 256) : symWeight freq Config.eos = 1 := rfl

theorem symWeight_setWidth (freq : Vector Count 256) (b : Byte) : symWeight freq (b.setWidth 9) = (freqAt freq b).toNat := by
  rw [symWeight, if_neg (byte_ne_eos b), byte_setWidth]

/-- The lighter of the two leaves is on the left, and under STABLE_INDEX the sentinel, the later one, on the right among equals
(R183, R188). -/
theorem buildEnd_two_leaves {s : State} {v w : Sym} (hq : s.Quiet) (hcount : ∃ b, freqAt s.freq b ≠ 0#32)
    (hL : (buildLeaves s.freq).length = 2) (ht : (buildEnd s).HoldsTree (.inner (.leaf v) (.leaf w))) :
    symWeight s.freq v ≤ symWeight s.freq w
      ∧ (s.tieOrder = .stableIndex → symWeight s.freq v = symWeight s.freq w → v ≠ Config.eos) := by
  obtain ⟨t, hexec, hleaves, hmerged, _⟩ := buildNodes s hq hcount
  obtain rfl : t = buildEnd s := Host.Outcome.next.inj (hexec.symm.trans (exec_build hq hcount).1)
  have hlc : (buildEnd s).leafCount.toNat = 2 := buildEnd_leafCount.trans hL
  have hnc : (buildEnd s).nodeCount.toNat = 3 := buildEnd_nodeCount.trans (by rw [hL])
  have hroot : (buildEnd s).root.toNat = 2 := (idx_toNat (by rw [hL]; decide)).trans (by rw [hL])
  obtain ⟨_, ⟨nd, hnd, _, ⟨l, hl, _, rfl⟩, ⟨r, hr, _, rfl⟩⟩, _⟩ := ht
  obtain ⟨_, _, hleft, hright, l', r', hl', hr', _, hle, htie⟩ :=
    hmerged _ nd (by omega) (BitVec.lt_def.mpr (by omega)) hnd
  obtain rfl := Option.some.inj (hl.symm.trans hl')
  obtain rfl := Option.some.inj (hr.symm.trans hr')
  rw [BitVec.lt_def, hroot] at hleft hright
  obtain ⟨_, hwl, heos, _⟩ := hleaves _ l (by omega) hl
  obtain ⟨_, hwr, _⟩ := hleaves _ r (by omega) hr
  rw [← hwl, ← hwr]
  refine ⟨BitVec.le_def.mp hle, fun ho hw hv => ?_⟩
  have hlt := BitVec.lt_def.mp (htie ho (BitVec.eq_of_toNat_eq hw))
  have hlast := heos.mp hv
  omega

/-- Settles O35: the tree has the two leaves, in the order that their weights and indices give them. -/
theorem buildOfOneByteValue : Obligations.BuildOfOneByteValue := by
  intro s b hq hb h0
  obtain ⟨hexec, p, hinv⟩ := exec_build hq ⟨b, hb⟩
  have hleaves := leafSyms_of_one hb h0
  have hL : (buildLeaves s.freq).length = 2 := by
    have := hleaves.length_eq
    rwa [leafSyms, List.length_map] at this
  obtain ⟨_, _, _, hperm, _⟩ := hinv.holdsTree (by omega)
  have ht := hinv.holdsTree_buildEnd (by omega)
  have hpos : 1 ≤ (freqAt s.freq b).toNat := by
    have : (freqAt s.freq b).toNat ≠ 0 := fun h => hb (BitVec.eq_of_toNat_eq h)
    omega
  have hone : (freqAt s.freq b).toNat = 1 → freqAt s.freq b = 1#32 := fun h => BitVec.eq_of_toNat_eq h
  refine ⟨buildEnd s, p.2, hexec, ht, BitVec.eq_of_toNat_eq (buildEnd_leafCount.trans hL),
    BitVec.eq_of_toNat_eq (buildEnd_nodeCount.trans (by rw [hL]; rfl)),
    BitVec.eq_of_toNat_eq ((idx_toNat (by rw [hL]; decide)).trans (by rw [hL]; rfl)), ?_⟩
  rcases Tree.eq_inner_of_leaves_perm (hperm.trans hleaves) with htree | htree <;> rw [htree] at ht ⊢
  · obtain ⟨hle, _⟩ := buildEnd_two_leaves hq ⟨b, hb⟩ hL ht
    rw [symWeight_setWidth, symWeight_eos] at hle
    exact ⟨.inl rfl, fun hne => absurd (hone (by omega)) hne, fun _ _ => rfl⟩
  · obtain ⟨_, htie⟩ := buildEnd_two_leaves hq ⟨b, hb⟩ hL ht
    refine ⟨.inr rfl, fun _ => rfl, fun ho h1 => absurd rfl (htie ho ?_)⟩
    rw [symWeight_setWidth, symWeight_eos, h1]
    rfl

end Sys2Proof.Machine


/-! SUPPORT. What reads and writes of the registers show and change: STATUS, the index registers, the FREQ and NODE windows, and
reads while a command runs (10_state.md sections 2 and 3, R83, R309). -/

namespace Sys2Proof.Machine

/-! ### The NODE window (R41, R44) -/

theorem infoWord_fields (nd : Node) :
    nd.infoWord.extractLsb' 0 9 = nd.value ∧ nd.infoWord.getLsbD 9 = nd.leaf ∧ nd.infoWord.extractLsb' 10 21 = 0#21
    ∧ nd.infoWord.getLsbD 31 = true := by
  simp (disch := decide) only [Node.infoWord, BitVec.getLsbD_append, BitVec.extractLsb'_append_eq_of_le,
    BitVec.extractLsb'_append_eq_of_add_le]
  simp [BitVec.extractLsb'_eq_self]

theorem childWord_fields (nd : Node) :
    nd.childWord.extractLsb' 0 10 = nd.left ∧ nd.childWord.extractLsb' 10 6 = 0#6
    ∧ nd.childWord.extractLsb' 16 10 = nd.right ∧ nd.childWord.extractLsb' 26 6 = 0#6 := by
  simp (disch := decide) only [Node.childWord, BitVec.extractLsb'_append_eq_of_le,
    BitVec.extractLsb'_append_eq_of_add_le]
  simp [BitVec.extractLsb'_eq_self]

theorem wloWord_eq (nd : Node) : nd.wloWord = nd.weight.extractLsb' 0 32 :=
  BitVec.setWidth_eq_extractLsb' (by decide)

theorem whiWord_eq (nd : Node) : nd.whiWord = (nd.weight.extractLsb' 32 9).setWidth 32 := by
  refine BitVec.eq_of_getLsbD_eq fun i hi => ?_
  by_cases h9 : i < 9
  · simp [Node.whiWord, h9]
  · have hge : 41 ≤ 32 + i := by omega
    simp [Node.whiWord, h9, BitVec.getLsbD_of_ge nd.weight _ hge]

theorem windowNode_of_valid {s : State} (hv : s.status.treeValid = true) (hi : s.nodeIdx < s.nodeCount) :
    windowNode s = nodeAt s.node s.nodeIdx := by
  simp [windowNode, hv, hi]

theorem windowNode_eq_none {s : State} (h : s.status.treeValid = false ∨ s.nodeCount ≤ s.nodeIdx) :
    windowNode s = none := by
  rcases h with hv | hi
  · simp [windowNode, hv]
  · have hlt : ¬ s.nodeIdx < s.nodeCount := BitVec.not_lt.mpr hi
    simp [windowNode, hlt]

theorem nodeWindow_of_node {s : State} {nd : Node} (h : windowNode s = some nd) (f : Node → Word) :
    nodeWindow f s = f nd := by
  simp [nodeWindow, h]

theorem nodeWindow_of_none {s : State} (h : windowNode s = none) (f : Node → Word) : nodeWindow f s = 0#32 := by
  simp [nodeWindow, h]

/-- While no command runs the four registers of the NODE window show the selected entry's four words. -/
theorem csrRead_nodeWindow_idle {s : State} (h : s.status.busy = false) :
    (csrRead .nodeInfo s).1 = nodeWindow Node.infoWord s ∧ (csrRead .nodeChild s).1 = nodeWindow Node.childWord s
    ∧ (csrRead .nodeWlo s).1 = nodeWindow Node.wloWord s ∧ (csrRead .nodeWhi s).1 = nodeWindow Node.whiWord s := by
  have hread (f : Node → Word) : (readWindow (nodeWindow f s) s).1 = nodeWindow f s := by rw [readWindow_idle _ h]
  exact ⟨hread _, hread _, hread _, hread _⟩

/-- Settles O19: the four registers show the words of the selected entry, whose fields are packed side by side. -/
theorem nodeWindowShowsTheEntry : Obligations.NodeWindowShowsTheEntry := by
  intro s hbusy
  obtain ⟨hinfo, hchild, hwlo, hwhi⟩ := csrRead_nodeWindow_idle hbusy
  rw [hinfo, hchild, hwlo, hwhi]
  constructor
  · intro nd hvalid hidx hnode
    have hw : windowNode s = some nd := (windowNode_of_valid hvalid hidx).trans hnode
    obtain ⟨hvalue, hleaf, hzero, hone⟩ := infoWord_fields nd
    obtain ⟨hleft, hz1, hright, hz2⟩ := childWord_fields nd
    simp only [nodeWindow_of_node hw]
    exact ⟨hvalue, hleaf, hzero, hone, hleft, hz1, hright, hz2, wloWord_eq nd, whiWord_eq nd⟩
  · intro hnone
    have hw : windowNode s = none := windowNode_eq_none hnone
    exact ⟨nodeWindow_of_none hw _, nodeWindow_of_none hw _, nodeWindow_of_none hw _, nodeWindow_of_none hw _⟩

/-! ### STATUS and the counters (R25, R27, R34 to R37, R271) -/

theorem Status.pack_flags (f : Status) :
    f.pack.getLsbD 0 = f.busy ∧ f.pack.getLsbD 1 = f.done ∧ f.pack.getLsbD 2 = f.error
    ∧ f.pack.getLsbD 3 = f.empty ∧ f.pack.getLsbD 4 = f.treeValid ∧ f.pack.getLsbD 5 = f.lutValid
    ∧ f.pack.getLsbD 6 = f.ovr ∧ f.pack.getLsbD 7 = false := by
  simp only [Status.pack, BitVec.getLsbD_append]
  simp

theorem Status.pack_fields (f : Status) :
    f.pack.extractLsb' 16 8 = f.lastOp ∧ f.pack.extractLsb' 24 8 = 0#8
    ∧ f.pack.extractLsb' 8 4 = f.errCode.code ∧ f.pack.extractLsb' 12 4 = f.phase.code := by
  simp (disch := decide) only [Status.pack, BitVec.extractLsb'_append_eq_of_le,
    BitVec.extractLsb'_append_eq_of_add_le]
  simp [BitVec.extractLsb'_eq_self]

theorem readCounter_idle {s : State} (c : Counter) (h : s.status.busy = false) : readCounter c s = (c.now, s) := by
  simp [readCounter, h]

/-- Settles O13: STATUS is its fields side by side, and the registers' reads answer what they hold. -/
theorem statusBits : Obligations.StatusBits := by
  refine ⟨fun f => ?_, fun s => ⟨rfl, rfl, rfl, rfl, fun hb => ?_⟩⟩
  · obtain ⟨h0, h1, h2, h3, h4, h5, h6, h7⟩ := f.pack_flags
    obtain ⟨hop, hzero, herr, hphase⟩ := f.pack_fields
    refine ⟨h0, h1, h2, h3, h4, h5, h6, h7, hop, hzero, herr.trans ?_, hphase.trans ?_⟩
    · cases f.errCode <;> rfl
    · cases f.phase <;> rfl
  · exact ⟨readCounter_idle _ hb, readCounter_idle _ hb, readCounter_idle _ hb⟩

/-! ### The index registers and the FREQ window (R31, R38, R39, R41) -/

/-- The low `n` bits of a word, read back zero-extended, are the word masked. -/
theorem setWidth_setWidth_eq_mask (n : Nat) (v : Word) :
    (v.setWidth n).setWidth 32 = v &&& BitVec.ofNat 32 (2 ^ n - 1) := by
  refine BitVec.eq_of_getLsbD_eq fun i hi => ?_
  rw [BitVec.getLsbD_and, BitVec.getLsbD_ofNat, Nat.testBit_two_pow_sub_one]
  simp [hi, Bool.and_comm]

theorem countOfWord_eq (w : Fin (Config.cntMax + 1)) (v : Word) :
    countOfWord w v = (v.extractLsb' 0 w.val).setWidth 32 :=
  congrArg (BitVec.setWidth 32) (BitVec.setWidth_eq_extractLsb' (Nat.le_of_lt_succ w.isLt))

theorem csrWrite_freqData_idle {s : State} (h : s.status.busy = false) (v : Word) :
    csrWrite .freqData v s = { s with freq := setFreq s.freq s.freqIdx (countOfWord s.cntW v) } := by
  simp [csrWrite, h]

theorem csrWrite_freqData_busy {s : State} (h : s.status.busy = true) (v : Word) : csrWrite .freqData v s = s := by
  simp [csrWrite, h]

theorem csrRead_freqData_idle {s : State} (h : s.status.busy = false) :
    csrRead .freqData s = (freqAt s.freq s.freqIdx, s) := by
  have hwidth : (freqAt s.freq s.freqIdx).setWidth 32 = freqAt s.freq s.freqIdx := BitVec.setWidth_eq _
  exact (readWindow_idle _ h).trans (congrArg (·, s) hwidth)

/-- Settles O17: an index register keeps the low bits of the word, and the entry written is the one FREQ_IDX selects. -/
theorem indexRegistersAndFreqWindow : Obligations.IndexRegistersAndFreqWindow := by
  intro s v
  have hlow {n : Nat} (hn : n ≤ 32) : v.setWidth n = v.extractLsb' 0 n := BitVec.setWidth_eq_extractLsb' hn
  refine ⟨rfl, ?_, ?_, ?_, ?_, setWidth_setWidth_eq_mask 8 v, setWidth_setWidth_eq_mask 9 v,
    setWidth_setWidth_eq_mask 10 v, fun hb => ⟨csrRead_freqData_idle hb, ?_⟩,
    fun hb => csrWrite_freqData_busy hb v⟩
  · exact congrArg (fun x => { s with freqIdx := x }) (hlow (by decide))
  · exact congrArg (fun x => { s with lutIdx := x }) (hlow (by decide))
  · exact congrArg (fun x => { s with nodeIdx := x }) (hlow (by decide))
  · have hbit : BitVec.ofBool (v.getLsbD 0) = v.setWidth 1 := by
      rw [hlow (by decide)]
      exact BitVec.eq_of_getLsbD_eq fun i hi => by simp [Nat.lt_one_iff.mp hi]
    exact (congrArg (BitVec.setWidth 32) hbit).trans (setWidth_setWidth_eq_mask 1 v)
  · refine ⟨_, csrWrite_freqData_idle hb v, fun b => ?_⟩
    rw [freqAt_setFreq, countOfWord_eq]

/-! ### Reads while a command runs (R83, R309) -/

/-- In reset no access reaches a register (R300). -/
theorem busAccess_in_reset {s : State} (a : Access) (h : s.rstN = false) : busAccess a s = respond resetResponse s := by
  simp [busAccess, h]

/-- Settles O16: an access answers and, if it reads a register, moves at most the count of free values. -/
theorem readsHaveNoSideEffect : Obligations.ReadsHaveNoSideEffect := by
  intro s a hw
  by_cases hr : s.rstN = true
  · cases ht : a.target with
    | none => exact ⟨.busError, s.draws, busAccess_of_no_target hr ht⟩
    | some r =>
      obtain ⟨d, hd⟩ := csrRead_snd r s
      refine ⟨.data (csrRead r s).1, d, ?_⟩
      rw [busAccess_read hr ht hw, hd]
      rfl
  · exact ⟨resetResponse, s.draws, busAccess_in_reset a (Bool.eq_false_iff.mpr hr)⟩

theorem readWindow_busy {s : State} (v : Word) (h : s.status.busy = true) :
    readWindow v s = (Config.freeWord s.draws, { s with draws := s.draws + 1 }) := by
  simp [readWindow, h, drawWord]

theorem readCounter_busy {s : State} (c : Counter) (h : s.status.busy = true) : readCounter c s = drawHeld c s := by
  simp [readCounter, h]

/-- A free choice among the values a counter held is one of them (U2). -/
theorem drawHeld_mem {c : Counter} (s : State) (h : c.now ∈ c.held) : (drawHeld c s).1 ∈ c.held := by
  have hlen : Config.freeIndex s.draws % c.held.length < c.held.length := Nat.mod_lt _ (List.length_pos_of_mem h)
  have hget : (drawHeld c s).1 = c.held[Config.freeIndex s.draws % c.held.length] :=
    (List.getElem_eq_getD _).symm
  exact hget ▸ List.getElem_mem hlen

/-- Settles O20: a window draws a free value and a counter draws among the values it held. -/
theorem readsWhileBusy : Obligations.ReadsWhileBusy := by
  intro s hb
  have hdraw {c : Counter} (hc : c.now ∈ c.held) : (readCounter c s).1 ∈ c.held :=
    (congrArg Prod.fst (readCounter_busy c hb)).symm ▸ drawHeld_mem s hc
  have hcount (c : Counter) : (readCounter c s).2 = { s with draws := s.draws + 1 } :=
    congrArg Prod.snd (readCounter_busy c hb)
  refine ⟨?_, hdraw, hdraw, hdraw, ?_⟩
  · intro r hr
    fin_cases hr <;> exact readWindow_busy _ hb
  · intro r hr
    fin_cases hr <;> exact hcount _

end Sys2Proof.Machine


/-! SUPPORT. Command words on their byte lanes (30_encoding.md section 1), acceptance (40_lifecycle.md R150, R153), the
interrupt flag (R32, R278), reset (70_reset_and_hazards.md section 1) and waiting for an agent (20_memory.md R93). -/

namespace Sys2Proof

/-- Settles O2: the opcode map is a finite table. -/
theorem opcodeMapWordsDecode : Obligations.OpcodeMapWordsDecode := by
  unfold Obligations.OpcodeMapWordsDecode
  decide

/-- The four byte lanes of a word are the word (R84). -/
theorem wordOfLanes_lanes (w : Word) :
    wordOfLanes (w.extractLsb' 0 8) (w.extractLsb' 8 8) (w.extractLsb' 16 8) (w.extractLsb' 24 8) = w := by
  unfold wordOfLanes
  rw [BitVec.extractLsb'_append_extractLsb'_eq_extractLsb' (by rfl),
    BitVec.extractLsb'_append_extractLsb'_eq_extractLsb' (by rfl),
    BitVec.extractLsb'_append_extractLsb'_eq_extractLsb' (by rfl), BitVec.extractLsb'_eq_self]

theorem legalWord_encode (i : Instr) : WellFormed.legalWord (encode i) = true := by
  cases i <;> decide

theorem wellFormed_instr (i : Instr) : WellFormed.instr i = true := by
  cases i <;> decide

/-- Settles O3: decoding inverts encoding, and a word's lanes put together are the word. -/
theorem encodeThenDecode : Obligations.EncodeThenDecode :=
  ⟨fun i => ⟨wellFormed_instr i, decode_encode i, legalWord_encode i⟩, fun w => congrArg decode (wordOfLanes_lanes w)⟩

end Sys2Proof

namespace Sys2Proof.Machine

/-! ### Taking a command (R150, R153, R154) -/

/-- Settles O4: the bus takes the word, and a legal word is run as its command. -/
theorem stepRunsTheDecodedCommand : Obligations.StepRunsTheDecodedCommand := fun _ es w _ hr hw =>
  (step_cmdWrite hr es w).trans (runWord_ok hw _)

/-- A command whose precondition holds passes the check (R153). -/
theorem fails_eq_none_of_ready {s : State} {i : Instr} (h : s.Ready i) : (commandOf i).1.fails s = none := by
  obtain ⟨htree, hlut⟩ := h
  cases i with
  | genlut | serialize | decode => simp [commandOf, Precondition.fails, htree]
  | encode => simp [commandOf, Precondition.fails, hlut]
  | _ => rfl

/-- A command whose precondition does not hold fails the check with its own error (R153). -/
theorem fails_of_not_ready {s : State} {i : Instr} (h : ¬ s.Ready i) :
    (commandOf i).1.fails s = some (if i = .encode then .noLut else .noTree) := by
  cases i with
  | genlut | serialize | decode =>
    have hv : s.status.treeValid = false := by simpa [State.Ready] using h
    simp [commandOf, Precondition.fails, hv]
  | encode =>
    have hv : s.status.lutValid = false := by simpa [State.Ready] using h
    simp [commandOf, Precondition.fails, hv]
  | _ => exact absurd ⟨by simp, by simp⟩ h

/-- With a pace of no moves the sequencer stays (R320). -/
theorem settle_of_pace_zero {s : State} (h : s.pace = some 0) : settle s = .next s := by
  simp [settle, State.quantum, h, drive]

/-- Settles O7: the check answers at once, or the command is dispatched and, with a pace of no moves, stands at its start. -/
theorem acceptanceAndPrecondition : Obligations.AcceptanceAndPrecondition := by
  intro s i hb
  constructor
  · intro hnot
    exact exec_fails hb (fails_of_not_ready hnot)
  · intro hready hpace
    refine ⟨{ op := some i, pos := .enter (commandOf i).2.1, rest := (commandOf i).2.2 }, rfl, ?_⟩
    rw [exec_eq, runCommand_runs hb (fails_eq_none_of_ready hready)]
    exact settle_of_pace_zero hpace

/-! ### The interrupt flag (R32, R278) -/

/-- The host's write of `v` to IRQ. -/
def irqWrite (v : Word) : Access := { write := true, offset := 0x01C#12, size := .bits32, data := v }

theorem step_irqWrite {s : State} (hr : s.rstN = true) (es : List Event) (v : Word) :
    step { s with pending := .access (irqWrite v) :: es }
      = settle (respond .done { { s with pend := s.pend && !v.getLsbD 0 } with pending := es }) := by
  have htarget : (irqWrite v).target = some .irq := ofOffset_offset .irq
  have hcommand : (irqWrite v).command s = none := by simp [Access.command, htarget]
  exact (step_access es hcommand).trans (congrArg settle (busAccess_write (s := { s with pending := es }) hr htarget rfl))

/-- Settles O12: a write of IRQ is a bus access that changes PEND alone, and the moves that follow do not see the bus. -/
theorem irqPendAndOutput : Obligations.IrqPendAndOutput := by
  have hwrite (s t : State) (es : List Event) (v : Word) (hr : s.rstN = true)
      (hs : settle { s with pend := s.pend && !v.getLsbD 0 } = .next t) :
      step { s with pending := .access (irqWrite v) :: es } = .next { t with response := some .done, pending := es } :=
    (step_irqWrite hr es v).trans (settle_respond .done es hs)
  refine ⟨fun s es v hr hb => hwrite s _ es v hr (settle_idle hb), hwrite, fun _ _ => rfl, fun s => ?_, fun s hr => ?_⟩
  · cases hp : s.pend <;> simp [csrRead, hp]
  · simp [State.irq, hr]

/-! ### Reset (R300 to R302) -/

/-- A level of `rst_n` that is 0 or ends a reset leaves the block at its reset values (R301). -/
theorem step_rst {s : State} (level : Bool) (es : List Event) (h : (level && s.rstN) = false) :
    step { s with pending := .rst level :: es } = .next (blockReset level { s with pending := es }) := by
  have hpin : resetPin level { s with pending := es } = blockReset level { s with pending := es } := by
    simp [resetPin, h]
  calc step { s with pending := .rst level :: es }
      = settle (resetPin level { s with pending := es }) := rfl
    _ = settle (blockReset level { s with pending := es }) := congrArg settle hpin
    _ = .next (blockReset level { s with pending := es }) := settle_idle rfl

/-- The reset values the host reads: the constants, and 0 elsewhere (R302). -/
theorem csrRead_reset : ∀ r ∈ Csr.all, (csrRead r State.reset).1 =
    if r = .id then 0x48554646#32 else if r = .param then 0x02010920#32 else if r = .magic then Config.magic else 0#32 := by
  have hfreq : freqAt State.reset.freq State.reset.freqIdx = 0#32 := freqAt_zero _
  intro r _
  cases r with
  | freqData => exact hfreq
  | _ => rfl

/-- Settles O21: a reset is an event after which no command runs, so the step ends with the reset values. -/
theorem resetValues : Obligations.ResetValues :=
  ⟨csrRead_reset, fun b => freqAt_zero b, rfl, rfl, rfl, rfl, rfl, fun s es =>
    ⟨step_rst false es rfl, fun hr => step_rst true es (by simp [hr])⟩⟩

theorem resetResponse_eq : resetResponse = .busError ∨ resetResponse = .noAnswer := by
  unfold resetResponse
  split
  · exact .inl rfl
  · exact .inr rfl

/-- Settles O22: in reset an access presents no command word and gets the reset response, and no command runs. -/
theorem nothingIsAnsweredInReset : Obligations.NothingIsAnsweredInReset := by
  intro s es a hr hb
  have hcommand : a.command s = none := by simp [Access.command, hr]
  refine ⟨by simp [State.irq, hr], resetResponse, resetResponse_eq, ?_⟩
  calc step { s with pending := .access a :: es }
      = settle (busAccess a { s with pending := es }) := step_access es hcommand
    _ = settle (respond resetResponse { s with pending := es }) := congrArg settle (busAccess_in_reset a hr)
    _ = .next { s with response := some resetResponse, pending := es } := settle_idle hb

/-! ### Waiting for an agent (R93) -/

theorem step_of_no_event {s : State} (h : s.pending = []) : step s = settle s := by
  simp only [step, h]

theorem settle_waiting {s : State} (h : s.waiting = true) : settle s = .next s :=
  drive_halted (by simp [State.halted, h])

/-- With a pace of one move a block that does not wait makes that move (R320). -/
theorem settle_of_pace_one {s : State} (hb : s.status.busy = true) (hp : s.pace = some 1) (h : s.waiting = false) :
    settle s = move s := by
  have hhalted : s.halted = false := by simp [State.halted, hb, h]
  have hdrive : settle s = drive 1 s := by simp [settle, State.quantum, hp]
  rw [hdrive]
  cases hm : move s with
  | next t => exact drive_moves hhalted hm
  | fault f => simp [drive, hhalted, hm]
  | refused f => simp [drive, hhalted, hm]

/-- Settles O23: whether the block waits is read off its request and the agent of that request. -/
theorem silentAgentMakesTheBlockWait : Obligations.SilentAgentMakesTheBlockWait := by
  intro s hpending hb
  have hstay (h : s.waiting = true) : step s = .next s := (step_of_no_event hpending).trans (settle_waiting h)
  have hmove (hp : s.pace = some 1) (h : s.waiting = false) : step s = move s :=
    (step_of_no_event hpending).trans (settle_of_pace_one hb hp h)
  exact ⟨fun n hq ha => hstay (by simp [State.waiting, hq, ha]), fun hq ha => hstay (by simp [State.waiting, hq, ha]),
    fun n v hq ha => hstay (by simp [State.waiting, hq, ha]), fun hp =>
    ⟨fun n hq ha => hmove hp (by simp [State.waiting, hq, ha]), fun hq ha => hmove hp (by simp [State.waiting, hq, ha]),
      fun n v hq ha => hmove hp (by simp [State.waiting, hq, ha]), fun hq => hmove hp (by simp [State.waiting, hq])⟩⟩

end Sys2Proof.Machine
